-- ==== Sys2Proof/Word.lean ====
section
/-! DEFINITION. The plain types of values the manual treats as bits. -/

namespace Sys2Proof

/-- A byte on the service port or in a frame body. -/
abbrev Byte := BitVec 8

/-- One bit read on the depot line: `true` is the recessive level (1), `false` the dominant level (0) (R4). -/
abbrev Level := Bool

/-- An interval number: 16 bits, wrapping from 65535 to 0 (00_scope.md, Arithmetic and numbering conventions). -/
abbrev IntervalNo := BitVec 16

/-- A word on the power-stage port: 16 data bits (16 down to 1 here) and the parity bit (bit 0), in order of sending (R139). -/
abbrev LinkWord := BitVec 17

end Sys2Proof
end

