-- ==== Sys2Proof/Syntax.lean ====
section
/-! DEFINITION. The commands of the ZB-412: one constructor of `Instr` per row of spec/opcode_table.json, with its operands. -/

namespace Sys2Proof

/-- The ROLE strap (R1). -/
inductive Role where
  | charger
  | feeder
deriving DecidableEq, Repr

/-- The five straps, each with exactly the range its pins encode (R1). -/
structure Straps where
  stn  : Fin 64
  role : Role
  site : Fin 16
  intv : Fin 4
  lr   : Fin 4
deriving DecidableEq, Repr

/-- The choices among orders that the manual leaves open inside one command ("either may be taken first").
DESIGN CHOICE (log entry 4): the sender of commands makes them, so every order is some run of the model. -/
structure Order where
  /-- At a tick: the Power Stage Port takes the tick before the Interval Timer does (R143). -/
  portFirst   : Bool := false
  /-- At a tenth tick: the second event is taken before the tick (R54, R56, R153). -/
  secondFirst : Bool := false
  /-- Of two frames dropped at one deadline or boundary, the Report source's is dropped first (R11). -/
  reportFirst : Bool := false
  /-- At a tick that would be the own boundary or the listen expiry: the Interval Timer takes it after what comes next, such
  as this second's sample (R66, R129, R153). -/
  timerLater : Bool := false
  /-- At a tick: replies on the link that are pending are taken after it (R142, R143, R148). -/
  repliesLater : Bool := false
  /-- At a tick: a post at the head of the FIFO is applied after it (R125). -/
  postsLater : Bool := false
  /-- At a re-alignment that finds the engine COMPUTING: MISALIGN is raised before LATE (R157). -/
  misalignFirst : Bool := false
deriving DecidableEq, Repr

/-- The four slots of the three transmit sources (R8). -/
inductive Slot where
  | mark
  | withdraw
  | offer
  | report
deriving DecidableEq, Repr

/-- What happens on the service port's four wires (R165). DESIGN CHOICE (log entry 7): a transaction is one command, or two
where events fall between select going low and its end. -/
inductive Transfer where
  /-- Select goes low: the port status byte is taken (R166). -/
  | selectLow
  /-- The whole bytes clocked in, then `spare` further bits, then select goes high. -/
  | run (bytes : List Byte) (spare : Fin 8)
deriving DecidableEq, Repr

/-- The moments of a VIEW read (R168). -/
inductive ViewStep where
  /-- Select goes low. -/
  | selectLow
  /-- Access byte, first index, count and filler byte have been clocked: the header is captured. -/
  | header (access first count : Byte)
  /-- The first byte of the next entry is about to be clocked out: the entry is captured. -/
  | entry
  /-- Select goes high. -/
  | selectHigh
deriving DecidableEq, Repr

/-- The commands, in the order of spec/opcode_table.json. -/
inductive Instr where
  | deviceReset (straps : Straps) (selectLow : Bool)
  | restart
  | tick (order : Order)
  | secondEvent
  | stalePackData
  | ownBoundary (order : Order)
  | listenExpiry (order : Order)
  | offerCompositionEnd
  | freezePoint
  | allocationComplete
  | targetPoint
  | targetCompositionEnd
  | frameDeadline (slot : Slot)
  | frameStart (recessive : Nat)
  | lostArbitration (read : List Level)
  | frameConfirmed (read : List Level)
  | transmitFailure (read : List Level)
  | enterSilent (read : List Level)
  | frameReceived (levels : List Level) (order : Order)
  | statusReport (reply : LinkWord)
  | exchangeLinkError
  | linkLoss
  | enableTimeout (order : Order)
  | idleCountExpiry (order : Order)
  | offRunComplete
  | closingToVacant
  | meterSample (exportHigh exportLow importHigh importLow : LinkWord)
  | meterDiscard
  | meterLoss
  | postAcceptance (transfer : Transfer)
  | readRecord (transfer : Transfer)
  | readClearStatus (transfer : Transfer)
  | readView (moment : ViewStep)
  | sessionOpen
  | packReport
  | departure
  | sessionClose
  | pause
  | resume
  | request
  | siteLimit
  | noticeEnable
  | statusClear
deriving DecidableEq, Repr

end Sys2Proof
end

