-- ==== Sys2Proof/Config.lean ====
section
/-! DEFINITION. What the manual fixes for every ZB-412: the interval profiles and the constants of the rules. -/

namespace Sys2Proof.Config

/-- One interval profile, in ticks (R23). -/
structure Profile where
  /-- L, the interval length. -/
  length : Nat
  /-- F, the freeze point. -/
  freeze : Nat
  /-- W, the capture window. -/
  window : Nat
  /-- P, the TARGET point. -/
  target : Nat
deriving DecidableEq, Repr

/-- The four profiles, selected by INTV (the table of R23). -/
def profile (intv : Fin 4) : Profile :=
  match intv with
  | 0 => ⟨600, 450, 37, 225⟩
  | 1 => ⟨1500, 1200, 93, 600⟩
  | 2 => ⟨3000, 2400, 187, 1200⟩
  | 3 => ⟨9000, 7200, 562, 3600⟩

/-- t, the interval length in seconds (R23: L/10). -/
def seconds (intv : Fin 4) : Nat := (profile intv).length / 10

/-- The consecutive-failure count at which a station enters SILENT (R12, R15). -/
def failureLimit : Nat := 16

/-- The silence count on entry into SILENT (R15). -/
def silenceIntervals : Nat := 2

/-- Recessive bits after which the line is idle (R6). -/
def idleBits : Nat := 10

/-- The largest step of the setpoint command in one tick, hW (R143). -/
def rampStep : Nat := 50

/-- The enable wait at which the enable times out, ticks (R142). -/
def enableTimeout : Nat := 50

/-- The idle count that takes the port to DISABLING (R144). -/
def idleTicks : Nat := 10

/-- The OFF run that takes the port from FAULTED to DISABLED (R146). -/
def offRunLength : Nat := 10

/-- The miss count that is link loss (R140), and the discard count that begins a meter loss (R152). -/
def lossCount : Nat := 3

/-- The pack-report age at which the pack data is stale, seconds (R56). -/
def staleAge : Nat := 60

/-- The tick event, counted from the freeze point, by which a computation completes (R100). -/
def allocationTicks : Nat := 3

/-- The slots of the post FIFO (R170). -/
def fifoSlots : Nat := 2

/-- The part number of the IDENTITY record (R173). -/
def partNumber : Nat := 412

end Sys2Proof.Config
end

