-- ==== Sys2Proof/Machine/State.lean ====
section
/-! DEFINITION. The state of one ZB-412 as plain data: one structure per block of 00_scope.md, and the values after reset. -/

namespace Sys2Proof.Machine

/-! ## Frames and the Line Interface (01_the_depot_line.md) -/

/-- The mode of a target or of a request (R3, R124). -/
inductive Mode where
  | idle
  | exporting
  | importing
deriving DecidableEq, Repr

/-- The reason of a WITHDRAW (R3). -/
inductive WithdrawReason where
  | unplugged
  | closed
  | paused
  | stopped
deriving DecidableEq, Repr

/-- The four values an OFFER carries: weights in Wh, caps in hW (R3). -/
structure OfferBody where
  wx : Nat
  cx : Nat
  wm : Nat
  cm : Nat
deriving DecidableEq, Repr

/-- The kind of a frame with its body fields (R3). -/
inductive FrameBody where
  | mark (profile : Fin 4)
  | target (mode : Mode) (level headroom request : Nat)
  | withdraw (reason : WithdrawReason)
  | offer (values : OfferBody)
  | tally (power : Int)
deriving DecidableEq, Repr

/-- A frame, less its body length and check, which follow from the other fields (R2). -/
structure Frame where
  priority : Nat
  source   : Fin 64
  site     : Fin 16
  number   : IntervalNo
  body     : FrameBody
deriving DecidableEq, Repr

/-- A pending frame with its deadline (R8, R11). -/
structure Queued where
  frame    : Frame
  /-- The tick count of the deadline in the interval in which the frame was queued; none for a WITHDRAW. -/
  deadline : Option Nat
  /-- The interval that held the deadline has ended (while an attempt carried the frame). -/
  expired  : Bool
deriving DecidableEq, Repr

/-- The three transmit sources (R8). -/
inductive Source where
  | timing
  | dispatch
  | report
deriving DecidableEq, Repr

/-- The line state (R14). -/
inductive LineState where
  | active
  | silent
  | clash
deriving DecidableEq, Repr

/-- An attempt under way (R7); `detached` once its frame was replaced or cancelled (R9). -/
structure Attempt where
  slot     : Slot
  frame    : Frame
  detached : Bool
  /-- The MODEL's own (log entry 11): a frame whose end field was read before the attempt began has been handed on during it. -/
  handedOn : Bool
deriving DecidableEq, Repr

/-- The state of the Line Interface. -/
structure LineUnit where
  markSlot     : Option Queued
  withdrawSlot : Option Queued
  offerSlot    : Option Queued
  reportSlot   : Option Queued
  /-- The round-robin pointer: the source served last (R10). -/
  pointer      : Source
  /-- The consecutive-failure count (R12). -/
  failures     : Nat
  state        : LineState
  /-- The silence count (R15, R16). -/
  silence      : Nat
  attempt      : Option Attempt
  /-- Consecutive recessive bits read, up to 10; the line is idle at 10 (R6). While an attempt is under way, those read before
  its start bit. -/
  recessiveRun : Nat
  /-- The levels read so far of the frame that won the arbitration this station lost, from its start bit on (R7). -/
  heard        : List Level
  txDone       : Nat
  txErr        : Nat
  txDropped    : Nat
  rxCheck      : Nat
  rxForeign    : Nat
  rxGood       : Nat
deriving DecidableEq, Repr

/-! ## The time base and the Interval Timer (02_intervals_and_alignment.md) -/

/-- The time base (R24). RESTART does not touch it. -/
structure TimeBase where
  /-- Tick events since the last second event, 0..9. -/
  phase     : Nat
  /-- The MODEL's own (log entry 4): the last second event has not been taken yet. -/
  secondDue : Bool
  /-- The MODEL's own (log entry 4): the Interval Timer has not taken the last tick event yet. -/
  tickDue   : Bool
deriving DecidableEq, Repr

/-- The timing state (R25). -/
inductive TimingState where
  | listen
  | running
deriving DecidableEq, Repr

/-- The kind of a boundary (R29). -/
inductive BoundaryKind where
  | own
  | early
  | implied
  | realign
  | listenMark
  | listenExpiry
deriving DecidableEq, Repr

/-- The state of the Interval Timer. -/
structure TimerUnit where
  state      : TimingState
  /-- n, the interval number. -/
  n          : IntervalNo
  /-- c, the tick counter within the interval. -/
  c          : Nat
  listen     : Nat
  /-- none is NONE: no boundary since the reset (R29). -/
  lastKind   : Option BoundaryKind
  lastNumber : IntervalNo
  slip       : Nat
  /-- The MODEL's own (log entry 4): the freeze point has been announced (R36) and not yet taken. -/
  freezeDue  : Bool
  /-- The MODEL's own (log entry 4): the TARGET point has been announced (R36) and not yet taken. -/
  targetDue  : Bool
deriving DecidableEq, Repr

/-! ## The Session Unit (03_bus_sessions.md) -/

/-- The session state (R42). -/
inductive SessionState where
  | vacant
  | awaiting
  | engaged
  | stopped
  | closing
deriving DecidableEq, Repr

/-- The pack state a report carries (R45). -/
inductive PackState where
  | normal
  | derated
  | stopped
deriving DecidableEq, Repr

/-- The four pack fields, replaced together (R41). -/
structure PackData where
  soc   : Nat
  pDis  : Nat
  pChg  : Nat
  state : PackState
deriving DecidableEq, Repr

/-- The session record (R41). -/
structure SessionRecord where
  tag      : Nat
  capacity : Nat
  pRate    : Nat
  eRoute   : Nat
  /-- D, the departure countdown in seconds. -/
  depart   : Nat
  pack     : Option PackData
  /-- The pack-report age in seconds. -/
  age      : Nat
  paused   : Bool
deriving DecidableEq, Repr

/-- A close reason (R45). -/
inductive CloseReason where
  | unplugged
  | departNow
  | hostAbort
deriving DecidableEq, Repr

/-- The state of the Session Unit. -/
structure SessionUnit where
  state     : SessionState
  record    : Option SessionRecord
  /-- none is NONE (R62). -/
  lastClose : Option CloseReason
deriving DecidableEq, Repr

/-! ## The Battery Account (04_the_battery_account.md) -/

/-- The last offer values (R64, R74). -/
structure OfferValues where
  body     : OfferBody
  eProj    : Nat
  exportOk : Bool
  importOk : Bool
deriving DecidableEq, Repr

/-- The account (R64): the balance in tenths of a Wh, of which E_now and the residue are two readings. -/
structure Account where
  balance       : Nat
  resyncPending : Bool
  last          : OfferValues
deriving DecidableEq, Repr

/-- The state of the Battery Account block. -/
structure AccountUnit where
  account     : Option Account
  exportTotal : Nat
  importTotal : Nat
  /-- The session mark (R75). -/
  mark        : Bool
  drift       : Nat
deriving DecidableEq, Repr

/-! ## The Offer Composer and Peer View (05_the_peer_view.md) -/

/-- Why no OFFER was composed (R81). -/
inductive NoOfferReason where
  | role
  | line
  | timing
  | noDirection
  | withdrawn
deriving DecidableEq, Repr

/-- The fate of the last own OFFER (R82). -/
inductive Fate where
  | pending
  | confirmed
  | late
  | dropped
  | withdrawn
  | none
deriving DecidableEq, Repr

/-- What a composition in flight will do at its end (R79, R81). -/
inductive ComposeOutcome where
  | offer (values : OfferBody)
  | nothing (reason : NoOfferReason)
deriving DecidableEq, Repr

/-- A composition in flight (R80), for interval `interval` = n+1. -/
structure Composition where
  interval : IntervalNo
  outcome  : ComposeOutcome
deriving DecidableEq, Repr

/-- The OFFER record (R81, R82, R96). -/
structure OfferRecord where
  interval : IntervalNo
  composed : Bool
  reason   : NoOfferReason
  priority : Nat
  values   : OfferBody
  fate     : Fate
deriving DecidableEq, Repr

/-- The origin of a view entry (R83). -/
inductive Origin where
  | heard
  | own
deriving DecidableEq, Repr

/-- An entry of the peer view (R83). -/
structure Entry where
  station : Fin 64
  values  : OfferBody
  share   : Option Int
  origin  : Origin
deriving DecidableEq, Repr

/-- The phase of the view (R83). -/
inductive Phase where
  | closed
  | opened
  | frozen
deriving DecidableEq, Repr

/-- A received TARGET, as the received part keeps it (R91). -/
structure TargetPart where
  source   : Fin 64
  interval : IntervalNo
  mode     : Mode
  level    : Nat
  headroom : Nat
  request  : Nat
deriving DecidableEq, Repr

/-- The used part (R91). -/
structure UsedTarget where
  target : TargetPart
  hold   : Nat
  usedFor : IntervalNo
deriving DecidableEq, Repr

/-- The state of the Offer Composer and Peer View. -/
structure ViewUnit where
  composing : Option Composition
  record    : OfferRecord
  phase     : Phase
  entries   : List Entry
  received  : Option TargetPart
  used      : Option UsedTarget
  rxDup     : Nat
  rxOff     : Nat
  rxLate    : Nat
deriving DecidableEq, Repr

/-! ## The Allocation Engine and Apply Stage (06_share_allocation.md) -/

/-- The target handed to the engine (R94): none is the IDLE with source NONE. -/
structure ChosenTarget where
  target : Option TargetPart
  held   : Bool
deriving DecidableEq, Repr

/-- The engine's inputs, fixed at the freeze point (R99). -/
structure AllocInput where
  /-- n+1 as numbered at the freeze point. -/
  interval : IntervalNo
  entries  : List Entry
  chosen   : ChosenTarget
deriving DecidableEq, Repr

/-- The engine state with what it holds (R98). -/
inductive Engine where
  | idle
  /-- Dividing; `ticks` counts the tick events since the freeze point (R100). -/
  | computing (input : AllocInput) (ticks : Nat)
  /-- The result waits with this station's pending share. -/
  | ready (pendingShare : Int)
deriving DecidableEq, Repr

/-- The result flags (R107). -/
structure ResultFlags where
  short    : Bool
  capped   : Bool
  noTarget : Bool
  late     : Bool
deriving DecidableEq, Repr

/-- The result part of the RESULT record (R110), less the engine state. -/
structure Result where
  present   : Bool
  interval  : IntervalNo
  mode      : Mode
  level     : Nat
  headroom  : Nat
  source    : Option (Fin 64)
  request   : Nat
  goal      : Nat
  viewCount : Nat
  eligible  : Nat
  capSum    : Nat
  shareSum  : Nat
  ownShare  : Int
  passes    : Nat
  flags     : ResultFlags
deriving DecidableEq, Repr

/-- The state of the Allocation Engine. -/
structure AllocUnit where
  engine : Engine
  result : Result
deriving DecidableEq, Repr

/-- The load outcome (R111, R112). -/
inductive LoadOutcome where
  | noResult
  | loaded
  | abandoned
  | discarded
  | notEngaged
  | paused
  | stale
  | meterLost
  | reserve
deriving DecidableEq, Repr

/-- The cause of the last cut (R116). -/
inductive Cut where
  | packClip
  | reserve
  | stale
  | pause
  | close
  | stopped
  | meterLost
  | forcedStop
deriving DecidableEq, Repr

/-- The state of the Apply Stage: the apply part of the RESULT record (R110). -/
structure ApplyUnit where
  /-- The applied share, signed hW, positive toward the grid. -/
  share    : Int
  interval : IntervalNo
  outcome  : LoadOutcome
  clipped  : Bool
  /-- none is NONE. -/
  lastCut  : Option Cut
deriving DecidableEq, Repr

/-! ## The Feeder Unit (07_the_feeder_station.md) -/

/-- An entry of the tally list (R126). -/
structure Tally where
  station : Fin 64
  power   : Int
deriving DecidableEq, Repr

/-- An entry of the goal list (R134, R135). -/
structure Goal where
  interval : IntervalNo
  mode     : Mode
  goal     : Nat
  dropped  : Bool
deriving DecidableEq, Repr

/-- Why a TARGET was IDLE, or that its composition was abandoned (R131, R136). -/
inductive IdleReason where
  | none
  | limitUnset
  | noRequest
  | noMeasurement
  | abandoned
deriving DecidableEq, Repr

/-- Why no correction was made (R133). -/
inductive CorrectionReason where
  | none
  | noGoal
  | modeChange
  | dropped
  | noTally
deriving DecidableEq, Repr

/-- The composition record (R134, R137). -/
structure FeederRecord where
  interval    : IntervalNo
  idleReason  : IdleReason
  tallySum    : Int
  tallyCount  : Nat
  measured    : Option Int
  load        : Option Int
  headroomOut : Option Nat
  correction  : CorrectionReason
  achieved    : Int
  error       : Int
  corrected   : Int
  mode        : Mode
  level       : Nat
  headroom    : Nat
  request     : Nat
deriving DecidableEq, Repr

/-- The state of the Feeder Unit (R122). -/
structure FeederUnit where
  /-- X; none is unset. -/
  siteLimit   : Option Nat
  mode        : Mode
  /-- Q. -/
  level       : Nat
  /-- V. -/
  valid       : Nat
  request     : Nat
  tallies     : List Tally
  exportTotal : Nat
  importTotal : Nat
  lossMark    : Bool
  /-- A; none is an invalid measurement. -/
  measured    : Option Int
  goals       : List Goal
  /-- A TARGET composition in flight, with the record it will leave (R136). -/
  composing   : Option FeederRecord
  /-- The composition at P of the current interval has begun (R127). -/
  begun       : Bool
  record      : FeederRecord
  tallyOff    : Nat
  tallyLate   : Nat
deriving DecidableEq, Repr

/-! ## The Power Stage Port (08_power_stage_port.md) -/

/-- The port state (8.2). -/
inductive PortState where
  | disabled
  | enabling
  | enabled
  | disabling
  | faulted
  | meterOnly
deriving DecidableEq, Repr

/-- The converter status (R139). -/
inductive ConverterStatus where
  | off
  | precharge
  | ready
  | running
  | fault
deriving DecidableEq, Repr

/-- The port's own causes of a forced stop (R146). -/
inductive FaultCause where
  | faultReport
  | dropout
  | enableTimeout
  | linkLoss
deriving DecidableEq, Repr

/-- A pair of meter readings in tenths of a Wh (R149, R150). -/
structure MeterReading where
  exported : BitVec 32
  imported : BitVec 32
deriving DecidableEq, Repr

/-- The last sample (R154); NONE is the absence of one. -/
inductive SampleKind where
  | good
  | first
  | jump
  | discarded
deriving DecidableEq, Repr

/-- A transaction of the link: a tick's exchange with its request word, the stop exchange of a forced stop, or a meter read
(R139, R140, R149). -/
inductive Transaction where
  | exchange (word : LinkWord)
  | stop
  | meterRead
deriving DecidableEq, Repr

/-- The state of the Power Stage Port. -/
structure PortUnit where
  state      : PortState
  /-- The setpoint command, signed hW. -/
  command    : Int
  enable     : Bool
  enableWait : Nat
  idleCount  : Nat
  offRun     : Nat
  missCount  : Nat
  lastStatus : Option ConverterStatus
  lastCause  : Option FaultCause
  reference  : Option MeterReading
  lastDx     : Nat
  lastDm     : Nat
  lastSample : Option SampleKind
  discards   : Nat
  meterLost  : Bool
  /-- The transaction under way (the head) and those that wait for it. -/
  link       : List Transaction
  /-- The MODEL's own (log entry 4): so many transactions at the head of `link` ended before the last tick event, with their
  results still to be taken. -/
  owed       : Nat
  linkErr    : Nat
  meterJump  : Nat
deriving DecidableEq, Repr

/-! ## The Status Unit (09_dispatch_status_and_notices.md) -/

/-- The fourteen sticky flags, in the order of their positions (R156). -/
inductive Flag where
  | short
  | capped
  | clipped
  | reserve
  | late
  | noTarget
  | misalign
  | profile
  | lineFault
  | clash
  | meter
  | converter
  | drift
  | packStale
deriving DecidableEq, Repr

/-- The notice factors, in the order of their bits (R159, R174). -/
inductive Factor where
  | boundary
  | result
  | session
  | post
  | fault
deriving DecidableEq, Repr

/-- The first-fault record (R162). -/
structure FirstFault where
  flag     : Flag
  interval : IntervalNo
  counter  : Nat
  share    : Int
  session  : SessionState
deriving DecidableEq, Repr

/-- The state of the Status Unit. -/
structure StatusUnit where
  /-- The sticky status word: bit k is the flag of position k. -/
  word    : BitVec 14
  factors : BitVec 5
  enables : BitVec 5
  first   : Option FirstFault
deriving DecidableEq, Repr

/-! ## The Service Port (10_service_port.md) -/

/-- An accepted post: its code and its body as clocked in (R170). -/
structure Post where
  code : Nat
  body : List Byte
deriving DecidableEq, Repr

/-- The acceptance of the last POST (R166). -/
inductive Acceptance where
  | accepted
  | refusedFull
  | refusedCode
  | refusedLength
deriving DecidableEq, Repr

/-- The outcome of an applied post (R171). -/
inductive PostOutcome where
  | applied
  | clamped
  | ignoredState
  | ignoredRole
  | rejectedRange
deriving DecidableEq, Repr

/-- The select line as the port takes it: high, low during a transaction, or ignored until it goes high (R172). -/
inductive Select where
  | high
  | low
  | ignored
deriving DecidableEq, Repr

/-- The window of a VIEW read under way (R168). -/
structure ViewCursor where
  next : Nat
  left : Nat
deriving DecidableEq, Repr

/-- The state of the Service Port. -/
structure ServiceUnit where
  /-- The post FIFO, head first. -/
  fifo        : List Post
  /-- The MODEL's own (log entry 4): the head was pending at the last tick event and that tick was taken first. -/
  held        : Bool
  acceptance  : Acceptance
  /-- none is NONE (R172). -/
  lastOutcome : Option PostOutcome
  select      : Select
  /-- The bytes clocked out in the transaction under way or last ended; the first is the port status byte. -/
  out         : List Byte
  window      : Option ViewCursor
deriving DecidableEq, Repr

/-! ## The whole state -/

/-- The state of one ZB-412, and the queue of commands that wait. -/
structure State where
  straps  : Straps
  time    : TimeBase
  line    : LineUnit
  timer   : TimerUnit
  session : SessionUnit
  account : AccountUnit
  view    : ViewUnit
  alloc   : AllocUnit
  apply   : ApplyUnit
  feeder  : FeederUnit
  port    : PortUnit
  status  : StatusUnit
  service : ServiceUnit
  pending : List Instr
deriving DecidableEq, Repr

/-- Reasons for which the machine stops with a fault. There are none: what the manual calls a fault is a sticky flag, a
port state or a counter, and the part goes on. Raised by no one; safe. -/
inductive Fault
deriving DecidableEq, Repr

/-- Reasons for which a command is refused. -/
inductive Refusal where
  /-- Raised by an arm of exec whose command has no meaning yet; no arm does. Safe: the model stops. -/
  | notModelled (mnemonic : String)
deriving DecidableEq, Repr

/-! ## The values after device reset and RESTART -/

/-- R22. -/
def LineUnit.reset : LineUnit where
  markSlot     := none
  withdrawSlot := none
  offerSlot    := none
  reportSlot   := none
  pointer      := .report
  failures     := 0
  state        := .active
  silence      := 0
  attempt      := none
  recessiveRun := 0
  heard        := []
  txDone       := 0
  txErr        := 0
  txDropped    := 0
  rxCheck      := 0
  rxForeign    := 0
  rxGood       := 0

/-- The time base as it starts at the release of device reset (R24, R40). -/
def TimeBase.reset : TimeBase := ⟨0, false, false⟩

/-- R40. -/
def TimerUnit.reset : TimerUnit where
  state      := .listen
  n          := 0
  c          := 0
  listen     := 0
  lastKind   := none
  lastNumber := 0
  slip       := 0
  freezeDue  := false
  targetDue  := false

/-- R63. -/
def SessionUnit.reset : SessionUnit := ⟨.vacant, none, none⟩

/-- R78. -/
def AccountUnit.reset : AccountUnit := ⟨none, 0, 0, false, 0⟩

/-- An OFFER body of zeros. -/
def OfferBody.zero : OfferBody := ⟨0, 0, 0, 0⟩

/-- R97. -/
def ViewUnit.reset : ViewUnit where
  composing := none
  record    := ⟨0, false, .timing, 0, .zero, .none⟩
  phase     := .closed
  entries   := []
  received  := none
  used      := none
  rxDup     := 0
  rxOff     := 0
  rxLate    := 0

/-- No result flag. -/
def ResultFlags.clear : ResultFlags := ⟨false, false, false, false⟩

/-- R121. -/
def AllocUnit.reset : AllocUnit := ⟨.idle, ⟨false, 0, .idle, 0, 0, none, 0, 0, 0, 0, 0, 0, 0, 0, .clear⟩⟩

/-- R121. -/
def ApplyUnit.reset : ApplyUnit := ⟨0, 0, .noResult, false, none⟩

/-- "Last composition: none; interval 0, every field 0, reasons NONE" (R138). -/
def FeederRecord.empty : FeederRecord := ⟨0, .none, 0, 0, none, none, none, .none, 0, 0, 0, .idle, 0, 0, 0⟩

/-- R138. -/
def FeederUnit.reset : FeederUnit where
  siteLimit   := none
  mode        := .idle
  level       := 0
  valid       := 0
  request     := 0
  tallies     := []
  exportTotal := 0
  importTotal := 0
  lossMark    := false
  measured    := none
  goals       := []
  composing   := none
  begun       := false
  record      := .empty
  tallyOff    := 0
  tallyLate   := 0

/-- R155. -/
def PortUnit.reset (role : Role) : PortUnit where
  state      := match role with | .charger => .disabled | .feeder => .meterOnly
  command    := 0
  enable     := false
  enableWait := 0
  idleCount  := 0
  offRun     := 0
  missCount  := 0
  lastStatus := none
  lastCause  := none
  reference  := none
  lastDx     := 0
  lastDm     := 0
  lastSample := none
  discards   := 0
  meterLost  := false
  link       := []
  owed       := 0
  linkErr    := 0
  meterJump  := 0

/-- R164. -/
def StatusUnit.reset : StatusUnit := ⟨0, 0, 0, none⟩

/-- R172, with the select line as it is at the release. -/
def ServiceUnit.reset (select : Select) : ServiceUnit := ⟨[], false, .accepted, none, select, [], none⟩

/-- The state right after the release of device reset with these straps, select line and queue of commands. -/
def State.afterReset (straps : Straps) (select : Select) (pending : List Instr) : State where
  straps  := straps
  time    := .reset
  line    := .reset
  timer   := .reset
  session := .reset
  account := .reset
  view    := .reset
  alloc   := .reset
  apply   := .reset
  feeder  := .reset
  port    := .reset straps.role
  status  := .reset
  service := .reset select
  pending := pending

/-- The straps of State.reset. DESIGN CHOICE (log entry 1), unsafe: the straps are pins, and the manual gives them no value. -/
def resetStraps : Straps := ⟨0, .charger, 0, 0, 0⟩

/-- The machine right after device reset, with no command waiting. -/
def State.reset : State := .afterReset resetStraps .high []

end Sys2Proof.Machine
end

