-- ==== Sys2Proof/Machine/Flags.lean ====
section
/-! DEFINITION. The Status Unit's operations: raising sticky flags, causing notice factors, the notice line and the capture of
the first-fault record (09_dispatch_status_and_notices.md). -/

namespace Sys2Proof.Machine

/-- The fixed position of a sticky flag (R156). -/
def Flag.position : Flag → Nat
  | .short => 0
  | .capped => 1
  | .clipped => 2
  | .reserve => 3
  | .late => 4
  | .noTarget => 5
  | .misalign => 6
  | .profile => 7
  | .lineFault => 8
  | .clash => 9
  | .meter => 10
  | .converter => 11
  | .drift => 12
  | .packStale => 13

/-- The fourteen flags, lowest position first (R156). -/
def Flag.all : List Flag :=
  [.short, .capped, .clipped, .reserve, .late, .noTarget, .misalign, .profile, .lineFault, .clash, .meter, .converter,
    .drift, .packStale]

/-- The bit of a notice factor (R174, STATUS byte 2). -/
def Factor.bit : Factor → Nat
  | .boundary => 0
  | .result => 1
  | .session => 2
  | .post => 3
  | .fault => 4

/-- The flag is set in the status word. -/
def Flag.isSet (f : Flag) (word : BitVec 14) : Bool := word.getLsbD f.position

/-- The factor is set (or enabled) in the five bits. -/
def Factor.isSet (f : Factor) (bits : BitVec 5) : Bool := bits.getLsbD f.bit

/-- ANY: at least one flag is set (R156). -/
def StatusUnit.any (u : StatusUnit) : Bool := u.word != 0

/-- The notice line is active while a factor is both set and enabled (R160). -/
def StatusUnit.lineActive (u : StatusUnit) : Bool := (u.factors &&& u.enables) != 0

/-- The notice line of the part (R160). -/
def State.noticeLine (s : State) : Bool := s.status.lineActive

/-- Raise a flag: it is set (R157). The FAULT factor and the first-fault record follow at the end of the whole action
(`noteFaults`), as "every value is taken as the raising action leaves it" (R162). -/
def raise (f : Flag) (s : State) : State :=
  { s with status := { s.status with word := s.status.word ||| BitVec.twoPow 14 f.position } }

/-- Cause a notice factor: it is set, enabled or not (R159). -/
def cause (f : Factor) (s : State) : State :=
  { s with status := { s.status with factors := s.status.factors ||| BitVec.twoPow 5 f.bit } }

/-- The flag of lowest position that is set in `after` and clear in `before` (R157). -/
def newlyRaised (before after : BitVec 14) : Option Flag :=
  Flag.all.find? (fun f => f.isSet after && !f.isSet before)

/-- The first-fault record of a flag, from the state the raising action left (R162). -/
def firstFaultOf (f : Flag) (s : State) : FirstFault where
  flag     := f
  interval := s.timer.n
  counter  := s.timer.c
  share    := s.apply.share
  session  := s.session.state

/-- A transition of flag `f` causes the FAULT factor; its going from clear to set captures the first-fault record, which names
`f` (R157, R162). -/
def capture (f : Flag) (s : State) : State :=
  if Factor.fault.isSet s.status.factors then s
  else
    { s with status := { s.status with
        factors := s.status.factors ||| BitVec.twoPow 5 Factor.fault.bit
        first   := some (firstFaultOf f s) } }

/-- The end of an action that began with status word `before`: if it raised a clear flag, the FAULT factor is caused, and
the first-fault record names the one of lowest position (R157, R162). -/
def noteFaults (before : BitVec 14) (s : State) : State :=
  match newlyRaised before s.status.word with
  | none => s
  | some f => capture f s

end Sys2Proof.Machine
end

