-- ==== Sys2Proof/Machine/Ops.lean ====
section
/-! DEFINITION. The operations several blocks share: counters, cuts of the applied share, the transmit slots, withdrawals,
the forced stop, and the end of an action (`settle`). -/

namespace Sys2Proof.Machine

/-! ## Counters, clamps and signed shares (00_scope.md, Arithmetic and numbering conventions) -/

/-- A statistics counter counts 1 and saturates at 65535. -/
def count (k : Nat) : Nat := if k < 65535 then k + 1 else k

/-- "Clamped to a..b" for a whole number. -/
def clampInt (low high x : Int) : Int := if x < low then low else if high < x then high else x

/-- "Clamped to 0..b" with the result as a magnitude. -/
def clampNat (high : Nat) (x : Int) : Nat := if x < 0 then 0 else if high < x.toNat then high else x.toNat

/-- A magnitude with the sign of `x` kept. -/
def withSignOf (x : Int) (magnitude : Nat) : Int := if x < 0 then -(magnitude : Int) else magnitude

/-! ## Cuts (R116) -/

/-- A cut to `bound`: the magnitude becomes the lesser of the present one and the bound, the sign kept; a cut that finds
the share within its bound changes nothing, and one that changes it records its cause (R116). -/
def cut (bound : Nat) (by_ : Cut) (s : State) : State :=
  if bound < s.apply.share.natAbs then
    { s with apply := { s.apply with share := withSignOf s.apply.share bound, lastCut := some by_ } }
  else s

/-! ## Straps and profile -/

/-- The profile in use (R23). -/
def State.profile (s : State) : Config.Profile := Config.profile s.straps.intv

/-- t, the interval length in seconds (R23). -/
def State.seconds (s : State) : Nat := Config.seconds s.straps.intv

/-- A frame of this station (R2): the station and site come from the straps. -/
def State.frame (s : State) (priority : Nat) (number : IntervalNo) (body : FrameBody) : Frame where
  priority := priority
  source   := s.straps.stn
  site     := s.straps.site
  number   := number
  body     := body

/-! ## The transmit slots (R8 to R11) -/

/-- The contents of a slot (R8). -/
def LineUnit.slot (u : LineUnit) : Slot → Option Queued
  | .mark => u.markSlot
  | .withdraw => u.withdrawSlot
  | .offer => u.offerSlot
  | .report => u.reportSlot

/-- Replace the contents of a slot. -/
def LineUnit.setSlot (u : LineUnit) (slot : Slot) (q : Option Queued) : LineUnit :=
  match slot with
  | .mark => { u with markSlot := q }
  | .withdraw => { u with withdrawSlot := q }
  | .offer => { u with offerSlot := q }
  | .report => { u with reportSlot := q }

/-- The source a slot belongs to (R8). -/
def slotSource : Slot → Source
  | .mark => .timing
  | .withdraw => .dispatch
  | .offer => .dispatch
  | .report => .report

/-- An attempt carries the frame that stands in this slot (R8, R9). -/
def LineUnit.carries (u : LineUnit) (slot : Slot) : Bool :=
  match u.attempt with
  | some a => a.slot == slot && !a.detached
  | none => false

/-- The frame's deadline has passed, or the interval that held it has ended (R9, R11). -/
def Queued.timeRanOut (q : Queued) (c : Nat) : Bool :=
  q.expired || (match q.deadline with | some d => decide (d ≤ c) | none => false)

/-- The attempt that carries the slot's frame becomes detached (R9). -/
def LineUnit.detach (u : LineUnit) (slot : Slot) : LineUnit :=
  { u with attempt := u.attempt.map (fun a => if a.slot = slot then { a with detached := true } else a) }

/-- A report about the own OFFER numbered `number`: the record takes the fate only if it describes that OFFER and the OFFER
is pending (R82). -/
def offerFate (fate : Fate) (number : IntervalNo) (s : State) : State :=
  if s.view.record.composed ∧ s.view.record.interval = number ∧ s.view.record.fate = .pending then
    { s with view := { s.view with record := { s.view.record with fate := fate } } }
  else s

/-- A drop report about a TARGET: the goal-list entry of its interval takes fate DROPPED (R135). -/
def goalDropped (number : IntervalNo) (s : State) : State :=
  { s with feeder := { s.feeder with
      goals := s.feeder.goals.map (fun g => if g.interval = number then { g with dropped := true } else g) } }

/-- The block that queued the frame is told of its drop (R11, R82, R135). An OFFER of an interval that has ended before the
drop is no longer the one the record describes (R82). -/
def tellDrop (q : Queued) (s : State) : State :=
  match q.frame.body with
  | .offer _ => if q.expired then s else offerFate .dropped q.frame.number s
  | .target _ _ _ _ => goalDropped q.frame.number s
  | _ => s

/-- The slot's frame is dropped: TX_DROPPED counts it, it leaves its slot and its owner is told (R11, R15, R19). -/
def dropSlot (slot : Slot) (s : State) : State :=
  match s.line.slot slot with
  | none => s
  | some q =>
    tellDrop q { s with line := { s.line.setSlot slot none with txDropped := count s.line.txDropped } }

/-- The slot's frame is dropped at its deadline: as `dropSlot`, and the pointer moves to its source (R10, R11). -/
def dropAtDeadline (slot : Slot) (s : State) : State :=
  match s.line.slot slot with
  | none => s
  | some _ =>
    let s := dropSlot slot s
    { s with line := { s.line with pointer := slotSource slot } }

/-- Every pending frame in every slot is dropped; the pointer stays (R15, R19). -/
def dropAll (s : State) : State :=
  dropSlot .report (dropSlot .offer (dropSlot .withdraw (dropSlot .mark s)))

/-- The slot's frame is at its deadline and no attempt carries it (R11). -/
def State.deadlineDue (s : State) (slot : Slot) : Bool :=
  match s.line.slot slot with
  | some q => q.timeRanOut s.timer.c && !s.line.carries slot
  | none => false

/-- The deadline event of one slot (R11). -/
def takeDeadline (slot : Slot) (s : State) : State :=
  if s.deadlineDue slot then dropAtDeadline slot s else s

/-- The deadline events that are due, in the order chosen where two fall together (log entry 4). -/
def takeDeadlines (order : Order) (s : State) : State :=
  if order.reportFirst then takeDeadline .offer (takeDeadline .report (takeDeadline .mark s))
  else takeDeadline .report (takeDeadline .offer (takeDeadline .mark s))

/-- The OFFER slot's frame is cancelled by a WITHDRAW: removed, nothing counted, its attempt detached (R9). -/
def cancelSlot (slot : Slot) (s : State) : State :=
  match s.line.slot slot with
  | none => s
  | some _ => { s with line := (s.line.detach slot).setSlot slot none }

/-- Queue a frame into a slot (R9). In CLASH it is dropped at once, counted, and its owner told; otherwise it becomes
pending or replaces the slot's frame, which counts in TX_DROPPED exactly when its time had run out. -/
def queueFrame (slot : Slot) (q : Queued) (s : State) : State :=
  if s.line.state = .clash then
    tellDrop q { s with line := { s.line with txDropped := count s.line.txDropped } }
  else
    match s.line.slot slot with
    | none => { s with line := s.line.setSlot slot (some q) }
    | some old =>
      { s with line :=
        { (s.line.detach slot).setSlot slot (some q) with
          txDropped := if old.timeRanOut s.timer.c then count s.line.txDropped else s.line.txDropped } }

/-! ## Withdrawal (R43, R80, R89) -/

/-- The first condition that failed of a composition a withdrawal ends: what its conditions gave when it was taken, and else
WITHDRAWN (R80, R81). -/
def ComposeOutcome.endedReason : ComposeOutcome → NoOfferReason
  | .offer _ => .withdrawn
  | .nothing reason => reason

/-- A composition in flight ends at once at a withdrawal, queues nothing and records why (R80, R81). -/
def abortComposition (s : State) : State :=
  match s.view.composing with
  | none => s
  | some c =>
    { s with view := { s.view with
        composing := none
        record    := ⟨c.interval, false, c.outcome.endedReason, 0, .zero, .none⟩ } }

/-- The pending own OFFER is cancelled by the withdrawal, and its record shows WITHDRAWN (R9, R43, R82). -/
def withdrawOffer (s : State) : State :=
  match s.line.offerSlot with
  | none => s
  | some q => cancelSlot .offer (if q.expired then s else offerFate .withdrawn q.frame.number s)

/-- The own entry leaves the view while OPEN (R89). -/
def removeOwnEntry (s : State) : State :=
  if s.view.phase = .opened then
    { s with view := { s.view with entries := s.view.entries.filter (fun e => e.station ≠ s.straps.stn) } }
  else s

/-- A withdrawal (R43): a WITHDRAW is queued with the present n and no deadline, and the own entry is removed. -/
def withdraw (reason : WithdrawReason) (s : State) : State :=
  let s := withdrawOffer (abortComposition s)
  let s := queueFrame .withdraw ⟨s.frame 0 s.timer.n (.withdraw reason), none, false⟩ s
  removeOwnEntry s

/-! ## The session state (R42, R52, R61) -/

/-- A change of session state sets the SESSION factor (R42). -/
def enterSession (state : SessionState) (s : State) : State :=
  cause .session { s with session := { s.session with state := state } }

/-- Entry to STOPPED from ENGAGED: the share becomes 0 and a withdrawal with reason STOPPED is taken (R52). -/
def enterStopped (s : State) : State :=
  enterSession .stopped (withdraw .stopped (cut 0 .stopped s))

/-- The condition of R61: CLOSING, the command 0 and the port DISABLED. -/
def State.mayVacate (s : State) : Bool :=
  s.session.state == .closing && s.port.command == 0 && s.port.state == .disabled

/-- CLOSING to VACANT: record and account are discarded; the last close reason, the totals, the mark and DRIFT stay (R61,
R64, R78). -/
def vacate (s : State) : State :=
  if s.mayVacate then
    enterSession .vacant
      { s with session := { s.session with record := none }, account := { s.account with account := none } }
  else s

/-! ## The link and the forced stop (R139, R140, R148) -/

/-- The parity bit that makes the count of ones odd (R139). -/
def oddParity (data : BitVec 16) : Bool :=
  (List.range 16).foldl (fun p k => p != data.getLsbD k) true

/-- A word on the link: 16 data bits and their parity bit (R139). -/
def linkWord (data : BitVec 16) : LinkWord := data ++ BitVec.ofBool (oddParity data)

/-- The request word of an exchange: 0, the enable in bit 14, 0, and the command in bits 12..0 in two's complement (R139). -/
def exchangeWord (command : Int) (enable : Bool) : LinkWord :=
  linkWord ((0#1 ++ BitVec.ofBool enable) ++ (0#1 ++ BitVec.ofInt 13 command))

/-- The stop exchange starts at once, or right after the transaction under way; behind a meter read it waits only for the end
of the word under way (`endExchange`), which may be the read's last (R139, R140). The first `owed` transactions have ended. -/
def addStop (owed : Nat) (link : List Transaction) : List Transaction :=
  match owed, link with
  | _, [] => [.stop]
  | 0, t :: rest => t :: .stop :: rest
  | owed + 1, t :: rest => t :: addStop owed rest

/-- A forced stop: the command becomes 0 at once, the enable is dropped and the stop exchange is sent (R148). -/
def dropCommand (s : State) : State :=
  { s with port := { s.port with command := 0, enable := false, link := addStop s.port.owed s.port.link } }

/-- A forced stop from the Session Unit leaves DISABLED, or FAULTED where the port is FAULTED (R148); a FEEDER's port takes
none (R147, R148). -/
def forcedStop (s : State) : State :=
  if s.port.state = .meterOnly then s
  else
    let s := dropCommand s
    { s with port := { s.port with state := if s.port.state = .faulted then .faulted else .disabled } }

/-- Entry into FAULTED with the forced stop for one of the port's own causes (R146, R148), and the Session Unit's notice of
it (R53). A fault while FAULTED takes its forced stop (R148) and changes neither the state nor the last fault cause (R146;
log entry 15). -/
def enterFaulted (cause_ : FaultCause) (s : State) : State :=
  if s.port.state = .faulted then dropCommand s
  else
    let s := dropCommand s
    let s := { s with port := { s.port with state := .faulted, lastCause := some cause_, offRun := 0 } }
    let s := raise .converter (cut 0 .forcedStop s)
    if s.session.state = .engaged then enterStopped s else s

/-- While DISABLED a nonzero applied share takes the port to ENABLING, the enable wait at 0 (R141, R142). -/
def requestEnable (s : State) : State :=
  if s.port.state = .disabled ∧ s.apply.share ≠ 0 then
    { s with port := { s.port with state := .enabling, enable := true, enableWait := 0 } }
  else s

/-! ## The end of an action -/

/-- What follows at once from the state an action leaves: the enable request (R141), the passage of a CLOSING session to
VACANT (R61), and the FAULT factor with the first-fault record (R157, R162). `s` is the state before the action. -/
def settle (s s' : State) : State := noteFaults s.status.word (vacate (requestEnable s'))

/-- One whole action. -/
def act (f : State → State) (s : State) : State := settle s (f s)

end Sys2Proof.Machine
end

