-- ==== Sys2Proof/Machine/Account.lean ====
section
/-! DEFINITION. The Battery Account: derived values, integration, resync, reserve check, projection, offer values, totals and
TALLY (04_the_battery_account.md). -/

namespace Sys2Proof.Machine

/-! ## Derived values (R70) -/

/-- E_res (R70). -/
def eRes (r : SessionRecord) : Nat := min r.capacity (r.eRoute + r.eRoute / 4 + r.capacity / 10)

/-- E_goal (R70). -/
def eGoal (r : SessionRecord) : Nat := max (9 * r.capacity / 10) (eRes r)

/-- P_dis, 0 while the pack data is absent. -/
def pDis (r : SessionRecord) : Nat := match r.pack with | some p => p.pDis | none => 0

/-- P_chg, 0 while the pack data is absent. -/
def pChg (r : SessionRecord) : Nat := match r.pack with | some p => p.pChg | none => 0

/-- P_ce, the effective charge power (R70). -/
def pCe (r : SessionRecord) : Nat := min (pChg r) r.pRate

/-- The restore time, none when P_ce = 0 (R70); the one division that rounds up. -/
def restoreTime (r : SessionRecord) : Option Nat :=
  if pCe r = 0 then none
  else some (((eGoal r - eRes r) * 36 + (pCe r - 1)) / pCe r + 1800)

/-- E_now (R64). -/
def Account.eNow (a : Account) : Nat := a.balance / 10

/-- The residue (R64). -/
def Account.residue (a : Account) : Nat := a.balance % 10

/-- The stale condition: ENGAGED and an age of 60 or more (R56). -/
def State.stale (s : State) : Bool :=
  match s.session.record with
  | some r => s.session.state == .engaged && decide (Config.staleAge ≤ r.age)
  | none => false

/-- The account exists and E_now > E_res: the condition of the export law (R71). -/
def State.aboveReserve (s : State) : Bool :=
  match s.account.account, s.session.record with
  | some a, some r => decide (eRes r < a.eNow)
  | _, _ => false

/-- The account exists and E_now ≤ E_res (R71). -/
def State.atReserve (s : State) : Bool :=
  match s.account.account, s.session.record with
  | some a, some r => decide (a.eNow ≤ eRes r)
  | _, _ => false

/-! ## Reserve check, integration and resync -/

/-- The reserve check: at or below the reserve a positive applied share becomes 0 and RESERVE is set (R71). -/
def reserveCheck (s : State) : State :=
  if s.atReserve ∧ 0 < s.apply.share then raise .reserve (cut 0 .reserve s) else s

/-- One integration of increments handed over (R66): the balance changes by dm − dx, clamped once to 0..10·C, while the
account exists; the totals gather while the session record is present (R75); the reserve check ends it. -/
def integrate (dx dm : Nat) (s : State) : State :=
  match s.session.record with
  | none => s
  | some r =>
    let u := { s.account with exportTotal := s.account.exportTotal + dx, importTotal := s.account.importTotal + dm }
    match s.account.account with
    | none => { s with account := u }
    | some a =>
      reserveCheck { s with account := { u with
        account := some { a with balance := clampNat (10 * r.capacity) ((a.balance : Int) + dm - dx) } } }

/-- E_rep: the energy a report's SoC stands for (R65, R67). -/
def reported (soc capacity : Nat) : Nat := soc * capacity / 1000

/-- The account a first report creates (R65). -/
def createAccount (soc capacity : Nat) : Account where
  balance       := 10 * reported soc capacity
  resyncPending := false
  last          := ⟨.zero, 0, false, false⟩

/-- The difference between two energies. -/
def distance (x y : Nat) : Nat := (x - y) + (y - x)

/-- The resync that follows a PACK_REPORT after the first in ENGAGED or STOPPED (R67, R69). -/
def resync (soc : Nat) (s : State) : State :=
  match s.account.account, s.session.record with
  | some a, some r =>
    let eRep := reported soc r.capacity
    let beyond := decide (r.capacity / 100 < distance eRep a.eNow)
    let s :=
      if beyond || a.resyncPending then
        { s with account := { s.account with
            account := some { a with balance := 10 * eRep, resyncPending := false } } }
      else s
    let s :=
      if beyond then
        raise .drift { s with account := { s.account with drift := count s.account.drift } }
      else s
    reserveCheck s
  | _, _ => s

/-- The end of a meter loss marks the account, if it exists, for a forced resync (R68). -/
def markResync (s : State) : State :=
  { s with account := { s.account with
      account := s.account.account.map (fun a => { a with resyncPending := true }) } }

/-! ## Projection and offer values (R72 to R74) -/

/-- E_proj = E_now − trunc(s × t / 36), clamped once to 0..C (R72). -/
def projection (eNow capacity seconds : Nat) (share : Int) : Nat :=
  clampNat capacity ((eNow : Int) - (share * seconds).tdiv 36)

/-- The conditions both directions share (R73). -/
def State.offerOpen (s : State) (r : SessionRecord) : Bool :=
  s.session.state == .engaged && !r.paused && !s.stale && !s.port.meterLost

/-- D ≥ R with P_ce > 0 (R73). -/
def departsLater (r : SessionRecord) : Bool :=
  match restoreTime r with
  | some t => decide (t ≤ r.depart)
  | none => false

/-- A direction's weight and cap: 0 and 0 when it is ineligible or the cap comes out 0 (R74). -/
def direction (eligible : Bool) (weight limit seconds : Nat) : Nat × Nat :=
  let cap := min limit (weight * 36 / seconds)
  if eligible ∧ cap ≠ 0 then (weight, cap) else (0, 0)

/-- The offer values of a composition at which `share` takes effect (R72 to R74). -/
def offerValues (s : State) (a : Account) (r : SessionRecord) (share : Int) : OfferValues :=
  let eProj := projection a.eNow r.capacity s.seconds share
  let exportOk := s.offerOpen r && departsLater r && decide (eRes r < eProj)
  let importOk := s.offerOpen r && decide (eProj < eGoal r)
  let x := direction exportOk (eProj - eRes r) (min (pDis r) r.pRate) s.seconds
  let m := direction importOk (eGoal r - eProj) (min (pChg r) r.pRate) s.seconds
  ⟨⟨x.1, x.2, m.1, m.2⟩, eProj, exportOk, importOk⟩

/-- The account computes and keeps its offer values at a composition (R74). -/
def computeOffer (share : Int) (s : State) : State :=
  match s.account.account, s.session.record with
  | some a, some r =>
    { s with account := { s.account with account := some { a with last := offerValues s a r share } } }
  | _, _ => s

/-! ## Totals and TALLY (R75, R76) -/

/-- trunc((export − import) × 18 / (5t)) in hW (R76, R130). -/
def netPower (exportTotal importTotal seconds : Nat) : Int :=
  (((exportTotal : Int) - importTotal) * 18).tdiv (5 * seconds)

/-- The boundary kinds that end an interval (R76). -/
def BoundaryKind.endsInterval : BoundaryKind → Bool
  | .own => true
  | .early => true
  | .implied => true
  | .realign => true
  | .listenMark => false
  | .listenExpiry => false

/-- A charger's TALLY for the interval just ended, at a boundary that set n (R76). -/
def queueTally (kind : BoundaryKind) (s : State) : State :=
  if s.straps.role = .charger ∧ kind.endsInterval ∧ s.account.mark then
    queueFrame .report
      ⟨s.frame 0 (s.timer.n - 1)
        (.tally (clampInt (-32767) 32767 (netPower s.account.exportTotal s.account.importTotal s.seconds))),
        some s.profile.freeze, false⟩ s
  else s

/-- The totals and the session mark of the interval that begins (R75). -/
def restartTotals (s : State) : State :=
  { s with account := { s.account with exportTotal := 0, importTotal := 0, mark := s.session.record.isSome } }

/-- The block's part of a boundary (R75, R76). -/
def closeTotals (kind : BoundaryKind) (s : State) : State := restartTotals (queueTally kind s)

end Sys2Proof.Machine
end

