-- ==== Sys2Proof/Machine/Allocation.lean ====
section
/-! DEFINITION. The Allocation Engine, its water-filling, the result, and the Apply Stage's load (06_share_allocation.md). -/

namespace Sys2Proof.Machine

/-! ## The division (R101 to R105) -/

/-- An eligible entry with the weight and cap used for the mode (R101). -/
structure Claim where
  station : Fin 64
  weight  : Nat
  cap     : Nat
deriving DecidableEq, Repr

/-- A computed share of one station, a magnitude in hW. -/
structure Award where
  station : Fin 64
  share   : Nat
deriving DecidableEq, Repr

/-- The weight and cap an entry has for the mode (R101). -/
def claimOf (mode : Mode) (e : Entry) : Claim :=
  match mode with
  | .exporting => ⟨e.station, e.values.wx, e.values.cx⟩
  | .importing => ⟨e.station, e.values.wm, e.values.cm⟩
  | .idle => ⟨e.station, 0, 0⟩

/-- The eligible set E, in the view's order: the entries whose weight and cap are both nonzero (R101). -/
def eligibleSet (mode : Mode) (entries : List Entry) : List Claim :=
  (entries.map (claimOf mode)).filter (fun c => c.weight ≠ 0 ∧ c.cap ≠ 0)

/-- The goal G: min(T, H), 0 in IDLE (R101). -/
def goalOf (mode : Mode) (level headroom : Nat) : Nat :=
  match mode with
  | .idle => 0
  | _ => min level headroom

/-- The sum of the weights. -/
def weightSum (cs : List Claim) : Nat := (cs.map Claim.weight).sum

/-- The sum of the caps. -/
def capSum (cs : List Claim) : Nat := (cs.map Claim.cap).sum

/-- The sum of the shares. -/
def awardSum (as : List Award) : Nat := (as.map Award.share).sum

/-- q_i = floor(R × w_i / W) (R103). -/
def quotient (left weights : Nat) (c : Claim) : Nat := left * c.weight / weights

/-- The residue (R × w_i) mod W (R104). -/
def residue (left weights : Nat) (c : Claim) : Nat := left * c.weight % weights

/-- `a` ranks before `b`: a larger residue, or an equal one and the lower station number (R104). -/
def ranksBefore (left weights : Nat) (a b : Claim) : Bool :=
  decide (residue left weights b < residue left weights a) ||
    (decide (residue left weights a = residue left weights b) && decide (a.station < b.station))

/-- The rank of an entry among S, from 0 (R104). -/
def rank (left weights : Nat) (cs : List Claim) (c : Claim) : Nat :=
  (cs.filter (fun a => ranksBefore left weights a c)).length

/-- The last pass: each entry receives its quotient, and the first r entries by rank one hW more (R103, R104). -/
def lastPass (left : Nat) (cs : List Claim) : List Award :=
  let weights := weightSum cs
  let remainder := left - (cs.map (quotient left weights)).sum
  cs.map (fun c =>
    ⟨c.station, quotient left weights c + (if rank left weights cs c < remainder then 1 else 0)⟩)

/-- The passes from R = `left` over S = `cs` (R103), with the number of passes made. `fuel` bounds the passes; as many as
there are entries suffice, since every pass but the last removes one (R103). -/
def passes : (fuel left : Nat) → List Claim → List Award × Nat
  | 0, _, cs => (cs.map (fun c => ⟨c.station, 0⟩), 0)
  | fuel + 1, left, cs =>
    let weights := weightSum cs
    let capped := cs.filter (fun c => c.cap ≤ quotient left weights c)
    if capped.isEmpty then (lastPass left cs, 1)
    else
      let rest := cs.filter (fun c => ¬ c.cap ≤ quotient left weights c)
      let more := passes fuel (left - capSum capped) rest
      (capped.map (fun c => ⟨c.station, c.cap⟩) ++ more.1, more.2 + 1)

/-- The division of G over E (R102, R103): every cap where the caps sum to at most G, else the passes. -/
def divide (goal : Nat) (cs : List Claim) : List Award × Nat :=
  if capSum cs ≤ goal then (cs.map (fun c => ⟨c.station, c.cap⟩), 0)
  else passes cs.length goal cs

/-- The share of a station in a division; 0 outside E (R101). -/
def shareOf (as : List Award) (station : Fin 64) : Nat :=
  match as.find? (fun a => a.station = station) with
  | some a => a.share
  | none => 0

/-- The signed share field (R106): the share under EXPORT, its negation under IMPORT, 0 in IDLE. -/
def signedShare (mode : Mode) (share : Nat) : Int :=
  match mode with
  | .exporting => share
  | .importing => -(share : Int)
  | .idle => 0

/-! ## The result (R106 to R110) -/

/-- The mode of the target handed over; IDLE where none remains (R94). -/
def ChosenTarget.mode (t : ChosenTarget) : Mode := match t.target with | some p => p.mode | none => .idle

/-- T of the target handed over (R94, R110). -/
def ChosenTarget.level (t : ChosenTarget) : Nat := match t.target with | some p => p.level | none => 0

/-- H of the target handed over (R94, R110). -/
def ChosenTarget.headroom (t : ChosenTarget) : Nat := match t.target with | some p => p.headroom | none => 0

/-- The request number carried (R110). -/
def ChosenTarget.request (t : ChosenTarget) : Nat := match t.target with | some p => p.request | none => 0

/-- G of the inputs. -/
def AllocInput.goal (i : AllocInput) : Nat := goalOf i.chosen.mode i.chosen.level i.chosen.headroom

/-- E of the inputs. -/
def AllocInput.claims (i : AllocInput) : List Claim := eligibleSet i.chosen.mode i.entries

/-- The division the inputs define (R99). -/
def AllocInput.division (i : AllocInput) : List Award × Nat := divide i.goal i.claims

/-- The signed share field of an entry (R106). -/
def AllocInput.shareField (i : AllocInput) (e : Entry) : Int :=
  signedShare i.chosen.mode (shareOf i.division.1 e.station)

/-- The pending share: the share field of the own entry, 0 without one (R106). -/
def AllocInput.ownShare (i : AllocInput) : Int :=
  match i.entries.find? (fun e => e.origin = .own) with
  | some e => i.shareField e
  | none => 0

/-- The flags of a completed result (R107). -/
def AllocInput.flags (i : AllocInput) : ResultFlags where
  short    := decide (i.chosen.mode ≠ .idle ∧ awardSum i.division.1 < i.chosen.level)
  capped   := decide (i.chosen.mode ≠ .idle ∧ i.chosen.headroom < i.chosen.level)
  noTarget := i.chosen.held
  late     := false

/-- A completed result (R110). -/
def AllocInput.result (i : AllocInput) : Result where
  present   := true
  interval  := i.interval
  mode      := i.chosen.mode
  level     := i.chosen.level
  headroom  := i.chosen.headroom
  source    := i.chosen.target.map TargetPart.source
  request   := i.chosen.request
  goal      := i.goal
  viewCount := i.entries.length
  eligible  := i.claims.length
  capSum    := capSum i.claims
  shareSum  := awardSum i.division.1
  ownShare  := i.ownShare
  passes    := i.division.2
  flags     := i.flags

/-- An abandoned result (R109): LATE alone, and the figures of the division 0. -/
def AllocInput.abandoned (i : AllocInput) : Result :=
  { i.result with
    eligible := 0, capSum := 0, shareSum := 0, ownShare := 0, passes := 0
    flags    := ⟨false, false, false, true⟩ }

/-- Raise a flag on a condition. -/
def raiseIf (b : Bool) (f : Flag) (s : State) : State := if b then raise f s else s

/-- Raise the result flags (R107). -/
def raiseResult (flags : ResultFlags) (s : State) : State :=
  raiseIf flags.noTarget .noTarget (raiseIf flags.capped .capped (raiseIf flags.short .short s))

/-- Completion, as one action (R108). -/
def completeWith (i : AllocInput) (s : State) : State :=
  let s := { s with
    view  := { s.view with entries := s.view.entries.map (fun e => { e with share := some (i.shareField e) }) }
    alloc := ⟨.ready i.ownShare, i.result⟩ }
  cause .result (raiseResult i.flags s)

/-- The engine completes if it is COMPUTING (R108). -/
def complete (s : State) : State :=
  match s.alloc.engine with
  | .computing i _ => completeWith i s
  | _ => s

/-- A boundary that finds the engine COMPUTING abandons the computation (R109). -/
def abandonWith (i : AllocInput) (s : State) : State :=
  cause .result (raise .late { s with alloc := ⟨.idle, i.abandoned⟩ })

/-- The engine's part of a boundary: it returns to IDLE (R98). -/
def engineBoundary (s : State) : State :=
  match s.alloc.engine with
  | .computing i _ => abandonWith i s
  | _ => { s with alloc := { s.alloc with engine := .idle } }

/-! ## The freeze point (R90, R94, R99) -/

/-- The target handed over at the freeze (R94). -/
def chooseTarget (u : ViewUnit) : ChosenTarget :=
  match u.received with
  | some t => ⟨some t, false⟩
  | none =>
    match u.used with
    | some p => if p.hold < 2 then ⟨some p.target, true⟩ else ⟨none, false⟩
    | none => ⟨none, false⟩

/-- The used part after a freeze in interval n, whose target is used for n+1 (R94). -/
def usedAfter (u : ViewUnit) (next : IntervalNo) : Option UsedTarget :=
  match u.received with
  | some t => some ⟨t, 0, next⟩
  | none =>
    match u.used with
    | some p => if p.hold < 2 then some ⟨p.target, p.hold + 1, next⟩ else none
    | none => none

/-- The freeze point is taken: the view freezes and the engine starts (R90, R99). A feeder's computation completes at once
(R120). -/
def takeFreeze (s : State) : State :=
  let next := s.timer.n + 1
  let s := { s with
    timer := { s.timer with freezeDue := false }
    view  := { s.view with phase := .frozen, used := usedAfter s.view next }
    alloc := { s.alloc with engine := .computing ⟨next, s.view.entries, chooseTarget s.view⟩ 0 } }
  match s.straps.role with
  | .charger => s
  | .feeder => complete s

/-! ## The Apply Stage's load (R111 to R113) -/

/-- What a load puts into the apply part. -/
structure Load where
  share   : Int
  outcome : LoadOutcome
  clipped : Bool
deriving DecidableEq, Repr

/-- The limit of a share's direction: min(P_dis, P_rate) or min(P_chg, P_rate); 0 without a session record (R113, R49). -/
def State.limit (s : State) (share : Int) : Nat :=
  match s.session.record with
  | some r => if share < 0 then min (pChg r) r.pRate else min (pDis r) r.pRate
  | none => 0

/-- The paused flag; no while no record is present (R62). -/
def State.paused (s : State) : Bool := match s.session.record with | some r => r.paused | none => false

/-- A pending share judged by the zeroing conditions, in their order, then clipped (R112, R113). -/
def judgeShare (share : Int) (s : State) : Load :=
  if s.session.state ≠ .engaged then ⟨0, .notEngaged, false⟩
  else if s.paused then ⟨0, .paused, false⟩
  else if s.stale then ⟨0, .stale, false⟩
  else if s.port.meterLost then ⟨0, .meterLost, false⟩
  else if 0 < share ∧ s.atReserve then ⟨0, .reserve, false⟩
  else if s.limit share < share.natAbs then ⟨withSignOf share (s.limit share), .loaded, true⟩
  else ⟨share, .loaded, false⟩

/-- The boundary kinds at which a READY result is handed over (R98). -/
def BoundaryKind.handsOver : BoundaryKind → Bool
  | .own => true
  | .early => true
  | .implied => true
  | .realign => false
  | .listenMark => false
  | .listenExpiry => false

/-- The load at a boundary, from the engine's state as it stood when the boundary was announced (R98, R111). A feeder's READY
result is DISCARDED at a re-alignment, where R120 would have NOT_ENGAGED. DESIGN CHOICE (log entry 30). -/
def loadOf (kind : BoundaryKind) (s : State) : Load :=
  match s.alloc.engine with
  | .idle => ⟨0, .noResult, false⟩
  | .computing _ _ => ⟨0, .abandoned, false⟩
  | .ready share => if kind.handsOver then judgeShare share s else ⟨0, .discarded, false⟩

/-- The load replaces the applied share for the interval `number` (R111); a clip at load sets CLIPPED (R113). -/
def applyLoad (load : Load) (number : IntervalNo) (s : State) : State :=
  raiseIf load.clipped .clipped
    { s with apply := ⟨load.share, number, load.outcome, load.clipped, none⟩ }

end Sys2Proof.Machine
end

