-- ==== Sys2Proof/Machine/Feeder.lean ====
section
/-! DEFINITION. The Feeder Unit: tally list, site measurement, TARGET composition and its boundary (07_the_feeder_station.md). -/

namespace Sys2Proof.Machine

/-! ## The tally list (R126, R127) -/

/-- Write a tally, replacing the sender's entry, in station number ascending (R126). -/
def insertTally (t : Tally) : List Tally → List Tally
  | [] => [t]
  | u :: rest =>
    if t.station < u.station then t :: u :: rest
    else if t.station = u.station then t :: rest
    else u :: insertTally t rest

/-- The sum of the achieved powers (R132). -/
def tallySum (ts : List Tally) : Int := (ts.map Tally.power).sum

/-- A TALLY handed to the Feeder Unit (R126, R127). -/
def takeTally (source : Fin 64) (number : IntervalNo) (power : Int) (s : State) : State :=
  if s.timer.state = .running ∧ number = s.timer.n - 1 then
    { s with feeder := { s.feeder with
        tallies   := insertTally ⟨source, power⟩ s.feeder.tallies
        tallyLate := if s.feeder.begun then count s.feeder.tallyLate else s.feeder.tallyLate } }
  else { s with feeder := { s.feeder with tallyOff := count s.feeder.tallyOff } }

/-! ## TARGET composition (R131 to R135) -/

/-- The first reason that makes a TARGET IDLE (R131). -/
def idleReason (u : FeederUnit) : IdleReason :=
  if u.siteLimit = none then .limitUnset
  else if u.mode = .idle then .noRequest
  else if u.measured = none then .noMeasurement
  else .none

/-- The goal-list entry of an interval. -/
def goalFor (goals : List Goal) (number : IntervalNo) : Option Goal := goals.find? (fun g => g.interval = number)

/-- The first condition for a correction that fails (R133). -/
def correctionReason (u : FeederUnit) (last : IntervalNo) : CorrectionReason :=
  match goalFor u.goals last with
  | none => .noGoal
  | some g =>
    if g.mode ≠ u.mode then .modeChange
    else if g.dropped then .dropped
    else if u.tallies = [] then .noTally
    else .none

/-- H (R132): clamp(X + B) for EXPORT, clamp(X − B) for IMPORT. -/
def headroomOf (mode : Mode) (limit : Nat) (load : Int) : Nat :=
  match mode with
  | .importing => clampNat 65535 ((limit : Int) - load)
  | _ => clampNat 65535 ((limit : Int) + load)

/-- a, the achieved level (R133). -/
def achievedOf (mode : Mode) (sum : Int) : Int :=
  match mode with
  | .importing => -sum
  | _ => sum

/-- corr = trunc(e / 2), limited to a quarter of the request on either side (R133). -/
def correctionOf (level : Nat) (error : Int) : Int :=
  clampInt (-((level / 4 : Nat) : Int)) ((level / 4 : Nat) : Int) (error.tdiv 2)

/-- The composition at P of interval k = `k`, as the record it leaves (R131 to R134). An IDLE composition sums no tallies
and keeps the measurement it read. DESIGN CHOICE (log entry 17). -/
def composeTarget (u : FeederUnit) (k : IntervalNo) : FeederRecord :=
  match u.siteLimit, u.measured, idleReason u with
  | some limit, some a, .none =>
    let sum := tallySum u.tallies
    let load := sum - a
    let head := headroomOf u.mode limit load
    let reason := correctionReason u (k - 1)
    let achieved := if reason = .none then achievedOf u.mode sum else 0
    let error := match reason, goalFor u.goals (k - 1) with
      | .none, some g => (g.goal : Int) - achieved
      | _, _ => 0
    let corr := if reason = .none then correctionOf u.level error else 0
    { interval := k + 1, idleReason := .none, tallySum := sum, tallyCount := u.tallies.length, measured := some a
      load := some load, headroomOut := some head, correction := reason, achieved := achieved, error := error
      corrected := corr, mode := u.mode, level := clampNat 65535 ((u.level : Int) + corr), headroom := head
      request := u.request }
  | _, measured, reason =>
    { FeederRecord.empty with interval := k + 1, idleReason := reason, measured := measured, request := u.request }

/-- The TARGET point is taken: a running feeder starts a composition (R131). -/
def takeTargetPoint (s : State) : State :=
  { s with
    timer  := { s.timer with targetDue := false }
    feeder := { s.feeder with composing := some (composeTarget s.feeder s.timer.n), begun := true } }

/-- The goal list after a composition for `record.interval` = k+1: entries of k and the new one (R134). -/
def enterGoal (record : FeederRecord) (goals : List Goal) : List Goal :=
  goals.filter (fun g => g.interval = record.interval - 1) ++
    [⟨record.interval, record.mode, goalOfTarget record, false⟩]
where
  /-- The goal of a TARGET: min(T, H), 0 for IDLE (R134). -/
  goalOfTarget (r : FeederRecord) : Nat :=
    match r.mode with
    | .idle => 0
    | _ => min r.level r.headroom

/-- The end of a TARGET composition: the goal is entered, the record replaced and the TARGET queued (R134). -/
def endTargetWith (record : FeederRecord) (s : State) : State :=
  queueFrame .report
    ⟨s.frame 0 record.interval (.target record.mode record.level record.headroom record.request),
      some s.profile.freeze, false⟩
    { s with feeder := { s.feeder with
        composing := none, record := record, goals := enterGoal record s.feeder.goals } }

/-- The TARGET composition in flight, if any, ends (R134, R136). -/
def endTarget (s : State) : State :=
  match s.feeder.composing with
  | some record => endTargetWith record s
  | none => s

/-! ## The feeder's part of a boundary (R125, R128, R130, R136) -/

/-- A boundary inside a composition abandons it: the record shows k+1 with reason ABANDONED (R136). Every other field of that
record is 0, none or NONE. DESIGN CHOICE (log entry 31). -/
def abandonTarget (u : FeederUnit) : FeederUnit :=
  match u.composing with
  | some record =>
    { u with composing := none, record := { FeederRecord.empty with interval := record.interval, idleReason := .abandoned } }
  | none => u

/-- The valid count at a boundary (R125). -/
def countValid (u : FeederUnit) : FeederUnit :=
  if u.valid = 0 then u
  else { u with valid := u.valid - 1, mode := if u.valid = 1 then .idle else u.mode }

/-- The boundary kinds that can make a valid measurement (R130). -/
def BoundaryKind.measures : BoundaryKind → Bool
  | .own => true
  | .early => true
  | .implied => true
  | .realign => false
  | .listenMark => false
  | .listenExpiry => false

/-- The site measurement a boundary makes (R130). -/
def measurementOf (kind : BoundaryKind) (u : FeederUnit) (seconds : Nat) : Option Int :=
  if kind.measures ∧ u.lossMark = false then some (netPower u.exportTotal u.importTotal seconds) else none

/-- The tally list, the totals, the measurement and the marks at a boundary (R128, R130). -/
def closeSite (kind : BoundaryKind) (lost : Bool) (seconds : Nat) (u : FeederUnit) : FeederUnit :=
  { u with
    measured := measurementOf kind u seconds, tallies := [], exportTotal := 0, importTotal := 0, lossMark := lost
    begun := false }

/-- The Feeder Unit's part of a boundary, on a FEEDER; on a CHARGER it keeps its reset values (R122). -/
def feederBoundary (kind : BoundaryKind) (s : State) : State :=
  match s.straps.role with
  | .charger => s
  | .feeder =>
    { s with feeder := closeSite kind s.port.meterLost s.seconds (countValid (abandonTarget s.feeder)) }

end Sys2Proof.Machine
end

