-- ==== Sys2Proof/Machine/Frames.lean ====
section
/-! DEFINITION. Frames on the line, bit by bit: layout, check, insert bits, reading a frame and judging an attempt
(01_the_depot_line.md R2 to R7, R12). A bit of value 1 is the recessive level (`true`), 0 the dominant level. -/

namespace Sys2Proof.Machine

/-! ## Fields as bits, most significant bit first (R3, R4) -/

/-- The `width` low bits of a number, most significant first. -/
def bitsOf : (width value : Nat) → List Level
  | 0, _ => []
  | w + 1, v => v.testBit w :: bitsOf w v

/-- The number a list of bits spells, most significant first, after `acc`. -/
def numberOf (bits : List Level) (acc : Nat := 0) : Nat :=
  bits.foldl (fun v b => 2 * v + b.toNat) acc

/-- A signed number as the unsigned number of its 16-bit two's complement (R3). -/
def unsigned16 (x : Int) : Nat := (x % 65536).toNat

/-- The signed number a 16-bit two's complement spells (R3). -/
def signed16 (v : Nat) : Int := if v < 32768 then v else (v : Int) - 65536

/-! ## The layout (R2 to R4) -/

/-- The kind class (R2). -/
def FrameBody.kindClass : FrameBody → Nat
  | .mark _ => 0
  | .target _ _ _ _ => 1
  | .withdraw _ => 2
  | .offer _ => 3
  | .tally _ => 4

/-- The body length in bytes (R3). -/
def FrameBody.length : FrameBody → Nat
  | .mark _ => 1
  | .target _ _ _ _ => 6
  | .withdraw _ => 1
  | .offer _ => 10
  | .tally _ => 2

/-- The code of a mode (R3). -/
def Mode.code : Mode → Nat
  | .idle => 0
  | .exporting => 1
  | .importing => 2

/-- The mode of a code, if it is legal (R3). -/
def Mode.ofCode : Nat → Option Mode
  | 0 => some .idle
  | 1 => some .exporting
  | 2 => some .importing
  | _ => none

/-- The code of a WITHDRAW reason (R3). -/
def WithdrawReason.code : WithdrawReason → Nat
  | .unplugged => 0
  | .closed => 1
  | .paused => 2
  | .stopped => 3

/-- The WITHDRAW reason of a code, if it is legal (R3). -/
def WithdrawReason.ofCode : Nat → Option WithdrawReason
  | 0 => some .unplugged
  | 1 => some .closed
  | 2 => some .paused
  | 3 => some .stopped
  | _ => none

/-- The body fields as bits (R3). -/
def FrameBody.bits : FrameBody → List Level
  | .mark p => bitsOf 8 p
  | .target m t h r => bitsOf 8 m.code ++ bitsOf 16 t ++ bitsOf 16 h ++ bitsOf 8 r
  | .withdraw r => bitsOf 8 r.code
  | .offer v => bitsOf 24 v.wx ++ bitsOf 16 v.cx ++ bitsOf 24 v.wm ++ bitsOf 16 v.cm
  | .tally p => bitsOf 16 (unsigned16 p)

/-- Positions 2 through 5 of R4: 21 bits, of which the first 17 are the arbitration field. -/
def Frame.header (f : Frame) : List Level :=
  bitsOf 3 f.body.kindClass ++ bitsOf 8 f.priority ++ bitsOf 6 f.source ++ bitsOf 4 f.site

/-- The span of the check: positions 2 through 8 of R4 (R5). -/
def Frame.span (f : Frame) : List Level :=
  f.header ++ bitsOf 4 f.body.length ++ bitsOf 16 f.number.toNat ++ f.body.bits

/-- One bit into the check register (R5). -/
def checkStep (register : BitVec 16) (bit : Level) : BitVec 16 :=
  let shifted := register <<< 1
  if (bit != register.getLsbD 15) then shifted ^^^ 0x1021#16 else shifted

/-- The check over a span (R5): the register starts with all sixteen bits at 1. -/
def checkOf (span : List Level) : BitVec 16 := span.foldl checkStep 0xFFFF#16

/-- Positions 1 through 9 of R4, before insert bits: the start bit, the span and the check. -/
def Frame.payload (f : Frame) : List Level :=
  false :: (f.span ++ bitsOf 16 (checkOf f.span).toNat)

/-! ## Insert bits (R6) -/

/-- The run of equal levels as sent or read so far, insert bits included; nothing at the start of a frame. -/
structure Run where
  level : Level
  count : Nat
deriving DecidableEq, Repr

/-- The run before a frame's start bit. -/
def Run.start : Run := ⟨true, 0⟩

/-- The run after one more bit. -/
def Run.push (r : Run) (bit : Level) : Run :=
  if bit = r.level then ⟨bit, r.count + 1⟩ else ⟨bit, 1⟩

/-- Four consecutive bits of one level: an insert bit comes before the next bit (R6). -/
def Run.full (r : Run) : Bool := decide (4 ≤ r.count)

/-- Bits with their insert bits. An insert bit stands before the bit that follows a run of four, so a run that the last
check bit completes takes none (R6). -/
def stuff : Run → List Level → List Level
  | _, [] => []
  | r, b :: bs =>
    if r.full then (!r.level) :: b :: stuff ((r.push (!r.level)).push b) bs
    else b :: stuff (r.push b) bs

/-- The end field: eight recessive bits (R4). -/
def endField : List Level := List.replicate 8 true

/-- A frame as it is sent: positions 1 through 9 with insert bits, then the end field (R4, R6). -/
def Frame.levels (f : Frame) : List Level := stuff .start f.payload ++ endField

/-- How many bits of `Frame.levels` belong to the start bit and the arbitration field with its insert bits (R2). An insert
bit after the last arbitration bit stands outside the field. DEDUCED (log entry 10). -/
def Frame.arbitrationEnd (f : Frame) : Nat := (stuff .start (f.payload.take 18)).length

/-! ## Reading a frame (R6, R17) -/

/-- What reading levels gave. -/
inductive Reading (α : Type) where
  | ok (value : α)
  /-- A framing fault (R6). -/
  | framing
deriving DecidableEq, Repr

/-- The next level read; the line shows recessive when nobody drives it. DEDUCED (log entry 8). -/
def nextLevel : List Level → Level × List Level
  | [] => (true, [])
  | b :: rest => (b, rest)

/-- Read `n` bits within positions 1 through 9, removing insert bits: after a run of four the next bit is an insert bit,
and one of the same level would be the fifth, a framing fault (R6). -/
def readBits : (n : Nat) → Run → List Level → Reading (List Level × Run × List Level)
  | 0, r, ls => .ok ([], r, ls)
  | n + 1, r, ls =>
    if r.full then
      let i := nextLevel ls
      if i.1 = r.level then .framing
      else
        let b := nextLevel i.2
        match readBits n ((r.push i.1).push b.1) b.2 with
        | .ok (bs, r', ls') => .ok (b.1 :: bs, r', ls')
        | .framing => .framing
    else
      let b := nextLevel ls
      match readBits n (r.push b.1) b.2 with
      | .ok (bs, r', ls') => .ok (b.1 :: bs, r', ls')
      | .framing => .framing

/-- The end field is recessive throughout; a dominant bit in it is a framing fault (R6). -/
def endFieldRead : (n : Nat) → List Level → Bool
  | 0, _ => true
  | n + 1, ls => (nextLevel ls).1 && endFieldRead n (nextLevel ls).2

/-- The body a kind class and its body bits spell, if kind, length and every field are legal (R3). -/
def bodyOf (kind length : Nat) (bits : List Level) : Option FrameBody :=
  match kind, length with
  | 0, 1 =>
    if h : numberOf bits < 4 then some (.mark ⟨numberOf bits, h⟩) else none
  | 1, 6 =>
    match Mode.ofCode (numberOf (bits.take 8)) with
    | some m =>
      some (.target m (numberOf ((bits.drop 8).take 16)) (numberOf ((bits.drop 24).take 16)) (numberOf (bits.drop 40)))
    | none => none
  | 2, 1 => (WithdrawReason.ofCode (numberOf bits)).map FrameBody.withdraw
  | 3, 10 =>
    let v : OfferBody := ⟨numberOf (bits.take 24), numberOf ((bits.drop 24).take 16),
      numberOf ((bits.drop 40).take 24), numberOf (bits.drop 64)⟩
    if v.cx ≤ 4000 ∧ v.cm ≤ 4000 then some (.offer v) else none
  | 4, 2 => some (.tally (signed16 (numberOf bits)))
  | _, _ => none

/-- What the receive filter's integrity step makes of a frame (R17). -/
inductive Received where
  /-- No start bit was read. -/
  | nothing
  /-- A framing fault. -/
  | framing
  /-- Read to its end field, but the check fails, or kind, length or a field is illegal. -/
  | corrupt
  | frame (f : Frame)
deriving DecidableEq, Repr

/-- The frame that the bits of positions 2 through 9 spell, if the check passes and kind, length and fields are legal. -/
def frameOf (header rest : List Level) (length : Nat) : Received :=
  let span := header ++ rest.take (16 + 8 * length)
  if numberOf (rest.drop (16 + 8 * length)) = (checkOf span).toNat then
    match bodyOf (numberOf (header.take 3)) length ((rest.drop 16).take (8 * length)) with
    | some body =>
      .frame
        { priority := numberOf ((header.drop 3).take 8)
          source   := Fin.ofNat 64 (numberOf ((header.drop 11).take 6))
          site     := Fin.ofNat 16 (numberOf ((header.drop 17).take 4))
          number   := BitVec.ofNat 16 (numberOf (rest.take 16))
          body     := body }
    | none => .corrupt
  else .corrupt

/-- A frame read from its start bit on: 26 bits to the body length, then the interval number, the body and the check, then
the end field (R4, R6, R17). -/
def readFromStart (levels : List Level) : Received :=
  match readBits 26 .start levels with
  | .framing => .framing
  | .ok (first, run, more) =>
    let header := first.drop 1
    let length := numberOf (header.drop 21)
    match readBits (32 + 8 * length) run more with
    | .framing => .framing
    | .ok (rest, _, tail) =>
      if endFieldRead 8 tail then frameOf header rest length else .framing

/-- The wait for a start bit after `run` consecutive recessive bits: a dominant bit read before the line is idle starts the
count anew, one read on the idle line is the start bit (R6). The count, up to 10, and the levels from the start bit on. -/
def awaitStart : (run : Nat) → List Level → Nat × List Level
  | run, [] => (run, [])
  | run, true :: more => awaitStart (min Config.idleBits (run + 1)) more
  | run, false :: more => if Config.idleBits ≤ run then (run, false :: more) else awaitStart 0 more

/-- The levels from the start bit on of the frame that `levels` end: those heard before where the station lost the arbitration
against it (R7), else what follows the wait for a start bit (R6). After a lost arbitration any levels go on with the winner's
frame, so a frame read whole before the attempt is not handed on between the two. DESIGN CHOICE (log entry 44). -/
def frameLevels (heard : List Level) (run : Nat) (levels : List Level) : List Level :=
  if heard.isEmpty then (awaitStart run levels).2 else heard ++ levels

/-- A frame as the station reads it (R6, R7). -/
def readFrame (heard : List Level) (run : Nat) (levels : List Level) : Received :=
  match frameLevels heard run levels with
  | [] => .nothing
  | start => readFromStart start

/-- The recessive bits read last after a reading: a whole frame ends in eight, and a framing fault starts the count anew (R6). -/
def runAfter (run : Nat) (levels : List Level) : Received → Nat
  | .nothing => (awaitStart run levels).1
  | .framing => 0
  | .corrupt => 8
  | .frame _ => 8

/-! ## The end of an attempt (R7, R12) -/

/-- How an attempt ended (R12). -/
inductive AttemptEnd where
  | confirmed
  | failed
  | lost
deriving DecidableEq, Repr

/-- The end of an attempt, judged level by level from position `at_`: `arbitration` levels belong to the start bit and the
arbitration field. none: every level read so far agrees and the frame is not wholly sent. -/
def judgeLevels (arbitration : Nat) : (at_ : Nat) → (sent read : List Level) → Option AttemptEnd
  | _, [], _ => some .confirmed
  | _, _ :: _, [] => none
  | k, x :: sent, y :: read =>
    if x = y then judgeLevels arbitration (k + 1) sent read
    else if x ∧ k < arbitration then some .lost
    else some .failed

/-- The end of the attempt that sends `f` and reads `read` (R7, R12). A whole frame read back level for level passes the check
and holds no framing fault, since it is the frame sent. -/
def judgeAttempt (f : Frame) (read : List Level) : Option AttemptEnd :=
  judgeLevels f.arbitrationEnd 0 f.levels read

/-- The levels read of an attempt that lost its arbitration, up to the bit it lost; from there the station only receives (R7). -/
def heardUntilLost : (sent read : List Level) → List Level
  | x :: sent, y :: read => y :: if x = y then heardUntilLost sent read else []
  | _, _ => []

/-! ## Frames that can be sent (R2, R3) -/

/-- The body fields lie in their legal values (R3). -/
def FrameBody.legal : FrameBody → Bool
  | .mark _ => true
  | .target _ t h r => decide (t < 65536 ∧ h < 65536 ∧ r < 256)
  | .withdraw _ => true
  | .offer v => decide (v.wx < 16777216 ∧ v.cx ≤ 4000 ∧ v.wm < 16777216 ∧ v.cm ≤ 4000)
  | .tally p => decide (-32768 ≤ p ∧ p ≤ 32767)

/-- The frame's fields lie in their legal values (R2, R3). -/
def Frame.legal (f : Frame) : Bool := decide (f.priority < 256) && f.body.legal

/-- The priority of an OFFER (R2). -/
def offerPriority (wx : Nat) : Nat := 255 - min 255 (wx / 4096)

end Sys2Proof.Machine
end

