-- ==== Sys2Proof/Machine/Boundary.lean ====
section
/-! DEFINITION. The boundary as every block takes it, the own OFFER composition and the points of the interval
(02_intervals_and_alignment.md, 05_the_peer_view.md 5.1). -/

namespace Sys2Proof.Machine

/-! ## The blocks' parts of a boundary -/

/-- SLIP counts a boundary of kind EARLY or REALIGN whose number differs from the old n + 1 (R35). -/
def slips (kind : BoundaryKind) (old number : IntervalNo) : Bool :=
  match kind with
  | .early => number != old + 1
  | .realign => number != old + 1
  | .own => false
  | .implied => false
  | .listenMark => false
  | .listenExpiry => false

/-- The Interval Timer's part (R27, R28, R31, R33 to R36). Points not yet reached are not taken for the interval that ended. -/
def timerBoundary (kind : BoundaryKind) (number : IntervalNo) (s : State) : State :=
  { s with timer :=
    { s.timer with
      state      := .running
      n          := number
      c          := 0
      listen     := 0
      lastKind   := some kind
      lastNumber := number
      slip       := if slips kind s.timer.n number then count s.timer.slip else s.timer.slip
      freezeDue  := false
      targetDue  := false } }

/-- A slot's frame whose deadline interval ends: dropped as at its deadline, or marked where an attempt carries it (R11). A
WITHDRAW has no deadline. The drop comes before the replacement the boundary queues (log entry 34). -/
def endDeadline (slot : Slot) (s : State) : State :=
  match s.line.slot slot with
  | none => s
  | some q =>
    match q.deadline with
    | none => s
    | some _ =>
      if s.line.carries slot then
        { s with line := s.line.setSlot slot (some { q with expired := true }) }
      else dropAtDeadline slot s

/-- The frames whose deadline interval ended (R11), in the order chosen (log entry 4). -/
def endDeadlines (order : Order) (s : State) : State :=
  if order.reportFirst then endDeadline .offer (endDeadline .report (endDeadline .mark s))
  else endDeadline .report (endDeadline .offer (endDeadline .mark s))

/-- The silence count of a boundary; the boundary that brings it to 0 ends a silence (R16). -/
def countSilence (s : State) : State :=
  if s.line.silence = 0 then s
  else
    { s with line := { s.line with
        silence := s.line.silence - 1
        state   := if s.line.silence = 1 ∧ s.line.state = .silent then .active else s.line.state } }

/-- The Peer View's part: the view is emptied and OPEN, the received part emptied (R84, R91). -/
def viewBoundary (s : State) : State :=
  { s with view := { s.view with phase := .opened, entries := [], received := none } }

/-- A direction has a nonzero weight and a nonzero cap (R79). -/
def OfferBody.hasDirection (v : OfferBody) : Bool := (v.wx != 0 && v.cx != 0) || (v.wm != 0 && v.cm != 0)

/-- What the composition at this boundary will do at its end, on a CHARGER (R79, R81). -/
def composeOutcome (s : State) : ComposeOutcome :=
  if s.line.state ≠ .active then .nothing .line
  else if s.timer.state ≠ .running then .nothing .timing
  else
    match s.account.account with
    | some a => if a.last.body.hasDirection then .offer a.last.body else .nothing .noDirection
    | none => .nothing .noDirection

/-- The composer's part: a CHARGER starts a composition whose projection uses the share this boundary loads (R72, R79); a
FEEDER records ROLE (R81). -/
def beginComposition (share : Int) (s : State) : State :=
  match s.straps.role with
  | .charger =>
    let s := computeOffer share s
    { s with view := { s.view with composing := some ⟨s.timer.n + 1, composeOutcome s⟩ } }
  | .feeder =>
    { s with view := { s.view with record := ⟨s.timer.n + 1, false, .role, 0, .zero, .none⟩ } }

/-- The own MARK of an own boundary, with deadline W (R28). -/
def queueMark (s : State) : State :=
  queueFrame .mark ⟨s.frame 0 s.timer.n (.mark s.straps.intv), some s.profile.window, false⟩ s

/-- The own MARK, at a boundary of kind OWN only (R29). -/
def markBoundary (kind : BoundaryKind) (s : State) : State :=
  match kind with
  | .own => queueMark s
  | _ => s

/-- A boundary of kind `kind` that begins interval `number`, as every block takes it (R29). The load is judged on the state
as it stood when the boundary was announced (R98, R112). A frame whose interval ends here is dropped (R11) before this boundary's
own MARK and TALLY are queued. The notes of R9 let either come first, and by R10 a drop moves the pointer where a replacement
does not. DESIGN CHOICE (log entry 34). -/
def takeBoundary (kind : BoundaryKind) (number : IntervalNo) (order : Order) (s : State) : State :=
  let load := loadOf kind s
  let s := timerBoundary kind number (endDeadlines order s)
  let s := applyLoad load number (countSilence s)
  let s := viewBoundary (engineBoundary s)
  let s := feederBoundary kind (closeTotals kind s)
  let s := beginComposition load.share s
  cause .boundary (markBoundary kind s)

/-! ## The end of an own OFFER composition (R79, R81, R82) -/

/-- The OFFER record of an own OFFER just queued (R82). -/
def offerRecordOf (interval : IntervalNo) (v : OfferBody) : OfferRecord where
  interval := interval
  composed := true
  reason   := .role
  priority := offerPriority v.wx
  values   := v
  fate     := .pending

/-- The end of a composition: the OFFER is queued with deadline F, or the reason recorded (R79, R81). -/
def endOfferWith (comp : Composition) (s : State) : State :=
  match comp.outcome with
  | .offer v =>
    let record := offerRecordOf comp.interval v
    queueFrame .offer ⟨s.frame record.priority comp.interval (.offer v), some s.profile.freeze, false⟩
      { s with view := { s.view with composing := none, record := record } }
  | .nothing reason =>
    { s with view := { s.view with composing := none, record := ⟨comp.interval, false, reason, 0, .zero, .none⟩ } }

/-- The composition in flight, if any, ends (R79, R80). -/
def endOffer (s : State) : State :=
  match s.view.composing with
  | some comp => endOfferWith comp s
  | none => s

/-! ## Points of the interval (R36) -/

/-- The freeze point, if it has been announced (R90). -/
def takeFreezeIfDue (s : State) : State := if s.timer.freezeDue then takeFreeze s else s

/-- The TARGET point, if it has been announced (R131). -/
def takeTargetIfDue (s : State) : State := if s.timer.targetDue then takeTargetPoint s else s

/-- Every point announced and not yet taken is taken; a boundary or the next tick comes after it (R36). -/
def takePoints (order : Order) (s : State) : State :=
  takeTargetIfDue (takeFreezeIfDue (takeDeadlines order s))

/-! ## The tick of the Interval Timer (R25 to R28) -/

/-- The tick is the station's own boundary (R28). -/
def State.ownBoundaryNext (s : State) : Bool :=
  s.timer.state == .running && !decide (s.timer.c + 1 < s.profile.length)

/-- The tick brings the listen count to 2L (R27). -/
def State.expiryNext (s : State) : Bool :=
  s.timer.state == .listen && !decide (s.timer.listen + 1 < 2 * s.profile.length)

/-- A tick that advances c, and the points it announces (R25, R36). -/
def advance (s : State) : State :=
  let c := s.timer.c + 1
  { s with timer := { s.timer with
      c         := c
      freezeDue := s.timer.freezeDue || c == s.profile.freeze
      targetDue := s.timer.targetDue || (c == s.profile.target && s.straps.role == .feeder) } }

/-- The Interval Timer takes a tick (R25 to R28). -/
def timerTick (order : Order) (s : State) : State :=
  match s.timer.state with
  | .running =>
    if s.timer.c + 1 < s.profile.length then advance s else takeBoundary .own (s.timer.n + 1) order s
  | .listen =>
    if s.timer.listen + 1 < 2 * s.profile.length then
      { s with timer := { s.timer with listen := s.timer.listen + 1 } }
    else takeBoundary .listenExpiry 0 order s

/-! ## The commands of compositions, points and the engine -/

/-- OFFER_COMPOSITION_END (R79): the composition in flight ends; without one there is no such event (log entry 3). -/
def execOfferCompositionEnd (s : State) : Host.Outcome State Fault Refusal := .next (endOffer s)

/-- FREEZE_POINT (R90): taken once it has been announced (R36); otherwise there is no such event (log entry 3). -/
def execFreezePoint (s : State) : Host.Outcome State Fault Refusal := .next (act takeFreezeIfDue s)

/-- ALLOCATION_COMPLETE (R108): a COMPUTING engine completes; otherwise there is no such event (log entry 3). -/
def execAllocationComplete (s : State) : Host.Outcome State Fault Refusal := .next (act complete s)

/-- TARGET_POINT (R131): taken once it has been announced (R36); otherwise there is no such event (log entry 3). -/
def execTargetPoint (s : State) : Host.Outcome State Fault Refusal := .next (takeTargetIfDue s)

/-- TARGET_COMPOSITION_END (R134): the composition in flight ends; without one there is no such event (log entry 3). -/
def execTargetCompositionEnd (s : State) : Host.Outcome State Fault Refusal := .next (endTarget s)

end Sys2Proof.Machine
end

