-- ==== Sys2Proof/Machine/Line.lean ====
section
/-! DEFINITION. The depot line: starting a frame, the ends of an attempt, the line states, the receive filter and the hand-off
(01_the_depot_line.md), and what the owners do with a frame handed over (R26, R30 to R34, R85 to R89, R92, R93, R126). -/

namespace Sys2Proof.Machine

/-! ## Starting a frame (R7, R8, R10) -/

/-- The slot a source sends from: of the Dispatch source the WITHDRAW before the OFFER (R8); none for an empty source. -/
def LineUnit.ready (u : LineUnit) : Source → Option Slot
  | .timing => if u.markSlot.isSome then some .mark else none
  | .dispatch =>
    if u.withdrawSlot.isSome then some .withdraw else if u.offerSlot.isSome then some .offer else none
  | .report => if u.reportSlot.isSome then some .report else none

/-- The cyclic order of the sources (R10). -/
def Source.next : Source → Source
  | .timing => .dispatch
  | .dispatch => .report
  | .report => .timing

/-- The round-robin selection: the first non-empty source after the one the pointer names, that one last (R10). -/
def LineUnit.select (u : LineUnit) : Option Slot :=
  let first := u.pointer.next
  match u.ready first, u.ready first.next, u.ready u.pointer with
  | some slot, _, _ => some slot
  | none, some slot, _ => some slot
  | none, none, last => last

/-- The line is idle once 10 consecutive recessive bits have been read, `more` of them since the last event (R6). -/
def LineUnit.idleAfter (u : LineUnit) (more : Nat) : Bool := decide (Config.idleBits ≤ u.recessiveRun + more)

/-- The slot whose frame the station starts: ACTIVE, a free transmitter, an idle line and a non-empty source (R7). The line is
not idle while the station receives the frame it lost the arbitration to, so that frame is handed on before the station starts
again. R20 and R32 let the hand-off come during the next attempt, and that order is left out. DESIGN CHOICE (log entry 35). -/
def LineUnit.starts (u : LineUnit) (more : Nat) : Option Slot :=
  if u.state = .active ∧ u.attempt = none ∧ u.heard = [] ∧ u.idleAfter more then u.select else none

/-- Start the slot's frame (R7). -/
def startSlot (slot : Slot) (s : State) : State :=
  match s.line.slot slot with
  | some q => { s with line := { s.line with attempt := some ⟨slot, q.frame, false, false⟩ } }
  | none => s

/-! ## The ends of an attempt (R7, R9, R11 to R13, R15) -/

/-- The attempt under way has ended as `end_` by the levels read (R7, R12). -/
def State.attemptEnded (s : State) (read : List Level) (end_ : AttemptEnd) : Bool :=
  match s.line.attempt with
  | some a => decide (judgeAttempt a.frame read = some end_)
  | none => false

/-- An attempt that ended without confirmation leaves nothing to a detached frame; a frame whose time had run out is dropped
at this moment, the others stay pending (R9, R11). -/
def releaseSlot (a : Attempt) (s : State) : State :=
  if a.detached then s else takeDeadline a.slot s

/-- The attempt ends and the line is busy until ten recessive bits have been read (R6). -/
def endAttempt (recessive : Nat) (s : State) : State :=
  { s with line := { s.line with attempt := none, recessiveRun := recessive } }

/-- A lost arbitration: no count; the station goes on as a receiver of the frame on the line (R7, R9, R11). -/
def loseAttempt (read : List Level) (s : State) : State :=
  match s.line.attempt with
  | some a =>
    let s := endAttempt 0 s
    releaseSlot a { s with line := { s.line with heard := heardUntilLost a.frame.levels read } }
  | none => s

/-- The confirmation of the own OFFER in slot contents `q` (R13, R82, R85). -/
def confirmOffer (q : Queued) (v : OfferBody) (s : State) : State :=
  if q.expired then s
  else
    match s.view.phase with
    | .opened =>
      if q.frame.number = s.timer.n + 1 then
        offerFate .confirmed q.frame.number
          { s with view := { s.view with entries := insertOwn s.straps.stn v s.view.entries } }
      else s
    | .frozen => offerFate .late q.frame.number s
    | .closed => s
where
  /-- Write the own entry, replacing one present, in station number ascending (R83, R85). -/
  insertOwn (station : Fin 64) (v : OfferBody) : List Entry → List Entry
    | [] => [⟨station, v, none, .own⟩]
    | e :: rest =>
      if station < e.station then ⟨station, v, none, .own⟩ :: e :: rest
      else if station = e.station then ⟨station, v, none, .own⟩ :: rest
      else e :: insertOwn station v rest

/-- The confirmation is reported to the block that queued the frame; of an OFFER alone it has an effect (R13). -/
def tellConfirmed (q : Queued) (s : State) : State :=
  match q.frame.body with
  | .offer v => confirmOffer q v s
  | _ => s

/-- A confirmed attempt (R12, R13, R10, R9). -/
def confirmAttempt (s : State) : State :=
  match s.line.attempt with
  | none => s
  | some a =>
    let s := endAttempt 8 s
    let s := { s with line := { s.line with
      txDone := count s.line.txDone, failures := 0, pointer := slotSource a.slot } }
    if a.detached then s
    else
      match s.line.slot a.slot with
      | some q => tellConfirmed q { s with line := s.line.setSlot a.slot none }
      | none => s

/-- Entry into SILENT (R15). -/
def enterSilent (s : State) : State :=
  let s := dropAll s
  raise .lineFault
    { s with line := { s.line with state := .silent, failures := 0, silence := Config.silenceIntervals } }

/-- A failed attempt (R12, R9, R11), and the entry into SILENT at the sixteenth in a row (R15). Where the time of the failed
frame had run out, R11 and R15 both drop it at that moment: the drop of R11 is taken first, and the pointer moves to its source.
DESIGN CHOICE (log entry 42). -/
def failAttempt (s : State) : State :=
  match s.line.attempt with
  | none => s
  | some a =>
    let s := endAttempt 0 s
    let s := { s with line := { s.line with txErr := count s.line.txErr, failures := s.line.failures + 1 } }
    let s := releaseSlot a s
    if s.line.failures < Config.failureLimit then s else enterSilent s

/-! ## Entry into CLASH (R19) -/

/-- An attempt under way is given up, and nothing is counted for it (log entry 11). What other contenders go on sending is not
received: the station waits for an idle line. DESIGN CHOICE (log entry 43). -/
def giveUpAttempt (s : State) : State := if s.line.attempt.isSome then endAttempt 0 s else s

/-- A frame with the own number shows a clash: nothing happens in CLASH; else CLASH is entered. An attempt begun before the
frame was handed on ends there, since a CLASH station transmits no frame (R14, R19). DEDUCED (log entry 11). -/
def enterClash (s : State) : State :=
  if s.line.state = .clash then s
  else
    let s := giveUpAttempt (dropAll s)
    raise .clash { s with line := { s.line with state := .clash, failures := 0 } }

/-! ## Frames handed to the Interval Timer (R26, R30 to R34) -/

/-- A boundary at a frame: the points announced before it are taken first (R36). -/
def boundaryAt (kind : BoundaryKind) (number : IntervalNo) (order : Order) (s : State) : State :=
  takeBoundary kind number order (takePoints order s)

/-- A trailing MARK: an own pending MARK with its number is cancelled (R32). -/
def trailingMark (number : IntervalNo) (s : State) : State :=
  match s.line.markSlot with
  | some q => if q.frame.number = number then cancelSlot .mark s else s
  | none => s

/-- Of MISALIGN and the LATE of an abandoned computation, raised at one re-alignment, MISALIGN may be the first, and the
first-fault record then names it (R157; log entry 4). `before` is the state before the re-alignment. -/
def misalignNoted (order : Order) (before after : State) : State :=
  if order.misalignFirst && !Flag.misalign.isSet before.status.word then capture .misalign after else after

/-- A MARK handed to the Interval Timer (R26, R30 to R33). -/
def takeMark (profile : Fin 4) (number : IntervalNo) (order : Order) (s : State) : State :=
  if profile ≠ s.straps.intv then raise .profile s
  else
    match s.timer.state with
    | .listen => boundaryAt .listenMark number order s
    | .running =>
      if s.timer.c < s.profile.window then trailingMark number s
      else if s.profile.length - s.profile.window ≤ s.timer.c then boundaryAt .early number order s
      else misalignNoted order s (boundaryAt .realign number order (raise .misalign s))

/-- The header interval number that shows the sender in n+1 (R34). -/
def showsNext (body : FrameBody) (number n : IntervalNo) : Bool :=
  match body with
  | .offer _ => number == n + 2
  | .target _ _ _ _ => number == n + 2
  | .tally _ => number == n
  | .mark _ => false
  | .withdraw _ => false

/-- A header presented to the Interval Timer: in the early window it may be taken as a boundary (R34). -/
def presentHeader (body : FrameBody) (number : IntervalNo) (order : Order) (s : State) : State :=
  if s.timer.state = .running ∧ s.profile.length - s.profile.window ≤ s.timer.c ∧ showsNext body number s.timer.n then
    boundaryAt .implied (s.timer.n + 1) order s
  else s

/-! ## Frames handed to the Peer View (R86 to R88, R92, R93) -/

/-- Write a heard entry, replacing the sender's, in station number ascending (R83, R86). -/
def insertHeard (station : Fin 64) (v : OfferBody) : List Entry → List Entry
  | [] => [⟨station, v, none, .heard⟩]
  | e :: rest =>
    if station < e.station then ⟨station, v, none, .heard⟩ :: e :: rest
    else if station = e.station then ⟨station, v, none, .heard⟩ :: rest
    else e :: insertHeard station v rest

/-- RX_OFF_INTERVAL counts (R95). -/
def countOff (s : State) : State := { s with view := { s.view with rxOff := count s.view.rxOff } }

/-- RX_LATE counts (R95). -/
def countLate (s : State) : State := { s with view := { s.view with rxLate := count s.view.rxLate } }

/-- An OFFER handed to the Peer View (R86, R87). -/
def takeOffer (source : Fin 64) (number : IntervalNo) (v : OfferBody) (s : State) : State :=
  match s.view.phase with
  | .closed => countOff s
  | .frozen => if number = s.timer.n + 1 then countLate s else countOff s
  | .opened =>
    if number = s.timer.n + 1 then
      { s with view := { s.view with
          entries := insertHeard source v s.view.entries
          rxDup   := if s.view.entries.any (fun e => e.station == source) then count s.view.rxDup else s.view.rxDup } }
    else countOff s

/-- A received WITHDRAW, judged by the phase alone (R88). -/
def takeWithdraw (source : Fin 64) (s : State) : State :=
  match s.view.phase with
  | .closed => s
  | .frozen => countLate s
  | .opened => { s with view := { s.view with entries := s.view.entries.filter (fun e => e.station ≠ source) } }

/-- A TARGET handed to the Peer View (R92, R93). -/
def takeTarget (t : TargetPart) (s : State) : State :=
  match s.view.phase with
  | .closed => countOff s
  | .frozen => if t.interval = s.timer.n + 1 then countLate s else countOff s
  | .opened =>
    if t.interval = s.timer.n + 1 then
      match s.view.received with
      | none => { s with view := { s.view with received := some t } }
      | some old =>
        { s with view := { s.view with
            received := some (if old.source < t.source then old else t), rxDup := count s.view.rxDup } }
    else countOff s

/-! ## The receive filter (R17 to R20) -/

/-- The hand-off step by kind and role; a header is presented first (R20). -/
def handOff (f : Frame) (order : Order) (s : State) : State :=
  match f.body with
  | .mark p => takeMark p f.number order s
  | .withdraw _ =>
    match s.straps.role with
    | .charger => takeWithdraw f.source s
    | .feeder => s
  | .offer v =>
    let s := presentHeader f.body f.number order s
    match s.straps.role with
    | .charger => takeOffer f.source f.number v s
    | .feeder => s
  | .target m t h r =>
    let s := presentHeader f.body f.number order s
    match s.straps.role with
    | .charger => takeTarget ⟨f.source, f.number, m, t, h, r⟩ s
    | .feeder => s
  | .tally p =>
    let s := presentHeader f.body f.number order s
    match s.straps.role with
    | .charger => s
    | .feeder => takeTally f.source f.number p s

/-- The site step, the clash step and the hand-off step (R18 to R20). -/
def filterFrame (f : Frame) (order : Order) (s : State) : State :=
  if f.site ≠ s.straps.site then { s with line := { s.line with rxForeign := count s.line.rxForeign } }
  else if f.source = s.straps.stn then enterClash s
  else handOff f order { s with line := { s.line with rxGood := count s.line.rxGood } }

/-- RX_CHECK counts (R17). -/
def countCheck (s : State) : State := { s with line := { s.line with rxCheck := count s.line.rxCheck } }

/-- What was read has been read: the recessive bits it leaves (R6). A frame handed on during an attempt ended before the
attempt began, and it is the one such frame (R20; log entry 11). -/
def endReading (r : Received) (levels : List Level) (s : State) : State :=
  { s with line :=
    match s.line.attempt with
    | none => { s.line with recessiveRun := runAfter s.line.recessiveRun levels r, heard := [] }
    | some a => { s.line with attempt := some { a with handedOn := r != .nothing } } }

/-- The receive filter on what was read (R17). -/
def filterRead (r : Received) (order : Order) (s : State) : State :=
  match r with
  | .nothing => s
  | .framing => countCheck s
  | .corrupt => countCheck s
  | .frame f => filterFrame f order s

/-- Levels read from the line, to the end of a frame or its framing fault (R6, R17). -/
def receive (levels : List Level) (order : Order) (s : State) : State :=
  let r := readFrame s.line.heard s.line.recessiveRun levels
  filterRead r order (endReading r levels s)

/-! ## The commands of the line. A command whose event cannot occur leaves the state unchanged (log entry 3). -/

/-- FRAME_DEADLINE of one slot (R11). -/
def execFrameDeadline (slot : Slot) (s : State) : Host.Outcome State Fault Refusal := .next (takeDeadline slot s)

/-- FRAME_START after `recessive` further recessive bits (R7). -/
def execFrameStart (recessive : Nat) (s : State) : Host.Outcome State Fault Refusal :=
  match s.line.starts recessive with
  | some slot => .next (startSlot slot s)
  | none => .next s

/-- LOST_ARBITRATION with the levels read (R7). -/
def execLostArbitration (read : List Level) (s : State) : Host.Outcome State Fault Refusal :=
  if s.attemptEnded read .lost then .next (loseAttempt read s) else .next s

/-- FRAME_CONFIRMED with the levels read (R12). -/
def execFrameConfirmed (read : List Level) (s : State) : Host.Outcome State Fault Refusal :=
  if s.attemptEnded read .confirmed then .next (confirmAttempt s) else .next s

/-- TRANSMIT_FAILURE with the levels read (R12). -/
def execTransmitFailure (read : List Level) (s : State) : Host.Outcome State Fault Refusal :=
  if s.attemptEnded read .failed then .next (act failAttempt s) else .next s

/-- ENTER_SILENT: the transmit failure that brings the consecutive-failure count to 16 (R12, R15; log entry 5). -/
def execEnterSilent (read : List Level) (s : State) : Host.Outcome State Fault Refusal :=
  if s.attemptEnded read .failed && decide (Config.failureLimit ≤ s.line.failures + 1) then .next (act failAttempt s)
  else .next s

/-- A frame can be handed on: no own attempt is under way, or the frame's end field was read before the attempt began. The line
carries one frame at a time, so that is one frame for an attempt (R20). DEDUCED (log entry 11). -/
def LineUnit.canHandOn (u : LineUnit) : Bool :=
  match u.attempt with
  | none => true
  | some a => !a.handedOn

/-- FRAME_RECEIVED with the levels read (R17). -/
def execFrameReceived (levels : List Level) (order : Order) (s : State) : Host.Outcome State Fault Refusal :=
  if s.line.canHandOn then .next (act (receive levels order) s) else .next s

end Sys2Proof.Machine
end

