-- ==== Sys2Proof/WellFormed.lean ====
section
/-! DEFINITION. Which commands are well formed: the operands spell an event of the command's own row. A command that is not
well formed still has a meaning: it is turned away with the state unchanged (log entry 3). -/

namespace Sys2Proof

/-- The access kind of an access byte, bits 7..6 (R165): 0 READ, 1 READ_CLEAR, 2 POST, 3 no access. -/
def accessKind (b : Byte) : Nat := b.toNat / 64

/-- The access code of an access byte, bits 4..0 (R165). -/
def accessCode (b : Byte) : Nat := b.toNat % 32

/-- A READ_RECORD transaction: a READ or READ_CLEAR of any code but VIEW, other than a READ_CLEAR of STATUS, or a
transaction without effect (no whole access byte, or kind 3) (R165, R167). -/
def readsRecord : List Byte → Bool
  | [] => true
  | a :: _ =>
    (accessKind a == 3) ||
      (decide (accessKind a < 2) && accessCode a != 5 && !(accessKind a == 1 && accessCode a == 8))

/-- A READ_CLEAR of STATUS (R161). -/
def readsClearStatus : List Byte → Bool
  | [] => false
  | a :: _ => accessKind a == 1 && accessCode a == 8

/-- A POST transaction (R169). -/
def posts : List Byte → Bool
  | [] => false
  | a :: _ => accessKind a == 2

/-- A READ or READ_CLEAR of VIEW (R168). -/
def readsView (a : Byte) : Bool := decide (accessKind a < 2) && accessCode a == 5

/-- The bytes of a transfer fit the row `p` stands for. -/
def Transfer.fits (p : List Byte → Bool) : Transfer → Bool
  | .selectLow => true
  | .run bytes _ => p bytes

/-- The command's operands spell an event of its row. -/
def Instr.wellFormed : Instr → Bool
  | .deviceReset _ _ => true
  | .restart => true
  | .tick _ => true
  | .secondEvent => true
  | .stalePackData => true
  | .ownBoundary _ => true
  | .listenExpiry _ => true
  | .offerCompositionEnd => true
  | .freezePoint => true
  | .allocationComplete => true
  | .targetPoint => true
  | .targetCompositionEnd => true
  | .frameDeadline _ => true
  | .frameStart _ => true
  | .lostArbitration read => !read.isEmpty
  | .frameConfirmed read => !read.isEmpty
  | .transmitFailure read => !read.isEmpty
  | .enterSilent read => !read.isEmpty
  | .frameReceived levels _ => !levels.isEmpty
  | .statusReport _ => true
  | .exchangeLinkError => true
  | .linkLoss => true
  | .enableTimeout _ => true
  | .idleCountExpiry _ => true
  | .offRunComplete => true
  | .closingToVacant => true
  | .meterSample _ _ _ _ => true
  | .meterDiscard => true
  | .meterLoss => true
  | .postAcceptance transfer => transfer.fits posts
  | .readRecord transfer => transfer.fits readsRecord
  | .readClearStatus transfer => transfer.fits readsClearStatus
  | .readView (.header access _ _) => readsView access
  | .readView _ => true
  | .sessionOpen => true
  | .packReport => true
  | .departure => true
  | .sessionClose => true
  | .pause => true
  | .resume => true
  | .request => true
  | .siteLimit => true
  | .noticeEnable => true
  | .statusClear => true

end Sys2Proof
end

