-- ==== Sys2Proof/Machine/Operands.lean ====
section
/-! DEFINITION. The forms operands take on the service port: bytes and numbers, the post codes with their body lengths, and the
fields of every post body with their ranges (10_service_port.md R165, R173, R174; R45, R124). -/

namespace Sys2Proof.Machine

/-! ## Bytes and numbers (R174) -/

/-- The number that bytes spell, most significant first. -/
def bytesNat (bytes : List Byte) : Nat := bytes.foldl (fun v b => 256 * v + b.toNat) 0

/-- The field of `width` bytes that starts at byte `at_` of a body. -/
def field (body : List Byte) (at_ width : Nat) : Nat := bytesNat ((body.drop at_).take width)

/-- A number in `width` bytes, most significant first. -/
def natBytes : (width value : Nat) → List Byte
  | 0, _ => []
  | w + 1, v => BitVec.ofNat 8 (v / 256 ^ w) :: natBytes w v

/-- A signed number in `width` bytes of two's complement. -/
def intBytes (width : Nat) (value : Int) : List Byte := natBytes width (value % (256 ^ width : Nat)).toNat

/-- A yes/no or set/clear field. -/
def boolByte (b : Bool) : List Byte := natBytes 1 (if b then 1 else 0)

/-! ## Post codes (R173) -/

/-- The eleven posts. -/
inductive PostKind where
  | sessionOpen
  | packReport
  | departure
  | sessionClose
  | pause
  | resume
  | request
  | siteLimit
  | noticeEnable
  | statusClear
  | restart
deriving DecidableEq, Repr

/-- The post a code names, with its body length (R173). -/
def postOf : Nat → Option (PostKind × Nat)
  | 16 => some (.sessionOpen, 15)
  | 17 => some (.packReport, 7)
  | 18 => some (.departure, 6)
  | 19 => some (.sessionClose, 1)
  | 20 => some (.pause, 0)
  | 21 => some (.resume, 0)
  | 22 => some (.request, 5)
  | 23 => some (.siteLimit, 2)
  | 24 => some (.noticeEnable, 1)
  | 25 => some (.statusClear, 2)
  | 26 => some (.restart, 0)
  | _ => none

/-- The post a queued post is. -/
def Post.kind (p : Post) : Option PostKind := (postOf p.code).map Prod.fst

/-! ## Fields with their ranges (R45, R124) -/

/-- A field value and whether it was clamped. -/
structure Ranged (α : Type) where
  value   : α
  clamped : Bool
deriving DecidableEq, Repr

/-- A field clamped to low..high (R45). -/
def ranged (low high v : Nat) : Ranged Nat :=
  if v < low then ⟨low, true⟩ else if high < v then ⟨high, true⟩ else ⟨v, false⟩

/-- The outcome of an applied post by whether a field was clamped (R44). -/
def clampOutcome (clamped : Bool) : PostOutcome := if clamped then .clamped else .applied

/-- The pack state of a code; above 2 it is taken as STOPPED, a clamp (R45). -/
def packStateOf : Nat → Ranged PackState
  | 0 => ⟨.normal, false⟩
  | 1 => ⟨.derated, false⟩
  | 2 => ⟨.stopped, false⟩
  | _ => ⟨.stopped, true⟩

/-- The close reason of a code; above 2 it is taken as HOST_ABORT, a clamp (R45). -/
def closeReasonOf : Nat → Ranged CloseReason
  | 0 => ⟨.unplugged, false⟩
  | 1 => ⟨.departNow, false⟩
  | 2 => ⟨.hostAbort, false⟩
  | _ => ⟨.hostAbort, true⟩

/-- The request mode of a code; above 2 it is taken as IDLE, a clamp (R124). -/
def requestModeOf : Nat → Ranged Mode
  | 0 => ⟨.idle, false⟩
  | 1 => ⟨.exporting, false⟩
  | 2 => ⟨.importing, false⟩
  | _ => ⟨.idle, true⟩

/-- The session record a SESSION_OPEN body opens; none is REJECTED_RANGE (R44, R45, R46, R174). -/
def openRecord (body : List Byte) : Option (Ranged SessionRecord) :=
  let tag := field body 0 4
  let capacity := field body 4 3
  if tag = 0 ∨ capacity < 10000 then none
  else
    let c := ranged 10000 1000000 capacity
    let p := ranged 10 4000 (field body 7 2)
    let e := ranged 0 c.value (field body 9 3)
    let d := ranged 0 86400 (field body 12 3)
    some ⟨⟨tag, c.value, p.value, e.value, d.value, none, 0, false⟩,
      c.clamped || p.clamped || e.clamped || d.clamped⟩

/-- The pack data of a PACK_REPORT body (R45, R174). -/
def reportedPack (body : List Byte) : Ranged PackData :=
  let soc := ranged 0 1000 (field body 0 2)
  let dis := ranged 0 4000 (field body 2 2)
  let chg := ranged 0 4000 (field body 4 2)
  let st := packStateOf (field body 6 1)
  ⟨⟨soc.value, dis.value, chg.value, st.value⟩, soc.clamped || dis.clamped || chg.clamped || st.clamped⟩

end Sys2Proof.Machine
end

