-- ==== Sys2Proof/Machine/Port.lean ====
section
/-! DEFINITION. The Power Stage Port: the link's words, status reports, link errors, the ramp, the second event's part and the
meter (08_power_stage_port.md), and the second events of the Session Unit (R54, R56). -/

namespace Sys2Proof.Machine

/-! ## Words of the link (R139) -/

/-- The 16 data bits of a word. -/
def wordData (w : LinkWord) : BitVec 16 := w.extractLsb' 1 16

/-- The word's parity holds: the count of ones is odd (R139). -/
def parityHolds (w : LinkWord) : Bool := oddParity (wordData w) == w.getLsbD 0

/-- The request word of a meter word read, for word `k` of the four (R139). -/
def meterRequest (k : Fin 4) : LinkWord := linkWord (BitVec.ofNat 16 (32768 + k))

/-- The request words of a transaction, in the order in which the part sends them (R139, R149). -/
def Transaction.requests : Transaction → List LinkWord
  | .exchange word => [word]
  | .stop => [exchangeWord 0 false]
  | .meterRead => [meterRequest 0, meterRequest 1, meterRequest 2, meterRequest 3]

/-- The converter status of a code, if it is one of the five (R139). -/
def ConverterStatus.ofCode : Nat → Option ConverterStatus
  | 0 => some .off
  | 1 => some .precharge
  | 2 => some .ready
  | 3 => some .running
  | 4 => some .fault
  | _ => none

/-- The status a reply word carries; none is a link error: parity, or a code that is no converter state (R139). -/
def statusOf (reply : LinkWord) : Option ConverterStatus :=
  if parityHolds reply then ConverterStatus.ofCode (wordData reply).toNat else none

/-- An exchange is under way; a stop exchange is also taken between two words of the meter read under way (R139). -/
def State.exchanging (s : State) : Bool :=
  match s.port.link with
  | .exchange _ :: _ => true
  | .stop :: _ => true
  | .meterRead :: .stop :: _ => true
  | _ => false

/-- A meter read is under way. -/
def State.metering (s : State) : Bool :=
  match s.port.link with
  | .meterRead :: _ => true
  | _ => false

/-- The transaction under way ends, and the next that waits starts (R139). -/
def endTransaction (s : State) : State :=
  { s with port := { s.port with link := s.port.link.tail, owed := s.port.owed - 1 } }

/-- The exchange under way ends; a meter read it came into goes on with its next word (R139). -/
def endExchange (s : State) : State :=
  match s.port.link with
  | .meterRead :: .stop :: rest =>
    { s with port := { s.port with
        link := .meterRead :: rest, owed := if s.port.owed < 2 then s.port.owed else s.port.owed - 1 } }
  | _ => endTransaction s

/-! ## Status reports and link errors (R140 to R146) -/

/-- The effect of a status report in each port state (R141, R142, R144, R145, R146). It is judged in the state in which it is
taken: an OFF or PRECHARGE that was pending with a forced stop of the session, and is taken after it, finds DISABLED and no
dropout. DESIGN CHOICE between R141 and R148 (log entry 40). -/
def reportEffect (st : ConverterStatus) (s : State) : State :=
  match s.port.state with
  | .disabled =>
    match st with
    | .fault => enterFaulted .faultReport s
    | _ => s
  | .enabling =>
    match st with
    | .ready => { s with port := { s.port with state := .enabled, command := 0, idleCount := 0 } }
    | .running => { s with port := { s.port with state := .enabled, command := 0, idleCount := 0 } }
    | .fault => enterFaulted .faultReport s
    | _ => s
  | .enabled =>
    match st with
    | .fault => enterFaulted .faultReport s
    | .off => enterFaulted .dropout s
    | .precharge => enterFaulted .dropout s
    | _ => s
  | .disabling =>
    match st with
    | .off => { s with port := { s.port with state := .disabled } }
    | .fault => enterFaulted .faultReport s
    | _ => s
  | .faulted =>
    match st with
    | .off =>
      if s.port.offRun + 1 < Config.offRunLength then
        { s with port := { s.port with offRun := s.port.offRun + 1 } }
      else { s with port := { s.port with offRun := Config.offRunLength, state := .disabled } }
    | .fault => enterFaulted .faultReport { s with port := { s.port with offRun := 0 } }
    | _ => { s with port := { s.port with offRun := 0 } }
  | .meterOnly => s

/-- The exchange under way ends with a status report (R140). -/
def takeStatus (st : ConverterStatus) (s : State) : State :=
  let s := endExchange s
  reportEffect st { s with port := { s.port with lastStatus := some st, missCount := 0 } }

/-- A link error would be link loss: it brings the miss count to 3, and in FAULTED a count that stands at 3 causes nothing
more (R140). -/
def State.lossNext (s : State) : Bool :=
  decide (Config.lossCount ≤ s.port.missCount + 1) &&
    !(s.port.state == .faulted && decide (Config.lossCount ≤ s.port.missCount))

/-- The exchange under way ends in a link error: LINK_ERR and the miss count, link loss at 3, the OFF run of a FAULTED port
(R139, R140, R146). -/
def takeLinkError (s : State) : State :=
  let lost := s.lossNext
  let s := endExchange s
  let s := { s with port := { s.port with
    linkErr   := count s.port.linkErr
    missCount := min Config.lossCount (s.port.missCount + 1)
    offRun    := if s.port.state = .faulted then 0 else s.port.offRun } }
  if lost then enterFaulted .linkLoss s else s

/-- The reply to the exchange under way: a status report, or a link error (R139). -/
def takeReply (reply : LinkWord) (s : State) : State :=
  match statusOf reply with
  | some st => takeStatus st s
  | none => takeLinkError s

/-! ## The tick of the port (R140, R142 to R144) -/

/-- One ramp step judged by the export law: the command after it (R143). -/
def rampTo (command share : Int) (above : Bool) : Int :=
  let next := command + clampInt (-Config.rampStep) Config.rampStep (share - command)
  if command < next ∧ above = false then
    if 0 ≤ command then command else min next 0
  else next

/-- The ramp step of a tick in ENABLED and the idle count after it (R143, R144). -/
def rampTick (s : State) : State :=
  let command := rampTo s.port.command s.apply.share s.aboveReserve
  let idle := if s.apply.share = 0 ∧ command = 0 then s.port.idleCount + 1 else 0
  if idle < Config.idleTicks then
    { s with port := { s.port with command := command, idleCount := idle } }
  else
    { s with port := { s.port with command := command, idleCount := Config.idleTicks, state := .disabling, enable := false } }

/-- A tick in ENABLING: the enable wait, and the timeout at 50 (R142). A tick taken after a forced stop of the session finds
DISABLED, and no timeout (log entry 40). -/
def waitTick (s : State) : State :=
  let wait := s.port.enableWait + 1
  if wait < Config.enableTimeout then { s with port := { s.port with enableWait := wait } }
  else enterFaulted .enableTimeout { s with port := { s.port with enableWait := Config.enableTimeout } }

/-- The tick's exchange falls due with the command and the enable as they stand (R140). -/
def startExchange (s : State) : State :=
  { s with port := { s.port with link := s.port.link ++ [.exchange (exchangeWord s.port.command s.port.enable)] } }

/-- The port takes a tick (R140); in METER_ONLY it takes none (R147). On the tick of the enable timeout the forced stop of R142
with its stop exchange comes first, and that tick's exchange, with the enable off, after it. DESIGN CHOICE (log entry 39). -/
def portTick (s : State) : State :=
  match s.port.state with
  | .meterOnly => s
  | .enabled => startExchange (rampTick s)
  | .enabling => startExchange (waitTick s)
  | .disabled => startExchange s
  | .disabling => startExchange s
  | .faulted => startExchange s

/-! ## The meter (R149 to R153) -/

/-- The rating of the plausibility limit (R151, R123). -/
def State.rating (s : State) : Nat :=
  match s.straps.role with
  | .charger => match s.session.record with | some r => r.pRate | none => 4000
  | .feeder => match s.feeder.siteLimit with | some x => x | none => 65535

/-- J, the plausibility limit in tenths of a Wh (R151). -/
def plausible (rating : Nat) : Nat := rating * 5 / 9 + 10

/-- Increments of a plausible sample go to the Battery Account, or on a feeder to the site totals (R66, R129, R150). A composition
in flight ends first, so that no integration comes between its reading of the balance and its end (R80). -/
def handIncrements (dx dm : Nat) (s : State) : State :=
  match s.straps.role with
  | .charger => integrate dx dm (endOffer s)
  | .feeder =>
    { s with feeder := { s.feeder with
        exportTotal := s.feeder.exportTotal + dx, importTotal := s.feeder.importTotal + dm } }

/-- The end of a meter loss is reported (R153): the account, if it exists, is marked (R68); a feeder's loss mark stays to
the boundary (R129). -/
def endLoss (s : State) : State :=
  if s.port.meterLost then
    let s := { s with port := { s.port with meterLost := false } }
    match s.straps.role with
    | .charger => markResync s
    | .feeder => s
  else s

/-- A good sample (R150, R151, R153). -/
def goodSample (reading : MeterReading) (s : State) : State :=
  match s.port.reference with
  | none =>
    endLoss { s with port := { s.port with reference := some reading, discards := 0, lastSample := some .first } }
  | some ref =>
    let dx := (reading.exported - ref.exported).toNat
    let dm := (reading.imported - ref.imported).toNat
    let s := endLoss { s with port := { s.port with
      reference := some reading, discards := 0, lastDx := dx, lastDm := dm } }
    if plausible s.rating < dx ∨ plausible s.rating < dm then
      { s with port := { s.port with lastSample := some .jump, meterJump := count s.port.meterJump } }
    else handIncrements dx dm { s with port := { s.port with lastSample := some .good } }

/-- A meter loss begins (R152): the share is cut, METER is set, a feeder's loss mark is set (R129). -/
def beginLoss (s : State) : State :=
  let s := { s with port := { s.port with meterLost := true, reference := none } }
  let s := raise .meter (cut 0 .meterLost s)
  match s.straps.role with
  | .charger => s
  | .feeder => { s with feeder := { s.feeder with lossMark := true } }

/-- A sample is discarded: the discard count, and the loss at 3 (R149, R152). -/
def discardSample (s : State) : State :=
  let s := { s with port := { s.port with
    linkErr := count s.port.linkErr, lastSample := some .discarded, discards := min Config.lossCount (s.port.discards + 1) } }
  if s.port.discards = Config.lossCount ∧ s.port.meterLost = false then beginLoss s else s

/-- The meter read under way ends in a link error on a word (R149). -/
def takeDiscard (s : State) : State := discardSample (endTransaction s)

/-- The meter read under way ends with four reply words; a word whose parity fails ends it as a discard (R139, R149). -/
def takeSample (exportHigh exportLow importHigh importLow : LinkWord) (s : State) : State :=
  if parityHolds exportHigh && parityHolds exportLow && parityHolds importHigh && parityHolds importLow then
    goodSample ⟨wordData exportHigh ++ wordData exportLow, wordData importHigh ++ wordData importLow⟩ (endTransaction s)
  else takeDiscard s

/-! ## The second event (R24, R54, R56, R149) -/

/-- The second event of the session record: D and the pack-report age (R54, R56). -/
def secondTick (r : SessionRecord) : SessionRecord :=
  { r with depart := r.depart - 1, age := count r.age }

/-- The countdowns of a second event; the age reaching 60 in ENGAGED begins the stale condition: PACK_STALE is set and the
share cut (R54, R56). -/
def countSeconds (s : State) : State :=
  match s.session.record with
  | none => s
  | some r =>
    let s' := { s with session := { s.session with record := some (secondTick r) } }
    if s'.stale ∧ s.stale = false then raise .packStale (cut 0 .stale s') else s'

/-- The meter read of a second event falls due (R149); it starts when the transactions before it have ended (R139). -/
def requestRead (s : State) : State :=
  { s with port := { s.port with link := s.port.link ++ [.meterRead] } }

/-- The second event, taken after its tick. -/
def takeSecond (s : State) : State :=
  requestRead (countSeconds { s with time := { s.time with secondDue := false } })

/-- The second event will begin the stale condition (R56). -/
def State.staleNext (s : State) : Bool :=
  match s.session.record with
  | some r => s.session.state == .engaged && r.age + 1 == Config.staleAge
  | none => false

/-- Everything the link still holds ends in link errors: a reply that has not come before the next tick event has not
arrived (R139). DEDUCED (log entry 6). -/
def timeOutLink : (fuel : Nat) → State → State
  | 0, s => s
  | fuel + 1, s =>
    match s.port.link with
    | [] => s
    | .meterRead :: _ => timeOutLink fuel (act takeDiscard s)
    | _ => timeOutLink fuel (act takeLinkError s)

/-! ## The commands of the port and of the second event. A command whose event cannot occur leaves the state unchanged
(log entry 3). -/

/-- SECOND_EVENT (R24): the second event of a tenth tick, once that tick has been taken. -/
def execSecondEvent (s : State) : Host.Outcome State Fault Refusal :=
  if s.time.secondDue then .next (act takeSecond s) else .next s

/-- STALE_PACK_DATA: the second event that brings the age from 59 to 60 in ENGAGED (R56; log entry 5). -/
def execStalePackData (s : State) : Host.Outcome State Fault Refusal :=
  if s.time.secondDue && s.staleNext then .next (act takeSecond s) else .next s

/-- STATUS_REPORT with the reply word to the exchange under way (R139, R140). -/
def execStatusReport (reply : LinkWord) (s : State) : Host.Outcome State Fault Refusal :=
  if s.exchanging then .next (act (takeReply reply) s) else .next s

/-- EXCHANGE_LINK_ERROR: no reply word to the exchange under way (R139, R140). -/
def execExchangeLinkError (s : State) : Host.Outcome State Fault Refusal :=
  if s.exchanging then .next (act takeLinkError s) else .next s

/-- LINK_LOSS: the link error that brings the miss count to 3 (R140; log entry 5). -/
def execLinkLoss (s : State) : Host.Outcome State Fault Refusal :=
  if s.exchanging && s.lossNext then .next (act takeLinkError s) else .next s

/-- OFF_RUN_COMPLETE: the report of OFF that brings the OFF run to 10 in FAULTED (R146; log entry 5). -/
def execOffRunComplete (s : State) : Host.Outcome State Fault Refusal :=
  if s.exchanging && s.port.state == .faulted && decide (Config.offRunLength ≤ s.port.offRun + 1) then
    .next (act (takeStatus .off) s)
  else .next s

/-- METER_SAMPLE with the four reply words of the meter read under way (R149, R150). -/
def execMeterSample (exportHigh exportLow importHigh importLow : LinkWord) (s : State) : Host.Outcome State Fault Refusal :=
  if s.metering then .next (act (takeSample exportHigh exportLow importHigh importLow) s) else .next s

/-- METER_DISCARD: a link error on a word of the meter read under way (R149). -/
def execMeterDiscard (s : State) : Host.Outcome State Fault Refusal :=
  if s.metering then .next (act takeDiscard s) else .next s

/-- METER_LOSS: the discard that brings the discard count to 3 (R152; log entry 5). -/
def execMeterLoss (s : State) : Host.Outcome State Fault Refusal :=
  if s.metering && decide (Config.lossCount ≤ s.port.discards + 1) && !s.port.meterLost then .next (act takeDiscard s)
  else .next s

end Sys2Proof.Machine
end

