-- ==== Sys2Proof/Machine/Records.lean ====
section
/-! DEFINITION. The records as the supervisor reads them, byte by byte (R39, R62, R77, R96, R110, R137, R154, R163, R173, R174).
The layouts that R173 gives only by their tables follow the encodings of R174. DEDUCED (log entry 16). -/

namespace Sys2Proof.Machine

/-! ## Enumerations, numbered in the order of their lists (R174) -/

def Role.code : Role → Nat
  | .charger => 0
  | .feeder => 1

def TimingState.code : TimingState → Nat
  | .listen => 0
  | .running => 1

def boundaryCode : Option BoundaryKind → Nat
  | none => 0
  | some .own => 1
  | some .early => 2
  | some .implied => 3
  | some .realign => 4
  | some .listenMark => 5
  | some .listenExpiry => 6

def LineState.code : LineState → Nat
  | .active => 0
  | .silent => 1
  | .clash => 2

def SessionState.code : SessionState → Nat
  | .vacant => 0
  | .awaiting => 1
  | .engaged => 2
  | .stopped => 3
  | .closing => 4

def PackState.code : PackState → Nat
  | .normal => 0
  | .derated => 1
  | .stopped => 2

def closeCode : Option CloseReason → Nat
  | none => 0
  | some .unplugged => 1
  | some .departNow => 2
  | some .hostAbort => 3

def NoOfferReason.code : NoOfferReason → Nat
  | .role => 0
  | .line => 1
  | .timing => 2
  | .noDirection => 3
  | .withdrawn => 4

def Fate.code : Fate → Nat
  | .pending => 0
  | .confirmed => 1
  | .late => 2
  | .dropped => 3
  | .withdrawn => 4
  | .none => 5

def Phase.code : Phase → Nat
  | .closed => 0
  | .opened => 1
  | .frozen => 2

def Engine.code : Engine → Nat
  | .idle => 0
  | .computing _ _ => 1
  | .ready _ => 2

def LoadOutcome.code : LoadOutcome → Nat
  | .noResult => 0
  | .loaded => 1
  | .abandoned => 2
  | .discarded => 3
  | .notEngaged => 4
  | .paused => 5
  | .stale => 6
  | .meterLost => 7
  | .reserve => 8

def cutCode : Option Cut → Nat
  | none => 0
  | some .packClip => 1
  | some .reserve => 2
  | some .stale => 3
  | some .pause => 4
  | some .close => 5
  | some .stopped => 6
  | some .meterLost => 7
  | some .forcedStop => 8

def IdleReason.code : IdleReason → Nat
  | .none => 0
  | .limitUnset => 1
  | .noRequest => 2
  | .noMeasurement => 3
  | .abandoned => 4

def CorrectionReason.code : CorrectionReason → Nat
  | .none => 0
  | .noGoal => 1
  | .modeChange => 2
  | .dropped => 3
  | .noTally => 4

def PortState.code : PortState → Nat
  | .disabled => 0
  | .enabling => 1
  | .enabled => 2
  | .disabling => 3
  | .faulted => 4
  | .meterOnly => 5

def statusCode : Option ConverterStatus → Nat
  | some .off => 0
  | some .precharge => 1
  | some .ready => 2
  | some .running => 3
  | some .fault => 4
  | none => 5

def faultCode : Option FaultCause → Nat
  | none => 0
  | some .faultReport => 1
  | some .dropout => 2
  | some .enableTimeout => 3
  | some .linkLoss => 4

def sampleCode : Option SampleKind → Nat
  | some .good => 0
  | some .first => 1
  | some .jump => 2
  | some .discarded => 3
  | none => 4

def outcomeCode : Option PostOutcome → Nat
  | none => 0
  | some .applied => 1
  | some .clamped => 2
  | some .ignoredState => 3
  | some .ignoredRole => 4
  | some .rejectedRange => 5

def Acceptance.code : Acceptance → Nat
  | .accepted => 0
  | .refusedFull => 1
  | .refusedCode => 2
  | .refusedLength => 3

/-! ## Encodings (R174) -/

/-- An absent quantity reads 0. -/
def orZero (x : Option Nat) : Nat := match x with | some v => v | none => 0

/-- An absent station reads 255. -/
def stationByte (x : Option (Fin 64)) : List Byte := natBytes 1 (match x with | some v => v | none => 255)

/-- A quantity that may be none: a presence byte, then its bytes. -/
def optNat (width : Nat) (x : Option Nat) : List Byte := boolByte x.isSome ++ natBytes width (orZero x)

/-- A signed quantity that may be none: a presence byte, then its bytes. -/
def optInt (width : Nat) (x : Option Int) : List Byte :=
  boolByte x.isSome ++ intBytes width (match x with | some v => v | none => 0)

/-- Bits 0, 1, … of a number from a list of conditions. -/
def packBits : List Bool → Nat
  | [] => 0
  | b :: rest => (if b then 1 else 0) + 2 * packBits rest

/-- The four values of an OFFER: w_x, c_x, w_m, c_m. -/
def offerBytes (v : OfferBody) : List Byte :=
  natBytes 3 v.wx ++ natBytes 2 v.cx ++ natBytes 3 v.wm ++ natBytes 2 v.cm

/-! ## The records (R173, R174) -/

/-- IDENTITY (R173). -/
def identityRecord (s : State) : List Byte :=
  natBytes 2 Config.partNumber ++ natBytes 1 s.straps.stn ++ natBytes 1 (Role.code s.straps.role) ++
    natBytes 1 s.straps.site ++ natBytes 1 s.straps.intv ++ natBytes 1 s.straps.lr

/-- TIMING (R39). -/
def timingRecord (s : State) : List Byte :=
  natBytes 1 s.timer.state.code ++ natBytes 2 s.timer.n.toNat ++ natBytes 2 s.timer.c ++ natBytes 2 s.timer.listen ++
    (natBytes 1 s.straps.intv ++ natBytes 2 s.profile.length ++ natBytes 2 s.profile.freeze ++
      natBytes 2 s.profile.window ++ natBytes 2 s.profile.target) ++
    natBytes 1 (boundaryCode s.timer.lastKind) ++ natBytes 2 s.timer.lastNumber.toNat ++
    natBytes 1 s.line.state.code ++ natBytes 1 s.line.silence

/-- The record's fields from the bus tag to D; all 0 in VACANT (R62). -/
def sessionFields (r : Option SessionRecord) : List Byte :=
  match r with
  | some r =>
    natBytes 4 r.tag ++ natBytes 3 r.capacity ++ natBytes 2 r.pRate ++ natBytes 3 r.eRoute ++ natBytes 3 r.depart
  | none => List.replicate 15 0

/-- The pack data; 0 and NORMAL while absent (R62). -/
def packFields (p : Option PackData) : List Byte :=
  match p with
  | some p => natBytes 2 p.soc ++ natBytes 2 p.pDis ++ natBytes 2 p.pChg ++ natBytes 1 p.state.code
  | none => List.replicate 7 0

/-- The pack data of the session record. -/
def SessionUnit.pack (u : SessionUnit) : Option PackData := match u.record with | some r => r.pack | none => none

/-- SESSION (27 bytes, R174). -/
def sessionRecord (s : State) : List Byte :=
  natBytes 1 s.session.state.code ++ sessionFields s.session.record ++
    natBytes 1 (packBits [s.session.pack.isSome, s.paused, s.stale]) ++ packFields s.session.pack ++
    natBytes 2 (match s.session.record with | some r => r.age | none => 0) ++ natBytes 1 (closeCode s.session.lastClose)

/-- The values of the ACCOUNT record that are derived at capture; 0 and NONE while the account is absent (R77). -/
def derivedFields (s : State) : List Byte :=
  match s.account.account, s.session.record with
  | some _, some r =>
    natBytes 3 (eRes r) ++ natBytes 3 (eGoal r) ++ natBytes 2 (pCe r) ++ optNat 4 (restoreTime r)
  | _, _ => natBytes 3 0 ++ natBytes 3 0 ++ natBytes 2 0 ++ optNat 4 none

/-- ACCOUNT (R77). -/
def accountRecord (s : State) : List Byte :=
  let a := match s.account.account with
    | some a => a
    | none => ⟨0, false, ⟨.zero, 0, false, false⟩⟩
  boolByte s.account.account.isSome ++ natBytes 3 a.eNow ++ natBytes 1 a.residue ++ derivedFields s ++
    boolByte a.resyncPending ++ natBytes 3 a.last.eProj ++ offerBytes a.last.body ++
    boolByte a.last.exportOk ++ boolByte a.last.importOk ++
    natBytes 3 s.account.exportTotal ++ natBytes 3 s.account.importTotal ++ boolByte s.account.mark

/-- OFFER (R96); the reason reads 0 when an OFFER was composed. -/
def offerRecord (s : State) : List Byte :=
  let r := s.view.record
  natBytes 2 r.interval.toNat ++ boolByte r.composed ++ natBytes 1 (if r.composed then 0 else r.reason.code) ++
    natBytes 1 r.priority ++ offerBytes r.values ++ natBytes 1 r.fate.code

/-- The fields of a TARGET in the TARGET record, absent ones read as absent (R91, R174). -/
def targetFields (t : Option TargetPart) : List Byte :=
  match t with
  | some t =>
    stationByte (some t.source) ++ natBytes 2 t.interval.toNat ++ natBytes 1 t.mode.code ++ natBytes 2 t.level ++
      natBytes 2 t.headroom ++ natBytes 1 t.request
  | none => stationByte none ++ List.replicate 8 0

/-- TARGET (R96). -/
def targetRecord (s : State) : List Byte :=
  boolByte s.view.received.isSome ++ targetFields s.view.received ++
    boolByte s.view.used.isSome ++ targetFields (s.view.used.map UsedTarget.target) ++
    (match s.view.used with
      | some u => natBytes 1 u.hold ++ natBytes 2 u.usedFor.toNat
      | none => List.replicate 3 0)

/-- RESULT (31 bytes, R174). -/
def resultRecord (s : State) : List Byte :=
  let r := s.alloc.result
  boolByte r.present ++ natBytes 1 s.alloc.engine.code ++ natBytes 2 r.interval.toNat ++ natBytes 1 r.mode.code ++
    natBytes 2 r.level ++ natBytes 2 r.headroom ++ stationByte r.source ++ natBytes 1 r.request ++ natBytes 2 r.goal ++
    natBytes 1 r.viewCount ++ natBytes 1 r.eligible ++ natBytes 3 r.capSum ++ natBytes 2 r.shareSum ++
    intBytes 2 r.ownShare ++ natBytes 1 r.passes ++
    natBytes 1 (packBits [r.flags.short, r.flags.capped, r.flags.noTarget, r.flags.late]) ++
    intBytes 2 s.apply.share ++ natBytes 2 s.apply.interval.toNat ++ natBytes 1 s.apply.outcome.code ++
    boolByte s.apply.clipped ++ natBytes 1 (cutCode s.apply.lastCut)

/-- The first-fault record in STATUS; zeros while absent (R174). -/
def firstFaultFields (f : Option FirstFault) : List Byte :=
  match f with
  | some f =>
    natBytes 1 f.flag.position ++ natBytes 2 f.interval.toNat ++ natBytes 2 f.counter ++ intBytes 2 f.share ++
      natBytes 1 f.session.code
  | none => List.replicate 8 0

/-- STATUS (15 bytes, R174): bit 15 of the first two bytes is ANY. -/
def statusRecord (s : State) : List Byte :=
  natBytes 2 (s.status.word.toNat + if s.status.any then 32768 else 0) ++ natBytes 1 s.status.factors.toNat ++
    natBytes 1 s.status.enables.toNat ++ boolByte s.noticeLine ++ natBytes 1 (outcomeCode s.service.lastOutcome) ++
    boolByte s.status.first.isSome ++ firstFaultFields s.status.first

/-- COUNTERS: fifteen counters in the order of R173. -/
def countersRecord (s : State) : List Byte :=
  [s.line.txDone, s.line.txErr, s.line.txDropped, s.line.rxCheck, s.line.rxForeign, s.line.rxGood, s.timer.slip,
    s.view.rxDup, s.view.rxOff, s.view.rxLate, s.account.drift, s.feeder.tallyOff, s.feeder.tallyLate, s.port.linkErr,
    s.port.meterJump].flatMap (natBytes 2)

/-- POWER (R154). The enable is a yes/no value: on is 1 and off 0 (R174). DESIGN CHOICE (log entry 32). -/
def powerRecord (s : State) : List Byte :=
  natBytes 1 s.port.state.code ++ intBytes 2 s.port.command ++ boolByte s.port.enable ++
    natBytes 1 (statusCode s.port.lastStatus) ++ natBytes 1 s.port.enableWait ++ natBytes 1 s.port.idleCount ++
    natBytes 1 s.port.offRun ++ natBytes 1 s.port.missCount ++ natBytes 1 (faultCode s.port.lastCause) ++
    boolByte s.port.reference.isSome ++
    (match s.port.reference with
      | some r => natBytes 4 r.exported.toNat ++ natBytes 4 r.imported.toNat
      | none => List.replicate 8 0) ++
    natBytes 4 s.port.lastDx ++ natBytes 4 s.port.lastDm ++ natBytes 1 (sampleCode s.port.lastSample) ++
    natBytes 1 s.port.discards ++ boolByte s.port.meterLost ++ natBytes 2 s.rating ++ natBytes 2 (plausible s.rating)

/-- `slots` slots of a list: a presence byte and the entry's fields, unused slots read as absent (R174). -/
def slotBytes {α : Type} (used : α → List Byte) (unused : List Byte) : (slots : Nat) → List α → List Byte
  | 0, _ => []
  | n + 1, [] => boolByte false ++ unused ++ slotBytes used unused n []
  | n + 1, x :: rest => boolByte true ++ used x ++ slotBytes used unused n rest

/-- FEEDER (R137). The tally sum has no stated range and takes four bytes (R174). DESIGN CHOICE (log entry 33). The last
composition, which R138 calls none after a reset, has no presence byte of its own: R137 lists none, where R174 gives a part that
may be empty one. DESIGN CHOICE (log entry 37). The site measurement's valid or invalid is the presence byte of A, 1 for valid, and
no enumeration in the order listed. DESIGN CHOICE (log entry 38). -/
def feederRecord (s : State) : List Byte :=
  let u := s.feeder
  let r := u.record
  natBytes 1 (Role.code s.straps.role) ++ optNat 2 u.siteLimit ++
    natBytes 1 u.mode.code ++ natBytes 2 u.level ++ natBytes 1 u.valid ++ natBytes 1 u.request ++
    natBytes 1 u.tallies.length ++
    slotBytes (fun t : Tally => stationByte (some t.station) ++ intBytes 2 t.power) (stationByte none ++ natBytes 2 0) 64
      u.tallies ++
    intBytes 4 (tallySum u.tallies) ++ natBytes 4 u.exportTotal ++ natBytes 4 u.importTotal ++ boolByte u.lossMark ++
    optInt 4 u.measured ++
    slotBytes (fun g : Goal =>
      natBytes 2 g.interval.toNat ++ natBytes 1 g.mode.code ++ natBytes 2 g.goal ++ boolByte g.dropped)
      (natBytes 6 0) 2 u.goals ++
    natBytes 2 r.interval.toNat ++ natBytes 1 r.idleReason.code ++ intBytes 4 r.tallySum ++ natBytes 1 r.tallyCount ++
    optInt 4 r.measured ++ optInt 4 r.load ++ optNat 2 r.headroomOut ++ natBytes 1 r.correction.code ++
    intBytes 4 r.achieved ++ intBytes 4 r.error ++ intBytes 2 r.corrected ++
    natBytes 1 r.mode.code ++ natBytes 2 r.level ++ natBytes 2 r.headroom ++ natBytes 1 r.request

/-- The record a code names, other than VIEW; none for a code that names no such record (R173). -/
def recordOf (code : Nat) (s : State) : Option (List Byte) :=
  match code with
  | 0 => some (identityRecord s)
  | 1 => some (timingRecord s)
  | 2 => some (sessionRecord s)
  | 3 => some (accountRecord s)
  | 4 => some (offerRecord s)
  | 6 => some (targetRecord s)
  | 7 => some (resultRecord s)
  | 8 => some (statusRecord s)
  | 9 => some (countersRecord s)
  | 10 => some (powerRecord s)
  | 11 => some (feederRecord s)
  | _ => none

/-! ## VIEW (R168, R174) -/

/-- The VIEW header (4 bytes): phase, the interval n+1 the view is for (0 while CLOSED), and the entry count (R96). -/
def viewHeader (s : State) : List Byte :=
  natBytes 1 s.view.phase.code ++
    natBytes 2 (match s.view.phase with | .closed => 0 | _ => (s.timer.n + 1).toNat) ++
    natBytes 1 s.view.entries.length

/-- A VIEW entry (14 bytes); an index beyond the entry count gives an entry marked none (R168). -/
def viewEntry (e : Option Entry) : List Byte :=
  match e with
  | some e =>
    stationByte (some e.station) ++
      natBytes 1 ((if e.origin = .own then 1 else 0) + if e.share.isSome then 2 else 0) ++ offerBytes e.values ++
      intBytes 2 (match e.share with | some x => x | none => 0)
  | none => stationByte none ++ List.replicate 13 0

end Sys2Proof.Machine
end

