-- ==== Sys2Proof/Machine/Session.lean ====
section
/-! DEFINITION. The session posts as their owner applies them (03_bus_sessions.md), each with its outcome. -/

namespace Sys2Proof.Machine

/-- A state and the outcome of the post that led to it (R171). -/
abbrev Applied := State × PostOutcome

/-- The states in which DEPARTURE, SESSION_CLOSE, PAUSE and RESUME apply (R44). -/
def SessionState.inSession : SessionState → Bool
  | .awaiting => true
  | .engaged => true
  | .stopped => true
  | .vacant => false
  | .closing => false

/-- The session record replaced. -/
def setRecord (r : SessionRecord) (s : State) : State := { s with session := { s.session with record := some r } }

/-- SESSION_OPEN (R46): the record is created and AWAITING entered; the session mark is set (R75), in LISTEN as well, where no
interval is current. DESIGN CHOICE (log entry 29). -/
def applyOpen (body : List Byte) (s : State) : Applied :=
  if s.session.state ≠ .vacant then (s, .ignoredState)
  else
    match openRecord body with
    | none => (s, .rejectedRange)
    | some r =>
      (enterSession .awaiting
        { s with session := ⟨s.session.state, some r.value, none⟩, account := { s.account with mark := true } },
        clampOutcome r.clamped)

/-- The pack-limit clip of an ENGAGED report (R49). -/
def packClip (s : State) : State :=
  if s.limit s.apply.share < s.apply.share.natAbs then
    raise .clipped (cut (s.limit s.apply.share) .packClip s)
  else s

/-- What a report does in AWAITING: the first report (R47). -/
def firstReport (r : SessionRecord) (p : PackData) (s : State) : State :=
  let s := { s with account := { s.account with account := some (createAccount p.soc r.capacity) } }
  match p.state with
  | .stopped => enterSession .stopped (forcedStop s)
  | _ => if s.port.state = .faulted then enterSession .stopped s else enterSession .engaged s

/-- What a report does in ENGAGED (R48, R49, R52). -/
def engagedReport (p : PackData) (s : State) : State :=
  let s := resync p.soc s
  match p.state with
  | .stopped => forcedStop (enterStopped s)
  | _ => packClip s

/-- What a report does in STOPPED (R50). -/
def stoppedReport (p : PackData) (s : State) : State :=
  let s := resync p.soc s
  match p.state with
  | .stopped => forcedStop s
  | _ => if s.port.state = .faulted then s else enterSession .engaged s

/-- What a report does in CLOSING (R51). -/
def closingReport (p : PackData) (s : State) : State :=
  match p.state with
  | .stopped => forcedStop s
  | _ => s

/-- PACK_REPORT (R47 to R51): the pack data is replaced and the age set to 0, then the effect of the state. -/
def applyReport (body : List Byte) (s : State) : Applied :=
  let p := reportedPack body
  match s.session.record with
  | none => (s, .ignoredState)
  | some r =>
    let fresh := setRecord { r with pack := some p.value, age := 0 } s
    match s.session.state with
    | .vacant => (s, .ignoredState)
    | .awaiting => (firstReport r p.value fresh, clampOutcome p.clamped)
    | .engaged => (engagedReport p.value fresh, clampOutcome p.clamped)
    | .stopped => (stoppedReport p.value fresh, clampOutcome p.clamped)
    | .closing => (closingReport p.value fresh, clampOutcome p.clamped)

/-- DEPARTURE (R55): D and E_route are set and change nothing at once. -/
def applyDeparture (body : List Byte) (s : State) : Applied :=
  match s.session.record with
  | none => (s, .ignoredState)
  | some r =>
    if s.session.state.inSession then
      let d := ranged 0 86400 (field body 0 3)
      let e := ranged 0 r.capacity (field body 3 3)
      (setRecord { r with depart := d.value, eRoute := e.value } s, clampOutcome (d.clamped || e.clamped))
    else (s, .ignoredState)

/-- The reason of the WITHDRAW a close queues (R43, R59). -/
def closeWithdraw : CloseReason → WithdrawReason
  | .unplugged => .unplugged
  | .departNow => .closed
  | .hostAbort => .closed

/-- The forced stop of an UNPLUGGED close; the other reasons ramp (R59). -/
def closeStop (reason : CloseReason) (s : State) : State :=
  match reason with
  | .unplugged => forcedStop s
  | .departNow => s
  | .hostAbort => s

/-- SESSION_CLOSE (R59, R60). -/
def applyClose (body : List Byte) (s : State) : Applied :=
  let reason := closeReasonOf (field body 0 1)
  let s' := { s with session := { s.session with lastClose := some reason.value } }
  if s.session.state.inSession then
    (closeStop reason.value (enterSession .closing (withdraw (closeWithdraw reason.value) (cut 0 .close s'))),
      clampOutcome reason.clamped)
  else if s.session.state = .closing ∧ reason.value = .unplugged then
    (forcedStop s', clampOutcome reason.clamped)
  else (s, .ignoredState)

/-- PAUSE (R57). -/
def applyPause (s : State) : Applied :=
  match s.session.record with
  | none => (s, .ignoredState)
  | some r =>
    if s.session.state.inSession ∧ r.paused = false then
      (withdraw .paused (cut 0 .pause (setRecord { r with paused := true } s)), .applied)
    else (s, .ignoredState)

/-- RESUME (R58): the flag is cleared and nothing else changes at once. -/
def applyResume (s : State) : Applied :=
  match s.session.record with
  | none => (s, .ignoredState)
  | some r =>
    if s.session.state.inSession ∧ r.paused then (setRecord { r with paused := false } s, .applied)
    else (s, .ignoredState)

/-- REQUEST on a FEEDER (R124). -/
def applyRequest (body : List Byte) (s : State) : Applied :=
  let mode := requestModeOf (field body 0 1)
  let valid := ranged 1 255 (field body 3 1)
  ({ s with feeder := { s.feeder with
      mode := mode.value, level := field body 1 2, valid := valid.value, request := field body 4 1 } },
    clampOutcome (mode.clamped || valid.clamped))

/-- SITE_LIMIT on a FEEDER (R123). -/
def applyLimit (body : List Byte) (s : State) : Applied :=
  ({ s with feeder := { s.feeder with siteLimit := some (field body 0 2) } }, .applied)

/-- NOTICE_ENABLE (R160): all five enables are replaced at once; bits 7..5 are ignored (R174). -/
def applyEnable (body : List Byte) (s : State) : Applied :=
  ({ s with status := { s.status with enables := BitVec.ofNat 5 (field body 0 1) } }, .applied)

/-- STATUS_CLEAR (R158): the flags the mask selects become clear; bits 14 and 15 are ignored (R174). -/
def applyClear (body : List Byte) (s : State) : Applied :=
  ({ s with status := { s.status with word := s.status.word &&& ~~~(BitVec.ofNat 14 (field body 0 2)) } }, .applied)

/-- The role step of a session post: on a FEEDER it gives IGNORED_ROLE and changes nothing (R44). -/
def onCharger (effect : State → Applied) (s : State) : Applied :=
  match s.straps.role with
  | .charger => effect s
  | .feeder => (s, .ignoredRole)

/-- REQUEST and SITE_LIMIT on a CHARGER give IGNORED_ROLE and change nothing (R122). -/
def onFeeder (effect : State → Applied) (s : State) : Applied :=
  match s.straps.role with
  | .charger => (s, .ignoredRole)
  | .feeder => effect s

/-- The owner's rule for a post (R171); RESTART has none of this kind (R172). -/
def ownerRule (kind : PostKind) (body : List Byte) (s : State) : Applied :=
  match kind with
  | .sessionOpen => onCharger (applyOpen body) s
  | .packReport => onCharger (applyReport body) s
  | .departure => onCharger (applyDeparture body) s
  | .sessionClose => onCharger (applyClose body) s
  | .pause => onCharger applyPause s
  | .resume => onCharger applyResume s
  | .request => onFeeder (applyRequest body) s
  | .siteLimit => onFeeder (applyLimit body) s
  | .noticeEnable => applyEnable body s
  | .statusClear => applyClear body s
  | .restart => (s, .applied)

end Sys2Proof.Machine
end

