-- ==== Sys2Proof/Machine/Service.lean ====
section
/-! DEFINITION. The Service Port: transactions, reads, posting, the post FIFO and RESTART (10_service_port.md). -/

namespace Sys2Proof.Machine

/-! ## The post FIFO (R170 to R172) -/

/-- The head waits while a composition of its owner's is in flight (R170). An integration is whole within METER_SAMPLE, so
none is ever in flight between two commands. DEDUCED (log entry 19). -/
def PostKind.waits (kind : PostKind) (s : State) : Bool :=
  match kind with
  | .sessionOpen => s.view.composing.isSome
  | .packReport => s.view.composing.isSome
  | .departure => s.view.composing.isSome
  | .sessionClose => s.view.composing.isSome
  | .pause => s.view.composing.isSome
  | .resume => s.view.composing.isSome
  | .request => s.feeder.composing.isSome
  | .siteLimit => s.feeder.composing.isSome
  | .noticeEnable => false
  | .statusClear => false
  | .restart => false

/-- The head of the FIFO with its kind, if it can be applied now (R170). -/
def State.readyHead (s : State) : Option (PostKind × List Byte) :=
  match s.service.fifo with
  | [] => none
  | p :: _ =>
    match p.kind with
    | some kind => if kind.waits s then none else some (kind, p.body)
    | none => none

/-- The link after RESTART: on a CHARGER the stop exchange of its forced stop (R148, R155). DEDUCED (log entry 14). -/
def restartLink (role : Role) : List Transaction :=
  match role with
  | .charger => [.stop]
  | .feeder => []

/-- RESTART (R172): a forced stop, every block at its values after RESTART, an empty FIFO. The straps and the time base stay
(R1, R24), and the transaction under way runs on. -/
def restartState (s : State) : State :=
  { State.afterReset s.straps s.service.select s.pending with
    time    := s.time
    port    := { PortUnit.reset s.straps.role with link := restartLink s.straps.role }
    service := { ServiceUnit.reset s.service.select with out := s.service.out, window := s.service.window } }

/-- The head leaves the FIFO (R171). -/
def popHead (s : State) : State := { s with service := { s.service with fifo := s.service.fifo.tail, held := false } }

/-- The outcome is recorded and the POST factor set (R171). -/
def recordOutcome (r : Applied) : State :=
  cause .post { r.1 with service := { r.1.service with lastOutcome := some r.2 } }

/-- The head is applied by its owner, in one action (R171, R172). -/
def applyHead (kind : PostKind) (body : List Byte) (s : State) : State :=
  match kind with
  | .restart => restartState s
  | _ => act (fun s => recordOutcome (ownerRule kind body (popHead s))) s

/-- The head is applied if it is a `kind` and can be applied now. -/
def applyIfHead (kind : PostKind) (s : State) : State :=
  match s.readyHead with
  | some (k, body) => if k = kind then applyHead kind body s else s
  | none => s

/-- The head is applied if it can be applied now, whatever it is. -/
def applyReady (s : State) : State :=
  match s.readyHead with
  | some (kind, body) => applyHead kind body s
  | none => s

/-- Heads that can be applied are applied: at the latest before the next transaction and the next tick (R170). Two are the
most the FIFO holds. That a head which can be applied goes before the next select low and the next acceptance, so that nothing is
accepted behind such a head, a RESTART among them (R172), is a DESIGN CHOICE (log entry 41). -/
def flushPosts (s : State) : State := applyReady (applyReady s)

/-! ## The transaction (R165, R166) -/

/-- The port status byte (R166). -/
def portStatus (s : State) : Byte :=
  BitVec.ofNat 8 (64 * (Config.fifoSlots - s.service.fifo.length) + 16 * s.service.acceptance.code +
    if s.noticeLine then 8 else 0)

/-- Select goes low: the port status byte is taken and is the first byte out; posts accepted before have been applied as
far as they can be. DESIGN CHOICE (log entry 41). -/
def selectLow (s : State) : State :=
  match s.service.select with
  | .high =>
    let s := flushPosts s
    { s with service := { s.service with select := .low, out := [portStatus s], window := none } }
  | _ => s

/-- Select goes high: the transaction ends; a port that ignored it takes the next (R165, R172). -/
def selectHigh (s : State) : State :=
  { s with service := { s.service with select := .high, window := none } }

/-- Bytes are clocked out. -/
def clockOut (bytes : List Byte) (s : State) : State :=
  { s with service := { s.service with out := s.service.out ++ bytes } }

/-- `n` bytes of what the access supplies; beyond it zero bytes (R165). -/
def supply (n : Nat) (bytes : List Byte) : List Byte := bytes.take n ++ List.replicate (n - bytes.length) 0

/-- One command of a transaction whose rest is `body`, a function of the state at select low (R165). While the port ignores
the select line, or a VIEW window is open, the bytes have no effect. -/
def transact (transfer : Transfer) (fits : List Byte → Bool) (body : List Byte → Fin 8 → State → State) (s : State) : State :=
  match transfer with
  | .selectLow => selectLow s
  | .run bytes spare =>
    match s.service.select with
    | .ignored => selectHigh s
    | _ =>
      if fits bytes && s.service.window.isNone then selectHigh (body bytes spare (selectLow s)) else s

/-! ## Reading (R161, R167, R168) -/

/-- The bytes a READ clocks out after the access byte: the filler byte, then the record; zeros where no record is named
(R165, R167). -/
def readBytes (bytes : List Byte) (s : State) : List Byte :=
  match bytes with
  | [] => []
  | access :: rest =>
    let record := if accessKind access < 2 then (recordOf (accessCode access) s).getD [] else []
    supply rest.length (0 :: record)

/-- A READ_RECORD transaction after select low (R167). -/
def readBody (bytes : List Byte) (_spare : Fin 8) (s : State) : State := clockOut (readBytes bytes s) s

/-- The capture clears the factors it shows as set (R161). -/
def clearFactors (s : State) : State :=
  { s with status := { s.status with factors := s.status.factors &&& ~~~s.status.factors } }

/-- A READ_CLEAR of STATUS after select low; one that ends before the filler byte is whole captures and clears nothing
(R161, R167). -/
def clearBody (bytes : List Byte) (_spare : Fin 8) (s : State) : State :=
  if 2 ≤ bytes.length then clearFactors (clockOut (readBytes bytes s) s) else clockOut (readBytes bytes s) s

/-- The window a VIEW read asks for (R168). -/
def viewWindow (first count_ : Byte) : ViewCursor :=
  let i := min 63 first.toNat
  let k := if count_ = 0 then 1 else count_.toNat
  ⟨i, min k (64 - i)⟩

/-- The VIEW header is captured: after the access byte three zero bytes (two parameters and the filler), then the header. -/
def viewStart (first count_ : Byte) (s : State) : State :=
  let s := selectLow s
  clockOut (List.replicate 3 0 ++ viewHeader s)
    { s with service := { s.service with window := some (viewWindow first count_) } }

/-- The next entry of the window is captured at its own moment (R168); beyond the window zero bytes are clocked out. -/
def viewNext (s : State) : State :=
  match s.service.window with
  | none => s
  | some w =>
    if w.left = 0 then clockOut (List.replicate 14 0) s
    else
      clockOut (viewEntry s.view.entries[w.next]?)
        { s with service := { s.service with window := some ⟨w.next + 1, w.left - 1⟩ } }

/-- One moment of a VIEW read (R168). -/
def viewMoment (moment : ViewStep) (s : State) : State :=
  match moment with
  | .selectLow => selectLow s
  | .header access first count_ =>
    if s.service.select ≠ .ignored ∧ s.service.window = none ∧ readsView access then viewStart first count_ s else s
  | .entry => viewNext s
  | .selectHigh => selectHigh s

/-! ## Posting (R169) -/

/-- The acceptance of a POST at select high (R169). -/
def judgePost (bytes : List Byte) (spare : Fin 8) (s : State) : Acceptance :=
  match bytes with
  | [] => s.service.acceptance
  | access :: body =>
    match postOf (accessCode access) with
    | none => .refusedCode
    | some (_, length) =>
      if body.length ≠ length ∨ spare ≠ 0 then .refusedLength
      else if Config.fifoSlots ≤ s.service.fifo.length then .refusedFull
      else .accepted

/-- The post a POST transaction clocked in. -/
def postIn (bytes : List Byte) : Post :=
  match bytes with
  | [] => ⟨0, []⟩
  | access :: body => ⟨accessCode access, body⟩

/-- A POST after select low, judged when select goes high: zeros are clocked out during the body (R169). A head that can be
applied then is applied before the judgement. DESIGN CHOICE (log entry 41). -/
def postBody (bytes : List Byte) (spare : Fin 8) (s : State) : State :=
  let s := flushPosts (clockOut (List.replicate (bytes.length - 1) 0) s)
  let verdict := judgePost bytes spare s
  { s with service := { s.service with
      acceptance := verdict
      fifo := if verdict = .accepted then s.service.fifo ++ [postIn bytes] else s.service.fifo } }

/-! ## The commands of the service port. A post's command applies the head of the FIFO if it is that post and its owner is free
(R170); otherwise, and where the bytes belong to another row, the command leaves the state unchanged (log entry 3). -/

/-- SESSION_OPEN applied (R46). -/
def execSessionOpen (s : State) : Host.Outcome State Fault Refusal := .next (applyIfHead .sessionOpen s)

/-- PACK_REPORT applied (R47 to R51). -/
def execPackReport (s : State) : Host.Outcome State Fault Refusal := .next (applyIfHead .packReport s)

/-- DEPARTURE applied (R55). -/
def execDeparture (s : State) : Host.Outcome State Fault Refusal := .next (applyIfHead .departure s)

/-- SESSION_CLOSE applied (R59, R60). -/
def execSessionClose (s : State) : Host.Outcome State Fault Refusal := .next (applyIfHead .sessionClose s)

/-- PAUSE applied (R57). -/
def execPause (s : State) : Host.Outcome State Fault Refusal := .next (applyIfHead .pause s)

/-- RESUME applied (R58). -/
def execResume (s : State) : Host.Outcome State Fault Refusal := .next (applyIfHead .resume s)

/-- REQUEST applied (R124). -/
def execRequest (s : State) : Host.Outcome State Fault Refusal := .next (applyIfHead .request s)

/-- SITE_LIMIT applied (R123). -/
def execSiteLimit (s : State) : Host.Outcome State Fault Refusal := .next (applyIfHead .siteLimit s)

/-- NOTICE_ENABLE applied (R160). -/
def execNoticeEnable (s : State) : Host.Outcome State Fault Refusal := .next (applyIfHead .noticeEnable s)

/-- STATUS_CLEAR applied (R158). -/
def execStatusClear (s : State) : Host.Outcome State Fault Refusal := .next (applyIfHead .statusClear s)

/-- RESTART applied (R172). -/
def execRestart (s : State) : Host.Outcome State Fault Refusal := .next (applyIfHead .restart s)

/-- POST_ACCEPTANCE (R169). -/
def execPostAcceptance (transfer : Transfer) (s : State) : Host.Outcome State Fault Refusal :=
  .next (transact transfer posts postBody s)

/-- READ_RECORD (R167). -/
def execReadRecord (transfer : Transfer) (s : State) : Host.Outcome State Fault Refusal :=
  .next (transact transfer readsRecord readBody s)

/-- READ_CLEAR_STATUS (R161). -/
def execReadClearStatus (transfer : Transfer) (s : State) : Host.Outcome State Fault Refusal :=
  .next (transact transfer readsClearStatus clearBody s)

/-- READ_VIEW (R168). -/
def execReadView (moment : ViewStep) (s : State) : Host.Outcome State Fault Refusal := .next (viewMoment moment s)

end Sys2Proof.Machine
end

