-- ==== Sys2Proof/Machine/Tick.lean ====
section
/-! DEFINITION. The tick of the whole part with what must have ended before it, device reset, and their commands (R22, R24, R25,
R100, R139, R170). -/

namespace Sys2Proof.Machine

/-! ## What ends before a tick -/

/-- The Interval Timer takes the tick it has not taken yet (R37; log entry 4). -/
def takeDueTick (order : Order) (s : State) : State :=
  act (timerTick order) { s with time := { s.time with tickDue := false } }

/-- A tick the Interval Timer has not taken yet is taken before the next one. -/
def overdueTimer (order : Order) (s : State) : State := if s.time.tickDue then takeDueTick order s else s

/-- A second event not yet taken is taken before the next tick (R24). -/
def overdueSecond (s : State) : State := if s.time.secondDue then act takeSecond s else s

/-- Everything on the link ends before the next tick (R139): what was still owed from the tick before in any case, the rest
unless its results are taken after this tick (R142, R143, R148; log entry 4). One forced stop, for link loss, can add an
exchange. -/
def overdueLink (order : Order) (s : State) : State :=
  let s := timeOutLink s.port.owed s
  if order.repliesLater then { s with port := { s.port with owed := s.port.link.length } }
  else timeOutLink (s.port.link.length + 2) s

/-- Waiting posts are applied at the latest before the tick (R170), but for a head that becomes pending together with it and
is taken after it (R125; log entry 4). -/
def overduePosts (order : Order) (s : State) : State :=
  if order.postsLater && s.readyHead.isSome && !s.service.held then { s with service := { s.service with held := true } }
  else
    let s := flushPosts s
    { s with service := { s.service with held := false } }

/-- A computation completes no later than the third tick event after the freeze point (R100). One that lasts to the third ends
before that tick advances c, and never together with it. DESIGN CHOICE (log entry 36). -/
def allocationTick (s : State) : State :=
  match s.alloc.engine with
  | .computing i ticks =>
    if ticks + 1 < Config.allocationTicks then { s with alloc := { s.alloc with engine := .computing i (ticks + 1) } }
    else completeWith i s
  | _ => s

/-- What the manual says has come to its end before this tick and no command has ended yet: the last tick, the second event, the
link's transactions, the points announced, both compositions (R80, R136), waiting posts (R170), and at the third tick the
computation (R100; log entry 36). -/
def overdue (order : Order) (s : State) : State :=
  let s := act (takePoints order) (overdueLink order (overdueSecond (overdueTimer order s)))
  act allocationTick (overduePosts order (endTarget (endOffer s)))

/-! ## The tick (R24, R25, R140) -/

/-- This tick is a tenth one, and so a second event (R24). -/
def State.tenth (s : State) : Bool := decide (9 ≤ s.time.phase)

/-- The Interval Timer and the Power Stage Port take the tick, in the order chosen (R143; log entry 4). -/
def blocksTick (order : Order) (s : State) : State :=
  if order.portFirst then act (timerTick order) (act portTick s) else act portTick (act (timerTick order) s)

/-- The Interval Timer takes this tick later: it would be the own boundary or the listen expiry, and what comes next may be taken
before that boundary (R66, R129, R153; log entry 4). -/
def timerWaits (order : Order) (s : State) : Bool := order.timerLater && (s.ownBoundaryNext || s.expiryNext)

/-- The time base after a tick; a second event that was not taken first falls due (R24), and so does a tick that the Interval
Timer takes later. -/
def timeTick (tenth secondFirst waits : Bool) (s : State) : State :=
  { s with time := ⟨if tenth then 0 else s.time.phase + 1, tenth && !secondFirst, waits⟩ }

/-- A tick that finds nothing overdue. -/
def tickNow (order : Order) (s : State) : State :=
  let tenth := s.tenth
  let waits := timerWaits order s
  let first := tenth && order.secondFirst
  let s := if first then act countSeconds s else s
  let s := if waits then act portTick s else blocksTick order s
  let s := timeTick tenth order.secondFirst waits s
  if first then requestRead s else s

/-- A tick event (R24, R25). -/
def tickAll (order : Order) (s : State) : State := tickNow order (overdue order s)

/-! ## Device reset (R22, R40, R63, R78, R97, R121, R138, R155, R164, R172) -/

/-- Device reset and its release: the straps are sampled, every block takes its reset values, and a port that finds select
low waits for it to go high. -/
def deviceReset (straps : Straps) (selectLow : Bool) (s : State) : State :=
  State.afterReset straps (if selectLow then .ignored else .high) s.pending

/-! ## The commands. One whose event cannot occur leaves the state unchanged (log entry 3). -/

/-- DEVICE_RESET (R22). -/
def execDeviceReset (straps : Straps) (selectLow : Bool) (s : State) : Host.Outcome State Fault Refusal :=
  .next (deviceReset straps selectLow s)

/-- TICK (R25). -/
def execTick (order : Order) (s : State) : Host.Outcome State Fault Refusal := .next (tickAll order s)

/-- A tick that is a boundary, with that boundary: the tick still to be taken by the Interval Timer, else the next one. -/
def boundaryTick (order : Order) (s : State) : State :=
  if s.time.tickDue then takeDueTick order s else tickAll { order with timerLater := false } s

/-- OWN_BOUNDARY: the tick that would bring c to L (R28; log entry 5). -/
def execOwnBoundary (order : Order) (s : State) : Host.Outcome State Fault Refusal :=
  if s.ownBoundaryNext then .next (boundaryTick order s) else .next s

/-- LISTEN_EXPIRY: the tick that brings the listen count to 2L (R27; log entry 5). -/
def execListenExpiry (order : Order) (s : State) : Host.Outcome State Fault Refusal :=
  if s.expiryNext then .next (boundaryTick order s) else .next s

/-- ENABLE_TIMEOUT: the tick that brings the enable wait to 50 (R142; log entry 5). -/
def execEnableTimeout (order : Order) (s : State) : Host.Outcome State Fault Refusal :=
  if s.port.state == .enabling && decide (Config.enableTimeout ≤ s.port.enableWait + 1) then .next (tickAll order s)
  else .next s

/-- IDLE_COUNT_EXPIRY: the tick that brings the idle count to 10 (R144; log entry 5). -/
def execIdleCountExpiry (order : Order) (s : State) : Host.Outcome State Fault Refusal :=
  if s.port.state == .enabled && decide (Config.idleTicks ≤ s.port.idleCount + 1) && s.apply.share == 0 &&
      rampTo s.port.command s.apply.share s.aboveReserve == 0 then .next (tickAll order s)
  else .next s

/-- CLOSING_TO_VACANT (R61): taken as soon as its condition holds, so a command that finds it holding takes it (log entry 28). -/
def execClosingToVacant (s : State) : Host.Outcome State Fault Refusal := .next (vacate s)

end Sys2Proof.Machine
end

