-- ==== Sys2Proof/Machine/Dispatch.lean ====
section
/-! DEFINITION. The meaning of every command: one arm per row of spec/opcode_table.json. -/

namespace Sys2Proof.Machine

def exec (i : Instr) (s : State) : Host.Outcome State Fault Refusal :=
  match i with
  | .deviceReset straps selectLow => Sys2Proof.Machine.execDeviceReset straps selectLow s
  | .restart => Sys2Proof.Machine.execRestart s
  | .tick order => Sys2Proof.Machine.execTick order s
  | .secondEvent => Sys2Proof.Machine.execSecondEvent s
  | .stalePackData => Sys2Proof.Machine.execStalePackData s
  | .ownBoundary order => Sys2Proof.Machine.execOwnBoundary order s
  | .listenExpiry order => Sys2Proof.Machine.execListenExpiry order s
  | .offerCompositionEnd => Sys2Proof.Machine.execOfferCompositionEnd s
  | .freezePoint => Sys2Proof.Machine.execFreezePoint s
  | .allocationComplete => Sys2Proof.Machine.execAllocationComplete s
  | .targetPoint => Sys2Proof.Machine.execTargetPoint s
  | .targetCompositionEnd => Sys2Proof.Machine.execTargetCompositionEnd s
  | .frameDeadline slot => Sys2Proof.Machine.execFrameDeadline slot s
  | .frameStart recessive => Sys2Proof.Machine.execFrameStart recessive s
  | .lostArbitration read => Sys2Proof.Machine.execLostArbitration read s
  | .frameConfirmed read => Sys2Proof.Machine.execFrameConfirmed read s
  | .transmitFailure read => Sys2Proof.Machine.execTransmitFailure read s
  | .enterSilent read => Sys2Proof.Machine.execEnterSilent read s
  | .frameReceived levels order => Sys2Proof.Machine.execFrameReceived levels order s
  | .statusReport reply => Sys2Proof.Machine.execStatusReport reply s
  | .exchangeLinkError => Sys2Proof.Machine.execExchangeLinkError s
  | .linkLoss => Sys2Proof.Machine.execLinkLoss s
  | .enableTimeout order => Sys2Proof.Machine.execEnableTimeout order s
  | .idleCountExpiry order => Sys2Proof.Machine.execIdleCountExpiry order s
  | .offRunComplete => Sys2Proof.Machine.execOffRunComplete s
  | .closingToVacant => Sys2Proof.Machine.execClosingToVacant s
  | .meterSample a b c d => Sys2Proof.Machine.execMeterSample a b c d s
  | .meterDiscard => Sys2Proof.Machine.execMeterDiscard s
  | .meterLoss => Sys2Proof.Machine.execMeterLoss s
  | .postAcceptance transfer => Sys2Proof.Machine.execPostAcceptance transfer s
  | .readRecord transfer => Sys2Proof.Machine.execReadRecord transfer s
  | .readClearStatus transfer => Sys2Proof.Machine.execReadClearStatus transfer s
  | .readView moment => Sys2Proof.Machine.execReadView moment s
  | .sessionOpen => Sys2Proof.Machine.execSessionOpen s
  | .packReport => Sys2Proof.Machine.execPackReport s
  | .departure => Sys2Proof.Machine.execDeparture s
  | .sessionClose => Sys2Proof.Machine.execSessionClose s
  | .pause => Sys2Proof.Machine.execPause s
  | .resume => Sys2Proof.Machine.execResume s
  | .request => Sys2Proof.Machine.execRequest s
  | .siteLimit => Sys2Proof.Machine.execSiteLimit s
  | .noticeEnable => Sys2Proof.Machine.execNoticeEnable s
  | .statusClear => Sys2Proof.Machine.execStatusClear s

end Sys2Proof.Machine
end

