-- ==== Sys2Proof/Safety.lean ====
section
/-! DEFINITION. What every run keeps: the laws the manual states of the whole part, and the ones that rule out states no run
reaches; and what the statements name, the byte tables of R173 and R174 among it. -/

namespace Sys2Proof.Machine

/-! ## Interval Timer -/

/-- The counter law (R25): in RUNNING the counter lies in 0..L−1, in LISTEN it is 0. -/
def CounterLaw (s : State) : Prop :=
  match s.timer.state with
  | .running => s.timer.c < s.profile.length
  | .listen => s.timer.c = 0

/-- What else the TIMING record promises (R39, R40): the listen count is 0 in RUNNING and below 2L in LISTEN, where n is 0 and
no point has been announced (R36). -/
def ListenLaw (s : State) : Prop :=
  match s.timer.state with
  | .running => s.timer.listen = 0
  | .listen =>
    s.timer.listen < 2 * s.profile.length ∧ s.timer.n = 0 ∧ s.timer.freezeDue = false ∧ s.timer.targetDue = false

/-! ## Line Interface -/

/-- The line law (R14): a station whose line state is SILENT or CLASH transmits no frame; nor does one that receives the frame
to which it lost the arbitration (R7). -/
def LineLaw (s : State) : Prop :=
  (s.line.state ≠ .active → s.line.attempt = none) ∧ (s.line.heard ≠ [] → s.line.attempt = none)

/-- The counts of the line states (R12, R15, R16). -/
def SilenceLaw (s : State) : Prop :=
  s.line.failures < Config.failureLimit ∧
    match s.line.state with
    | .active => s.line.silence = 0
    | .silent => 0 < s.line.silence ∧ s.line.silence ≤ Config.silenceIntervals
    | .clash => s.line.silence ≤ Config.silenceIntervals

/-- An attempt that is not detached carries the frame that stands in its slot (R8, R9). -/
def CarryLaw (s : State) : Prop :=
  ∀ a, s.line.attempt = some a → a.detached = false → ∃ q, s.line.slot a.slot = some q ∧ q.frame = a.frame

/-! ## Peer View and Allocation Engine -/

/-- The Peer View law (R83): at most one entry for each station number, kept in station number ascending; an entry with the
own number only from the own confirmed OFFER; none while CLOSED. -/
def ViewLaw (s : State) : Prop :=
  s.view.entries.Pairwise (fun a b => a.station < b.station) ∧
    (∀ e ∈ s.view.entries, e.station = s.straps.stn ↔ e.origin = .own) ∧
    (s.view.phase = .closed → s.view.entries = [])

/-- The target record's used part has been held through at most two freezes (R91, R94). -/
def HoldLaw (s : State) : Prop := ∀ u, s.view.used = some u → u.hold ≤ 2

/-- The engine leaves IDLE only over a frozen view; it computes from the view's own entries, and a nonzero pending share is
the share field of the own entry (R98, R99, R106, R115). -/
def EngineLaw (s : State) : Prop :=
  match s.alloc.engine with
  | .idle => True
  | .computing i _ => s.view.phase = .frozen ∧ i.entries = s.view.entries
  | .ready share =>
    s.view.phase = .frozen ∧ (share ≠ 0 → ∃ e ∈ s.view.entries, e.origin = .own ∧ e.share = some share)

/-! ## Session Unit, Battery Account and Apply Stage -/

/-- The session state says what is present (R41, R42, R44, R64), and an ENGAGED session has a port that is not FAULTED
(R47, R50, R53). -/
def SessionLaw (s : State) : Prop :=
  (s.straps.role = .feeder → s.session.state = .vacant) ∧
    match s.session.state with
    | .vacant => s.session.record = none ∧ s.account.account = none
    | .awaiting => (∃ r, s.session.record = some r ∧ r.pack = none) ∧ s.account.account = none
    | .engaged =>
      (∃ r p, s.session.record = some r ∧ r.pack = some p) ∧ s.account.account.isSome ∧ s.port.state ≠ .faulted
    | .stopped => (∃ r p, s.session.record = some r ∧ r.pack = some p) ∧ s.account.account.isSome
    | .closing => s.session.record.isSome

/-- The ranges of the session record (R41). -/
def RecordLaw (s : State) : Prop :=
  ∀ r, s.session.record = some r →
    (1 ≤ r.tag ∧ r.tag ≤ 4294967295) ∧ (10000 ≤ r.capacity ∧ r.capacity ≤ 1000000) ∧ (10 ≤ r.pRate ∧ r.pRate ≤ 4000) ∧
      r.eRoute ≤ r.capacity ∧ r.depart ≤ 86400 ∧ r.age ≤ 65535 ∧
      ∀ p, r.pack = some p → p.soc ≤ 1000 ∧ p.pDis ≤ 4000 ∧ p.pChg ≤ 4000

/-- The account law (R66): while the account exists, E_now lies in 0..C; there is none while VACANT (R64). -/
def AccountLaw (s : State) : Prop :=
  (s.session.state = .vacant → s.account.account = none) ∧
    ∀ a r, s.account.account = some a → s.session.record = some r → a.balance ≤ 10 * r.capacity

/-- The applied share laws (R115): a share runs only in an ENGAGED session that is not paused, with fresh pack data and a
sound meter, and never above the limit of its direction. -/
def ShareLaw (s : State) : Prop :=
  (s.apply.share ≠ 0 →
    s.session.state = .engaged ∧ s.paused = false ∧ s.stale = false ∧ s.port.meterLost = false) ∧
    s.apply.share.natAbs ≤ s.limit s.apply.share

/-! ## Power Stage Port -/

/-- The port's states (8.2, R140, R142, R144 to R147): the command is nonzero in ENABLED alone, the enable is on in ENABLING
and ENABLED alone, a FEEDER is METER_ONLY and has no exchange on its link, and the counts stay in their ranges. -/
def PortLaw (s : State) : Prop :=
  (s.port.command ≠ 0 → s.port.state = .enabled) ∧
    (s.port.enable = true ↔ s.port.state = .enabling ∨ s.port.state = .enabled) ∧
    (s.port.state = .meterOnly ↔ s.straps.role = .feeder) ∧
    (s.straps.role = .feeder → ∀ x ∈ s.port.link, x = .meterRead) ∧
    s.port.enableWait ≤ Config.enableTimeout ∧ s.port.idleCount ≤ Config.idleTicks ∧
    s.port.offRun ≤ Config.offRunLength ∧ s.port.missCount ≤ Config.lossCount ∧ s.port.discards ≤ Config.lossCount

/-! ## Feeder Unit -/

/-- On a CHARGER the Feeder Unit keeps its reset values throughout (R122). -/
def ChargerLaw (s : State) : Prop :=
  s.straps.role = .charger → s.feeder = .reset ∧ s.timer.targetDue = false

/-- The tally list is kept in station number ascending, the goal list holds at most two entries, of different intervals, and
the valid count lies in 0..255 (R122, R126, R135). -/
def FeederLaw (s : State) : Prop :=
  s.feeder.tallies.Pairwise (fun a b => a.station < b.station) ∧
    s.feeder.goals.Pairwise (fun a b => a.interval ≠ b.interval) ∧ s.feeder.goals.length ≤ 2 ∧ s.feeder.valid ≤ 255

/-! ## Service Port and the end of an action -/

/-- The post FIFO law (R170): it holds at most two posts, each with the body length of its code. -/
def FifoLaw (s : State) : Prop :=
  s.service.fifo.length ≤ Config.fifoSlots ∧
    ∀ p ∈ s.service.fifo, ∃ kind, postOf p.code = some (kind, p.body.length)

/-- Nothing that follows at once is outstanding: a DISABLED port has an applied share of 0 (R141), and a CLOSING session waits
for its port or its command (R61). -/
abbrev Settled (s : State) : Prop := ¬(s.port.state = .disabled ∧ s.apply.share ≠ 0) ∧ s.mayVacate = false

/-- No event is due whose place before a tick the manual fixes outside the points and compositions: the last tick and its second
event have been taken, and the link is free. -/
structure NoEventDue (s : State) : Prop where
  tick   : s.time.tickDue = false
  second : s.time.secondDue = false
  link   : s.port.link = [] ∧ s.port.owed = 0

/-- No point is due: neither the freeze point nor the TARGET point announced, and no frame at its deadline. -/
structure NoPointDue (s : State) : Prop where
  freeze    : s.timer.freezeDue = false
  target    : s.timer.targetDue = false
  deadlines : ∀ slot, s.deadlineDue slot = false

/-- Nothing has come due that a tick must take first: no event, point, composition, post or computation. -/
structure Quiet (s : State) : Prop where
  events  : NoEventDue s
  points  : NoPointDue s
  offer   : s.view.composing = none
  target  : s.feeder.composing = none
  posts   : s.service.fifo = [] ∧ s.service.held = false
  engine  : ∀ i ticks, s.alloc.engine ≠ .computing i ticks

/-! ## What the statements name -/

/-- What every applied post leaves beside its own effect: it has left the FIFO, its outcome is the last one and the POST factor
is set (R171). The model's own mark of a held head goes with it (log entry 4). -/
def postDone (rest : List Post) (outcome : PostOutcome) (s : State) : State :=
  { s with
    service := { s.service with fifo := rest, held := false, lastOutcome := some outcome }
    status  := { s.status with factors := s.status.factors ||| 0b01000#5 } }

/-- The OFFER record after a withdrawal (R80 to R82): a composition in flight ends with the first condition that failed, and else
with WITHDRAWN; a pending OFFER that the record describes has the fate WITHDRAWN. -/
def recordWithdrawn (s : State) : OfferRecord :=
  match s.view.composing, s.line.offerSlot with
  | some ⟨interval, .nothing reason⟩, _ => ⟨interval, false, reason, 0, ⟨0, 0, 0, 0⟩, .none⟩
  | some ⟨interval, .offer _⟩, _ => ⟨interval, false, .withdrawn, 0, ⟨0, 0, 0, 0⟩, .none⟩
  | none, some q =>
    if q.expired = false ∧ s.view.record.composed = true ∧ s.view.record.interval = q.frame.number ∧
        s.view.record.fate = .pending then { s.view.record with fate := .withdrawn }
    else s.view.record
  | none, none => s.view.record

/-- The view after a withdrawal: no composition is in flight, and the own entry has left an OPEN view (R80, R89). -/
def viewWithdrawn (s : State) : ViewUnit :=
  { s.view with
    composing := none
    record    := recordWithdrawn s
    entries   :=
      if s.view.phase = .opened then s.view.entries.filter (fun e => e.station ≠ s.straps.stn) else s.view.entries }

/-- What a resync to the report's SoC makes of the account and DRIFT (R67, R69): beyond floor(C/100) Wh the balance becomes 10 ×
E_rep and DRIFT counts; within it only a forced resync moves the balance. -/
def Resynced (s t : State) (a : Account) (capacity soc : Nat) : Prop :=
  let rep := soc * capacity / 1000
  let beyond := capacity / 100 < (rep - a.eNow) + (a.eNow - rep)
  t.account = { s.account with
      account := some (if beyond ∨ a.resyncPending then { a with balance := 10 * rep, resyncPending := false } else a)
      drift := if beyond then count s.account.drift else s.account.drift } ∧
    (Flag.drift.isSet t.status.word = true ↔ beyond ∨ Flag.drift.isSet s.status.word = true)

/-! ## The byte tables of R173 and R174 -/

/-- A session state as its byte (R174). -/
def sessionStateByte (state : SessionState) : Byte :=
  match state with
  | .vacant => 0
  | .awaiting => 1
  | .engaged => 2
  | .stopped => 3
  | .closing => 4

/-- A signed quantity of two bytes, in two's complement. -/
def signedBytes (x : Int) : List Byte := natBytes 2 (x % 65536).toNat

/-- SESSION, byte 0 to byte 26. -/
def sessionBytes (s : State) : List Byte :=
  let pack := s.session.record.bind SessionRecord.pack
  let present : Byte := if pack = none then 0 else 1
  let paused : Byte := match s.session.record with
    | some r => if r.paused then 2 else 0
    | none => 0
  let stale : Byte := match s.session.record with
    | some r => if s.session.state = .engaged ∧ 60 ≤ r.age then 4 else 0
    | none => 0
  let close : Byte := match s.session.lastClose with
    | none => 0
    | some .unplugged => 1
    | some .departNow => 2
    | some .hostAbort => 3
  [sessionStateByte s.session.state] ++
    (match s.session.record with
      | some r =>
        natBytes 4 r.tag ++ natBytes 3 r.capacity ++ natBytes 2 r.pRate ++ natBytes 3 r.eRoute ++ natBytes 3 r.depart
      | none => List.replicate 15 0) ++
    [present ||| paused ||| stale] ++
    (match pack with
      | some p => natBytes 2 p.soc ++ natBytes 2 p.pDis ++ natBytes 2 p.pChg ++
        [match p.state with | .normal => 0 | .derated => 1 | .stopped => 2]
      | none => List.replicate 7 0) ++
    (match s.session.record with
      | some r => natBytes 2 r.age
      | none => [0, 0]) ++
    [close]

/-- RESULT, byte 0 to byte 30. -/
def resultBytes (s : State) : List Byte :=
  let r := s.alloc.result
  let present : Byte := if r.present then 1 else 0
  let engine : Byte := match s.alloc.engine with
    | .idle => 0
    | .computing _ _ => 1
    | .ready _ => 2
  let mode : Byte := match r.mode with
    | .idle => 0
    | .exporting => 1
    | .importing => 2
  let source : Byte := match r.source with
    | some station => BitVec.ofNat 8 station
    | none => 255
  let short : Byte := if r.flags.short then 1 else 0
  let capped : Byte := if r.flags.capped then 2 else 0
  let noTarget : Byte := if r.flags.noTarget then 4 else 0
  let late : Byte := if r.flags.late then 8 else 0
  let outcome : Byte := match s.apply.outcome with
    | .noResult => 0
    | .loaded => 1
    | .abandoned => 2
    | .discarded => 3
    | .notEngaged => 4
    | .paused => 5
    | .stale => 6
    | .meterLost => 7
    | .reserve => 8
  let clipped : Byte := if s.apply.clipped then 1 else 0
  let lastCut : Byte := match s.apply.lastCut with
    | none => 0
    | some .packClip => 1
    | some .reserve => 2
    | some .stale => 3
    | some .pause => 4
    | some .close => 5
    | some .stopped => 6
    | some .meterLost => 7
    | some .forcedStop => 8
  [present, engine] ++ natBytes 2 r.interval.toNat ++ [mode] ++ natBytes 2 r.level ++ natBytes 2 r.headroom ++
    [source, BitVec.ofNat 8 r.request] ++ natBytes 2 r.goal ++
    [BitVec.ofNat 8 r.viewCount, BitVec.ofNat 8 r.eligible] ++ natBytes 3 r.capSum ++ natBytes 2 r.shareSum ++
    signedBytes r.ownShare ++ [BitVec.ofNat 8 r.passes, short ||| capped ||| noTarget ||| late] ++
    signedBytes s.apply.share ++ natBytes 2 s.apply.interval.toNat ++ [outcome, clipped, lastCut]

/-- STATUS, byte 0 to byte 14. -/
def statusBytes (s : State) : List Byte :=
  let any : Byte := if s.status.word = 0 then 0 else 128
  let line : Byte := if s.status.factors &&& s.status.enables = 0 then 0 else 1
  let outcome : Byte := match s.service.lastOutcome with
    | none => 0
    | some .applied => 1
    | some .clamped => 2
    | some .ignoredState => 3
    | some .ignoredRole => 4
    | some .rejectedRange => 5
  [any ||| (s.status.word.extractLsb' 8 6).setWidth 8, s.status.word.setWidth 8, s.status.factors.setWidth 8,
      s.status.enables.setWidth 8, line, outcome] ++
    match s.status.first with
    | some f => [1, BitVec.ofNat 8 f.flag.position] ++ natBytes 2 f.interval.toNat ++ natBytes 2 f.counter ++
      signedBytes f.share ++ [sessionStateByte f.session]
    | none => List.replicate 9 0

/-- COUNTERS: fifteen counters of two bytes, in the order of R173. -/
def countersBytes (s : State) : List Byte :=
  natBytes 2 s.line.txDone ++ natBytes 2 s.line.txErr ++ natBytes 2 s.line.txDropped ++ natBytes 2 s.line.rxCheck ++
    natBytes 2 s.line.rxForeign ++ natBytes 2 s.line.rxGood ++ natBytes 2 s.timer.slip ++ natBytes 2 s.view.rxDup ++
    natBytes 2 s.view.rxOff ++ natBytes 2 s.view.rxLate ++ natBytes 2 s.account.drift ++
    natBytes 2 s.feeder.tallyOff ++ natBytes 2 s.feeder.tallyLate ++ natBytes 2 s.port.linkErr ++
    natBytes 2 s.port.meterJump

/-! ## What the statements say of queued and heard frames -/

/-- What queuing a frame into `slot` outside CLASH makes of the frame it finds there (R9): a frame whose time had run out counts
in TX_DROPPED, one replaced in time counts nothing, and an attempt for the slot is detached. -/
def Replaces (slot : Slot) (s t : State) : Prop :=
  (s.line.slot slot = none → t.line.txDropped = s.line.txDropped ∧ t.line.attempt = s.line.attempt) ∧
    ∀ old, s.line.slot slot = some old →
      (old.expired = true ∨ (∃ d, old.deadline = some d ∧ d ≤ s.timer.c) → t.line.txDropped = count s.line.txDropped) ∧
      (old.expired = false → (∀ d, old.deadline = some d → s.timer.c < d) → t.line.txDropped = s.line.txDropped) ∧
      t.line.attempt = s.line.attempt.map fun a => if a.slot = slot then { a with detached := true } else a

/-- The levels end the frame `f` as this station hears it (R6, R7, R20): after recessive bits that leave the line idle, or as the
rest of a frame of which it has read the beginning; and no own attempt is under way, or none has been handed on during it
(log entries 9, 11 and 44). -/
def Hears (s : State) (levels : List Level) (f : Frame) : Prop :=
  (∀ a, s.line.attempt = some a → a.handedOn = false) ∧
    (s.line.heard = [] ∧ (∃ idle, 10 ≤ s.line.recessiveRun + idle ∧ levels = List.replicate idle true ++ f.levels) ∨
      s.line.heard ≠ [] ∧ s.line.heard ++ levels = f.levels)

/-- The line after a frame has been read, with the recessive bits read last: the end field's eight, or 0 after a framing fault
(R6). A frame handed on during an attempt was read before it (log entries 9 and 11). -/
def LineUnit.afterReading (u : LineUnit) (recessive : Nat) : LineUnit :=
  match u.attempt with
  | none => { u with recessiveRun := recessive, heard := [] }
  | some a => { u with attempt := some { a with handedOn := true } }

/-- An exchange on the link can end, and `left` and `owed` are what it leaves: the head, or a stop exchange between two words
of the meter read under way (R139). -/
def ExchangeEnds (p : PortUnit) (left : List Transaction) (owed : Nat) : Prop :=
  (∃ x, p.link = x :: left ∧ x ≠ .meterRead ∧ owed = p.owed - 1) ∨
    ∃ rest, p.link = .meterRead :: .stop :: rest ∧ left = .meterRead :: rest ∧
      owed = if p.owed < 2 then p.owed else p.owed - 1

/-- The values both resets leave, block by block: the tables of R22, R40, R63, R78, R97, R121, R138, R155, R164 and what R172
says of the Service Port. The link, the straps, the time base and the select line differ between the two resets. -/
structure ResetValues (t : State) : Prop where
  line : t.line.state = .active ∧ t.line.markSlot = none ∧ t.line.withdrawSlot = none ∧ t.line.offerSlot = none ∧
    t.line.reportSlot = none ∧ t.line.pointer = .report ∧ t.line.failures = 0 ∧ t.line.silence = 0 ∧
    t.line.attempt = none ∧ t.line.recessiveRun = 0 ∧ t.line.heard = []
  lineCounters : t.line.txDone = 0 ∧ t.line.txErr = 0 ∧ t.line.txDropped = 0 ∧ t.line.rxCheck = 0 ∧
    t.line.rxForeign = 0 ∧ t.line.rxGood = 0
  timer : t.timer.state = .listen ∧ t.timer.n = 0 ∧ t.timer.c = 0 ∧ t.timer.listen = 0 ∧ t.timer.lastKind = none ∧
    t.timer.lastNumber = 0 ∧ t.timer.slip = 0
  session : t.session.state = .vacant ∧ t.session.record = none ∧ t.session.lastClose = none
  account : t.account.account = none ∧ t.account.exportTotal = 0 ∧ t.account.importTotal = 0 ∧ t.account.mark = false ∧
    t.account.drift = 0
  offer : t.view.composing = none ∧ t.view.record = ⟨0, false, .timing, 0, ⟨0, 0, 0, 0⟩, .none⟩
  view : t.view.phase = .closed ∧ t.view.entries = [] ∧ t.view.received = none ∧ t.view.used = none ∧
    t.view.rxDup = 0 ∧ t.view.rxOff = 0 ∧ t.view.rxLate = 0
  engine : t.alloc.engine = .idle ∧
    t.alloc.result = ⟨false, 0, .idle, 0, 0, none, 0, 0, 0, 0, 0, 0, 0, 0, ⟨false, false, false, false⟩⟩
  apply : t.apply.share = 0 ∧ t.apply.interval = 0 ∧ t.apply.outcome = .noResult ∧ t.apply.clipped = false ∧
    t.apply.lastCut = none
  feeder : t.feeder.siteLimit = none ∧ t.feeder.mode = .idle ∧ t.feeder.level = 0 ∧ t.feeder.valid = 0 ∧
    t.feeder.request = 0 ∧ t.feeder.tallies = [] ∧ t.feeder.exportTotal = 0 ∧ t.feeder.importTotal = 0 ∧
    t.feeder.lossMark = false ∧ t.feeder.measured = none ∧ t.feeder.goals = [] ∧ t.feeder.composing = none ∧
    t.feeder.record = ⟨0, .none, 0, 0, none, none, none, .none, 0, 0, 0, .idle, 0, 0, 0⟩ ∧
    t.feeder.tallyOff = 0 ∧ t.feeder.tallyLate = 0
  port : t.port.state = (match t.straps.role with | .charger => .disabled | .feeder => .meterOnly) ∧ t.port.command = 0 ∧
    t.port.enable = false ∧ t.port.enableWait = 0 ∧ t.port.idleCount = 0 ∧ t.port.offRun = 0 ∧ t.port.missCount = 0 ∧
    t.port.lastStatus = none ∧ t.port.lastCause = none ∧ t.port.reference = none ∧ t.port.lastDx = 0 ∧
    t.port.lastDm = 0 ∧ t.port.lastSample = none ∧ t.port.discards = 0 ∧ t.port.meterLost = false ∧
    t.port.linkErr = 0 ∧ t.port.meterJump = 0
  rating : t.rating = match t.straps.role with | .charger => 4000 | .feeder => 65535
  status : t.status.word = 0 ∧ t.status.factors = 0 ∧ t.status.enables = 0 ∧ t.status.first = none ∧
    t.noticeLine = false
  service : t.service.fifo = [] ∧ t.service.acceptance = .accepted ∧ t.service.lastOutcome = none

/-! ## The laws together -/

/-- Every law of this file that a run keeps. -/
structure Laws (s : State) : Prop where
  counter : CounterLaw s
  listen  : ListenLaw s
  line    : LineLaw s
  silence : SilenceLaw s
  carry   : CarryLaw s
  view    : ViewLaw s
  hold    : HoldLaw s
  engine  : EngineLaw s
  session : SessionLaw s
  record  : RecordLaw s
  account : AccountLaw s
  share   : ShareLaw s
  port    : PortLaw s
  charger : ChargerLaw s
  feeder  : FeederLaw s
  fifo    : FifoLaw s
  settled : Settled s

end Sys2Proof.Machine
end

