-- ==== Sys2Proof/Certificates/Slice0/Obligations.lean ====
section
/-! DEFINITION. The statements for the provers. -/

open Sys2Proof Sys2Proof.Machine

/-! ## The queue, and what every command keeps -/

/-- One step takes the command at the front of the queue and runs it on the queue's rest. That an empty queue leaves the state
as it is is the model's choice (log entry 2). -/
def Obligations.StepTakesTheFrontCommand : Prop :=
  (∀ (c : Instr) (rest : List Instr) (s : State),
    step { s with pending := c :: rest } = exec c { s with pending := rest }) ∧
  ∀ s : State, s.pending = [] → step s = .next s

/-- Every command ends in a next state, in every state: no command stops the part. That a command whose event cannot occur
leaves the state as it is is the model's choice (log entry 3). -/
def Obligations.EveryCommandEndsInANextState : Prop :=
  ∀ (c : Instr) (s : State), ∃ t, exec c s = .next t

/-- The straps are sampled by DEVICE_RESET alone; every other command, RESTART among them, leaves them as they are (R1). That no
command touches the queue of waiting commands, a field of the model's own, is the model's choice (log entries 2 and 24). -/
def Obligations.StrapsAreHeldUntilDeviceReset : Prop :=
  (∀ straps low s, ∃ t, exec (.deviceReset straps low) s = .next t ∧ t.straps = straps) ∧
  (∀ (c : Instr) (s t : State), (∀ straps low, c ≠ .deviceReset straps low) → exec c s = .next t → t.straps = s.straps) ∧
  ∀ (c : Instr) (s t : State), exec c s = .next t → t.pending = s.pending

/-- DEVICE_RESET leaves every value the reset tables give, with the new straps, a time base that starts anew, nothing on the
link, and a port that waits for select to go high if it finds it low. That assertion and release are one command is the
model's choice (log entry 23). -/
def Obligations.DeviceResetLeavesTheResetValues : Prop :=
  ∀ straps low s, ∃ t, exec (.deviceReset straps low) s = .next t ∧ ResetValues t ∧ t.straps = straps ∧
    t.time = ⟨0, false, false⟩ ∧ t.port.link = [] ∧ (low = true → t.service.select = .ignored) ∧
    (low = false → t.service.select = .high)

/-- RESTART at the head of the FIFO leaves the same values; the straps, the time base, the select line and the transaction
under way stay, and any post behind it is gone. A CHARGER's stop exchange is under way: that part is the model's reading (log
entry 14). -/
def Obligations.RestartLeavesTheResetValues : Prop :=
  ∀ body rest s, s.service.fifo = ⟨26, body⟩ :: rest →
    ∃ t, exec .restart s = .next t ∧ ResetValues t ∧ t.straps = s.straps ∧ t.time = s.time ∧
      t.service.select = s.service.select ∧ t.service.out = s.service.out ∧ t.service.window = s.service.window ∧
      t.port.link = match s.straps.role with | .charger => [.stop] | .feeder => []

/-- The machine right after reset meets every law that the other statements take as a premise. The straps of State.reset are
the model's choice (log entry 1), so the law is stated for every strap. -/
def Obligations.ResetMeetsEveryLaw : Prop :=
  Laws State.reset ∧ ∀ straps select pending, Laws (State.afterReset straps select pending)

/-! ## Laws that every step keeps -/

/-- The counter law, and what the TIMING record promises of the listen count and of LISTEN (R25, R26, R39, R40). -/
def Obligations.StepKeepsTheCounterLaw : Prop :=
  ∀ s t, CounterLaw s ∧ ListenLaw s → step s = .next t → CounterLaw t ∧ ListenLaw t

/-- The line law, with the counts of the line states and the frame an attempt carries (R8, R9, R12, R14 to R16). -/
def Obligations.StepKeepsTheLineLaw : Prop :=
  ∀ s t, LineLaw s ∧ SilenceLaw s ∧ CarryLaw s → step s = .next t → LineLaw t ∧ SilenceLaw t ∧ CarryLaw t

/-- The Peer View law, the bound of the hold count, and the engine's law: it works on the frozen view alone, and a nonzero
pending share comes from the own entry (R83, R94, R98, R99, R106, R115). -/
def Obligations.StepKeepsTheViewAndEngineLaws : Prop :=
  ∀ s t, ViewLaw s ∧ HoldLaw s ∧ EngineLaw s → step s = .next t → ViewLaw t ∧ HoldLaw t ∧ EngineLaw t

/-- What the session state says of record, account and port, and the ranges of the record (R41, R42, R44, R53, R64). -/
def Obligations.StepKeepsTheSessionLaw : Prop :=
  ∀ s t, SessionLaw s ∧ RecordLaw s → step s = .next t → SessionLaw t ∧ RecordLaw t

/-- The account law: while the account exists, E_now lies in 0..C (R66). -/
def Obligations.StepKeepsTheAccountLaw : Prop :=
  ∀ s t, AccountLaw s → step s = .next t → AccountLaw t

/-- The applied share laws (R115): a share runs only in an ENGAGED session, not paused, and never above its limit. -/
def Obligations.StepKeepsTheAppliedShareLaws : Prop :=
  ∀ s t, ShareLaw s → step s = .next t → ShareLaw t

/-- The port's states (8.2): the command is 0 outside ENABLED, the enable is on in ENABLING and ENABLED alone, a FEEDER stays
METER_ONLY, and the small counts stay in their ranges. -/
def Obligations.StepKeepsThePortLaw : Prop :=
  ∀ s t, PortLaw s → step s = .next t → PortLaw t

/-- A CHARGER's Feeder Unit keeps its reset values; a FEEDER's tally list stays in order and its goal list within two entries
(R122, R126, R135). -/
def Obligations.StepKeepsTheFeederLaws : Prop :=
  ∀ s t, ChargerLaw s ∧ FeederLaw s → step s = .next t → ChargerLaw t ∧ FeederLaw t

/-- The post FIFO holds at most two posts, each as long as its code says (R169, R170), and nothing that follows at once is
left outstanding by a step: the enable request and the passage to VACANT (R61, R141). -/
def Obligations.StepKeepsThePostFifoLaw : Prop :=
  ∀ s t, FifoLaw s ∧ Settled s → step s = .next t → FifoLaw t ∧ Settled t

/-- The FAULT factor and the first-fault record (R157, R159, R162). The record changes only when the FAULT factor goes from clear
to set, or at a reset: outside DEVICE_RESET and a RESTART, a changed record is that of a flag that was clear and, unless a
STATUS_CLEAR cleared it again, is set; and FAULT is set, unless a READ_CLEAR cleared it again. In a command that is one action, a
flag that goes from clear to set causes FAULT; where FAULT was clear, the record takes the flag of lowest position with n, c,
share and session state as the action leaves them, or MISALIGN where a re-alignment raised it first; otherwise the record stays.
That an action's record is taken at its end is the model's reading of R162 (log entry 20). -/
def Obligations.FirstFaultChangesOnlyAtItsTransition : Prop :=
  (∀ (c : Instr) (s t : State), exec c s = .next t → t.status.first ≠ s.status.first →
    (∀ straps low, c ≠ .deviceReset straps low) → (∀ p ∈ s.service.fifo, p.code ≠ 26) →
    Factor.fault.isSet s.status.factors = false ∧
      ((∀ transfer, c ≠ .readClearStatus transfer) → Factor.fault.isSet t.status.factors = true) ∧
      ∃ r, t.status.first = some r ∧
        ((∀ p ∈ s.service.fifo, p.code ≠ 25) → r.flag.isSet s.status.word = false ∧ r.flag.isSet t.status.word = true)) ∧
  ∀ (c : Instr) (s t : State), exec c s = .next t → Settled s →
    (∀ o, c ≠ .tick o ∧ c ≠ .ownBoundary o ∧ c ≠ .listenExpiry o ∧ c ≠ .enableTimeout o ∧ c ≠ .idleCountExpiry o) →
    (∀ x, c ≠ .postAcceptance x ∧ c ≠ .readRecord x ∧ c ≠ .readClearStatus x) → (∀ x, c ≠ .readView x) →
    (∀ straps low, c ≠ .deviceReset straps low) → c ≠ .restart →
    (∀ f : Flag, f.isSet s.status.word = false → f.isSet t.status.word = true →
      Factor.fault.isSet t.status.factors = true ∧
      (Factor.fault.isSet s.status.factors = true → t.status.first = s.status.first) ∧
      (Factor.fault.isSet s.status.factors = false → ∃ g : Flag,
        t.status.first = some ⟨g, t.timer.n, t.timer.c, t.apply.share, t.session.state⟩ ∧
        g.isSet s.status.word = false ∧ g.isSet t.status.word = true ∧
        (g.position ≤ f.position ∨ g = .misalign ∧ ∃ levels o, c = .frameReceived levels o ∧ o.misalignFirst = true))) ∧
    ((∀ f : Flag, f.isSet t.status.word = true → f.isSet s.status.word = true) → t.status.first = s.status.first)

/-- Between boundaries the applied share is only reduced toward zero (R116): a command that takes no boundary never raises its
magnitude and never turns its sign. A boundary leaves LISTEN or sets c to 0 from a count above 0 (R27 to R29, R31, R33, R34), so
a command takes none if it brings neither a tick nor a frame, or if after it the timing state is the same and c has not fallen: a
tick within the interval, a trailing MARK, a MARK of another profile. -/
def Obligations.BetweenBoundariesTheShareOnlyFalls : Prop :=
  ∀ (c : Instr) (s t : State), exec c s = .next t →
    ((∀ o, c ≠ .tick o ∧ c ≠ .ownBoundary o ∧ c ≠ .listenExpiry o ∧ c ≠ .enableTimeout o ∧ c ≠ .idleCountExpiry o ∧
        ∀ levels, c ≠ .frameReceived levels o) ∨
      t.timer.state = s.timer.state ∧ s.timer.c ≤ t.timer.c) →
    (0 ≤ s.apply.share → 0 ≤ t.apply.share ∧ t.apply.share ≤ s.apply.share) ∧
    (s.apply.share ≤ 0 → s.apply.share ≤ t.apply.share ∧ t.apply.share ≤ 0)

/-- The ramp law (R143, R145, R148): a command of the part moves the setpoint command by at most 50 hW or to 0, and one that
brings no tick leaves it or brings it to 0. Where the port law and the applied share laws hold, a command that brings no tick
and moves it leaves it at 0 with the enable off, and so does one that moves it by more than 50 hW, as a forced stop does; only
a tick that takes such a stop first and then a boundary with a new share finds the port in ENABLING again (R141). -/
def Obligations.SetpointMovesByAtMostFiftyOrToZero : Prop :=
  ∀ (c : Instr) (s t : State), exec c s = .next t →
    (let noTick := ∀ o, c ≠ .tick o ∧ c ≠ .ownBoundary o ∧ c ≠ .listenExpiry o ∧ c ≠ .enableTimeout o ∧ c ≠ .idleCountExpiry o
     ((t.port.command - s.port.command).natAbs ≤ 50 ∨ t.port.command = 0) ∧
      (noTick → t.port.command = s.port.command ∨ t.port.command = 0) ∧
      (PortLaw s → ShareLaw s → noTick →
        t.port.command = s.port.command ∨ t.port.command = 0 ∧ t.port.enable = false) ∧
      (PortLaw s → ShareLaw s → 50 < (t.port.command - s.port.command).natAbs →
        t.port.command = 0 ∧ (t.port.enable = false ∨ t.port.state = .enabling ∧ t.apply.share ≠ 0)))

/-! ## The posts -/

/-- A post that does not apply gives its IGNORED outcome and changes nothing else. IGNORED_ROLE: a session post on a FEEDER
(R44), REQUEST or SITE_LIMIT on a CHARGER (R122). IGNORED_STATE: a session post outside the session states or the paused
condition in which it applies (R44, R46, R47, R55, R57 to R60). -/
def Obligations.PostsThatDoNotApplyAreIgnored : Prop :=
  (∀ (s : State) (code : Nat) (c : Instr) (body : List Byte) (rest : List Post),
     s.service.fifo = ⟨code, body⟩ :: rest → s.view.composing = none → s.feeder.composing = none → Settled s →
     (s.straps.role = .feeder ∧ (code, c) ∈ [(16, Instr.sessionOpen), (17, .packReport), (18, .departure),
         (19, .sessionClose), (20, .pause), (21, .resume)] ∨
       s.straps.role = .charger ∧ (code, c) ∈ [(22, Instr.request), (23, .siteLimit)]) →
     exec c s = .next (postDone rest .ignoredRole s)) ∧
  ∀ (s : State) (code : Nat) (c : Instr) (body : List Byte) (rest : List Post),
    s.service.fifo = ⟨code, body⟩ :: rest → s.view.composing = none → s.straps.role = .charger → Settled s → SessionLaw s →
    ((code, c) = (16, Instr.sessionOpen) ∧ s.session.state ≠ .vacant ∨
      (code, c) = (17, Instr.packReport) ∧ s.session.state = .vacant ∨
      (code, c) ∈ [(18, Instr.departure), (20, .pause), (21, .resume)] ∧
        (s.session.state = .vacant ∨ s.session.state = .closing) ∨
      (code, c) = (20, Instr.pause) ∧ s.paused = true ∨
      (code, c) = (21, Instr.resume) ∧ s.paused = false ∨
      (code, c) = (19, Instr.sessionClose) ∧ s.session.state = .vacant ∨
      (code, c) = (19, Instr.sessionClose) ∧ s.session.state = .closing ∧ ∃ reason, body = [reason] ∧ reason ≠ 0) →
    exec c s = .next (postDone rest .ignoredState s)

/-- SESSION_OPEN in VACANT (R44 to R46, R75): REJECTED_RANGE for a tag of 0 or a capacity below 10,000 Wh, else the record
with its clamped fields, AWAITING, the session mark and the SESSION factor; CLAMPED exactly when a field was out of range.
That the last close reason becomes NONE is the model's reading of R61 (log entry 27); that the session mark becomes true in
LISTEN too, where no interval is current, is the model's choice (log entry 29). -/
def Obligations.SessionOpenCreatesTheRecord : Prop :=
  ∀ (s : State) (rest : List Post) (tag capacity rate route depart : Nat),
    s.service.fifo = ⟨16, natBytes 4 tag ++ natBytes 3 capacity ++ natBytes 2 rate ++ natBytes 3 route ++ natBytes 3 depart⟩ ::
      rest →
    tag < 4294967296 → capacity < 16777216 → rate < 65536 → route < 16777216 → depart < 16777216 →
    s.straps.role = .charger → s.session.state = .vacant → s.view.composing = none → Settled s →
    exec .sessionOpen s = .next
      (if tag = 0 ∨ capacity < 10000 then postDone rest .rejectedRange s
      else
        let fits := capacity ≤ 1000000 ∧ 10 ≤ rate ∧ rate ≤ 4000 ∧ route ≤ capacity ∧ depart ≤ 86400
        let s' := postDone rest (if fits then .applied else .clamped) s
        { s' with
          session :=
            ⟨.awaiting,
              some ⟨tag, min capacity 1000000, max 10 (min rate 4000), min route (min capacity 1000000), min depart 86400,
                none, 0, false⟩, none⟩
          account := { s.account with mark := true }
          status  := { s.status with factors := s.status.factors ||| 0b01100#5 } })

/-- The first PACK_REPORT (R45, R47, R65): the pack data becomes the report's, the age 0, the account is created at floor(SoC
× C / 1000) Wh, and the session becomes ENGAGED, or STOPPED where the pack is stopped or the port FAULTED, with a forced stop
for the pack alone. -/
def Obligations.FirstReportCreatesTheAccount : Prop :=
  ∀ (s : State) (rest : List Post) (r : SessionRecord) (soc dis chg code : Nat),
    s.service.fifo = ⟨17, natBytes 2 soc ++ natBytes 2 dis ++ natBytes 2 chg ++ natBytes 1 code⟩ :: rest →
    soc < 65536 → dis < 65536 → chg < 65536 → code < 256 →
    s.straps.role = .charger → s.session.state = .awaiting → s.session.record = some r → s.view.composing = none →
    s.port.state ≠ .meterOnly → ShareLaw s →
    ∃ t, exec .packReport s = .next t ∧
      t.session.record = some { r with
        age := 0
        pack := some ⟨min soc 1000, min dis 4000, min chg 4000,
          if code = 0 then .normal else if code = 1 then .derated else .stopped⟩ } ∧
      t.account.account = some ⟨10 * (min soc 1000 * r.capacity / 1000), false, ⟨⟨0, 0, 0, 0⟩, 0, false, false⟩⟩ ∧
      t.session.state = (if code ≤ 1 ∧ s.port.state ≠ .faulted then .engaged else .stopped) ∧
      (code ≤ 1 → t.port = s.port) ∧
      (2 ≤ code → t.port.command = 0 ∧ t.port.enable = false ∧
        t.port.state = (if s.port.state = .faulted then .faulted else .disabled)) ∧
      t.service.fifo = rest ∧
      t.service.lastOutcome = some
        (if soc ≤ 1000 ∧ dis ≤ 4000 ∧ chg ≤ 4000 ∧ code ≤ 2 then .applied else .clamped) ∧
      t.status.factors = s.status.factors ||| 0b01100#5 ∧ t.status.word = s.status.word ∧ t.apply = s.apply ∧
      t.line = s.line ∧ t.view = s.view ∧ t.timer = s.timer ∧ t.alloc = s.alloc ∧ t.feeder = s.feeder ∧ t.time = s.time

/-- A NORMAL or DERATED report in ENGAGED, its fields clamped (R45, R48, R49, R67, R69, R71): the pack data becomes the
report's and the age 0; beyond floor(C/100) Wh the balance becomes 10 × E_rep and
DRIFT counts; within it only a forced resync moves the balance. Where that leaves E_now at or below E_res, a positive share
becomes 0 with RESERVE; else the share takes the least of its magnitude and the limit of its direction, with CLIPPED where it
exceeded it. -/
def Obligations.EngagedReportResyncsAndClips : Prop :=
  ∀ (s : State) (rest : List Post) (r : SessionRecord) (a : Account) (soc dis chg code : Nat),
    s.service.fifo = ⟨17, natBytes 2 soc ++ natBytes 2 dis ++ natBytes 2 chg ++ natBytes 1 code⟩ :: rest →
    soc < 65536 → dis < 65536 → chg < 65536 → code ≤ 1 →
    s.straps.role = .charger → s.session.state = .engaged → s.session.record = some r → s.account.account = some a →
    s.view.composing = none → Settled s →
    ∃ t b, exec .packReport s = .next t ∧ Resynced s t a r.capacity (min soc 1000) ∧ t.account.account = some b ∧
      t.session = { s.session with record := some { r with
        age := 0
        pack := some ⟨min soc 1000, min dis 4000, min chg 4000, if code = 0 then .normal else .derated⟩ } } ∧
      (let limit := if s.apply.share < 0 then min (min chg 4000) r.pRate else min (min dis 4000) r.pRate
       let stops := b.eNow ≤ eRes r ∧ 0 < s.apply.share
       t.apply.share.natAbs = (if stops then 0 else min s.apply.share.natAbs limit) ∧
        (0 ≤ s.apply.share → 0 ≤ t.apply.share) ∧ (s.apply.share ≤ 0 → t.apply.share ≤ 0) ∧
        t.apply.lastCut = (if stops then some .reserve else if limit < s.apply.share.natAbs then some .packClip
          else s.apply.lastCut) ∧
        (Flag.reserve.isSet t.status.word = true ↔ stops ∨ Flag.reserve.isSet s.status.word = true) ∧
        (Flag.clipped.isSet t.status.word = true ↔
          ¬stops ∧ limit < s.apply.share.natAbs ∨ Flag.clipped.isSet s.status.word = true)) ∧
      t.port = s.port ∧ t.line = s.line ∧ t.view = s.view ∧ t.alloc = s.alloc ∧ t.timer = s.timer ∧ t.feeder = s.feeder ∧
      t.time = s.time ∧ t.service.fifo = rest ∧
      t.service.lastOutcome = some (if soc ≤ 1000 ∧ dis ≤ 4000 ∧ chg ≤ 4000 then .applied else .clamped)

/-- The reports that move the session between ENGAGED, STOPPED and CLOSING. STOPPED in ENGAGED (R43, R48, R52, R67, R148): the
pack data becomes the report's and the resync follows, and then the session becomes STOPPED, the share and the command 0, the
enable is dropped, the stop exchange is sent, and a WITHDRAW with reason STOPPED is queued unless the line is in CLASH; the
OFFER record shows a pending OFFER as WITHDRAWN. A report in STOPPED is followed by the resync (R67): NORMAL or DERATED takes
the session back to ENGAGED unless the port is FAULTED, STOPPED keeps it STOPPED with a forced stop (R50). In CLOSING (R51) the
pack data is kept, and STOPPED alone stops the port, so that the session is VACANT unless it is FAULTED. The place of the stop
exchange on the link is the model's reading (log entry 26). -/
def Obligations.PackStateMovesTheSession : Prop :=
  (∀ (s : State) (rest : List Post) (r : SessionRecord) (body : List Byte),
     s.service.fifo = ⟨17, body⟩ :: rest → (reportedPack body).value.state = .stopped →
     s.straps.role = .charger → s.session.state = .engaged → s.session.record = some r → s.view.composing = none →
     s.port.state ≠ .meterOnly →
     ∃ t, exec .packReport s = .next t ∧
       t.session = { s.session with
         state := .stopped, record := some { r with pack := some (reportedPack body).value, age := 0 } } ∧
       (∀ a, s.account.account = some a → Resynced s t a r.capacity (reportedPack body).value.soc) ∧ t.apply.share = 0 ∧
       t.port = { s.port with
         command := 0, enable := false
         state := if s.port.state = .faulted then .faulted else .disabled
         link := addStop s.port.owed s.port.link } ∧
       (s.line.state ≠ .clash → t.line.withdrawSlot = some
         ⟨⟨0, s.straps.stn, s.straps.site, s.timer.n, .withdraw .stopped⟩, none, false⟩) ∧
       (s.line.state = .clash → t.line.withdrawSlot = s.line.withdrawSlot) ∧ t.line.offerSlot = none ∧
       t.view = viewWithdrawn s ∧
       t.status.factors &&& 0b01100#5 = 0b01100#5 ∧ t.timer = s.timer ∧ t.alloc = s.alloc ∧ t.feeder = s.feeder ∧
       t.time = s.time ∧ t.service.fifo = rest) ∧
  (∀ (s : State) (rest : List Post) (r : SessionRecord) (body : List Byte),
    s.service.fifo = ⟨17, body⟩ :: rest → (reportedPack body).value.state ≠ .stopped →
    s.straps.role = .charger → s.session.state ∈ [SessionState.stopped, .closing] → s.session.record = some r →
    s.view.composing = none → s.apply.share = 0 → s.mayVacate = false →
    ∃ t, exec .packReport s = .next t ∧
      t.session.record = some { r with pack := some (reportedPack body).value, age := 0 } ∧
      t.session.state = (if s.session.state = .stopped ∧ s.port.state ≠ .faulted then .engaged else s.session.state) ∧
      (∀ a, s.session.state = .stopped → s.account.account = some a →
        Resynced s t a r.capacity (reportedPack body).value.soc) ∧
      (s.session.state = .closing → t.account = s.account) ∧ t.port = s.port ∧ t.apply = s.apply ∧ t.line = s.line ∧
      t.view = s.view ∧ t.timer = s.timer ∧ t.alloc = s.alloc ∧ t.feeder = s.feeder ∧ t.service.fifo = rest) ∧
  ∀ (s : State) (rest : List Post) (r : SessionRecord) (body : List Byte),
    s.service.fifo = ⟨17, body⟩ :: rest → (reportedPack body).value.state = .stopped →
    s.straps.role = .charger → s.session.state ∈ [SessionState.stopped, .closing] → s.session.record = some r →
    s.view.composing = none → s.port.state ≠ .meterOnly → s.apply.share = 0 →
    ∃ t, exec .packReport s = .next t ∧
      t.port = { s.port with
        command := 0, enable := false
        state := if s.port.state = .faulted then .faulted else .disabled
        link := addStop s.port.owed s.port.link } ∧
      (s.session.state = .stopped → t.session.state = .stopped ∧
        t.session.record = some { r with pack := some (reportedPack body).value, age := 0 } ∧
        ∀ a, s.account.account = some a → Resynced s t a r.capacity (reportedPack body).value.soc) ∧
      (s.session.state = .closing → s.port.state ≠ .faulted → t.session.state = .vacant ∧ t.session.record = none) ∧
      (s.session.state = .closing → s.port.state = .faulted → t.session.state = .closing) ∧ t.apply = s.apply ∧
      t.line = s.line ∧ t.view = s.view ∧ t.timer = s.timer ∧ t.alloc = s.alloc ∧ t.feeder = s.feeder ∧
      t.service.fifo = rest

/-- DEPARTURE in AWAITING, ENGAGED or STOPPED sets D and E_route from its fields, clamped, and changes nothing else at once
(R45, R55). -/
def Obligations.DepartureSetsTheCountdownAndRoute : Prop :=
  ∀ (s : State) (rest : List Post) (r : SessionRecord) (depart route : Nat),
    s.service.fifo = ⟨18, natBytes 3 depart ++ natBytes 3 route⟩ :: rest → depart < 16777216 → route < 16777216 →
    s.straps.role = .charger → s.session.state ∈ [SessionState.awaiting, .engaged, .stopped] →
    s.session.record = some r → s.view.composing = none → Settled s →
    exec .departure s = .next
      (let s' := postDone rest (if depart ≤ 86400 ∧ route ≤ r.capacity then .applied else .clamped) s
       { s' with session := { s.session with
          record := some { r with depart := min depart 86400, eRoute := min route r.capacity } } })

/-- SESSION_CLOSE in AWAITING, ENGAGED or STOPPED (R43, R59, R61, R116): the reason is kept, a WITHDRAW goes to its slot and the
own entry leaves an OPEN view, and a pending OFFER is WITHDRAWN (R82); the share becomes 0. UNPLUGGED stops the port at once,
and the session is VACANT, or waits in CLOSING for a FAULTED port; the other reasons leave the port as it is, and the session is
CLOSING, or VACANT at once where the port is DISABLED with the command at 0. UNPLUGGED in CLOSING (R60) records the reason and
stops the port, and queues nothing. -/
def Obligations.SessionCloseEndsTheSession : Prop :=
  (∀ (s : State) (rest : List Post) (r : SessionRecord) (code : Byte),
     s.service.fifo = ⟨19, [code]⟩ :: rest → s.straps.role = .charger →
     s.session.state ∈ [SessionState.awaiting, .engaged, .stopped] → s.session.record = some r →
     s.view.composing = none → s.port.state ≠ .meterOnly →
     ∃ t, exec .sessionClose s = .next t ∧ t.apply.share = 0 ∧
       t.session.lastClose = some (if code = 0 then .unplugged else if code = 1 then .departNow else .hostAbort) ∧
       t.service.lastOutcome = some (if code.toNat ≤ 2 then .applied else .clamped) ∧
       (s.line.state ≠ .clash → t.line.withdrawSlot = some
         ⟨⟨0, s.straps.stn, s.straps.site, s.timer.n, .withdraw (if code = 0 then .unplugged else .closed)⟩, none, false⟩) ∧
       t.line.offerSlot = none ∧ t.view = viewWithdrawn s ∧
       (code ≠ 0 → t.port = s.port) ∧
       (code ≠ 0 → ¬(s.port.state = .disabled ∧ s.port.command = 0) →
         t.session.state = .closing ∧ t.session.record = some r ∧ t.account = s.account) ∧
       (code ≠ 0 → s.port.state = .disabled → s.port.command = 0 →
         t.session.state = .vacant ∧ t.session.record = none ∧ t.account = { s.account with account := none }) ∧
       (code = 0 → t.port.command = 0 ∧ t.port.enable = false ∧
         (s.port.state = .faulted → t.port.state = .faulted ∧ t.session.state = .closing ∧ t.session.record = some r) ∧
         (s.port.state ≠ .faulted → t.port.state = .disabled ∧ t.session.state = .vacant ∧ t.session.record = none ∧
           t.account = { s.account with account := none })) ∧
       t.status.factors = s.status.factors ||| 0b01100#5 ∧ t.status.word = s.status.word ∧ t.timer = s.timer ∧
       t.alloc = s.alloc ∧ t.feeder = s.feeder ∧ t.time = s.time ∧ t.service.fifo = rest) ∧
  ∀ (s : State) (rest : List Post), s.service.fifo = ⟨19, [0]⟩ :: rest → s.straps.role = .charger →
    s.session.state = .closing → s.view.composing = none → s.port.state ≠ .meterOnly → s.apply.share = 0 →
    ∃ t, exec .sessionClose s = .next t ∧ t.session.lastClose = some .unplugged ∧ t.port.command = 0 ∧
      t.port.enable = false ∧
      (s.port.state ≠ .faulted → t.port.state = .disabled ∧ t.session.state = .vacant ∧ t.session.record = none ∧
        t.account = { s.account with account := none }) ∧
      (s.port.state = .faulted → t.port.state = .faulted ∧ t.session.state = .closing ∧
        t.session.record = s.session.record ∧ t.account = s.account) ∧
      t.line = s.line ∧ t.view = s.view ∧ t.apply = s.apply ∧ t.timer = s.timer ∧ t.alloc = s.alloc ∧
      t.feeder = s.feeder ∧ t.service.fifo = rest ∧ t.service.lastOutcome = some .applied

/-- PAUSE and RESUME in AWAITING, ENGAGED or STOPPED. PAUSE (R43, R57): the flag is set, the share becomes 0 with last cut
PAUSE, a WITHDRAW with reason PAUSED goes to its slot unless the line is in CLASH, the own entry leaves an OPEN view, the record
of a pending OFFER shows the fate WITHDRAWN (R82), and the rest stays. RESUME (R58): the flag is cleared, and nothing else
changes at once. -/
def Obligations.PauseWithdrawsAndResumeDoesNot : Prop :=
  (∀ (s : State) (rest : List Post) (r : SessionRecord) (body : List Byte),
     s.service.fifo = ⟨20, body⟩ :: rest → s.straps.role = .charger →
     s.session.state ∈ [SessionState.awaiting, .engaged, .stopped] → s.session.record = some r → r.paused = false →
     s.view.composing = none →
     ∃ t, exec .pause s = .next t ∧ t.session = { s.session with record := some { r with paused := true } } ∧
       t.apply = (if s.apply.share = 0 then s.apply else { s.apply with share := 0, lastCut := some .pause }) ∧
       (s.line.state ≠ .clash → t.line.withdrawSlot = some
         ⟨⟨0, s.straps.stn, s.straps.site, s.timer.n, .withdraw .paused⟩, none, false⟩) ∧
       (s.line.state = .clash → t.line.withdrawSlot = s.line.withdrawSlot) ∧ t.line.offerSlot = none ∧
       t.line.markSlot = s.line.markSlot ∧ t.line.reportSlot = s.line.reportSlot ∧ t.line.pointer = s.line.pointer ∧
       t.view = viewWithdrawn s ∧ t.service = (postDone rest .applied s).service ∧
       t.status = { s.status with factors := s.status.factors ||| 0b01000#5 } ∧ t.port = s.port ∧
       t.account = s.account ∧ t.timer = s.timer ∧ t.alloc = s.alloc ∧ t.feeder = s.feeder ∧ t.time = s.time) ∧
  ∀ (s : State) (rest : List Post) (r : SessionRecord) (body : List Byte),
    s.service.fifo = ⟨21, body⟩ :: rest → s.straps.role = .charger →
    s.session.state ∈ [SessionState.awaiting, .engaged, .stopped] → s.session.record = some r → r.paused = true →
    s.view.composing = none → Settled s →
    exec .resume s = .next
      { postDone rest .applied s with session := { s.session with record := some { r with paused := false } } }

/-- The FEEDER's two posts. REQUEST replaces the whole request record, a mode above 2 taken as IDLE and a valid count of 0 as
1, each a clamp (R124). SITE_LIMIT sets X, and X is at once the rating of the port's plausibility limit J = floor(X × 5 / 9) +
10 (R123, R151). -/
def Obligations.FeederPostsReplaceTheirValues : Prop :=
  (∀ (s : State) (rest : List Post) (mode level valid number : Nat),
     s.service.fifo = ⟨22, natBytes 1 mode ++ natBytes 2 level ++ natBytes 1 valid ++ natBytes 1 number⟩ :: rest →
     mode < 256 → level < 65536 → valid < 256 → number < 256 → s.straps.role = .feeder → s.feeder.composing = none →
     Settled s →
     exec .request s = .next
       { postDone rest (if mode ≤ 2 ∧ 1 ≤ valid then .applied else .clamped) s with
         feeder := { s.feeder with
           mode := if mode = 1 then .exporting else if mode = 2 then .importing else .idle
           level := level, valid := max 1 valid, request := number } }) ∧
  ∀ (s : State) (rest : List Post) (x : Nat),
    s.service.fifo = ⟨23, natBytes 2 x⟩ :: rest → x < 65536 → s.straps.role = .feeder → s.feeder.composing = none →
    Settled s →
    ∃ t, exec .siteLimit s = .next t ∧
      t = { postDone rest .applied s with feeder := { s.feeder with siteLimit := some x } } ∧
      t.rating = x ∧ plausible t.rating = x * 5 / 9 + 10

/-- NOTICE_ENABLE replaces all five enables at once, and the notice line follows them, its own POST factor included (R160). -/
def Obligations.NoticeEnableReplacesTheEnables : Prop :=
  ∀ (s : State) (rest : List Post) (bits : Byte),
    s.service.fifo = ⟨24, [bits]⟩ :: rest → Settled s →
    ∃ t, exec .noticeEnable s = .next t ∧
      t = { s with
        service := (postDone rest .applied s).service
        status := { s.status with enables := bits.setWidth 5, factors := s.status.factors ||| 0b01000#5 } } ∧
      (t.noticeLine = true ↔
        ∃ k, k < 5 ∧ bits.getLsbD k = true ∧ (s.status.factors.getLsbD k = true ∨ k = Factor.post.bit))

/-- STATUS_CLEAR (R158): every flag whose mask bit is set becomes clear, the others keep their value, and the factors (but
POST), the enables and the first-fault record stay. -/
def Obligations.StatusClearClearsTheMaskedFlags : Prop :=
  ∀ (s : State) (rest : List Post) (mask : Nat),
    s.service.fifo = ⟨25, natBytes 2 mask⟩ :: rest → mask < 65536 → Settled s →
    ∃ t, exec .statusClear s = .next t ∧ t.service = (postDone rest .applied s).service ∧
      (∀ f : Flag, f.isSet t.status.word = (f.isSet s.status.word && !mask.testBit f.position)) ∧
      t.status.factors = s.status.factors ||| 0b01000#5 ∧ t.status.enables = s.status.enables ∧
      t.status.first = s.status.first ∧ t.line = s.line ∧ t.timer = s.timer ∧ t.session = s.session ∧
      t.account = s.account ∧ t.view = s.view ∧ t.alloc = s.alloc ∧ t.apply = s.apply ∧ t.feeder = s.feeder ∧
      t.port = s.port ∧ t.time = s.time

/-! ## The tick, the second event and the boundaries -/

/-- A tick that takes no boundary, and what ends before a tick (R24 to R26, R36, R37, R80, R100, R136, R139, R140, R142, R170).
The counter or the listen count goes up by 1, the points it reaches are announced, a tenth tick is a second event, and a
CHARGER's port starts its exchange; in ENABLING the enable wait goes up by 1. A reply or a post that is pending may be taken
after the tick. What is due is taken first, as by its own command: the tick the Interval Timer has not taken, the second event,
the transaction on the link, an announced point, a composition, the post at the head, and a computation at the third tick after
its freeze point; a tick before that leaves it computing. That a computation which lasts to the third tick ends before that
tick and not with it is the model's choice (log entry 36). That a transaction still on the link at a tick ends in a link error
or a discard before it is the model's reading (log entry 6). The marks of what is announced, due, owed or held are the model's
own fields (log entry 4). -/
def Obligations.TickAdvancesTheCounts : Prop :=
  (∀ (s : State) (o : Order), s.time.tickDue = false → s.time.secondDue = false → s.port.owed = 0 →
    (s.port.link = [] ∨ o.repliesLater = true) → NoPointDue s → s.view.composing = none → s.feeder.composing = none →
    s.service.held = false → (s.service.fifo = [] ∨ o.postsLater = true ∧ s.readyHead.isSome = true) →
    (∀ i ticks, s.alloc.engine ≠ .computing i ticks) → Settled s → (s.time.phase < 9 ∨ o.secondFirst = false) →
    (s.timer.state = .running → s.timer.c + 1 < s.profile.length) →
    (s.timer.state = .listen → s.timer.listen + 1 < 2 * s.profile.length) →
    s.port.state ≠ .enabled → (s.port.state = .enabling → s.port.enableWait + 1 < 50) →
    exec (.tick o) s = .next { s with
      time := ⟨if s.time.phase < 9 then s.time.phase + 1 else 0, decide (9 ≤ s.time.phase), false⟩
      timer :=
        match s.timer.state with
        | .running => { s.timer with
            c := s.timer.c + 1
            freezeDue := decide (s.timer.c + 1 = s.profile.freeze)
            targetDue := decide (s.timer.c + 1 = s.profile.target ∧ s.straps.role = .feeder) }
        | .listen => { s.timer with listen := s.timer.listen + 1 }
      port :=
        (let sent := s.port.link ++ [.exchange (exchangeWord s.port.command s.port.enable)]
         match s.port.state with
         | .meterOnly => { s.port with owed := s.port.link.length }
         | .enabling => { s.port with enableWait := s.port.enableWait + 1, link := sent, owed := s.port.link.length }
         | _ => { s.port with link := sent, owed := s.port.link.length })
      service := { s.service with held := !s.service.fifo.isEmpty } }) ∧
  (∀ (s s' : State) (o : Order) (c : Instr), exec c s = .next s' →
    (s.time.tickDue = true ∧ c ∈ [Instr.ownBoundary o, .listenExpiry o] ∧ s'.time.tickDue = false ∨
      s.time.tickDue = false ∧ c = .secondEvent ∨
      s.time.tickDue = false ∧ s.time.secondDue = false ∧ o.repliesLater = false ∧ s.port.owed ≤ 1 ∧
        s.port.link.length = 1 ∧ s'.port.link = [] ∧ c ∈ [Instr.exchangeLinkError, .meterDiscard] ∨
      NoEventDue s ∧ Settled s ∧ (∀ slot, s.deadlineDue slot = false) ∧
        (c = .freezePoint ∧ s.timer.targetDue = false ∨ c = .targetPoint ∧ s.timer.freezeDue = false) ∨
      NoEventDue s ∧ Settled s ∧ NoPointDue s ∧ s.timer.c < s.profile.freeze ∧
        (c = .offerCompositionEnd ∨ c = .targetCompositionEnd ∧ s.view.composing = none) ∨
      NoEventDue s ∧ Settled s ∧ NoPointDue s ∧ s.view.composing = none ∧ s.feeder.composing = none ∧
        s.service.fifo.length = 1 ∧ o.postsLater = false ∧ s'.service.fifo = [] ∧ s'.port.link = [] ∧
        c ∈ [Instr.sessionOpen, .packReport, .departure, .sessionClose, .pause, .resume, .request, .siteLimit,
          .noticeEnable, .statusClear, .restart] ∨
      NoEventDue s ∧ Settled s ∧ NoPointDue s ∧ s.view.composing = none ∧ s.feeder.composing = none ∧
        s.service.fifo = [] ∧ s.service.held = false ∧ c = .allocationComplete ∧
        ∃ i ticks, s.alloc.engine = .computing i ticks ∧ 2 ≤ ticks) →
    exec (.tick o) s = exec (.tick o) s') ∧
  ∀ (s : State) (o : Order) (i : AllocInput) (ticks : Nat), Quiet s → Settled s → ticks < 2 →
    (s.timer.state = .running → s.timer.c + 1 < s.profile.length) →
    (s.timer.state = .listen → s.timer.listen + 1 < 2 * s.profile.length) →
    ∃ t, exec (.tick o) s = .next t ∧
      exec (.tick o) { s with alloc := { s.alloc with engine := .computing i ticks } } =
        .next { t with alloc := { s.alloc with engine := .computing i (ticks + 1) } }

/-- A tick in ENABLED that takes no boundary (R24 to R26, R36, R71, R143, R144): the command moves toward the share by the
lesser of 50 hW and the distance; a step that would raise it from 0 or above, or carry it past 0, waits for E_now > E_res; the
tick whose step leaves both at 0 for the tenth time in a row takes the port to DISABLING, and the exchange carries the command
and the enable as they then stand; IDLE_COUNT_EXPIRY is that tick. c or the listen count goes up by 1, the points it reaches
are announced, and the tenth tick is a second event, under marks of the model's own (log entry 4). That a threshold's command
is the guarded case of its stimulus is the model's reading (log entry 5). -/
def Obligations.TickRampsTheCommand : Prop :=
  ∀ (s : State) (o : Order), Quiet s → Settled s → (s.time.phase < 9 ∨ o.secondFirst = false) →
    (s.timer.state = .running → s.timer.c + 1 < s.profile.length) →
    (s.timer.state = .listen → s.timer.listen + 1 < 2 * s.profile.length) → s.port.state = .enabled →
    ∃ t, exec (.tick o) s = .next t ∧
      (let above := s.aboveReserve = true
       let command :=
        if s.port.command < s.apply.share then
          if above then min (s.port.command + 50) s.apply.share
          else if 0 ≤ s.port.command then s.port.command else min (min (s.port.command + 50) s.apply.share) 0
        else max (s.port.command - 50) s.apply.share
       let idle := if s.apply.share = 0 ∧ command = 0 then s.port.idleCount + 1 else 0
       let ends := 10 ≤ idle
       t.port = { s.port with
          command := command
          idleCount := if ends then 10 else idle
          state := if ends then .disabling else .enabled
          enable := if ends then false else s.port.enable
          link := [.exchange (exchangeWord command (if ends then false else s.port.enable))] }) ∧
      t.time = ⟨if s.time.phase < 9 then s.time.phase + 1 else 0, decide (9 ≤ s.time.phase), false⟩ ∧
      (s.timer.state = .running → t.timer = { s.timer with
        c := s.timer.c + 1
        freezeDue := decide (s.timer.c + 1 = s.profile.freeze)
        targetDue := decide (s.timer.c + 1 = s.profile.target ∧ s.straps.role = .feeder) }) ∧
      (s.timer.state = .listen → t.timer = { s.timer with listen := s.timer.listen + 1 }) ∧
      t.apply = s.apply ∧ t.session = s.session ∧ t.account = s.account ∧ t.line = s.line ∧ t.view = s.view ∧
      t.alloc = s.alloc ∧ t.feeder = s.feeder ∧ t.status = s.status ∧ t.service = s.service ∧
      (9 ≤ s.port.idleCount → s.apply.share = 0 → s.port.command.natAbs ≤ 50 →
        exec (.idleCountExpiry o) s = .next t ∧ t.port.state = .disabling ∧ t.port.command = 0 ∧ t.port.enable = false)

/-- ENABLE_TIMEOUT (R52, R53, R142, R146, R148): the tick that brings the enable wait to 50 takes the forced stop and FAULTED;
the share becomes 0, CONVERTER is set, and an ENGAGED session becomes STOPPED with its WITHDRAW. That a threshold's command is
the guarded case of its stimulus is the model's reading (log entry 5). -/
def Obligations.EnableTimeoutEntersFaulted : Prop :=
  ∀ (s : State) (o : Order), Quiet s → Settled s → (s.time.phase < 9 ∨ o.secondFirst = false) →
    (s.timer.state = .running → s.timer.c + 1 < s.profile.length) →
    (s.timer.state = .listen → s.timer.listen + 1 < 2 * s.profile.length) →
    s.port.state = .enabling → 49 ≤ s.port.enableWait →
    ∃ t, exec (.enableTimeout o) s = .next t ∧ exec (.tick o) s = .next t ∧ t.port.state = .faulted ∧
      t.port.lastCause = some .enableTimeout ∧ t.port.command = 0 ∧ t.port.enable = false ∧ t.port.offRun = 0 ∧
      t.apply.share = 0 ∧
      t.apply.lastCut = (if s.apply.share = 0 then s.apply.lastCut else some .forcedStop) ∧
      Flag.converter.isSet t.status.word = true ∧
      t.session = { s.session with state := if s.session.state = .engaged then .stopped else s.session.state } ∧
      (s.session.state = .engaged → s.line.state ≠ .clash → t.line.withdrawSlot = some
        ⟨⟨0, s.straps.stn, s.straps.site, t.timer.n, .withdraw .stopped⟩, none, false⟩) ∧
      (s.session.state = .engaged → t.line.offerSlot = none ∧ t.view = viewWithdrawn s) ∧
      (s.session.state ≠ .engaged → t.line = s.line ∧ t.view = s.view) ∧ t.account = s.account ∧ t.alloc = s.alloc ∧
      t.feeder = s.feeder ∧ t.service = s.service

/-- A second event (R24, R54, R149): D falls by 1 down to 0, the pack-report age rises by 1 up to 65535, the meter read falls
due, and nothing else changes. The one that brings the age from 59 to 60 in ENGAGED is STALE_PACK_DATA (R56, R116): it sets
PACK_STALE and cuts the share to 0; a bus keeps its session. That a threshold's command is the guarded case of its stimulus is
the model's reading (log entry 5); that a tick announces the second event and a command of its own takes it, under a mark of the
model's own, is its choice (log entry 4). -/
def Obligations.SecondEventCountsSeconds : Prop :=
  (∀ s : State, s.time.secondDue = true → Settled s →
     (∀ r, s.session.record = some r → s.session.state = .engaged → r.age ≠ 59) →
     exec .secondEvent s = .next { s with
       time := { s.time with secondDue := false }
       session := { s.session with
         record := s.session.record.map (fun r => { r with
           depart := r.depart - 1, age := if r.age < 65535 then r.age + 1 else r.age }) }
       port := { s.port with link := s.port.link ++ [.meterRead] } }) ∧
  ∀ (s : State) (r : SessionRecord), s.time.secondDue = true → s.session.state = .engaged →
    s.session.record = some r → r.age = 59 →
    ∃ t, exec .stalePackData s = .next t ∧ exec .secondEvent s = .next t ∧
      t.session = { s.session with record := some { r with depart := r.depart - 1, age := 60 } } ∧ t.stale = true ∧
      t.apply = (if s.apply.share = 0 then s.apply else { s.apply with share := 0, lastCut := some .stale }) ∧
      (∀ f : Flag, f.isSet t.status.word = (f.isSet s.status.word || decide (f = .packStale))) ∧
      t.port = { s.port with link := s.port.link ++ [.meterRead] } ∧ t.line = s.line ∧ t.view = s.view ∧
      t.account = s.account ∧ t.alloc = s.alloc ∧ t.timer = s.timer ∧ t.feeder = s.feeder ∧ t.service = s.service

/-- OWN_BOUNDARY on either role (R16, R28, R29, R76, R79, R81, R84, R98, R111, R128): n goes up by 1 modulo 65536 and c to 0,
SLIP stays, the load judged at the boundary replaces the share, the engine is IDLE, the view empty and OPEN, the MARK is queued
with deadline W and, on a CHARGER where the session mark stood, the TALLY with deadline F, unless the line is in CLASH; the
silence count goes down, and a silence ends with it at 0; a CHARGER begins a composition for n+1, a FEEDER records ROLE and
empties its tally list and totals, and the BOUNDARY factor is set. The Interval Timer may take the tick after what comes next,
a meter sample of the same second among it (R66, R129, R153); that such a tick waits in a field of its own is the model's
choice (log entry 4), and that a threshold's command is the guarded case of its stimulus is its reading (log entry 5). -/
def Obligations.OwnBoundaryBeginsTheNextInterval : Prop :=
  ∀ (s : State) (o : Order), Settled s →
    (Quiet s ∧ (s.time.phase < 9 ∨ o.secondFirst = false) ∧ (s.port.state = .enabling → s.port.enableWait + 1 < 50) ∨
      s.time.tickDue = true ∧ ∀ i ticks, s.alloc.engine ≠ .computing i ticks) →
    s.timer.state = .running → s.timer.c + 1 = s.profile.length →
    ∃ t, exec (.ownBoundary o) s = .next t ∧ t.time.tickDue = false ∧
      (s.time.tickDue = false → o.timerLater = false → exec (.tick o) s = .next t) ∧
      (s.time.tickDue = false → o.timerLater = true → ∃ u, exec (.tick o) s = .next u ∧ u.time.tickDue = true ∧
        u = { s with time := u.time, port := u.port }) ∧
      t.timer = ⟨.running, s.timer.n + 1, 0, 0, some .own, s.timer.n + 1, s.timer.slip, false, false⟩ ∧
      t.apply = ⟨(loadOf .own s).share, s.timer.n + 1, (loadOf .own s).outcome, (loadOf .own s).clipped, none⟩ ∧
      t.alloc = { s.alloc with engine := .idle } ∧
      t.view.phase = .opened ∧ t.view.entries = [] ∧ t.view.received = none ∧ t.view.used = s.view.used ∧
      (s.straps.role = .charger → ∃ outcome, t.view.composing = some ⟨s.timer.n + 2, outcome⟩) ∧
      (s.straps.role = .feeder → t.view.composing = s.view.composing ∧
        t.view.record = ⟨s.timer.n + 2, false, .role, 0, ⟨0, 0, 0, 0⟩, .none⟩ ∧ t.feeder.tallies = [] ∧
        t.feeder.exportTotal = 0 ∧ t.feeder.importTotal = 0) ∧
      (s.line.state ≠ .clash → t.line.markSlot = some
        ⟨⟨0, s.straps.stn, s.straps.site, s.timer.n + 1, .mark s.straps.intv⟩, some s.profile.window, false⟩) ∧
      (s.line.state = .clash → s.line.markSlot = none → t.line.markSlot = none) ∧
      (s.line.reportSlot = none → s.straps.role = .feeder ∨ s.account.mark = false → t.line.reportSlot = none) ∧
      (s.straps.role = .charger → s.account.mark = true → s.line.state ≠ .clash → t.line.reportSlot = some
        ⟨⟨0, s.straps.stn, s.straps.site, s.timer.n, .tally (clampInt (-32767) 32767
          ((((s.account.exportTotal : Int) - s.account.importTotal) * 18).tdiv (5 * s.seconds)))⟩,
          some s.profile.freeze, false⟩) ∧
      t.line.silence = s.line.silence - 1 ∧
      t.line.state = (if s.line.silence = 1 ∧ s.line.state = .silent then .active else s.line.state) ∧
      t.account.exportTotal = 0 ∧ t.account.importTotal = 0 ∧ t.account.mark = s.session.record.isSome ∧
      Factor.boundary.isSet t.status.factors = true ∧ t.session = s.session ∧ t.service = s.service

/-- LISTEN_EXPIRY (R16, R27, R76, R111): the tick that brings the listen count to 2L enters RUNNING at n = 0, c = 0 with a
boundary of its own kind, queues no MARK and no TALLY, loads a share of 0, lowers the silence count and leaves SLIP as it is.
That the Interval Timer may take the tick later is the model's choice (log entry 4), and that a threshold's command is the
guarded case of its stimulus is its reading (log entry 5). -/
def Obligations.ListenExpiryEntersRunning : Prop :=
  ∀ (s : State) (o : Order), Settled s →
    (Quiet s ∧ (s.time.phase < 9 ∨ o.secondFirst = false) ∧ s.port.state ≠ .enabling ∨ s.time.tickDue = true) →
    s.timer.state = .listen → s.timer.listen + 1 = 2 * s.profile.length →
    s.line.markSlot = none → s.line.reportSlot = none →
    ∃ t, exec (.listenExpiry o) s = .next t ∧ t.time.tickDue = false ∧
      (s.time.tickDue = false → o.timerLater = false → exec (.tick o) s = .next t) ∧
      t.timer = ⟨.running, 0, 0, 0, some .listenExpiry, 0, s.timer.slip, false, false⟩ ∧
      t.apply.share = 0 ∧ t.apply.interval = 0 ∧ t.apply.clipped = false ∧ t.apply.lastCut = none ∧
      t.line.markSlot = none ∧ t.line.reportSlot = none ∧ t.line.silence = s.line.silence - 1 ∧
      t.view.phase = .opened ∧ t.view.entries = [] ∧
      Factor.boundary.isSet t.status.factors = true ∧ t.session = s.session ∧ t.service = s.service

/-- What a boundary of any kind loads, and what it does to the line and the engine (R16, R109, R111 to R113): 0 from an IDLE or
COMPUTING engine, or at a boundary that hands nothing over; else the pending share, judged by the zeroing conditions in their
order and then clipped to the limit of its direction, CLIPPED with it. A computation it finds is abandoned: the result keeps what
was fixed at the freeze point, its figures are 0 and its flag LATE alone, LATE is set and the RESULT factor caused. The silence
count goes down by 1, and the boundary that brings it to 0 returns the line to ACTIVE. That a feeder's READY result is DISCARDED
at a re-alignment is the model's choice between R120 and R98 (log entry 30). -/
def Obligations.BoundaryLoadsTheJudgedShare : Prop :=
  ∀ (kind : BoundaryKind) (n : IntervalNo) (o : Order) (s : State),
    (s.alloc.engine = .idle → (takeBoundary kind n o s).apply = ⟨0, n, .noResult, false, none⟩) ∧
    (∀ i ticks, s.alloc.engine = .computing i ticks →
      (takeBoundary kind n o s).apply = ⟨0, n, .abandoned, false, none⟩ ∧
      (takeBoundary kind n o s).alloc = ⟨.idle,
        { present := true, interval := i.interval, mode := i.chosen.mode, level := i.chosen.level
          headroom := i.chosen.headroom, source := i.chosen.target.map TargetPart.source, request := i.chosen.request
          goal := match i.chosen.mode with | .idle => 0 | _ => min i.chosen.level i.chosen.headroom
          viewCount := i.entries.length, eligible := 0, capSum := 0, shareSum := 0, ownShare := 0, passes := 0
          flags := ⟨false, false, false, true⟩ }⟩ ∧
      (∀ f : Flag, f.isSet (takeBoundary kind n o s).status.word = (f.isSet s.status.word || decide (f = .late))) ∧
      Factor.result.isSet (takeBoundary kind n o s).status.factors = true ∧ (takeBoundary kind n o s).view.entries = []) ∧
    (∀ p, s.alloc.engine = .ready p →
      (kind ∈ [BoundaryKind.realign, .listenMark, .listenExpiry] →
        (takeBoundary kind n o s).apply = ⟨0, n, .discarded, false, none⟩) ∧
      (kind ∈ [BoundaryKind.own, .early, .implied] →
        (takeBoundary kind n o s).apply =
          (if s.session.state ≠ .engaged then ⟨0, n, .notEngaged, false, none⟩
          else if s.paused then ⟨0, n, .paused, false, none⟩
          else if s.stale then ⟨0, n, .stale, false, none⟩
          else if s.port.meterLost then ⟨0, n, .meterLost, false, none⟩
          else if 0 < p ∧ s.atReserve then ⟨0, n, .reserve, false, none⟩
          else if p.natAbs ≤ s.limit p then ⟨p, n, .loaded, false, none⟩
          else ⟨if 0 < p then s.limit p else -(s.limit p : Int), n, .loaded, true, none⟩) ∧
        ((takeBoundary kind n o s).apply.clipped = true →
          Flag.clipped.isSet (takeBoundary kind n o s).status.word = true))) ∧
    (takeBoundary kind n o s).line.silence = s.line.silence - 1 ∧
    (takeBoundary kind n o s).line.state =
      (if s.line.silence = 1 ∧ s.line.state = .silent then .active else s.line.state)

/-- What a boundary makes of the account on a CHARGER (R70, R72 to R74, R79, R81): the projection of the share it loads,
clamped once to 0..C; which directions are eligible; their weights and caps, both 0 where the cap comes out 0; and the
composition that begins, an OFFER of these values where the line is ACTIVE and a direction is left, else nothing with the
reason LINE or NO_DIRECTION. -/
def Obligations.BoundaryComputesTheOfferValues : Prop :=
  ∀ (kind : BoundaryKind) (n : IntervalNo) (o : Order) (s : State) (a : Account) (r : SessionRecord) (p : PackData),
    s.straps.role = .charger → s.account.account = some a → s.session.record = some r → r.pack = some p →
    (let t := takeBoundary kind n o s
     let reserve := min r.capacity (r.eRoute + r.eRoute / 4 + r.capacity / 10)
     let goal := max (9 * r.capacity / 10) reserve
     let charge := min p.pChg r.pRate
     let able := s.session.state = .engaged ∧ r.paused = false ∧ r.age < 60 ∧ s.port.meterLost = false
     ∃ v : OfferValues, t.account.account = some { a with last := v } ∧
      (v.eProj : Int) = max 0 (min (r.capacity : Int) (a.balance / 10 - (t.apply.share * s.seconds).tdiv 36)) ∧
      (v.exportOk = true ↔ able ∧ 0 < charge ∧ reserve < v.eProj ∧
        (goal - reserve) * 36 + 1800 * charge ≤ r.depart * charge) ∧
      (v.importOk = true ↔ able ∧ v.eProj < goal) ∧
      (let cx := min (min p.pDis r.pRate) ((v.eProj - reserve) * 36 / s.seconds)
       let cm := min charge ((goal - v.eProj) * 36 / s.seconds)
       v.body.wx = (if v.exportOk = true ∧ cx ≠ 0 then v.eProj - reserve else 0) ∧
        v.body.cx = (if v.exportOk then cx else 0) ∧
        v.body.wm = (if v.importOk = true ∧ cm ≠ 0 then goal - v.eProj else 0) ∧
        v.body.cm = (if v.importOk then cm else 0)) ∧
      t.view.composing = some ⟨n + 1,
        if t.line.state ≠ .active then .nothing .line
        else if v.body.cx = 0 ∧ v.body.cm = 0 then .nothing .noDirection
        else .offer v.body⟩)

/-- The Feeder Unit's part of a boundary of any kind (R11, R125, R128, R130, R135, R136): the tally list is emptied, the totals
close into a measurement, valid at OWN, EARLY and IMPLIED unless the loss mark is set; the mark follows the meter, and the valid
count falls by 1, the mode becoming IDLE with it at 0. A TARGET composition in flight is abandoned: its record shows its interval
and ABANDONED, its other fields 0, none or NONE by the model's choice (log entry 31), and the goal list stays. A TARGET that waits
in its slot is dropped, and its goal with it. -/
def Obligations.BoundaryClosesTheSiteMeasurement : Prop :=
  ∀ (kind : BoundaryKind) (n : IntervalNo) (o : Order) (s : State), s.straps.role = .feeder →
    (∀ slot q, slot ≠ .report → s.line.slot slot = some q → ∀ m a b c, q.frame.body ≠ .target m a b c) →
    (takeBoundary kind n o s).feeder = { s.feeder with
        tallies := [], exportTotal := 0, importTotal := 0, lossMark := s.port.meterLost, begun := false, composing := none
        measured := if kind ∈ [BoundaryKind.own, .early, .implied] ∧ s.feeder.lossMark = false then
            some ((((s.feeder.exportTotal : Int) - s.feeder.importTotal) * 18).tdiv (5 * s.seconds))
          else none
        valid := s.feeder.valid - 1
        mode := if s.feeder.valid = 1 then .idle else s.feeder.mode
        record := match s.feeder.composing with
          | some r => ⟨r.interval, .abandoned, 0, 0, none, none, none, .none, 0, 0, 0, .idle, 0, 0, 0⟩
          | none => s.feeder.record
        goals := match s.line.reportSlot with
          | some ⟨⟨_, _, _, number, .target _ _ _ _⟩, some _, _⟩ =>
            if s.line.carries .report then s.feeder.goals
            else s.feeder.goals.map fun g => if g.interval = number then { g with dropped := true } else g
          | _ => s.feeder.goals } ∧
      (takeBoundary kind n o s).view.record = ⟨n + 1, false, .role, 0, ⟨0, 0, 0, 0⟩, .none⟩ ∧
      (takeBoundary kind n o s).view.composing = s.view.composing

/-! ## Compositions and points of the interval -/

/-- The end of an own OFFER composition (R79, R81, R82). An OFFER goes to its slot with priority 255 − min(255, floor(w_x /
4096)), number n+1 and deadline F, and its record is PENDING; in CLASH it is dropped at once and the record shows DROPPED. A
frame it finds in the slot is replaced (R9): TX_DROPPED counts it if its time had run out and not if it is replaced in time, and
an attempt that carries it is detached. A composition that queues nothing leaves its reason and zeros. -/
def Obligations.OfferCompositionQueuesTheOffer : Prop :=
  ∀ (s : State) (comp : Composition), s.view.composing = some comp →
    (∀ reason, comp.outcome = .nothing reason →
      exec .offerCompositionEnd s = .next { s with view := { s.view with
        composing := none, record := ⟨comp.interval, false, reason, 0, ⟨0, 0, 0, 0⟩, .none⟩ } }) ∧
    ∀ v, comp.outcome = .offer v → ∃ t, exec .offerCompositionEnd s = .next t ∧
      t.view.composing = none ∧ t.view.record.composed = true ∧ t.view.record.interval = comp.interval ∧
      t.view.record.priority = 255 - min 255 (v.wx / 4096) ∧ t.view.record.values = v ∧
      t.view.record.fate = (if s.line.state = .clash then .dropped else .pending) ∧
      (s.line.state ≠ .clash → Replaces .offer s t ∧ t.line = { s.line with
        offerSlot := some
          ⟨⟨255 - min 255 (v.wx / 4096), s.straps.stn, s.straps.site, comp.interval, .offer v⟩, some s.profile.freeze, false⟩
        attempt   := t.line.attempt
        txDropped := t.line.txDropped }) ∧
      (s.line.state = .clash → t.line = { s.line with txDropped := count s.line.txDropped }) ∧
      t = { s with line := t.line, view := { s.view with composing := none, record := t.view.record } }

/-- The freeze point (R90, R94, R98, R99, R120). On a CHARGER the view becomes FROZEN and the engine computes from its entries
and the chosen target: the received one, else the used one held for the first or second time, else IDLE. On a FEEDER, whose
view is empty, the computation completes at once with an IDLE result and a pending share of 0. The mark of an announced point
is the model's own field (log entry 4). -/
def Obligations.FreezePointFixesTheInputs : Prop :=
  (∀ s : State, s.timer.freezeDue = true → s.straps.role = .charger → Settled s →
    exec .freezePoint s = .next
      (let next := s.timer.n + 1
       let choice : Option UsedTarget × ChosenTarget :=
        match s.view.received, s.view.used with
        | some t, _ => (some ⟨t, 0, next⟩, ⟨some t, false⟩)
        | none, some u =>
          if u.hold < 2 then (some ⟨u.target, u.hold + 1, next⟩, ⟨some u.target, true⟩) else (none, ⟨none, false⟩)
        | none, none => (none, ⟨none, false⟩)
       { s with
        timer := { s.timer with freezeDue := false }
        view  := { s.view with phase := .frozen, used := choice.1 }
        alloc := { s.alloc with engine := .computing ⟨next, s.view.entries, choice.2⟩ 0 } })) ∧
  ∀ s : State, s.timer.freezeDue = true → s.straps.role = .feeder → s.view.entries = [] → s.view.received = none →
    s.view.used = none → Settled s →
    exec .freezePoint s = .next { s with
      timer := { s.timer with freezeDue := false }
      view  := { s.view with phase := .frozen }
      alloc :=
        ⟨.ready 0, ⟨true, s.timer.n + 1, .idle, 0, 0, none, 0, 0, 0, 0, 0, 0, 0, 0, ⟨false, false, false, false⟩⟩⟩
      status := { s.status with factors := s.status.factors ||| 0b00010#5 } }

/-- Completion of the computation (R101, R106 to R108, R110): the result shows the target handed over, G = min(T, H), every
entry receives its signed share, the pending share is the own entry's, and the flags SHORT, CAPPED and NO_TARGET are judged and
set; the applied share stays. The shares come from the division that DivisionMeetsTheGoal speaks of. -/
def Obligations.CompletionWritesTheShares : Prop :=
  ∀ (s : State) (i : AllocInput) (ticks : Nat), s.alloc.engine = .computing i ticks → Settled s →
    ∃ t, exec .allocationComplete s = .next t ∧
      (let claims := (i.entries.map fun e => match i.chosen.mode with
          | .exporting => (⟨e.station, e.values.wx, e.values.cx⟩ : Claim)
          | .importing => ⟨e.station, e.values.wm, e.values.cm⟩
          | .idle => ⟨e.station, 0, 0⟩).filter fun c => c.weight ≠ 0 ∧ c.cap ≠ 0
       let goal := match i.chosen.mode with
          | .idle => 0
          | _ => min i.chosen.level i.chosen.headroom
       let awards := (divide goal claims).1
       let field (e : Entry) : Int := match i.chosen.mode with
          | .exporting => shareOf awards e.station
          | .importing => -(shareOf awards e.station : Int)
          | .idle => 0
       t.view = { s.view with entries := s.view.entries.map fun e => { e with share := some (field e) } } ∧
        (∀ e, i.entries.find? (fun e => e.origin = .own) = some e → t.alloc.engine = .ready (field e)) ∧
        (i.entries.find? (fun e => e.origin = .own) = none → t.alloc.engine = .ready 0) ∧
        t.alloc.result.present = true ∧ t.alloc.result.interval = i.interval ∧ t.alloc.result.goal = goal ∧
        t.alloc.result.viewCount = i.entries.length ∧ t.alloc.result.eligible = claims.length ∧
        (t.alloc.result.mode, t.alloc.result.level, t.alloc.result.headroom, t.alloc.result.source, t.alloc.result.request) =
          (match i.chosen.target with
            | some p => (p.mode, p.level, p.headroom, some p.source, p.request)
            | none => (.idle, 0, 0, none, 0)) ∧
        t.alloc.result.capSum = (claims.map Claim.cap).sum ∧
        (∀ share, t.alloc.engine = .ready share → t.alloc.result.ownShare = share) ∧
        t.alloc.result.shareSum = awardSum awards ∧ t.alloc.result.passes = (divide goal claims).2 ∧
        t.alloc.result.flags =
          ⟨decide (i.chosen.mode ≠ .idle ∧ awardSum awards < i.chosen.level),
            decide (i.chosen.mode ≠ .idle ∧ i.chosen.headroom < i.chosen.level), i.chosen.held, false⟩) ∧
      (∀ f : Flag, f.isSet t.status.word = true ↔ f.isSet s.status.word = true ∨
        f = .short ∧ t.alloc.result.flags.short ∨ f = .capped ∧ t.alloc.result.flags.capped ∨
        f = .noTarget ∧ t.alloc.result.flags.noTarget) ∧
      Factor.result.isSet t.status.factors = true ∧ t.apply = s.apply ∧ t.session = s.session ∧ t.account = s.account ∧
      t.line = s.line ∧ t.timer = s.timer ∧ t.feeder = s.feeder ∧ t.port = s.port ∧ t.service = s.service ∧ t.time = s.time

/-- The TARGET point and the end of its composition (R131 to R134). The TARGET is IDLE for the first reason that holds; else H
is X + B (EXPORT) or X − B (IMPORT) with B = Σtally − A, and T is Q corrected by half the error against the goal of the
interval before, at most a quarter of Q, or Q itself with the first condition that failed as its reason, NO_GOAL, MODE_CHANGE,
DROPPED or NO_TALLY. At its end the goal list and the record take it, and it is queued with deadline F, or dropped at once in
CLASH; a frame it finds in the slot is replaced (R9). The mark of an announced point is the model's own field (log entry 4). -/
def Obligations.TargetPointComposesTheTarget : Prop :=
  (∀ s : State, s.timer.targetDue = true → FeederLaw s → ∃ r, exec .targetPoint s = .next { s with
      timer := { s.timer with targetDue := false }, feeder := { s.feeder with composing := some r, begun := true } } ∧
    r.interval = s.timer.n + 1 ∧ r.request = s.feeder.request ∧
    (let u := s.feeder
     let sum := (u.tallies.map Tally.power).sum
     (u.siteLimit = none → r.idleReason = .limitUnset) ∧
      (u.siteLimit ≠ none → u.mode = .idle → r.idleReason = .noRequest) ∧
      (u.siteLimit ≠ none → u.mode ≠ .idle → u.measured = none → r.idleReason = .noMeasurement) ∧
      (r.idleReason ≠ .none → r.mode = .idle ∧ r.level = 0 ∧ r.headroom = 0) ∧
      ∀ x a, u.siteLimit = some x → u.mode ≠ .idle → u.measured = some a →
        r.idleReason = .none ∧ r.mode = u.mode ∧ r.tallySum = sum ∧ r.tallyCount = u.tallies.length ∧
        r.load = some (sum - a) ∧ r.measured = some a ∧
        r.correction = (match u.goals.find? (fun g => g.interval = s.timer.n - 1) with
          | none => .noGoal
          | some g =>
            if g.mode ≠ u.mode then .modeChange
            else if g.dropped = true then .dropped
            else if u.tallies = [] then .noTally
            else .none) ∧
        (r.headroom : Int) = max 0 (min 65535 (if u.mode = .exporting then x + (sum - a) else x - (sum - a))) ∧
        ((∀ g ∈ u.goals, g.interval = s.timer.n - 1 → g.mode ≠ u.mode ∨ g.dropped = true ∨ u.tallies = []) →
          r.level = min 65535 u.level ∧ r.corrected = 0) ∧
        ∀ g ∈ u.goals, g.interval = s.timer.n - 1 → g.mode = u.mode → g.dropped = false → u.tallies ≠ [] →
          r.achieved = (if u.mode = .exporting then sum else -sum) ∧
          r.error = g.goal - (if u.mode = .exporting then sum else -sum) ∧
          r.corrected = max (-((u.level / 4 : Nat) : Int)) (min ((u.level / 4 : Nat) : Int) (r.error.tdiv 2)) ∧
          (r.level : Int) = max 0 (min 65535 (u.level + r.corrected)))) ∧
  ∀ (s : State) (r : FeederRecord), s.feeder.composing = some r →
    ∃ t, exec .targetCompositionEnd s = .next t ∧
      t.feeder = { s.feeder with
        composing := none, record := r
        goals := s.feeder.goals.filter (fun g => g.interval = r.interval - 1) ++
          [⟨r.interval, r.mode, if r.mode = .idle then 0 else min r.level r.headroom, decide (s.line.state = .clash)⟩] } ∧
      (s.line.state ≠ .clash → Replaces .report s t ∧ t.line = { s.line with
        reportSlot := some
          ⟨⟨0, s.straps.stn, s.straps.site, r.interval, .target r.mode r.level r.headroom r.request⟩, some s.profile.freeze,
            false⟩
        attempt   := t.line.attempt
        txDropped := t.line.txDropped }) ∧
      (s.line.state = .clash → t.line = { s.line with txDropped := count s.line.txDropped }) ∧
      t = { s with line := t.line, feeder := t.feeder }

/-! ## The depot line -/

/-- FRAME_DEADLINE (R10, R11, R82, R135): a pending frame at or past its deadline that no attempt carries leaves its slot,
TX_DROPPED counts, the pointer moves to its source, and its owner is told: the record of the own OFFER shows DROPPED, the goal
of a TARGET is dropped. A frame that an attempt carries stays. -/
def Obligations.PassedDeadlineDropsTheFrame : Prop :=
  ∀ (s : State) (slot : Slot) (q : Queued), s.line.slot slot = some q →
    ((q.expired = true ∨ ∃ d, q.deadline = some d ∧ d ≤ s.timer.c) →
      (∀ a, s.line.attempt = some a → a.slot = slot → a.detached = true) →
      ∃ t, exec (.frameDeadline slot) s = .next t ∧ t.line.slot slot = none ∧
        (∀ k, k ≠ slot → t.line.slot k = s.line.slot k) ∧ t.line.txDropped = count s.line.txDropped ∧
        t.line.pointer = (match slot with | .mark => Source.timing | .report => .report | _ => .dispatch) ∧
        t.line.attempt = s.line.attempt ∧ t.line.state = s.line.state ∧ t.line.failures = s.line.failures ∧
        t.line.txDone = s.line.txDone ∧ t.line.txErr = s.line.txErr ∧
        t.view = (match q.frame.body with
          | .offer _ =>
            if q.expired = false ∧ s.view.record.composed = true ∧ s.view.record.interval = q.frame.number ∧
                s.view.record.fate = .pending then
              { s.view with record := { s.view.record with fate := .dropped } }
            else s.view
          | _ => s.view) ∧
        t.feeder = (match q.frame.body with
          | .target _ _ _ _ => { s.feeder with goals := s.feeder.goals.map fun g =>
              if g.interval = q.frame.number then { g with dropped := true } else g }
          | _ => s.feeder) ∧
        t = { s with line := t.line, view := t.view, feeder := t.feeder }) ∧
    (∀ a, s.line.attempt = some a → a.slot = slot → a.detached = false → exec (.frameDeadline slot) s = .next s)

/-- FRAME_START (R6, R7, R10): in ACTIVE, with a free transmitter, no frame being received and ten recessive bits read, the
station starts the frame of the first non-empty source after the one the pointer names, of Dispatch the WITHDRAW first; in
every other case it starts none. The count of recessive bits and the mark of a frame handed on during the attempt are the
model's own fields (log entries 9 and 11). That a station which lost arbitration takes the winner's frame before it starts
again is the model's choice (log entry 35). -/
def Obligations.StartTakesTheNextSource : Prop :=
  ∀ (s : State) (more : Nat),
    (s.line.state = .active → s.line.attempt = none → s.line.heard = [] → 10 ≤ s.line.recessiveRun + more →
      (let ranked : List Slot := match s.line.pointer with
        | .timing => [.withdraw, .offer, .report, .mark]
        | .dispatch => [.report, .mark, .withdraw, .offer]
        | .report => [.mark, .withdraw, .offer, .report]
       ∀ slot q, ranked.find? (fun k => (s.line.slot k).isSome) = some slot → s.line.slot slot = some q →
        exec (.frameStart more) s = .next { s with line := { s.line with
          attempt := some ⟨slot, q.frame, false, false⟩ } })) ∧
    ((∀ slot, s.line.slot slot = none) → exec (.frameStart more) s = .next s) ∧
    (s.line.state ≠ .active ∨ s.line.attempt ≠ none ∨ s.line.heard ≠ [] ∨ s.line.recessiveRun + more < 10 →
      exec (.frameStart more) s = .next s)

/-- FRAME_CONFIRMED (R9, R10, R12, R13, R85): the whole frame read back ends the attempt; TX_DONE counts, the failure count is
0, the pointer moves, and the frame leaves its slot unless it was detached. The own OFFER for n+1 enters an OPEN view and its
record shows CONFIRMED; in a FROZEN view the record shows LATE. -/
def Obligations.ConfirmedFrameLeavesItsSlot : Prop :=
  ∀ (s : State) (a : Attempt) (more : List Level), s.line.attempt = some a →
    ∃ t, exec (.frameConfirmed (a.frame.levels ++ more)) s = .next t ∧
      (∀ k, t.line.slot k = if a.detached = false ∧ k = a.slot then none else s.line.slot k) ∧
      t.line.attempt = none ∧ t.line.txDone = count s.line.txDone ∧ t.line.failures = 0 ∧
      t.line.pointer = (match a.slot with | .mark => Source.timing | .report => .report | _ => .dispatch) ∧
      t.line.state = s.line.state ∧ t.line.txErr = s.line.txErr ∧ t.line.txDropped = s.line.txDropped ∧
      t.line.rxGood = s.line.rxGood ∧ t = { s with line := t.line, view := t.view } ∧
      (a.detached = true → t.view = s.view) ∧
      ∀ q, a.detached = false → s.line.slot a.slot = some q →
        ((∀ v, q.frame.body ≠ .offer v) ∨ q.expired = true → t.view = s.view) ∧
        ∀ v, q.frame.body = .offer v → q.expired = false →
          (s.view.phase = .opened → q.frame.number = s.timer.n + 1 → ViewLaw s →
            ∀ e, e ∈ t.view.entries ↔ e = ⟨s.straps.stn, v, none, .own⟩ ∨ e ∈ s.view.entries ∧ e.station ≠ s.straps.stn) ∧
          (s.view.phase ≠ .opened → t.view.entries = s.view.entries) ∧
          (s.view.record.composed = true → s.view.record.interval = q.frame.number → s.view.record.fate = .pending →
            (s.view.phase = .opened → q.frame.number = s.timer.n + 1 → t.view.record.fate = .confirmed) ∧
            (s.view.phase = .frozen → t.view.record.fate = .late))

/-- The other ends of an attempt (R7, R9, R11, R12, R15), judged at the first level that reads otherwise than it was sent. A
recessive level of the start bit and arbitration field read dominant is LOST_ARBITRATION: the attempt ends and nothing else
changes. Any other is a TRANSMIT_FAILURE: TX_ERR and the failure count go up. A frame whose time has run out meets its deadline
then. The sixteenth failure in a row is ENTER_SILENT: every pending frame is dropped and counted, the silence count is 2, and
LINE_FAULT is set. After a lost arbitration the station has read the frame on the line up to that level (R7). That a
threshold's command is the guarded case of its stimulus is the model's reading (log entry 5). So are the end of the arbitration
field before an insert bit that follows it (log entry 10) and that a frame whose time ran out while an attempt carried it moves
the pointer as it is dropped (log entry 12). Where such a drop falls on the entry into SILENT, the pointer is the model's
choice (log entry 42), and this statement leaves it open. The count of recessive bits, which ends at 0, is the model's own
field (log entry 9). -/
def Obligations.AttemptEndsAtTheFirstDifference : Prop :=
  ∀ (s : State) (a : Attempt) (same later more : List Level) (x : Level),
    s.line.attempt = some a → a.frame.levels = same ++ x :: later → Settled s →
    (let read := same ++ (!x) :: more
     let lost := x = true ∧ same.length < a.frame.arbitrationEnd
     let ended := { s with line := { s.line with attempt := none, recessiveRun := 0, heard := same ++ [!x] } }
     let failed := { s with line := { s.line with
        attempt := none, recessiveRun := 0, txErr := count s.line.txErr, failures := s.line.failures + 1 } }
     let timely := ∀ q, s.line.slot a.slot = some q → q.expired = false ∧ ∀ d, q.deadline = some d → s.timer.c < d
     (lost → (a.detached = true ∨ timely → exec (.lostArbitration read) s = .next ended) ∧
        (a.detached = false → exec (.lostArbitration read) s = exec (.frameDeadline a.slot) ended)) ∧
      (¬lost → s.line.failures + 1 < 16 →
        (a.detached = true ∨ timely → exec (.transmitFailure read) s = .next failed) ∧
        (a.detached = false → exec (.transmitFailure read) s = exec (.frameDeadline a.slot) failed)) ∧
      (¬lost → 16 ≤ s.line.failures + 1 → s.line.txDropped ≤ 65535 →
        ∃ t, exec (.enterSilent read) s = .next t ∧ exec (.transmitFailure read) s = .next t ∧ t.line.state = .silent ∧
          t.line.failures = 0 ∧ t.line.silence = 2 ∧ t.line.attempt = none ∧ (∀ k, t.line.slot k = none) ∧
          t.line.txErr = count s.line.txErr ∧ t.line.txDone = s.line.txDone ∧
          (timely → t.line.pointer = s.line.pointer) ∧
          t.line.txDropped = min 65535 (s.line.txDropped +
            ([Slot.mark, .withdraw, .offer, .report].filter fun k => (s.line.slot k).isSome).length) ∧
          (∀ f : Flag, f.isSet t.status.word = (f.isSet s.status.word || decide (f = .lineFault))) ∧
          t.timer = s.timer ∧ t.session = s.session ∧ t.account = s.account ∧ t.alloc = s.alloc ∧ t.apply = s.apply ∧
          t.port = s.port ∧ t.service = s.service ∧ t.time = s.time))

/-- R18: a frame that passed the integrity step with another site code than the station's is discarded, RX_FOREIGN counts it,
and it takes no further step: nothing else changes, whatever its source, kind and number. The count of recessive bits that its end
field leaves is the model's own field (R6; log entry 9), and so is the mark of a frame handed on during an own attempt (log entry
11). -/
def Obligations.ForeignFrameIsDiscarded : Prop :=
  ∀ (s : State) (f : Frame) (levels : List Level) (o : Order), f.legal = true → f.site ≠ s.straps.site → Hears s levels f →
    Settled s →
    exec (.frameReceived levels o) s =
      .next { s with line := { s.line.afterReading 8 with rxForeign := count s.line.rxForeign } }

/-- What the receive filter stops (R3, R6, R17, R19). A frame with five equal levels in a row, or a dominant bit in its end field,
is a framing fault; one whose check fails, or with an illegal kind, length or field, is corrupt; each is discarded and counts in
RX_CHECK. A dominant bit read before the line is idle starts no frame. A frame of the own site with the own number shows a clash:
outside CLASH the line enters CLASH, every pending frame is dropped and counted, the failure count is 0 and CLASH is set; in
CLASH nothing changes. No receive counter counts it and it is not handed on. The count of recessive bits is the model's own field
(log entry 9); that a frame read before an own attempt may be handed on during it, and that CLASH then ends the attempt, is the
model's reading (log entry 11). -/
def Obligations.FilterStopsBadAndOwnFrames : Prop :=
  (∀ (s : State) (levels : List Level) (o : Order), (∀ a, s.line.attempt = some a → a.handedOn = false) → Settled s →
    (let read := readFrame s.line.heard s.line.recessiveRun levels
     (read = .framing → exec (.frameReceived levels o) s =
        .next { s with line := { s.line.afterReading 0 with rxCheck := count s.line.rxCheck } }) ∧
      (read = .corrupt → exec (.frameReceived levels o) s =
        .next { s with line := { s.line.afterReading 8 with rxCheck := count s.line.rxCheck } }))) ∧
  (∀ (f : Frame) (more : List Level), f.legal = true →
    (∀ (j : Nat) (b : Level), 1 ≤ j → j + 5 ≤ f.payload.length →
      readFrame [] 10 (stuff .start (f.payload.take j) ++ List.replicate 5 b ++ more) = .framing) ∧
    ∀ k < 8, readFrame [] 10 (stuff .start f.payload ++ List.replicate k true ++ false :: more) = .framing) ∧
  (∀ (header number body check : List Level) (length : Nat), header.length = 21 → length < 16 → number.length = 16 →
    body.length = 8 * length → check.length = 16 →
    (let span := header ++ bitsOf 4 length ++ number ++ body
     let kind := numberOf (header.take 3)
     let read := readFrame [] 10 (stuff .start (false :: (span ++ check)) ++ endField)
     numberOf check ≠ (checkOf span).toNat ∨ 4 < kind ∨ length ≠ [1, 6, 1, 10, 2].getD kind 0 ∨
       (kind = 0 ∨ kind = 2) ∧ 3 < numberOf body ∨ kind = 1 ∧ 2 < numberOf (body.take 8) ∨
       kind = 3 ∧ (4000 < numberOf ((body.drop 24).take 16) ∨ 4000 < numberOf (body.drop 64)) → read = .corrupt)) ∧
  (∀ (s : State) (idle : Nat) (more : List Level) (o : Order), s.line.attempt = none → s.line.heard = [] → Settled s →
    s.line.recessiveRun ≤ 10 →
    exec (.frameReceived (List.replicate idle true) o) s =
      .next { s with line := { s.line with recessiveRun := min 10 (s.line.recessiveRun + idle) } } ∧
    (s.line.recessiveRun + idle < 10 →
      exec (.frameReceived (List.replicate idle true ++ false :: more) o) s =
        exec (.frameReceived more o) { s with line := { s.line with recessiveRun := 0 } })) ∧
  ∀ (s : State) (f : Frame) (levels : List Level) (o : Order), f.legal = true → f.site = s.straps.site →
    f.source = s.straps.stn → Hears s levels f → Settled s →
    (s.line.state = .clash → exec (.frameReceived levels o) s = .next { s with line := s.line.afterReading 8 }) ∧
    (s.line.state ≠ .clash → s.line.txDropped ≤ 65535 →
      ∃ t, exec (.frameReceived levels o) s = .next t ∧ t.line.state = .clash ∧ t.line.attempt = none ∧
        t.line.failures = 0 ∧ (∀ k, t.line.slot k = none) ∧ t.line.pointer = s.line.pointer ∧
        t.line.txDropped = min 65535 (s.line.txDropped +
          ([Slot.mark, .withdraw, .offer, .report].filter fun k => (s.line.slot k).isSome).length) ∧
        t.line.rxGood = s.line.rxGood ∧ t.line.rxForeign = s.line.rxForeign ∧ t.line.rxCheck = s.line.rxCheck ∧
        t.line.txErr = s.line.txErr ∧ t.line.txDone = s.line.txDone ∧
        (∀ g : Flag, g.isSet t.status.word = (g.isSet s.status.word || decide (g = .clash))) ∧ t.timer = s.timer ∧
        t.view.entries = s.view.entries ∧ t.view.received = s.view.received ∧ t.feeder.tallies = s.feeder.tallies ∧
        t.session = s.session ∧ t.account = s.account ∧ t.alloc = s.alloc ∧ t.apply = s.apply ∧ t.port = s.port ∧
        t.service = s.service ∧ t.time = s.time)

/-- Frames handed on (R20, R34, R83, R86 to R88, R92, R93, R126, R127). The header of an OFFER or TARGET with n+2, or of a TALLY
with n, in RUNNING at c ≥ L − W brings a boundary of kind IMPLIED first: n+1, c = 0, no own MARK, SLIP as it was; the frame is
then judged in the interval that begins. Any other header implies nothing. A CHARGER in an OPEN view for n+1 writes the OFFER of
a sender, removes a withdrawn one and keeps the TARGET of the lowest source; too late they count in RX_LATE, for another interval
in RX_OFF_INTERVAL. A FEEDER in RUNNING writes a TALLY for n−1. RX_GOOD counts each. The count of recessive bits and the mark of a
frame handed on during an own attempt are the model's own fields (log entries 9 and 11). -/
def Obligations.HeardFramesReachTheirOwners : Prop :=
  ∀ (s : State) (f : Frame) (levels : List Level) (o : Order), f.legal = true → f.site = s.straps.site →
    f.source ≠ s.straps.stn → Hears s levels f → Settled s → ViewLaw s → FeederLaw s → (∀ p, f.body ≠ .mark p) →
    (let next := match f.body with
      | .offer _ => f.number = s.timer.n + 2
      | .target _ _ _ _ => f.number = s.timer.n + 2
      | .tally _ => f.number = s.timer.n
      | _ => False
     let implied := s.timer.state = .running ∧ s.profile.length ≤ s.timer.c + s.profile.window ∧ next
     (implied → ∃ t, exec (.frameReceived levels o) s = .next t ∧
        t.timer = ⟨.running, s.timer.n + 1, 0, 0, some .implied, s.timer.n + 1, s.timer.slip, false, false⟩ ∧
        t.line.rxGood = count s.line.rxGood ∧ t.apply.interval = s.timer.n + 1 ∧ t.alloc.engine = .idle ∧
        Factor.boundary.isSet t.status.factors = true ∧
        (∀ q, t.line.markSlot = some q → ∃ p, s.line.markSlot = some p ∧ q.frame = p.frame) ∧
        t.view.phase = .opened ∧ t.view.rxLate = s.view.rxLate ∧ t.view.rxOff = s.view.rxOff ∧
        t.view.rxDup = s.view.rxDup ∧
        (∀ v, f.body = .offer v → t.view.received = none ∧
          t.view.entries = if s.straps.role = .charger then [⟨f.source, v, none, .heard⟩] else []) ∧
        (∀ m a b c, f.body = .target m a b c → t.view.entries = [] ∧
          t.view.received = if s.straps.role = .charger then some ⟨f.source, f.number, m, a, b, c⟩ else none) ∧
        (∀ p, f.body = .tally p → t.view.entries = [] ∧ t.view.received = none ∧
          (s.straps.role = .feeder → t.feeder.tallies = [⟨f.source, p⟩] ∧ t.feeder.tallyLate = s.feeder.tallyLate ∧
            t.feeder.tallyOff = s.feeder.tallyOff)) ∧
        t.session = s.session ∧ t.service = s.service ∧ t.time = s.time) ∧
     (¬implied → ∃ t, exec (.frameReceived levels o) s = .next t ∧
      t = { s with
        line := { s.line.afterReading 8 with rxGood := count s.line.rxGood }, view := t.view, feeder := t.feeder } ∧
      (s.straps.role = .feeder → t.view = s.view ∧
        ((∀ p, f.body ≠ .tally p) → t.feeder = s.feeder) ∧
        ∀ p, f.body = .tally p →
          (s.timer.state = .running → f.number = s.timer.n - 1 →
            (∀ x, x ∈ t.feeder.tallies ↔ x = ⟨f.source, p⟩ ∨ x ∈ s.feeder.tallies ∧ x.station ≠ f.source) ∧
            t.feeder = { s.feeder with
              tallies := t.feeder.tallies
              tallyLate := if s.feeder.begun then count s.feeder.tallyLate else s.feeder.tallyLate }) ∧
          (s.timer.state = .listen ∨ f.number ≠ s.timer.n - 1 →
            t.feeder = { s.feeder with tallyOff := count s.feeder.tallyOff })) ∧
      (s.straps.role = .charger → t.feeder = s.feeder ∧
        ((∃ p, f.body = .tally p) → t.view = s.view) ∧
        (∀ r, f.body = .withdraw r →
          (s.view.phase = .opened →
            t.view = { s.view with entries := s.view.entries.filter fun e => e.station ≠ f.source }) ∧
          (s.view.phase = .frozen → t.view = { s.view with rxLate := count s.view.rxLate }) ∧
          (s.view.phase = .closed → t.view = s.view)) ∧
        ((∃ v, f.body = .offer v) ∨ (∃ m a b c, f.body = .target m a b c) →
          (s.view.phase = .closed ∨ f.number ≠ s.timer.n + 1 → t.view = { s.view with rxOff := count s.view.rxOff }) ∧
          (s.view.phase = .frozen → f.number = s.timer.n + 1 → t.view = { s.view with rxLate := count s.view.rxLate })) ∧
        (∀ v, f.body = .offer v → s.view.phase = .opened → f.number = s.timer.n + 1 →
          (∀ e, e ∈ t.view.entries ↔ e = ⟨f.source, v, none, .heard⟩ ∨ e ∈ s.view.entries ∧ e.station ≠ f.source) ∧
          t.view = { s.view with
            entries := t.view.entries
            rxDup := if ∃ e ∈ s.view.entries, e.station = f.source then count s.view.rxDup else s.view.rxDup }) ∧
        ∀ m a b c, f.body = .target m a b c → s.view.phase = .opened → f.number = s.timer.n + 1 →
          t.view = { s.view with
            received := some (match s.view.received with
              | some old => if old.source < f.source then old else ⟨f.source, f.number, m, a, b, c⟩
              | none => ⟨f.source, f.number, m, a, b, c⟩)
            rxDup := if s.view.received.isSome then count s.view.rxDup else s.view.rxDup })))

/-- A MARK handed to the Interval Timer (R9, R26, R30 to R33, R35). With another profile code: PROFILE is set and timing stays. In
RUNNING: early, a boundary of kind EARLY; trailing, ignored but for an own MARK of its number, which is cancelled and, where an
attempt carries it, detached; between them, a boundary of kind REALIGN with MISALIGN set. In LISTEN, a boundary of kind
LISTEN_MARK. A boundary takes the MARK's number, sets c to 0, queues no own MARK and opens an empty view; SLIP counts a number
other than n+1 at EARLY and REALIGN. The count of recessive bits and the mark of a frame handed on during an own attempt are the
model's own fields (log entries 9 and 11). -/
def Obligations.MarkIsClassifiedByTheCounter : Prop :=
  ∀ (s : State) (f : Frame) (profile : Fin 4) (levels : List Level) (o : Order), f.legal = true → f.body = .mark profile →
    f.site = s.straps.site → f.source ≠ s.straps.stn → Hears s levels f → Settled s →
    ∃ t, exec (.frameReceived levels o) s = .next t ∧
      t.line.rxGood = count s.line.rxGood ∧
      (profile ≠ s.straps.intv → t.timer = s.timer ∧ t.view = s.view ∧ (∀ k, t.line.slot k = s.line.slot k) ∧
        ∀ g : Flag, g.isSet t.status.word = (g.isSet s.status.word || decide (g = .profile))) ∧
      (profile = s.straps.intv → s.timer.state = .running → s.timer.c < s.profile.window →
        t.timer = s.timer ∧ t.view = s.view ∧ t.status = s.status ∧ (∀ k, k ≠ .mark → t.line.slot k = s.line.slot k) ∧
        t.line.markSlot = s.line.markSlot.filter (fun q => q.frame.number ≠ f.number) ∧
        t.line.attempt = s.line.attempt.map (fun a => { a with
          handedOn := true
          detached := a.detached ||
            decide (a.slot = .mark ∧ s.line.markSlot.map (fun q => q.frame.number) = some f.number) }) ∧
        t.line.txDropped = s.line.txDropped) ∧
      (profile = s.straps.intv → s.timer.state = .listen ∨ s.profile.window ≤ s.timer.c →
        ∃ kind, t.timer = ⟨.running, f.number, 0, 0, some kind, f.number,
            if kind ≠ .listenMark ∧ f.number ≠ s.timer.n + 1 then count s.timer.slip else s.timer.slip, false, false⟩ ∧
          (s.timer.state = .listen → kind = .listenMark) ∧
          (s.timer.state = .running → s.profile.length ≤ s.timer.c + s.profile.window → kind = .early) ∧
          (s.timer.state = .running → s.timer.c + s.profile.window < s.profile.length → kind = .realign ∧ t.apply.share = 0 ∧
            Flag.misalign.isSet t.status.word = true) ∧
          t.alloc.engine = .idle ∧ t.view.phase = .opened ∧ t.view.entries = [] ∧ t.view.received = none ∧
          t.apply.interval = f.number ∧
          (∀ q, t.line.markSlot = some q → ∃ p, s.line.markSlot = some p ∧
            (q = p ∧ p.deadline = none ∨ q = { p with expired := true } ∧ s.line.carries .mark = true)) ∧
          Factor.boundary.isSet t.status.factors = true) ∧
      t.session = s.session ∧ t.service = s.service ∧ t.time = s.time

/-! ## The Power Stage Port -/

/-- STATUS_REPORT in each port state, but for the reports that enter FAULTED (R139 to R142, R144 to R146, R148): READY or RUNNING
takes ENABLING to ENABLED, OFF takes DISABLING to DISABLED, in FAULTED an OFF counts the OFF run and any other report ends it,
FAULT with a forced stop, and the rest change nothing. EXCHANGE_LINK_ERROR counts LINK_ERR and the miss count and ends an OFF run;
a reply of bad parity or of a code that is no converter state is one. In FAULTED the error that brings the miss count to 3 takes a
forced stop, which leaves state and cause; a further one causes nothing more. That LINK_LOSS is the
guarded case of its link error is the model's reading (log entry 5). That a fault in FAULTED sends the stop exchange is
the model's reading (log entry 15), and so are its place on the link (log entry 26) and the field that says how many transactions
ended before the last tick (log entry 4). -/
def Obligations.StatusReportMovesThePort : Prop :=
  ∀ (s : State) (left : List Transaction) (owed : Nat), ExchangeEnds s.port left owed → Settled s →
    (∀ (code : Nat) (status : ConverterStatus), (code, status) ∈
        [(0, ConverterStatus.off), (1, .precharge), (2, .ready), (3, .running), (4, .fault)] →
      (let taken := { s.port with link := left, owed := owed, lastStatus := some status, missCount := 0 }
       let heard := exec (.statusReport (linkWord (BitVec.ofNat 16 code))) s
       (s.port.state = .disabled → code ≠ 4 → heard = .next { s with port := taken }) ∧
        (s.port.state = .enabling → code < 2 → heard = .next { s with port := taken }) ∧
        (s.port.state = .enabling → code = 2 ∨ code = 3 →
          heard = .next { s with port := { taken with state := .enabled, command := 0, idleCount := 0 } }) ∧
        (s.port.state = .enabled → code = 2 ∨ code = 3 → heard = .next { s with port := taken }) ∧
        (s.port.state = .disabling → code ∈ [1, 2, 3] → heard = .next { s with port := taken }) ∧
        (s.port.state = .disabling → code = 0 → s.session.state ≠ .closing →
          heard = .next { s with port := if s.apply.share = 0 then { taken with state := .disabled }
            else { taken with state := .enabling, enable := true, enableWait := 0 } }) ∧
        (s.port.state = .faulted → code ∈ [1, 2, 3] → heard = .next { s with port := { taken with offRun := 0 } }) ∧
        (s.port.state = .faulted → code = 4 → heard = .next { s with port := { taken with
          offRun := 0, command := 0, enable := false, link := addStop owed left } }) ∧
        (s.port.state = .faulted → code = 0 → s.port.offRun + 1 < 10 →
          heard = .next { s with port := { taken with offRun := s.port.offRun + 1 } }))) ∧
    (∀ reply : LinkWord, (reply.extractLsb' 1 16).toNat > 4 ∨ oddParity (reply.extractLsb' 1 16) ≠ reply.getLsbD 0 →
      exec (.statusReport reply) s = exec .exchangeLinkError s) ∧
    (let missed := { s.port with
        link := left, owed := owed, linkErr := count s.port.linkErr, missCount := min 3 (s.port.missCount + 1)
        offRun := if s.port.state = .faulted then 0 else s.port.offRun }
     (s.port.missCount < 2 ∨ s.port.state = .faulted ∧ 3 ≤ s.port.missCount →
        exec .exchangeLinkError s = .next { s with port := missed }) ∧
      (s.port.state = .faulted → s.port.missCount = 2 → exec .linkLoss s = exec .exchangeLinkError s ∧
        exec .exchangeLinkError s = .next { s with port := { missed with
          command := 0, enable := false, link := addStop owed left } }))

/-- The port's own faults but the enable timeout (R52, R53, R80, R82, R116, R140, R142, R144 to R146, R148): a FAULT report, OFF
or PRECHARGE in ENABLED, or the third link error in a row enters FAULTED with its cause and the forced stop; the share becomes
0, CONVERTER is set, and an ENGAGED session becomes STOPPED with its WITHDRAW: an OFFER composition in flight ends and queues
nothing; the OFFER record shows for it the first condition of R81 that failed, which is WITHDRAWN for one that was to queue an
OFFER, and LINE, TIMING or NO_DIRECTION stay for one that was to queue none; a pending OFFER shows WITHDRAWN. That a threshold's
command is the guarded case of its stimulus is the model's reading (log entry 5). So is the place of the stop exchange on the
link (log entry 26); the field that says how many transactions ended before the last tick is the model's own (log entry 4). -/
def Obligations.PortFaultEntersFaulted : Prop :=
  ∀ (s : State) (left : List Transaction) (owed : Nat) (c : Instr) (k : FaultCause), ExchangeEnds s.port left owed →
    s.port.state ∈ [PortState.disabled, .enabling, .enabled, .disabling] →
    (c = .statusReport (linkWord 4) ∧ k = .faultReport ∨
      c ∈ [Instr.statusReport (linkWord 0), .statusReport (linkWord 1)] ∧ s.port.state = .enabled ∧ k = .dropout ∨
      c ∈ [Instr.exchangeLinkError, .linkLoss] ∧ 2 ≤ s.port.missCount ∧ k = .linkLoss) →
    ∃ t, exec c s = .next t ∧ t.port.state = .faulted ∧ t.port.lastCause = some k ∧ t.port.command = 0 ∧
      t.port.enable = false ∧ t.port.offRun = 0 ∧ t.port.link = addStop owed left ∧
      t.apply = (if s.apply.share = 0 then s.apply else { s.apply with share := 0, lastCut := some .forcedStop }) ∧
      (∀ f : Flag, f.isSet t.status.word = (f.isSet s.status.word || decide (f = .converter))) ∧
      t.session = { s.session with state := if s.session.state = .engaged then .stopped else s.session.state } ∧
      (s.session.state = .engaged → s.line.state ≠ .clash → t.line.withdrawSlot = some
        ⟨⟨0, s.straps.stn, s.straps.site, s.timer.n, .withdraw .stopped⟩, none, false⟩) ∧
      (s.session.state = .engaged → t.line.offerSlot = none ∧ t.view = viewWithdrawn s) ∧
      (s.session.state ≠ .engaged → t.line = s.line ∧ t.view = s.view) ∧ t.account = s.account ∧ t.timer = s.timer ∧
      t.alloc = s.alloc ∧ t.feeder = s.feeder ∧ t.service = s.service ∧ t.time = s.time

/-- CLOSING to VACANT (R61, R64, R146): as soon as the command is 0 and the port DISABLED, record and account are discarded,
the SESSION factor is set and the rest stays; a port that reaches DISABLED takes it in the same action, the tenth OFF of
OFF_RUN_COMPLETE among them. That a threshold's command is the guarded case of its stimulus is the model's reading (log entry
5); the field that says how many transactions ended before the last tick is the model's own (log entry 4). -/
def Obligations.ClosingSessionBecomesVacant : Prop :=
  (∀ s : State, s.session.state = .closing → s.port.command = 0 → s.port.state = .disabled →
    exec .closingToVacant s = .next { s with
      session := { s.session with state := .vacant, record := none }, account := { s.account with account := none }
      status := { s.status with factors := s.status.factors ||| 0b00100#5 } }) ∧
  ∀ (s : State) (left : List Transaction) (owed : Nat), ExchangeEnds s.port left owed → s.port.command = 0 →
    s.apply.share = 0 →
    (s.port.state = .faulted → 9 ≤ s.port.offRun → ∃ t, exec .offRunComplete s = .next t ∧
      exec (.statusReport (linkWord 0)) s = .next t ∧ t.port = { s.port with
        state := .disabled, link := left, owed := owed, lastStatus := some .off, missCount := 0, offRun := 10 } ∧
      (s.session.state ≠ .closing → t = { s with port := t.port }) ∧
      (s.session.state = .closing → t.session.state = .vacant ∧ t.session.record = none ∧
        t.session.lastClose = s.session.lastClose ∧ t.account = { s.account with account := none })) ∧
    (s.port.state = .disabling → s.session.state = .closing → ∃ t, exec (.statusReport (linkWord 0)) s = .next t ∧
      t.port.state = .disabled ∧ t.session.state = .vacant ∧ t.session.record = none ∧
      t.session.lastClose = s.session.lastClose ∧ t.account = { s.account with account := none })

/-- A good METER_SAMPLE (R66, R71, R75, R80, R129, R150, R151, R153). The first sets the reference and ends a loss. Else the
increments are taken modulo 2^32; one above J counts METER_JUMP and is handed to no one. On a CHARGER with an account the
balance changes by dm − dx, clamped once, the totals gather, and at or below the reserve a positive share becomes 0 with
RESERVE. An OFFER composition in flight ends before the increments are handed on, so that its balance never changes under it.
That the last increments stay through a FIRST sample is the model's reading (log entry 18), and so is the integration whole
within the command (log entry 19). The field that says how many transactions ended before the last tick is the model's own (log
entry 4). -/
def Obligations.MeterSampleIntegrates : Prop :=
  ∀ (s : State) (rest : List Transaction) (a b c d : BitVec 16), s.port.link = .meterRead :: rest → Settled s →
    (let heard := exec (.meterSample (linkWord a) (linkWord b) (linkWord c) (linkWord d)) s
     let reading : MeterReading := ⟨a ++ b, c ++ d⟩
     (s.port.reference = none → heard = .next { s with
        port := { s.port with
          link := rest, owed := s.port.owed - 1, reference := some reading, discards := 0, lastSample := some .first
          meterLost := false }
        account := if s.port.meterLost = true ∧ s.straps.role = .charger then
            { s.account with account := s.account.account.map fun x => { x with resyncPending := true } }
          else s.account }) ∧
      ∀ ref, s.port.reference = some ref → s.port.meterLost = false →
        (let dx := (reading.exported - ref.exported).toNat
         let dm := (reading.imported - ref.imported).toNat
         let j := s.rating * 5 / 9 + 10
         let taken := { s.port with
          link := rest, owed := s.port.owed - 1, reference := some reading, discards := 0, lastDx := dx, lastDm := dm }
         (j < dx ∨ j < dm → heard = .next { s with
            port := { taken with lastSample := some .jump, meterJump := count s.port.meterJump } }) ∧
          (dx ≤ j → dm ≤ j → s.straps.role = .feeder → heard = .next { s with
            port := { taken with lastSample := some .good }
            feeder := { s.feeder with
              exportTotal := s.feeder.exportTotal + dx, importTotal := s.feeder.importTotal + dm } }) ∧
          (∀ s', dx ≤ j → dm ≤ j → s.straps.role = .charger → exec .offerCompositionEnd s = .next s' → s'.view.composing = none ∧
            heard = exec (.meterSample (linkWord a) (linkWord b) (linkWord c) (linkWord d)) s') ∧
          (dx ≤ j → dm ≤ j → s.straps.role = .charger → s.view.composing = none → s.session.record = none → heard = .next { s with
            port := { taken with lastSample := some .good } }) ∧
          (dx ≤ j → dm ≤ j → s.straps.role = .charger → s.view.composing = none → s.session.record.isSome = true →
            s.account.account = none → heard = .next { s with
              port := { taken with lastSample := some .good }
              account := { s.account with
                exportTotal := s.account.exportTotal + dx, importTotal := s.account.importTotal + dm } }) ∧
          ∀ r x, dx ≤ j → dm ≤ j → s.straps.role = .charger → s.view.composing = none → s.session.record = some r →
            s.account.account = some x →
            ∃ t y, heard = .next t ∧ t.port = { taken with lastSample := some .good } ∧
              t.account = { s.account with
                account := some { x with balance := y }
                exportTotal := s.account.exportTotal + dx, importTotal := s.account.importTotal + dm } ∧
              (y : Int) = max 0 (min (10 * (r.capacity : Int)) ((x.balance : Int) + dm - dx)) ∧
              (y / 10 ≤ eRes r ∧ 0 < s.apply.share → t.apply = { s.apply with share := 0, lastCut := some .reserve } ∧
                ∀ f : Flag, f.isSet t.status.word = (f.isSet s.status.word || decide (f = .reserve))) ∧
              (eRes r < y / 10 ∨ s.apply.share ≤ 0 → t.apply = s.apply ∧ t.status = s.status) ∧
              t = { s with port := t.port, account := t.account, apply := t.apply, status := t.status }))

/-- METER_DISCARD and METER_LOSS (R116, R129, R149, R152, R154): LINK_ERR and the discard count go up; the third in a row begins a
loss: the reference is none, METER is set and the share becomes 0, and a FEEDER's loss mark is set. While the meter is lost a
discard changes nothing else. A METER_SAMPLE with a word of bad parity is a discard (R139). That the last
increments stay through a discarded sample is the model's reading (log entry 18). That a threshold's command is the
guarded case of its stimulus is the model's reading (log entry 5); the field that says how many transactions ended before the last
tick is the model's own (log entry 4). -/
def Obligations.ThirdDiscardLosesTheMeter : Prop :=
  ∀ (s : State) (rest : List Transaction), s.port.link = .meterRead :: rest → Settled s →
    (let taken := { s.port with
      link := rest, owed := s.port.owed - 1, linkErr := count s.port.linkErr, lastSample := some .discarded
      discards := min 3 (s.port.discards + 1) }
     (∀ a b c d : LinkWord, (∃ w ∈ [a, b, c, d], oddParity (w.extractLsb' 1 16) ≠ w.getLsbD 0) →
        exec (.meterSample a b c d) s = exec .meterDiscard s) ∧
      (s.port.discards < 2 ∨ s.port.meterLost = true → exec .meterDiscard s = .next { s with port := taken }) ∧
      (2 ≤ s.port.discards → s.port.meterLost = false →
        ∃ t, exec .meterDiscard s = .next t ∧ exec .meterLoss s = .next t ∧
          t.port = { taken with meterLost := true, reference := none } ∧
          t.apply = (if s.apply.share = 0 then s.apply else { s.apply with share := 0, lastCut := some .meterLost }) ∧
          (∀ f : Flag, f.isSet t.status.word = (f.isSet s.status.word || decide (f = .meter))) ∧
          t.feeder = (if s.straps.role = .feeder then { s.feeder with lossMark := true } else s.feeder) ∧
          t = { s with port := t.port, apply := t.apply, feeder := t.feeder, status := t.status }))

/-! ## The Service Port -/

/-- POST_ACCEPTANCE (R165, R166, R169, R170, R173): a POST is judged when select goes high, its code before its length before
the room in the FIFO; an accepted post joins the tail. Zeros are clocked out during the body, after the port status byte,
which is taken when select goes low. The premise that no head can be applied keeps waiting posts out of this statement. How a
transaction is cut into commands is the model's choice (log entry 7). -/
def Obligations.PostIsJudgedAtSelectHigh : Prop :=
  ∀ (s : State) (access : Byte) (body : List Byte) (spare : Fin 8),
    access.toNat / 64 = 2 → s.service.select ≠ .ignored → s.service.window = none → s.readyHead = none →
    (let code := access.toNat % 32
     let first := BitVec.ofNat 8 (64 * (2 - s.service.fifo.length) + 16 * s.service.acceptance.code +
        if s.noticeLine then 8 else 0)
     let verdict : Acceptance :=
      if code < 16 ∨ 26 < code then .refusedCode
      else if body.length ≠ [15, 7, 6, 1, 0, 0, 5, 2, 1, 2, 0].getD (code - 16) 0 ∨ spare ≠ 0 then .refusedLength
      else if 2 ≤ s.service.fifo.length then .refusedFull
      else .accepted
     exec (.postAcceptance (.run (access :: body) spare)) s = .next { s with service := { s.service with
        select := .high, acceptance := verdict
        fifo := if verdict = .accepted then s.service.fifo ++ [⟨code, body⟩] else s.service.fifo
        out := (if s.service.select = .high then [first] else s.service.out) ++ List.replicate body.length 0 } } ∧
      (s.service.select = .high → exec (.postAcceptance .selectLow) s = .next { s with service := { s.service with
        select := .low, out := [first] } }))

/-- READ_RECORD and READ_CLEAR_STATUS (R161, R165 to R167, R172 to R174): after the port status byte and the filler the record
named is clocked out, then zeros, as far as the transaction runs; nothing else changes, but that a READ_CLEAR of STATUS, once
its filler byte is whole, clears the factors it showed, which are byte 2 of that record (R156, R159, R160, R162). SESSION,
RESULT and STATUS have the bytes of their tables, and COUNTERS its fifteen counters in their order. A port that ignores select
takes the next transaction. How a transaction is cut into commands is the model's choice (log entry 7). -/
def Obligations.ReadsClockOutTheRecord : Prop :=
  ∀ (s : State) (access : Byte) (after : List Byte) (spare : Fin 8),
    (s.service.select ≠ .ignored → s.service.window = none → s.readyHead = none →
      (let first := if s.service.select = .high then [portStatus s] else s.service.out
       let record := (recordOf (access.toNat % 32) s).getD []
       let shown := (0 :: record).take after.length ++ List.replicate (after.length - (record.length + 1)) 0
       let ended (out : List Byte) : ServiceUnit := { s.service with select := .high, out := first ++ out }
       (access.toNat / 64 < 2 → access.toNat % 32 ≠ 5 → ¬(access.toNat / 64 = 1 ∧ access.toNat % 32 = 8) →
          exec (.readRecord (.run (access :: after) spare)) s = .next { s with service := ended shown }) ∧
        (access.toNat / 64 = 3 → exec (.readRecord (.run (access :: after) spare)) s =
          .next { s with service := ended (List.replicate after.length 0) }) ∧
        exec (.readRecord (.run [] spare)) s = .next { s with service := ended [] } ∧
        (access.toNat / 64 = 1 → access.toNat % 32 = 8 →
          exec (.readClearStatus (.run (access :: after) spare)) s = .next { s with
            service := ended shown
            status := { s.status with factors := if after = [] then s.status.factors else 0 } }))) ∧
    (s.service.select = .ignored → exec (.readRecord (.run (access :: after) spare)) s = .next { s with
      service := { s.service with select := .high, window := none } }) ∧
    recordOf 0 s = some [1, 156, BitVec.ofNat 8 s.straps.stn, (match s.straps.role with | .charger => 0 | .feeder => 1),
      BitVec.ofNat 8 s.straps.site, BitVec.ofNat 8 s.straps.intv, BitVec.ofNat 8 s.straps.lr] ∧
    recordOf 2 s = some (sessionBytes s) ∧ recordOf 7 s = some (resultBytes s) ∧ recordOf 8 s = some (statusBytes s) ∧
    recordOf 9 s = some (countersBytes s) ∧
    (∀ p ∈ [(2, 27), (7, 31), (8, 15), (9, 30)], (recordOf p.1 s).map List.length = some p.2) ∧
    ∀ code, 11 < code → recordOf code s = none

/-- READ_VIEW, moment by moment (R168, R174): the header is captured whole and opens the window, each entry is captured when
its first byte is due, an index beyond the entry count gives station 255 and zeros, and beyond the window there are zeros. How
a transaction is cut into commands is the model's choice (log entry 7). -/
def Obligations.ViewIsReadEntryByEntry : Prop :=
  (∀ (s : State) (access first number : Byte), access.toNat / 64 < 2 → access.toNat % 32 = 5 →
    s.service.select ≠ .ignored → s.service.window = none → s.readyHead = none →
    exec (.readView (.header access first number)) s = .next { s with service := { s.service with
      select := .low
      window := some ⟨min 63 first.toNat, min (max 1 number.toNat) (64 - min 63 first.toNat)⟩
      out := (if s.service.select = .high then [portStatus s] else s.service.out) ++
        [0, 0, 0, (match s.view.phase with | .closed => 0 | .opened => 1 | .frozen => 2)] ++
        (match s.view.phase with | .closed => natBytes 2 0 | _ => natBytes 2 (s.timer.n + 1).toNat) ++
        [BitVec.ofNat 8 s.view.entries.length] } } ∧
    (s.service.select = .high → exec (.readView .selectLow) s = .next { s with service := { s.service with
      select := .low, out := [portStatus s] } })) ∧
  ∀ (s : State) (w : ViewCursor), s.service.window = some w →
    (0 < w.left → exec (.readView .entry) s = .next { s with service := { s.service with
      window := some ⟨w.next + 1, w.left - 1⟩
      out := s.service.out ++ (match s.view.entries[w.next]? with
        | some e =>
          [BitVec.ofNat 8 e.station,
            (match e.origin with | .heard => 0 | .own => 1) + (match e.share with | none => 0 | some _ => 2)] ++
            (natBytes 3 e.values.wx ++ natBytes 2 e.values.cx ++ natBytes 3 e.values.wm ++ natBytes 2 e.values.cm) ++
            (match e.share with | some x => natBytes 2 (x % 65536).toNat | none => [0, 0])
        | none => 255 :: List.replicate 13 0) } }) ∧
    (w.left = 0 → exec (.readView .entry) s = .next { s with service := { s.service with
      out := s.service.out ++ List.replicate 14 0 } }) ∧
    exec (.readView .selectHigh) s = .next { s with service := { s.service with select := .high, window := none } }

/-! ## Frames and the division -/

/-- A frame is read back as it was sent (R2 to R7, R17): the levels of a frame whose fields are legal, with insert bits, check and
end field, pass the integrity step and give that frame, after recessive bits that leave the line idle, and as the rest of a frame
of which the station has read the beginning. The count of recessive bits before an event is the model's own field (log entry
9). -/
def Obligations.SentFrameIsReadBack : Prop :=
  ∀ (f : Frame), f.legal = true →
    (∀ run idle, 10 ≤ run + idle → readFrame [] run (List.replicate idle true ++ f.levels) = .frame f) ∧
    ∀ (heard levels : List Level) (run : Nat), heard ≠ [] → heard ++ levels = f.levels →
      readFrame heard run levels = .frame f

/-- The division (R101 to R105), over eligible entries of distinct stations. Where the cap sum is at most the goal, every entry
receives its cap, the share sum is the cap sum, and no pass is made. Else a pass takes every quotient floor(R × w / W); the
entries whose quotient reaches their cap receive it and leave, and the rest is shared as what is left of the goal; in the last
pass every entry receives its quotient, and the first r by residue, then by station number, one hW more, r being what the
quotients leave of the goal. Every share stays within its cap, the shares sum to the lesser of the goal and the cap sum, and the
passes are no more than the entries. -/
def Obligations.DivisionMeetsTheGoal : Prop :=
  ∀ (goal : Nat) (claims : List Claim), claims.Pairwise (fun a b => a.station ≠ b.station) →
    (∀ c ∈ claims, c.weight ≠ 0 ∧ c.cap ≠ 0) →
    (let share (c : Claim) := shareOf (divide goal claims).1 c.station
     let weights := (claims.map Claim.weight).sum
     let quot (c : Claim) := goal * c.weight / weights
     let left (c : Claim) := goal * c.weight % weights
     let capped := claims.filter fun c => c.cap ≤ quot c
     let rest := claims.filter fun c => quot c < c.cap
     let onward := goal - (capped.map Claim.cap).sum
     awardSum (divide goal claims).1 = min goal (capSum claims) ∧
      (divide goal claims).1.length = claims.length ∧ (∀ c ∈ claims, share c ≤ c.cap) ∧
      ((∀ c ∈ claims, c.cap ≤ 4000) → capSum claims ≤ 256000) ∧
      (capSum claims ≤ goal → (divide goal claims).2 = 0 ∧ (∀ c ∈ claims, share c = c.cap) ∧
        awardSum (divide goal claims).1 = capSum claims) ∧
      (goal < capSum claims → capped ≠ [] →
        (∀ c ∈ capped, share c = c.cap) ∧ (∀ c ∈ rest, share c = shareOf (divide onward rest).1 c.station) ∧
        onward < capSum rest ∧ (divide goal claims).2 = (divide onward rest).2 + 1) ∧
      (goal < capSum claims → capped = [] → (divide goal claims).2 = 1 ∧
        ∀ c ∈ claims, share c = quot c +
          (if (claims.filter fun d => left c < left d ∨ left d = left c ∧ d.station < c.station).length <
              goal - (claims.map quot).sum then 1 else 0)) ∧
      (goal < capSum claims → 1 ≤ (divide goal claims).2 ∧ (divide goal claims).2 ≤ claims.length))
end

