-- ==== Sys2Proof/Laws/Bytes.lean ====
section
/-! SUPPORT. Numbers as bytes, most significant first (R174): what a field of a body reads back. -/

namespace Sys2Proof.Machine

@[simp] theorem natBytes_length (w v : Nat) : (natBytes w v).length = w := by
  induction w with
  | zero => rfl
  | succ n ih => simp [natBytes, ih]

/-- A leading byte counts 256 for each byte behind it. -/
theorem bytesNat_cons (b : Byte) (l : List Byte) : bytesNat (b :: l) = b.toNat * 256 ^ l.length + bytesNat l := by
  have step : ∀ (l : List Byte) (k : Nat),
      l.foldl (fun v b => 256 * v + b.toNat) k = k * 256 ^ l.length + l.foldl (fun v b => 256 * v + b.toNat) 0 := by
    intro l
    induction l with
    | nil => simp
    | cons a t ih =>
      intro k
      simp only [List.foldl_cons, List.length_cons]
      rw [ih, ih (256 * 0 + a.toNat)]
      ring
  unfold bytesNat
  simp only [List.foldl_cons]
  rw [step]
  ring

/-- A number written in `w` bytes reads back modulo 256^w. -/
theorem bytesNat_natBytes (w v : Nat) : bytesNat (natBytes w v) = v % 256 ^ w := by
  induction w with
  | zero => simp [natBytes, bytesNat, Nat.mod_one]
  | succ n ih =>
    have h : (BitVec.ofNat 8 (v / 256 ^ n)).toNat = v / 256 ^ n % 256 := by simp
    rw [natBytes, bytesNat_cons, ih, natBytes_length, h, pow_succ, Nat.mod_mul]
    ring

/-- The field that stands behind `before` reads the number written there. -/
theorem field_natBytes (before after : List Byte) (at_ w v : Nat) (h : at_ = before.length) (hv : v < 256 ^ w) :
    field (before ++ (natBytes w v ++ after)) at_ w = v := by
  subst h
  unfold field
  rw [List.drop_left, List.take_left' (natBytes_length w v), bytesNat_natBytes, Nat.mod_eq_of_lt hv]

/-- The last field of a body reads the number written there. -/
theorem field_natBytes_last (before : List Byte) (at_ w v : Nat) (h : at_ = before.length) (hv : v < 256 ^ w) :
    field (before ++ natBytes w v) at_ w = v := by
  have := field_natBytes before [] at_ w v h hv
  simpa using this

end Sys2Proof.Machine
end

