-- ==== Sys2Proof/Laws/State.lean ====
section
/-! SUPPORT. What each shared operation leaves as it was: one lemma for each operation, one equation for each part of State it
does not touch. Later proofs cite these and never unfold a record update. -/

namespace Sys2Proof.Machine

@[simp] theorem raise_frame (f : Flag) (s : State) :
    (raise f s).straps = s.straps ∧ (raise f s).time = s.time ∧ (raise f s).line = s.line ∧
    (raise f s).timer = s.timer ∧ (raise f s).session = s.session ∧ (raise f s).account = s.account ∧
    (raise f s).view = s.view ∧ (raise f s).alloc = s.alloc ∧ (raise f s).apply = s.apply ∧
    (raise f s).feeder = s.feeder ∧ (raise f s).port = s.port ∧ (raise f s).service = s.service ∧
    (raise f s).pending = s.pending := by
  simp [raise]

@[simp] theorem cause_frame (f : Factor) (s : State) :
    (cause f s).straps = s.straps ∧ (cause f s).time = s.time ∧ (cause f s).line = s.line ∧
    (cause f s).timer = s.timer ∧ (cause f s).session = s.session ∧ (cause f s).account = s.account ∧
    (cause f s).view = s.view ∧ (cause f s).alloc = s.alloc ∧ (cause f s).apply = s.apply ∧
    (cause f s).feeder = s.feeder ∧ (cause f s).port = s.port ∧ (cause f s).service = s.service ∧
    (cause f s).pending = s.pending := by
  simp [cause]

@[simp] theorem capture_frame (f : Flag) (s : State) :
    (capture f s).straps = s.straps ∧ (capture f s).time = s.time ∧ (capture f s).line = s.line ∧
    (capture f s).timer = s.timer ∧ (capture f s).session = s.session ∧ (capture f s).account = s.account ∧
    (capture f s).view = s.view ∧ (capture f s).alloc = s.alloc ∧ (capture f s).apply = s.apply ∧
    (capture f s).feeder = s.feeder ∧ (capture f s).port = s.port ∧ (capture f s).service = s.service ∧
    (capture f s).pending = s.pending := by
  unfold capture; split <;> simp

@[simp] theorem noteFaults_frame (w : BitVec 14) (s : State) :
    (noteFaults w s).straps = s.straps ∧ (noteFaults w s).time = s.time ∧ (noteFaults w s).line = s.line ∧
    (noteFaults w s).timer = s.timer ∧ (noteFaults w s).session = s.session ∧ (noteFaults w s).account = s.account ∧
    (noteFaults w s).view = s.view ∧ (noteFaults w s).alloc = s.alloc ∧ (noteFaults w s).apply = s.apply ∧
    (noteFaults w s).feeder = s.feeder ∧ (noteFaults w s).port = s.port ∧ (noteFaults w s).service = s.service ∧
    (noteFaults w s).pending = s.pending := by
  unfold noteFaults; split <;> simp

@[simp] theorem cut_frame (b : Nat) (c : Cut) (s : State) :
    (cut b c s).straps = s.straps ∧ (cut b c s).time = s.time ∧ (cut b c s).line = s.line ∧
    (cut b c s).timer = s.timer ∧ (cut b c s).session = s.session ∧ (cut b c s).account = s.account ∧
    (cut b c s).view = s.view ∧ (cut b c s).alloc = s.alloc ∧ (cut b c s).feeder = s.feeder ∧
    (cut b c s).port = s.port ∧ (cut b c s).status = s.status ∧ (cut b c s).service = s.service ∧
    (cut b c s).pending = s.pending := by
  unfold cut; split <;> simp

@[simp] theorem offerFate_frame (f : Fate) (n : IntervalNo) (s : State) :
    (offerFate f n s).straps = s.straps ∧ (offerFate f n s).time = s.time ∧ (offerFate f n s).line = s.line ∧
    (offerFate f n s).timer = s.timer ∧ (offerFate f n s).session = s.session ∧
    (offerFate f n s).account = s.account ∧ (offerFate f n s).alloc = s.alloc ∧ (offerFate f n s).apply = s.apply ∧
    (offerFate f n s).feeder = s.feeder ∧ (offerFate f n s).port = s.port ∧ (offerFate f n s).status = s.status ∧
    (offerFate f n s).service = s.service ∧ (offerFate f n s).pending = s.pending := by
  unfold offerFate; split <;> simp

@[simp] theorem goalDropped_frame (n : IntervalNo) (s : State) :
    (goalDropped n s).straps = s.straps ∧ (goalDropped n s).time = s.time ∧ (goalDropped n s).line = s.line ∧
    (goalDropped n s).timer = s.timer ∧ (goalDropped n s).session = s.session ∧
    (goalDropped n s).account = s.account ∧ (goalDropped n s).view = s.view ∧ (goalDropped n s).alloc = s.alloc ∧
    (goalDropped n s).apply = s.apply ∧ (goalDropped n s).port = s.port ∧ (goalDropped n s).status = s.status ∧
    (goalDropped n s).service = s.service ∧ (goalDropped n s).pending = s.pending := by
  simp [goalDropped]

@[simp] theorem tellDrop_frame (q : Queued) (s : State) :
    (tellDrop q s).straps = s.straps ∧ (tellDrop q s).time = s.time ∧ (tellDrop q s).line = s.line ∧
    (tellDrop q s).timer = s.timer ∧ (tellDrop q s).session = s.session ∧ (tellDrop q s).account = s.account ∧
    (tellDrop q s).alloc = s.alloc ∧ (tellDrop q s).apply = s.apply ∧ (tellDrop q s).port = s.port ∧
    (tellDrop q s).status = s.status ∧ (tellDrop q s).service = s.service ∧ (tellDrop q s).pending = s.pending := by
  unfold tellDrop; split <;> try split
  all_goals simp

@[simp] theorem dropSlot_frame (k : Slot) (s : State) :
    (dropSlot k s).straps = s.straps ∧ (dropSlot k s).time = s.time ∧ (dropSlot k s).timer = s.timer ∧
    (dropSlot k s).session = s.session ∧ (dropSlot k s).account = s.account ∧ (dropSlot k s).alloc = s.alloc ∧
    (dropSlot k s).apply = s.apply ∧ (dropSlot k s).port = s.port ∧ (dropSlot k s).status = s.status ∧
    (dropSlot k s).service = s.service ∧ (dropSlot k s).pending = s.pending := by
  unfold dropSlot; split <;> simp

@[simp] theorem dropAtDeadline_frame (k : Slot) (s : State) :
    (dropAtDeadline k s).straps = s.straps ∧ (dropAtDeadline k s).time = s.time ∧
    (dropAtDeadline k s).timer = s.timer ∧ (dropAtDeadline k s).session = s.session ∧
    (dropAtDeadline k s).account = s.account ∧ (dropAtDeadline k s).alloc = s.alloc ∧
    (dropAtDeadline k s).apply = s.apply ∧ (dropAtDeadline k s).port = s.port ∧
    (dropAtDeadline k s).status = s.status ∧ (dropAtDeadline k s).service = s.service ∧
    (dropAtDeadline k s).pending = s.pending := by
  unfold dropAtDeadline; split <;> simp

@[simp] theorem dropAll_frame (s : State) :
    (dropAll s).straps = s.straps ∧ (dropAll s).time = s.time ∧ (dropAll s).timer = s.timer ∧
    (dropAll s).session = s.session ∧ (dropAll s).account = s.account ∧ (dropAll s).alloc = s.alloc ∧
    (dropAll s).apply = s.apply ∧ (dropAll s).port = s.port ∧ (dropAll s).status = s.status ∧
    (dropAll s).service = s.service ∧ (dropAll s).pending = s.pending := by
  simp [dropAll]

@[simp] theorem takeDeadline_frame (k : Slot) (s : State) :
    (takeDeadline k s).straps = s.straps ∧ (takeDeadline k s).time = s.time ∧ (takeDeadline k s).timer = s.timer ∧
    (takeDeadline k s).session = s.session ∧ (takeDeadline k s).account = s.account ∧
    (takeDeadline k s).alloc = s.alloc ∧ (takeDeadline k s).apply = s.apply ∧ (takeDeadline k s).port = s.port ∧
    (takeDeadline k s).status = s.status ∧ (takeDeadline k s).service = s.service ∧
    (takeDeadline k s).pending = s.pending := by
  unfold takeDeadline; split <;> simp

@[simp] theorem takeDeadlines_frame (o : Order) (s : State) :
    (takeDeadlines o s).straps = s.straps ∧ (takeDeadlines o s).time = s.time ∧ (takeDeadlines o s).timer = s.timer ∧
    (takeDeadlines o s).session = s.session ∧ (takeDeadlines o s).account = s.account ∧
    (takeDeadlines o s).alloc = s.alloc ∧ (takeDeadlines o s).apply = s.apply ∧ (takeDeadlines o s).port = s.port ∧
    (takeDeadlines o s).status = s.status ∧ (takeDeadlines o s).service = s.service ∧
    (takeDeadlines o s).pending = s.pending := by
  unfold takeDeadlines; split <;> simp

@[simp] theorem cancelSlot_frame (k : Slot) (s : State) :
    (cancelSlot k s).straps = s.straps ∧ (cancelSlot k s).time = s.time ∧ (cancelSlot k s).timer = s.timer ∧
    (cancelSlot k s).session = s.session ∧ (cancelSlot k s).account = s.account ∧ (cancelSlot k s).view = s.view ∧
    (cancelSlot k s).alloc = s.alloc ∧ (cancelSlot k s).apply = s.apply ∧ (cancelSlot k s).feeder = s.feeder ∧
    (cancelSlot k s).port = s.port ∧ (cancelSlot k s).status = s.status ∧ (cancelSlot k s).service = s.service ∧
    (cancelSlot k s).pending = s.pending := by
  unfold cancelSlot; split <;> simp

@[simp] theorem queueFrame_frame (k : Slot) (q : Queued) (s : State) :
    (queueFrame k q s).straps = s.straps ∧ (queueFrame k q s).time = s.time ∧ (queueFrame k q s).timer = s.timer ∧
    (queueFrame k q s).session = s.session ∧ (queueFrame k q s).account = s.account ∧
    (queueFrame k q s).alloc = s.alloc ∧ (queueFrame k q s).apply = s.apply ∧ (queueFrame k q s).port = s.port ∧
    (queueFrame k q s).status = s.status ∧ (queueFrame k q s).service = s.service ∧
    (queueFrame k q s).pending = s.pending := by
  unfold queueFrame; split <;> try split
  all_goals simp

@[simp] theorem abortComposition_frame (s : State) :
    (abortComposition s).straps = s.straps ∧ (abortComposition s).time = s.time ∧
    (abortComposition s).line = s.line ∧ (abortComposition s).timer = s.timer ∧
    (abortComposition s).session = s.session ∧ (abortComposition s).account = s.account ∧
    (abortComposition s).alloc = s.alloc ∧ (abortComposition s).apply = s.apply ∧
    (abortComposition s).feeder = s.feeder ∧ (abortComposition s).port = s.port ∧
    (abortComposition s).status = s.status ∧ (abortComposition s).service = s.service ∧
    (abortComposition s).pending = s.pending := by
  unfold abortComposition; split <;> simp

@[simp] theorem withdrawOffer_frame (s : State) :
    (withdrawOffer s).straps = s.straps ∧ (withdrawOffer s).time = s.time ∧ (withdrawOffer s).timer = s.timer ∧
    (withdrawOffer s).session = s.session ∧ (withdrawOffer s).account = s.account ∧
    (withdrawOffer s).alloc = s.alloc ∧ (withdrawOffer s).apply = s.apply ∧ (withdrawOffer s).feeder = s.feeder ∧
    (withdrawOffer s).port = s.port ∧ (withdrawOffer s).status = s.status ∧ (withdrawOffer s).service = s.service ∧
    (withdrawOffer s).pending = s.pending := by
  unfold withdrawOffer; split <;> try split
  all_goals simp

@[simp] theorem removeOwnEntry_frame (s : State) :
    (removeOwnEntry s).straps = s.straps ∧ (removeOwnEntry s).time = s.time ∧ (removeOwnEntry s).line = s.line ∧
    (removeOwnEntry s).timer = s.timer ∧ (removeOwnEntry s).session = s.session ∧
    (removeOwnEntry s).account = s.account ∧ (removeOwnEntry s).alloc = s.alloc ∧
    (removeOwnEntry s).apply = s.apply ∧ (removeOwnEntry s).feeder = s.feeder ∧ (removeOwnEntry s).port = s.port ∧
    (removeOwnEntry s).status = s.status ∧ (removeOwnEntry s).service = s.service ∧
    (removeOwnEntry s).pending = s.pending := by
  unfold removeOwnEntry; split <;> simp

@[simp] theorem withdraw_frame (r : WithdrawReason) (s : State) :
    (withdraw r s).straps = s.straps ∧ (withdraw r s).time = s.time ∧ (withdraw r s).timer = s.timer ∧
    (withdraw r s).session = s.session ∧ (withdraw r s).account = s.account ∧ (withdraw r s).alloc = s.alloc ∧
    (withdraw r s).apply = s.apply ∧ (withdraw r s).feeder = s.feeder ∧ (withdraw r s).port = s.port ∧
    (withdraw r s).status = s.status ∧ (withdraw r s).service = s.service ∧ (withdraw r s).pending = s.pending := by
  simp only [withdraw, removeOwnEntry_frame, queueFrame, tellDrop, State.frame]; (repeat' split) <;> simp

@[simp] theorem enterSession_frame (st : SessionState) (s : State) :
    (enterSession st s).straps = s.straps ∧ (enterSession st s).time = s.time ∧ (enterSession st s).line = s.line ∧
    (enterSession st s).timer = s.timer ∧ (enterSession st s).account = s.account ∧
    (enterSession st s).view = s.view ∧ (enterSession st s).alloc = s.alloc ∧ (enterSession st s).apply = s.apply ∧
    (enterSession st s).feeder = s.feeder ∧ (enterSession st s).port = s.port ∧
    (enterSession st s).service = s.service ∧ (enterSession st s).pending = s.pending := by
  simp [enterSession]

@[simp] theorem enterStopped_frame (s : State) :
    (enterStopped s).straps = s.straps ∧ (enterStopped s).time = s.time ∧ (enterStopped s).timer = s.timer ∧
    (enterStopped s).account = s.account ∧ (enterStopped s).alloc = s.alloc ∧ (enterStopped s).feeder = s.feeder ∧
    (enterStopped s).port = s.port ∧ (enterStopped s).service = s.service ∧
    (enterStopped s).pending = s.pending := by
  simp [enterStopped]

@[simp] theorem vacate_frame (s : State) :
    (vacate s).straps = s.straps ∧ (vacate s).time = s.time ∧ (vacate s).line = s.line ∧ (vacate s).timer = s.timer ∧
    (vacate s).view = s.view ∧ (vacate s).alloc = s.alloc ∧ (vacate s).apply = s.apply ∧
    (vacate s).feeder = s.feeder ∧ (vacate s).port = s.port ∧ (vacate s).service = s.service ∧
    (vacate s).pending = s.pending := by
  unfold vacate; split <;> simp

@[simp] theorem dropCommand_frame (s : State) :
    (dropCommand s).straps = s.straps ∧ (dropCommand s).time = s.time ∧ (dropCommand s).line = s.line ∧
    (dropCommand s).timer = s.timer ∧ (dropCommand s).session = s.session ∧ (dropCommand s).account = s.account ∧
    (dropCommand s).view = s.view ∧ (dropCommand s).alloc = s.alloc ∧ (dropCommand s).apply = s.apply ∧
    (dropCommand s).feeder = s.feeder ∧ (dropCommand s).status = s.status ∧ (dropCommand s).service = s.service ∧
    (dropCommand s).pending = s.pending := by
  simp [dropCommand]

@[simp] theorem forcedStop_frame (s : State) :
    (forcedStop s).straps = s.straps ∧ (forcedStop s).time = s.time ∧ (forcedStop s).line = s.line ∧
    (forcedStop s).timer = s.timer ∧ (forcedStop s).session = s.session ∧ (forcedStop s).account = s.account ∧
    (forcedStop s).view = s.view ∧ (forcedStop s).alloc = s.alloc ∧ (forcedStop s).apply = s.apply ∧
    (forcedStop s).feeder = s.feeder ∧ (forcedStop s).status = s.status ∧ (forcedStop s).service = s.service ∧
    (forcedStop s).pending = s.pending := by
  unfold forcedStop; split <;> simp

@[simp] theorem enterFaulted_frame (c : FaultCause) (s : State) :
    (enterFaulted c s).straps = s.straps ∧ (enterFaulted c s).time = s.time ∧ (enterFaulted c s).timer = s.timer ∧
    (enterFaulted c s).account = s.account ∧ (enterFaulted c s).alloc = s.alloc ∧
    (enterFaulted c s).feeder = s.feeder ∧ (enterFaulted c s).service = s.service ∧
    (enterFaulted c s).pending = s.pending := by
  unfold enterFaulted; dsimp only; (repeat' split) <;> simp

@[simp] theorem requestEnable_frame (s : State) :
    (requestEnable s).straps = s.straps ∧ (requestEnable s).time = s.time ∧ (requestEnable s).line = s.line ∧
    (requestEnable s).timer = s.timer ∧ (requestEnable s).session = s.session ∧
    (requestEnable s).account = s.account ∧ (requestEnable s).view = s.view ∧ (requestEnable s).alloc = s.alloc ∧
    (requestEnable s).apply = s.apply ∧ (requestEnable s).feeder = s.feeder ∧ (requestEnable s).status = s.status ∧
    (requestEnable s).service = s.service ∧ (requestEnable s).pending = s.pending := by
  unfold requestEnable; split <;> simp

@[simp] theorem reserveCheck_frame (s : State) :
    (reserveCheck s).straps = s.straps ∧ (reserveCheck s).time = s.time ∧ (reserveCheck s).line = s.line ∧
    (reserveCheck s).timer = s.timer ∧ (reserveCheck s).session = s.session ∧ (reserveCheck s).account = s.account ∧
    (reserveCheck s).view = s.view ∧ (reserveCheck s).alloc = s.alloc ∧ (reserveCheck s).feeder = s.feeder ∧
    (reserveCheck s).port = s.port ∧ (reserveCheck s).service = s.service ∧
    (reserveCheck s).pending = s.pending := by
  unfold reserveCheck; split <;> simp

@[simp] theorem integrate_frame (dx dm : Nat) (s : State) :
    (integrate dx dm s).straps = s.straps ∧ (integrate dx dm s).time = s.time ∧ (integrate dx dm s).line = s.line ∧
    (integrate dx dm s).timer = s.timer ∧ (integrate dx dm s).session = s.session ∧
    (integrate dx dm s).view = s.view ∧ (integrate dx dm s).alloc = s.alloc ∧ (integrate dx dm s).feeder = s.feeder ∧
    (integrate dx dm s).port = s.port ∧ (integrate dx dm s).service = s.service ∧
    (integrate dx dm s).pending = s.pending := by
  unfold integrate; split <;> try split
  all_goals simp

@[simp] theorem resync_frame (soc : Nat) (s : State) :
    (resync soc s).straps = s.straps ∧ (resync soc s).time = s.time ∧ (resync soc s).line = s.line ∧
    (resync soc s).timer = s.timer ∧ (resync soc s).session = s.session ∧ (resync soc s).view = s.view ∧
    (resync soc s).alloc = s.alloc ∧ (resync soc s).feeder = s.feeder ∧ (resync soc s).port = s.port ∧
    (resync soc s).service = s.service ∧ (resync soc s).pending = s.pending := by
  unfold resync; dsimp only; (repeat' split) <;> simp

@[simp] theorem markResync_frame (s : State) :
    (markResync s).straps = s.straps ∧ (markResync s).time = s.time ∧ (markResync s).line = s.line ∧
    (markResync s).timer = s.timer ∧ (markResync s).session = s.session ∧ (markResync s).view = s.view ∧
    (markResync s).alloc = s.alloc ∧ (markResync s).apply = s.apply ∧ (markResync s).feeder = s.feeder ∧
    (markResync s).port = s.port ∧ (markResync s).status = s.status ∧ (markResync s).service = s.service ∧
    (markResync s).pending = s.pending := by
  simp [markResync]

@[simp] theorem computeOffer_frame (x : Int) (s : State) :
    (computeOffer x s).straps = s.straps ∧ (computeOffer x s).time = s.time ∧ (computeOffer x s).line = s.line ∧
    (computeOffer x s).timer = s.timer ∧ (computeOffer x s).session = s.session ∧ (computeOffer x s).view = s.view ∧
    (computeOffer x s).alloc = s.alloc ∧ (computeOffer x s).apply = s.apply ∧ (computeOffer x s).feeder = s.feeder ∧
    (computeOffer x s).port = s.port ∧ (computeOffer x s).status = s.status ∧
    (computeOffer x s).service = s.service ∧ (computeOffer x s).pending = s.pending := by
  unfold computeOffer; split <;> simp

@[simp] theorem queueTally_frame (k : BoundaryKind) (s : State) :
    (queueTally k s).straps = s.straps ∧ (queueTally k s).time = s.time ∧ (queueTally k s).timer = s.timer ∧
    (queueTally k s).session = s.session ∧ (queueTally k s).account = s.account ∧ (queueTally k s).alloc = s.alloc ∧
    (queueTally k s).apply = s.apply ∧ (queueTally k s).port = s.port ∧ (queueTally k s).status = s.status ∧
    (queueTally k s).service = s.service ∧ (queueTally k s).pending = s.pending := by
  unfold queueTally; split <;> simp

@[simp] theorem restartTotals_frame (s : State) :
    (restartTotals s).straps = s.straps ∧ (restartTotals s).time = s.time ∧ (restartTotals s).line = s.line ∧
    (restartTotals s).timer = s.timer ∧ (restartTotals s).session = s.session ∧ (restartTotals s).view = s.view ∧
    (restartTotals s).alloc = s.alloc ∧ (restartTotals s).apply = s.apply ∧ (restartTotals s).feeder = s.feeder ∧
    (restartTotals s).port = s.port ∧ (restartTotals s).status = s.status ∧ (restartTotals s).service = s.service ∧
    (restartTotals s).pending = s.pending := by
  simp [restartTotals]

@[simp] theorem closeTotals_frame (k : BoundaryKind) (s : State) :
    (closeTotals k s).straps = s.straps ∧ (closeTotals k s).time = s.time ∧ (closeTotals k s).timer = s.timer ∧
    (closeTotals k s).session = s.session ∧ (closeTotals k s).alloc = s.alloc ∧ (closeTotals k s).apply = s.apply ∧
    (closeTotals k s).port = s.port ∧ (closeTotals k s).status = s.status ∧ (closeTotals k s).service = s.service ∧
    (closeTotals k s).pending = s.pending := by
  simp [closeTotals]

@[simp] theorem raiseIf_frame (b : Bool) (f : Flag) (s : State) :
    (raiseIf b f s).straps = s.straps ∧ (raiseIf b f s).time = s.time ∧ (raiseIf b f s).line = s.line ∧
    (raiseIf b f s).timer = s.timer ∧ (raiseIf b f s).session = s.session ∧ (raiseIf b f s).account = s.account ∧
    (raiseIf b f s).view = s.view ∧ (raiseIf b f s).alloc = s.alloc ∧ (raiseIf b f s).apply = s.apply ∧
    (raiseIf b f s).feeder = s.feeder ∧ (raiseIf b f s).port = s.port ∧ (raiseIf b f s).service = s.service ∧
    (raiseIf b f s).pending = s.pending := by
  unfold raiseIf; split <;> simp

@[simp] theorem raiseResult_frame (r : ResultFlags) (s : State) :
    (raiseResult r s).straps = s.straps ∧ (raiseResult r s).time = s.time ∧ (raiseResult r s).line = s.line ∧
    (raiseResult r s).timer = s.timer ∧ (raiseResult r s).session = s.session ∧
    (raiseResult r s).account = s.account ∧ (raiseResult r s).view = s.view ∧ (raiseResult r s).alloc = s.alloc ∧
    (raiseResult r s).apply = s.apply ∧ (raiseResult r s).feeder = s.feeder ∧ (raiseResult r s).port = s.port ∧
    (raiseResult r s).service = s.service ∧ (raiseResult r s).pending = s.pending := by
  simp [raiseResult]

@[simp] theorem completeWith_frame (i : AllocInput) (s : State) :
    (completeWith i s).straps = s.straps ∧ (completeWith i s).time = s.time ∧ (completeWith i s).line = s.line ∧
    (completeWith i s).timer = s.timer ∧ (completeWith i s).session = s.session ∧
    (completeWith i s).account = s.account ∧ (completeWith i s).apply = s.apply ∧
    (completeWith i s).feeder = s.feeder ∧ (completeWith i s).port = s.port ∧
    (completeWith i s).service = s.service ∧ (completeWith i s).pending = s.pending := by
  simp [completeWith]

@[simp] theorem complete_frame (s : State) :
    (complete s).straps = s.straps ∧ (complete s).time = s.time ∧ (complete s).line = s.line ∧
    (complete s).timer = s.timer ∧ (complete s).session = s.session ∧ (complete s).account = s.account ∧
    (complete s).apply = s.apply ∧ (complete s).feeder = s.feeder ∧ (complete s).port = s.port ∧
    (complete s).service = s.service ∧ (complete s).pending = s.pending := by
  unfold complete; split <;> simp

@[simp] theorem abandonWith_frame (i : AllocInput) (s : State) :
    (abandonWith i s).straps = s.straps ∧ (abandonWith i s).time = s.time ∧ (abandonWith i s).line = s.line ∧
    (abandonWith i s).timer = s.timer ∧ (abandonWith i s).session = s.session ∧
    (abandonWith i s).account = s.account ∧ (abandonWith i s).view = s.view ∧ (abandonWith i s).apply = s.apply ∧
    (abandonWith i s).feeder = s.feeder ∧ (abandonWith i s).port = s.port ∧ (abandonWith i s).service = s.service ∧
    (abandonWith i s).pending = s.pending := by
  simp [abandonWith]

@[simp] theorem engineBoundary_frame (s : State) :
    (engineBoundary s).straps = s.straps ∧ (engineBoundary s).time = s.time ∧ (engineBoundary s).line = s.line ∧
    (engineBoundary s).timer = s.timer ∧ (engineBoundary s).session = s.session ∧
    (engineBoundary s).account = s.account ∧ (engineBoundary s).view = s.view ∧ (engineBoundary s).apply = s.apply ∧
    (engineBoundary s).feeder = s.feeder ∧ (engineBoundary s).port = s.port ∧
    (engineBoundary s).service = s.service ∧ (engineBoundary s).pending = s.pending := by
  unfold engineBoundary; split <;> simp

@[simp] theorem takeFreeze_frame (s : State) :
    (takeFreeze s).straps = s.straps ∧ (takeFreeze s).time = s.time ∧ (takeFreeze s).line = s.line ∧
    (takeFreeze s).session = s.session ∧ (takeFreeze s).account = s.account ∧ (takeFreeze s).apply = s.apply ∧
    (takeFreeze s).feeder = s.feeder ∧ (takeFreeze s).port = s.port ∧ (takeFreeze s).service = s.service ∧
    (takeFreeze s).pending = s.pending := by
  unfold takeFreeze; dsimp only; split <;> simp

@[simp] theorem applyLoad_frame (l : Load) (n : IntervalNo) (s : State) :
    (applyLoad l n s).straps = s.straps ∧ (applyLoad l n s).time = s.time ∧ (applyLoad l n s).line = s.line ∧
    (applyLoad l n s).timer = s.timer ∧ (applyLoad l n s).session = s.session ∧
    (applyLoad l n s).account = s.account ∧ (applyLoad l n s).view = s.view ∧ (applyLoad l n s).alloc = s.alloc ∧
    (applyLoad l n s).feeder = s.feeder ∧ (applyLoad l n s).port = s.port ∧ (applyLoad l n s).service = s.service ∧
    (applyLoad l n s).pending = s.pending := by
  simp [applyLoad]

@[simp] theorem takeTally_frame (m : Fin 64) (n : IntervalNo) (p : Int) (s : State) :
    (takeTally m n p s).straps = s.straps ∧ (takeTally m n p s).time = s.time ∧ (takeTally m n p s).line = s.line ∧
    (takeTally m n p s).timer = s.timer ∧ (takeTally m n p s).session = s.session ∧
    (takeTally m n p s).account = s.account ∧ (takeTally m n p s).view = s.view ∧
    (takeTally m n p s).alloc = s.alloc ∧ (takeTally m n p s).apply = s.apply ∧ (takeTally m n p s).port = s.port ∧
    (takeTally m n p s).status = s.status ∧ (takeTally m n p s).service = s.service ∧
    (takeTally m n p s).pending = s.pending := by
  unfold takeTally; split <;> simp

@[simp] theorem takeTargetPoint_frame (s : State) :
    (takeTargetPoint s).straps = s.straps ∧ (takeTargetPoint s).time = s.time ∧ (takeTargetPoint s).line = s.line ∧
    (takeTargetPoint s).session = s.session ∧ (takeTargetPoint s).account = s.account ∧
    (takeTargetPoint s).view = s.view ∧ (takeTargetPoint s).alloc = s.alloc ∧ (takeTargetPoint s).apply = s.apply ∧
    (takeTargetPoint s).port = s.port ∧ (takeTargetPoint s).status = s.status ∧
    (takeTargetPoint s).service = s.service ∧ (takeTargetPoint s).pending = s.pending := by
  simp [takeTargetPoint]

@[simp] theorem endTargetWith_frame (r : FeederRecord) (s : State) :
    (endTargetWith r s).straps = s.straps ∧ (endTargetWith r s).time = s.time ∧ (endTargetWith r s).timer = s.timer ∧
    (endTargetWith r s).session = s.session ∧ (endTargetWith r s).account = s.account ∧
    (endTargetWith r s).alloc = s.alloc ∧ (endTargetWith r s).apply = s.apply ∧ (endTargetWith r s).port = s.port ∧
    (endTargetWith r s).status = s.status ∧ (endTargetWith r s).service = s.service ∧
    (endTargetWith r s).pending = s.pending := by
  simp [endTargetWith]

@[simp] theorem endTarget_frame (s : State) :
    (endTarget s).straps = s.straps ∧ (endTarget s).time = s.time ∧ (endTarget s).timer = s.timer ∧
    (endTarget s).session = s.session ∧ (endTarget s).account = s.account ∧ (endTarget s).alloc = s.alloc ∧
    (endTarget s).apply = s.apply ∧ (endTarget s).port = s.port ∧ (endTarget s).status = s.status ∧
    (endTarget s).service = s.service ∧ (endTarget s).pending = s.pending := by
  unfold endTarget; split <;> simp

@[simp] theorem feederBoundary_frame (k : BoundaryKind) (s : State) :
    (feederBoundary k s).straps = s.straps ∧ (feederBoundary k s).time = s.time ∧
    (feederBoundary k s).line = s.line ∧ (feederBoundary k s).timer = s.timer ∧
    (feederBoundary k s).session = s.session ∧ (feederBoundary k s).account = s.account ∧
    (feederBoundary k s).view = s.view ∧ (feederBoundary k s).alloc = s.alloc ∧
    (feederBoundary k s).apply = s.apply ∧ (feederBoundary k s).port = s.port ∧
    (feederBoundary k s).status = s.status ∧ (feederBoundary k s).service = s.service ∧
    (feederBoundary k s).pending = s.pending := by
  unfold feederBoundary; split <;> simp

@[simp] theorem endTransaction_frame (s : State) :
    (endTransaction s).straps = s.straps ∧ (endTransaction s).time = s.time ∧ (endTransaction s).line = s.line ∧
    (endTransaction s).timer = s.timer ∧ (endTransaction s).session = s.session ∧
    (endTransaction s).account = s.account ∧ (endTransaction s).view = s.view ∧ (endTransaction s).alloc = s.alloc ∧
    (endTransaction s).apply = s.apply ∧ (endTransaction s).feeder = s.feeder ∧
    (endTransaction s).status = s.status ∧ (endTransaction s).service = s.service ∧
    (endTransaction s).pending = s.pending := by
  simp [endTransaction]

@[simp] theorem endExchange_frame (s : State) :
    (endExchange s).straps = s.straps ∧ (endExchange s).time = s.time ∧ (endExchange s).line = s.line ∧
    (endExchange s).timer = s.timer ∧ (endExchange s).session = s.session ∧ (endExchange s).account = s.account ∧
    (endExchange s).view = s.view ∧ (endExchange s).alloc = s.alloc ∧ (endExchange s).apply = s.apply ∧
    (endExchange s).feeder = s.feeder ∧ (endExchange s).status = s.status ∧ (endExchange s).service = s.service ∧
    (endExchange s).pending = s.pending := by
  unfold endExchange; split <;> simp

@[simp] theorem reportEffect_frame (st : ConverterStatus) (s : State) :
    (reportEffect st s).straps = s.straps ∧ (reportEffect st s).time = s.time ∧ (reportEffect st s).timer = s.timer ∧
    (reportEffect st s).account = s.account ∧ (reportEffect st s).alloc = s.alloc ∧
    (reportEffect st s).feeder = s.feeder ∧ (reportEffect st s).service = s.service ∧
    (reportEffect st s).pending = s.pending := by
  unfold reportEffect; (repeat' split) <;> simp

@[simp] theorem takeStatus_frame (st : ConverterStatus) (s : State) :
    (takeStatus st s).straps = s.straps ∧ (takeStatus st s).time = s.time ∧ (takeStatus st s).timer = s.timer ∧
    (takeStatus st s).account = s.account ∧ (takeStatus st s).alloc = s.alloc ∧ (takeStatus st s).feeder = s.feeder ∧
    (takeStatus st s).service = s.service ∧ (takeStatus st s).pending = s.pending := by
  simp [takeStatus]

@[simp] theorem takeLinkError_frame (s : State) :
    (takeLinkError s).straps = s.straps ∧ (takeLinkError s).time = s.time ∧ (takeLinkError s).timer = s.timer ∧
    (takeLinkError s).account = s.account ∧ (takeLinkError s).alloc = s.alloc ∧ (takeLinkError s).feeder = s.feeder ∧
    (takeLinkError s).service = s.service ∧ (takeLinkError s).pending = s.pending := by
  unfold takeLinkError; dsimp only; split <;> simp

@[simp] theorem takeReply_frame (w : LinkWord) (s : State) :
    (takeReply w s).straps = s.straps ∧ (takeReply w s).time = s.time ∧ (takeReply w s).timer = s.timer ∧
    (takeReply w s).account = s.account ∧ (takeReply w s).alloc = s.alloc ∧ (takeReply w s).feeder = s.feeder ∧
    (takeReply w s).service = s.service ∧ (takeReply w s).pending = s.pending := by
  unfold takeReply; split <;> simp

@[simp] theorem rampTick_frame (s : State) :
    (rampTick s).straps = s.straps ∧ (rampTick s).time = s.time ∧ (rampTick s).line = s.line ∧
    (rampTick s).timer = s.timer ∧ (rampTick s).session = s.session ∧ (rampTick s).account = s.account ∧
    (rampTick s).view = s.view ∧ (rampTick s).alloc = s.alloc ∧ (rampTick s).apply = s.apply ∧
    (rampTick s).feeder = s.feeder ∧ (rampTick s).status = s.status ∧ (rampTick s).service = s.service ∧
    (rampTick s).pending = s.pending := by
  unfold rampTick; dsimp only; (repeat' split) <;> simp

@[simp] theorem waitTick_frame (s : State) :
    (waitTick s).straps = s.straps ∧ (waitTick s).time = s.time ∧ (waitTick s).timer = s.timer ∧
    (waitTick s).account = s.account ∧ (waitTick s).alloc = s.alloc ∧ (waitTick s).feeder = s.feeder ∧
    (waitTick s).service = s.service ∧ (waitTick s).pending = s.pending := by
  unfold waitTick; dsimp only; split <;> simp

@[simp] theorem startExchange_frame (s : State) :
    (startExchange s).straps = s.straps ∧ (startExchange s).time = s.time ∧ (startExchange s).line = s.line ∧
    (startExchange s).timer = s.timer ∧ (startExchange s).session = s.session ∧
    (startExchange s).account = s.account ∧ (startExchange s).view = s.view ∧ (startExchange s).alloc = s.alloc ∧
    (startExchange s).apply = s.apply ∧ (startExchange s).feeder = s.feeder ∧ (startExchange s).status = s.status ∧
    (startExchange s).service = s.service ∧ (startExchange s).pending = s.pending := by
  simp [startExchange]

@[simp] theorem portTick_frame (s : State) :
    (portTick s).straps = s.straps ∧ (portTick s).time = s.time ∧ (portTick s).timer = s.timer ∧
    (portTick s).account = s.account ∧ (portTick s).alloc = s.alloc ∧ (portTick s).feeder = s.feeder ∧
    (portTick s).service = s.service ∧ (portTick s).pending = s.pending := by
  unfold portTick; split <;> simp

@[simp] theorem endOfferWith_frame (c : Composition) (s : State) :
    (endOfferWith c s).straps = s.straps ∧ (endOfferWith c s).time = s.time ∧ (endOfferWith c s).timer = s.timer ∧
    (endOfferWith c s).session = s.session ∧ (endOfferWith c s).account = s.account ∧
    (endOfferWith c s).alloc = s.alloc ∧ (endOfferWith c s).apply = s.apply ∧ (endOfferWith c s).port = s.port ∧
    (endOfferWith c s).status = s.status ∧ (endOfferWith c s).service = s.service ∧
    (endOfferWith c s).pending = s.pending := by
  unfold endOfferWith; split <;> simp

@[simp] theorem endOffer_frame (s : State) :
    (endOffer s).straps = s.straps ∧ (endOffer s).time = s.time ∧ (endOffer s).timer = s.timer ∧
    (endOffer s).session = s.session ∧ (endOffer s).account = s.account ∧ (endOffer s).alloc = s.alloc ∧
    (endOffer s).apply = s.apply ∧ (endOffer s).port = s.port ∧ (endOffer s).status = s.status ∧
    (endOffer s).service = s.service ∧ (endOffer s).pending = s.pending := by
  unfold endOffer; split <;> simp

@[simp] theorem handIncrements_frame (dx dm : Nat) (s : State) :
    (handIncrements dx dm s).straps = s.straps ∧ (handIncrements dx dm s).time = s.time ∧
    (handIncrements dx dm s).timer = s.timer ∧ (handIncrements dx dm s).session = s.session ∧
    (handIncrements dx dm s).alloc = s.alloc ∧ (handIncrements dx dm s).port = s.port ∧
    (handIncrements dx dm s).service = s.service ∧ (handIncrements dx dm s).pending = s.pending := by
  unfold handIncrements; split <;> simp

@[simp] theorem endLoss_frame (s : State) :
    (endLoss s).straps = s.straps ∧ (endLoss s).time = s.time ∧ (endLoss s).line = s.line ∧
    (endLoss s).timer = s.timer ∧ (endLoss s).session = s.session ∧ (endLoss s).view = s.view ∧
    (endLoss s).alloc = s.alloc ∧ (endLoss s).apply = s.apply ∧ (endLoss s).feeder = s.feeder ∧
    (endLoss s).status = s.status ∧ (endLoss s).service = s.service ∧ (endLoss s).pending = s.pending := by
  unfold endLoss; dsimp only; (repeat' split) <;> simp

@[simp] theorem goodSample_frame (r : MeterReading) (s : State) :
    (goodSample r s).straps = s.straps ∧ (goodSample r s).time = s.time ∧ (goodSample r s).timer = s.timer ∧
    (goodSample r s).session = s.session ∧ (goodSample r s).alloc = s.alloc ∧ (goodSample r s).service = s.service ∧
    (goodSample r s).pending = s.pending := by
  unfold goodSample; (repeat' split) <;> try dsimp only
  all_goals (repeat' split) <;> simp

@[simp] theorem beginLoss_frame (s : State) :
    (beginLoss s).straps = s.straps ∧ (beginLoss s).time = s.time ∧ (beginLoss s).line = s.line ∧
    (beginLoss s).timer = s.timer ∧ (beginLoss s).session = s.session ∧ (beginLoss s).account = s.account ∧
    (beginLoss s).view = s.view ∧ (beginLoss s).alloc = s.alloc ∧ (beginLoss s).service = s.service ∧
    (beginLoss s).pending = s.pending := by
  unfold beginLoss; dsimp only; split <;> simp

@[simp] theorem discardSample_frame (s : State) :
    (discardSample s).straps = s.straps ∧ (discardSample s).time = s.time ∧ (discardSample s).line = s.line ∧
    (discardSample s).timer = s.timer ∧ (discardSample s).session = s.session ∧
    (discardSample s).account = s.account ∧ (discardSample s).view = s.view ∧ (discardSample s).alloc = s.alloc ∧
    (discardSample s).service = s.service ∧ (discardSample s).pending = s.pending := by
  unfold discardSample; dsimp only; split <;> simp

@[simp] theorem takeDiscard_frame (s : State) :
    (takeDiscard s).straps = s.straps ∧ (takeDiscard s).time = s.time ∧ (takeDiscard s).line = s.line ∧
    (takeDiscard s).timer = s.timer ∧ (takeDiscard s).session = s.session ∧ (takeDiscard s).account = s.account ∧
    (takeDiscard s).view = s.view ∧ (takeDiscard s).alloc = s.alloc ∧ (takeDiscard s).service = s.service ∧
    (takeDiscard s).pending = s.pending := by
  simp [takeDiscard]

@[simp] theorem takeSample_frame (a b c d : LinkWord) (s : State) :
    (takeSample a b c d s).straps = s.straps ∧ (takeSample a b c d s).time = s.time ∧
    (takeSample a b c d s).timer = s.timer ∧ (takeSample a b c d s).session = s.session ∧
    (takeSample a b c d s).alloc = s.alloc ∧ (takeSample a b c d s).service = s.service ∧
    (takeSample a b c d s).pending = s.pending := by
  unfold takeSample; split <;> simp

@[simp] theorem countSeconds_frame (s : State) :
    (countSeconds s).straps = s.straps ∧ (countSeconds s).time = s.time ∧ (countSeconds s).line = s.line ∧
    (countSeconds s).timer = s.timer ∧ (countSeconds s).account = s.account ∧ (countSeconds s).view = s.view ∧
    (countSeconds s).alloc = s.alloc ∧ (countSeconds s).feeder = s.feeder ∧ (countSeconds s).port = s.port ∧
    (countSeconds s).service = s.service ∧ (countSeconds s).pending = s.pending := by
  unfold countSeconds; dsimp only; (repeat' split) <;> simp

@[simp] theorem requestRead_frame (s : State) :
    (requestRead s).straps = s.straps ∧ (requestRead s).time = s.time ∧ (requestRead s).line = s.line ∧
    (requestRead s).timer = s.timer ∧ (requestRead s).session = s.session ∧ (requestRead s).account = s.account ∧
    (requestRead s).view = s.view ∧ (requestRead s).alloc = s.alloc ∧ (requestRead s).apply = s.apply ∧
    (requestRead s).feeder = s.feeder ∧ (requestRead s).status = s.status ∧ (requestRead s).service = s.service ∧
    (requestRead s).pending = s.pending := by
  simp [requestRead]

@[simp] theorem takeSecond_frame (s : State) :
    (takeSecond s).straps = s.straps ∧ (takeSecond s).line = s.line ∧ (takeSecond s).timer = s.timer ∧
    (takeSecond s).account = s.account ∧ (takeSecond s).view = s.view ∧ (takeSecond s).alloc = s.alloc ∧
    (takeSecond s).feeder = s.feeder ∧ (takeSecond s).service = s.service ∧ (takeSecond s).pending = s.pending := by
  simp [takeSecond]

@[simp] theorem timerBoundary_frame (k : BoundaryKind) (n : IntervalNo) (s : State) :
    (timerBoundary k n s).straps = s.straps ∧ (timerBoundary k n s).time = s.time ∧
    (timerBoundary k n s).line = s.line ∧ (timerBoundary k n s).session = s.session ∧
    (timerBoundary k n s).account = s.account ∧ (timerBoundary k n s).view = s.view ∧
    (timerBoundary k n s).alloc = s.alloc ∧ (timerBoundary k n s).apply = s.apply ∧
    (timerBoundary k n s).feeder = s.feeder ∧ (timerBoundary k n s).port = s.port ∧
    (timerBoundary k n s).status = s.status ∧ (timerBoundary k n s).service = s.service ∧
    (timerBoundary k n s).pending = s.pending := by
  simp [timerBoundary]

@[simp] theorem endDeadline_frame (k : Slot) (s : State) :
    (endDeadline k s).straps = s.straps ∧ (endDeadline k s).time = s.time ∧ (endDeadline k s).timer = s.timer ∧
    (endDeadline k s).session = s.session ∧ (endDeadline k s).account = s.account ∧
    (endDeadline k s).alloc = s.alloc ∧ (endDeadline k s).apply = s.apply ∧ (endDeadline k s).port = s.port ∧
    (endDeadline k s).status = s.status ∧ (endDeadline k s).service = s.service ∧
    (endDeadline k s).pending = s.pending := by
  unfold endDeadline; (repeat' split) <;> simp

@[simp] theorem endDeadlines_frame (o : Order) (s : State) :
    (endDeadlines o s).straps = s.straps ∧ (endDeadlines o s).time = s.time ∧ (endDeadlines o s).timer = s.timer ∧
    (endDeadlines o s).session = s.session ∧ (endDeadlines o s).account = s.account ∧
    (endDeadlines o s).alloc = s.alloc ∧ (endDeadlines o s).apply = s.apply ∧ (endDeadlines o s).port = s.port ∧
    (endDeadlines o s).status = s.status ∧ (endDeadlines o s).service = s.service ∧
    (endDeadlines o s).pending = s.pending := by
  unfold endDeadlines; split <;> simp

@[simp] theorem countSilence_frame (s : State) :
    (countSilence s).straps = s.straps ∧ (countSilence s).time = s.time ∧ (countSilence s).timer = s.timer ∧
    (countSilence s).session = s.session ∧ (countSilence s).account = s.account ∧ (countSilence s).view = s.view ∧
    (countSilence s).alloc = s.alloc ∧ (countSilence s).apply = s.apply ∧ (countSilence s).feeder = s.feeder ∧
    (countSilence s).port = s.port ∧ (countSilence s).status = s.status ∧ (countSilence s).service = s.service ∧
    (countSilence s).pending = s.pending := by
  unfold countSilence; split <;> simp

@[simp] theorem viewBoundary_frame (s : State) :
    (viewBoundary s).straps = s.straps ∧ (viewBoundary s).time = s.time ∧ (viewBoundary s).line = s.line ∧
    (viewBoundary s).timer = s.timer ∧ (viewBoundary s).session = s.session ∧ (viewBoundary s).account = s.account ∧
    (viewBoundary s).alloc = s.alloc ∧ (viewBoundary s).apply = s.apply ∧ (viewBoundary s).feeder = s.feeder ∧
    (viewBoundary s).port = s.port ∧ (viewBoundary s).status = s.status ∧ (viewBoundary s).service = s.service ∧
    (viewBoundary s).pending = s.pending := by
  simp [viewBoundary]

@[simp] theorem beginComposition_frame (x : Int) (s : State) :
    (beginComposition x s).straps = s.straps ∧ (beginComposition x s).time = s.time ∧
    (beginComposition x s).line = s.line ∧ (beginComposition x s).timer = s.timer ∧
    (beginComposition x s).session = s.session ∧ (beginComposition x s).alloc = s.alloc ∧
    (beginComposition x s).apply = s.apply ∧ (beginComposition x s).feeder = s.feeder ∧
    (beginComposition x s).port = s.port ∧ (beginComposition x s).status = s.status ∧
    (beginComposition x s).service = s.service ∧ (beginComposition x s).pending = s.pending := by
  unfold beginComposition; split <;> simp

@[simp] theorem queueMark_frame (s : State) :
    (queueMark s).straps = s.straps ∧ (queueMark s).time = s.time ∧ (queueMark s).timer = s.timer ∧
    (queueMark s).session = s.session ∧ (queueMark s).account = s.account ∧ (queueMark s).alloc = s.alloc ∧
    (queueMark s).apply = s.apply ∧ (queueMark s).port = s.port ∧ (queueMark s).status = s.status ∧
    (queueMark s).service = s.service ∧ (queueMark s).pending = s.pending := by
  simp [queueMark]

@[simp] theorem markBoundary_frame (k : BoundaryKind) (s : State) :
    (markBoundary k s).straps = s.straps ∧ (markBoundary k s).time = s.time ∧ (markBoundary k s).timer = s.timer ∧
    (markBoundary k s).session = s.session ∧ (markBoundary k s).account = s.account ∧
    (markBoundary k s).alloc = s.alloc ∧ (markBoundary k s).apply = s.apply ∧ (markBoundary k s).port = s.port ∧
    (markBoundary k s).status = s.status ∧ (markBoundary k s).service = s.service ∧
    (markBoundary k s).pending = s.pending := by
  unfold markBoundary; split <;> simp

@[simp] theorem takeBoundary_frame (k : BoundaryKind) (n : IntervalNo) (o : Order) (s : State) :
    (takeBoundary k n o s).straps = s.straps ∧ (takeBoundary k n o s).time = s.time ∧
    (takeBoundary k n o s).session = s.session ∧ (takeBoundary k n o s).port = s.port ∧
    (takeBoundary k n o s).service = s.service ∧ (takeBoundary k n o s).pending = s.pending := by
  simp [takeBoundary]

@[simp] theorem takeFreezeIfDue_frame (s : State) :
    (takeFreezeIfDue s).straps = s.straps ∧ (takeFreezeIfDue s).time = s.time ∧ (takeFreezeIfDue s).line = s.line ∧
    (takeFreezeIfDue s).session = s.session ∧ (takeFreezeIfDue s).account = s.account ∧
    (takeFreezeIfDue s).apply = s.apply ∧ (takeFreezeIfDue s).feeder = s.feeder ∧ (takeFreezeIfDue s).port = s.port ∧
    (takeFreezeIfDue s).service = s.service ∧ (takeFreezeIfDue s).pending = s.pending := by
  unfold takeFreezeIfDue; split <;> simp

@[simp] theorem takeTargetIfDue_frame (s : State) :
    (takeTargetIfDue s).straps = s.straps ∧ (takeTargetIfDue s).time = s.time ∧ (takeTargetIfDue s).line = s.line ∧
    (takeTargetIfDue s).session = s.session ∧ (takeTargetIfDue s).account = s.account ∧
    (takeTargetIfDue s).view = s.view ∧ (takeTargetIfDue s).alloc = s.alloc ∧ (takeTargetIfDue s).apply = s.apply ∧
    (takeTargetIfDue s).port = s.port ∧ (takeTargetIfDue s).status = s.status ∧
    (takeTargetIfDue s).service = s.service ∧ (takeTargetIfDue s).pending = s.pending := by
  unfold takeTargetIfDue; split <;> simp

@[simp] theorem takePoints_frame (o : Order) (s : State) :
    (takePoints o s).straps = s.straps ∧ (takePoints o s).time = s.time ∧ (takePoints o s).session = s.session ∧
    (takePoints o s).account = s.account ∧ (takePoints o s).apply = s.apply ∧ (takePoints o s).port = s.port ∧
    (takePoints o s).service = s.service ∧ (takePoints o s).pending = s.pending := by
  simp [takePoints]

@[simp] theorem advance_frame (s : State) :
    (advance s).straps = s.straps ∧ (advance s).time = s.time ∧ (advance s).line = s.line ∧
    (advance s).session = s.session ∧ (advance s).account = s.account ∧ (advance s).view = s.view ∧
    (advance s).alloc = s.alloc ∧ (advance s).apply = s.apply ∧ (advance s).feeder = s.feeder ∧
    (advance s).port = s.port ∧ (advance s).status = s.status ∧ (advance s).service = s.service ∧
    (advance s).pending = s.pending := by
  simp [advance]

@[simp] theorem timerTick_frame (o : Order) (s : State) :
    (timerTick o s).straps = s.straps ∧ (timerTick o s).time = s.time ∧ (timerTick o s).session = s.session ∧
    (timerTick o s).port = s.port ∧ (timerTick o s).service = s.service ∧ (timerTick o s).pending = s.pending := by
  unfold timerTick; split <;> try split
  all_goals simp

@[simp] theorem startSlot_frame (k : Slot) (s : State) :
    (startSlot k s).straps = s.straps ∧ (startSlot k s).time = s.time ∧ (startSlot k s).timer = s.timer ∧
    (startSlot k s).session = s.session ∧ (startSlot k s).account = s.account ∧ (startSlot k s).view = s.view ∧
    (startSlot k s).alloc = s.alloc ∧ (startSlot k s).apply = s.apply ∧ (startSlot k s).feeder = s.feeder ∧
    (startSlot k s).port = s.port ∧ (startSlot k s).status = s.status ∧ (startSlot k s).service = s.service ∧
    (startSlot k s).pending = s.pending := by
  unfold startSlot; split <;> simp

@[simp] theorem endAttempt_frame (k : Nat) (s : State) :
    (endAttempt k s).straps = s.straps ∧ (endAttempt k s).time = s.time ∧ (endAttempt k s).timer = s.timer ∧
    (endAttempt k s).session = s.session ∧ (endAttempt k s).account = s.account ∧ (endAttempt k s).view = s.view ∧
    (endAttempt k s).alloc = s.alloc ∧ (endAttempt k s).apply = s.apply ∧ (endAttempt k s).feeder = s.feeder ∧
    (endAttempt k s).port = s.port ∧ (endAttempt k s).status = s.status ∧ (endAttempt k s).service = s.service ∧
    (endAttempt k s).pending = s.pending := by
  simp [endAttempt]

@[simp] theorem releaseSlot_frame (a : Attempt) (s : State) :
    (releaseSlot a s).straps = s.straps ∧ (releaseSlot a s).time = s.time ∧ (releaseSlot a s).timer = s.timer ∧
    (releaseSlot a s).session = s.session ∧ (releaseSlot a s).account = s.account ∧
    (releaseSlot a s).alloc = s.alloc ∧ (releaseSlot a s).apply = s.apply ∧ (releaseSlot a s).port = s.port ∧
    (releaseSlot a s).status = s.status ∧ (releaseSlot a s).service = s.service ∧
    (releaseSlot a s).pending = s.pending := by
  unfold releaseSlot; split <;> simp

@[simp] theorem loseAttempt_frame (l : List Level) (s : State) :
    (loseAttempt l s).straps = s.straps ∧ (loseAttempt l s).time = s.time ∧ (loseAttempt l s).timer = s.timer ∧
    (loseAttempt l s).session = s.session ∧ (loseAttempt l s).account = s.account ∧
    (loseAttempt l s).alloc = s.alloc ∧ (loseAttempt l s).apply = s.apply ∧ (loseAttempt l s).port = s.port ∧
    (loseAttempt l s).status = s.status ∧ (loseAttempt l s).service = s.service ∧
    (loseAttempt l s).pending = s.pending := by
  unfold loseAttempt; split <;> simp

@[simp] theorem confirmOffer_frame (q : Queued) (v : OfferBody) (s : State) :
    (confirmOffer q v s).straps = s.straps ∧ (confirmOffer q v s).time = s.time ∧
    (confirmOffer q v s).line = s.line ∧ (confirmOffer q v s).timer = s.timer ∧
    (confirmOffer q v s).session = s.session ∧ (confirmOffer q v s).account = s.account ∧
    (confirmOffer q v s).alloc = s.alloc ∧ (confirmOffer q v s).apply = s.apply ∧
    (confirmOffer q v s).feeder = s.feeder ∧ (confirmOffer q v s).port = s.port ∧
    (confirmOffer q v s).status = s.status ∧ (confirmOffer q v s).service = s.service ∧
    (confirmOffer q v s).pending = s.pending := by
  unfold confirmOffer; (repeat' split) <;> simp

@[simp] theorem tellConfirmed_frame (q : Queued) (s : State) :
    (tellConfirmed q s).straps = s.straps ∧ (tellConfirmed q s).time = s.time ∧ (tellConfirmed q s).line = s.line ∧
    (tellConfirmed q s).timer = s.timer ∧ (tellConfirmed q s).session = s.session ∧
    (tellConfirmed q s).account = s.account ∧ (tellConfirmed q s).alloc = s.alloc ∧
    (tellConfirmed q s).apply = s.apply ∧ (tellConfirmed q s).feeder = s.feeder ∧ (tellConfirmed q s).port = s.port ∧
    (tellConfirmed q s).status = s.status ∧ (tellConfirmed q s).service = s.service ∧
    (tellConfirmed q s).pending = s.pending := by
  unfold tellConfirmed; split <;> simp

@[simp] theorem confirmAttempt_frame (s : State) :
    (confirmAttempt s).straps = s.straps ∧ (confirmAttempt s).time = s.time ∧ (confirmAttempt s).timer = s.timer ∧
    (confirmAttempt s).session = s.session ∧ (confirmAttempt s).account = s.account ∧
    (confirmAttempt s).alloc = s.alloc ∧ (confirmAttempt s).apply = s.apply ∧ (confirmAttempt s).feeder = s.feeder ∧
    (confirmAttempt s).port = s.port ∧ (confirmAttempt s).status = s.status ∧
    (confirmAttempt s).service = s.service ∧ (confirmAttempt s).pending = s.pending := by
  unfold confirmAttempt; dsimp only; (repeat' split) <;> simp

@[simp] theorem enterSilent_frame (s : State) :
    (enterSilent s).straps = s.straps ∧ (enterSilent s).time = s.time ∧ (enterSilent s).timer = s.timer ∧
    (enterSilent s).session = s.session ∧ (enterSilent s).account = s.account ∧ (enterSilent s).alloc = s.alloc ∧
    (enterSilent s).apply = s.apply ∧ (enterSilent s).port = s.port ∧ (enterSilent s).service = s.service ∧
    (enterSilent s).pending = s.pending := by
  simp [enterSilent]

@[simp] theorem failAttempt_frame (s : State) :
    (failAttempt s).straps = s.straps ∧ (failAttempt s).time = s.time ∧ (failAttempt s).timer = s.timer ∧
    (failAttempt s).session = s.session ∧ (failAttempt s).account = s.account ∧ (failAttempt s).alloc = s.alloc ∧
    (failAttempt s).apply = s.apply ∧ (failAttempt s).port = s.port ∧ (failAttempt s).service = s.service ∧
    (failAttempt s).pending = s.pending := by
  unfold failAttempt; dsimp only; (repeat' split) <;> simp

@[simp] theorem giveUpAttempt_frame (s : State) :
    (giveUpAttempt s).straps = s.straps ∧ (giveUpAttempt s).time = s.time ∧ (giveUpAttempt s).timer = s.timer ∧
    (giveUpAttempt s).session = s.session ∧ (giveUpAttempt s).account = s.account ∧ (giveUpAttempt s).view = s.view ∧
    (giveUpAttempt s).alloc = s.alloc ∧ (giveUpAttempt s).apply = s.apply ∧ (giveUpAttempt s).feeder = s.feeder ∧
    (giveUpAttempt s).port = s.port ∧ (giveUpAttempt s).status = s.status ∧ (giveUpAttempt s).service = s.service ∧
    (giveUpAttempt s).pending = s.pending := by
  unfold giveUpAttempt; split <;> simp

@[simp] theorem enterClash_frame (s : State) :
    (enterClash s).straps = s.straps ∧ (enterClash s).time = s.time ∧ (enterClash s).timer = s.timer ∧
    (enterClash s).session = s.session ∧ (enterClash s).account = s.account ∧ (enterClash s).alloc = s.alloc ∧
    (enterClash s).apply = s.apply ∧ (enterClash s).port = s.port ∧ (enterClash s).service = s.service ∧
    (enterClash s).pending = s.pending := by
  unfold enterClash; split <;> simp

@[simp] theorem boundaryAt_frame (k : BoundaryKind) (n : IntervalNo) (o : Order) (s : State) :
    (boundaryAt k n o s).straps = s.straps ∧ (boundaryAt k n o s).time = s.time ∧
    (boundaryAt k n o s).session = s.session ∧ (boundaryAt k n o s).port = s.port ∧
    (boundaryAt k n o s).service = s.service ∧ (boundaryAt k n o s).pending = s.pending := by
  simp [boundaryAt]

@[simp] theorem trailingMark_frame (n : IntervalNo) (s : State) :
    (trailingMark n s).straps = s.straps ∧ (trailingMark n s).time = s.time ∧ (trailingMark n s).timer = s.timer ∧
    (trailingMark n s).session = s.session ∧ (trailingMark n s).account = s.account ∧
    (trailingMark n s).view = s.view ∧ (trailingMark n s).alloc = s.alloc ∧ (trailingMark n s).apply = s.apply ∧
    (trailingMark n s).feeder = s.feeder ∧ (trailingMark n s).port = s.port ∧ (trailingMark n s).status = s.status ∧
    (trailingMark n s).service = s.service ∧ (trailingMark n s).pending = s.pending := by
  unfold trailingMark; split <;> try split
  all_goals simp

@[simp] theorem misalignNoted_frame (o : Order) (b : State) (s : State) :
    (misalignNoted o b s).straps = s.straps ∧ (misalignNoted o b s).time = s.time ∧
    (misalignNoted o b s).line = s.line ∧ (misalignNoted o b s).timer = s.timer ∧
    (misalignNoted o b s).session = s.session ∧ (misalignNoted o b s).account = s.account ∧
    (misalignNoted o b s).view = s.view ∧ (misalignNoted o b s).alloc = s.alloc ∧
    (misalignNoted o b s).apply = s.apply ∧ (misalignNoted o b s).feeder = s.feeder ∧
    (misalignNoted o b s).port = s.port ∧ (misalignNoted o b s).service = s.service ∧
    (misalignNoted o b s).pending = s.pending := by
  unfold misalignNoted; split <;> simp

@[simp] theorem takeMark_frame (p : Fin 4) (n : IntervalNo) (o : Order) (s : State) :
    (takeMark p n o s).straps = s.straps ∧ (takeMark p n o s).time = s.time ∧
    (takeMark p n o s).session = s.session ∧ (takeMark p n o s).port = s.port ∧
    (takeMark p n o s).service = s.service ∧ (takeMark p n o s).pending = s.pending := by
  unfold takeMark; (repeat' split) <;> simp

@[simp] theorem presentHeader_frame (b : FrameBody) (n : IntervalNo) (o : Order) (s : State) :
    (presentHeader b n o s).straps = s.straps ∧ (presentHeader b n o s).time = s.time ∧
    (presentHeader b n o s).session = s.session ∧ (presentHeader b n o s).port = s.port ∧
    (presentHeader b n o s).service = s.service ∧ (presentHeader b n o s).pending = s.pending := by
  unfold presentHeader; split <;> simp

@[simp] theorem countOff_frame (s : State) :
    (countOff s).straps = s.straps ∧ (countOff s).time = s.time ∧ (countOff s).line = s.line ∧
    (countOff s).timer = s.timer ∧ (countOff s).session = s.session ∧ (countOff s).account = s.account ∧
    (countOff s).alloc = s.alloc ∧ (countOff s).apply = s.apply ∧ (countOff s).feeder = s.feeder ∧
    (countOff s).port = s.port ∧ (countOff s).status = s.status ∧ (countOff s).service = s.service ∧
    (countOff s).pending = s.pending := by
  simp [countOff]

@[simp] theorem countLate_frame (s : State) :
    (countLate s).straps = s.straps ∧ (countLate s).time = s.time ∧ (countLate s).line = s.line ∧
    (countLate s).timer = s.timer ∧ (countLate s).session = s.session ∧ (countLate s).account = s.account ∧
    (countLate s).alloc = s.alloc ∧ (countLate s).apply = s.apply ∧ (countLate s).feeder = s.feeder ∧
    (countLate s).port = s.port ∧ (countLate s).status = s.status ∧ (countLate s).service = s.service ∧
    (countLate s).pending = s.pending := by
  simp [countLate]

@[simp] theorem takeOffer_frame (m : Fin 64) (n : IntervalNo) (v : OfferBody) (s : State) :
    (takeOffer m n v s).straps = s.straps ∧ (takeOffer m n v s).time = s.time ∧ (takeOffer m n v s).line = s.line ∧
    (takeOffer m n v s).timer = s.timer ∧ (takeOffer m n v s).session = s.session ∧
    (takeOffer m n v s).account = s.account ∧ (takeOffer m n v s).alloc = s.alloc ∧
    (takeOffer m n v s).apply = s.apply ∧ (takeOffer m n v s).feeder = s.feeder ∧ (takeOffer m n v s).port = s.port ∧
    (takeOffer m n v s).status = s.status ∧ (takeOffer m n v s).service = s.service ∧
    (takeOffer m n v s).pending = s.pending := by
  unfold takeOffer; split <;> try split
  all_goals simp

@[simp] theorem takeWithdraw_frame (m : Fin 64) (s : State) :
    (takeWithdraw m s).straps = s.straps ∧ (takeWithdraw m s).time = s.time ∧ (takeWithdraw m s).line = s.line ∧
    (takeWithdraw m s).timer = s.timer ∧ (takeWithdraw m s).session = s.session ∧
    (takeWithdraw m s).account = s.account ∧ (takeWithdraw m s).alloc = s.alloc ∧
    (takeWithdraw m s).apply = s.apply ∧ (takeWithdraw m s).feeder = s.feeder ∧ (takeWithdraw m s).port = s.port ∧
    (takeWithdraw m s).status = s.status ∧ (takeWithdraw m s).service = s.service ∧
    (takeWithdraw m s).pending = s.pending := by
  unfold takeWithdraw; split <;> simp

@[simp] theorem takeTarget_frame (t : TargetPart) (s : State) :
    (takeTarget t s).straps = s.straps ∧ (takeTarget t s).time = s.time ∧ (takeTarget t s).line = s.line ∧
    (takeTarget t s).timer = s.timer ∧ (takeTarget t s).session = s.session ∧ (takeTarget t s).account = s.account ∧
    (takeTarget t s).alloc = s.alloc ∧ (takeTarget t s).apply = s.apply ∧ (takeTarget t s).feeder = s.feeder ∧
    (takeTarget t s).port = s.port ∧ (takeTarget t s).status = s.status ∧ (takeTarget t s).service = s.service ∧
    (takeTarget t s).pending = s.pending := by
  unfold takeTarget; (repeat' split) <;> simp

@[simp] theorem handOff_frame (f : Frame) (o : Order) (s : State) :
    (handOff f o s).straps = s.straps ∧ (handOff f o s).time = s.time ∧ (handOff f o s).session = s.session ∧
    (handOff f o s).port = s.port ∧ (handOff f o s).service = s.service ∧ (handOff f o s).pending = s.pending := by
  unfold handOff; dsimp only; (repeat' split) <;> simp

@[simp] theorem filterFrame_frame (f : Frame) (o : Order) (s : State) :
    (filterFrame f o s).straps = s.straps ∧ (filterFrame f o s).time = s.time ∧
    (filterFrame f o s).session = s.session ∧ (filterFrame f o s).port = s.port ∧
    (filterFrame f o s).service = s.service ∧ (filterFrame f o s).pending = s.pending := by
  unfold filterFrame; split <;> try split
  all_goals simp

@[simp] theorem countCheck_frame (s : State) :
    (countCheck s).straps = s.straps ∧ (countCheck s).time = s.time ∧ (countCheck s).timer = s.timer ∧
    (countCheck s).session = s.session ∧ (countCheck s).account = s.account ∧ (countCheck s).view = s.view ∧
    (countCheck s).alloc = s.alloc ∧ (countCheck s).apply = s.apply ∧ (countCheck s).feeder = s.feeder ∧
    (countCheck s).port = s.port ∧ (countCheck s).status = s.status ∧ (countCheck s).service = s.service ∧
    (countCheck s).pending = s.pending := by
  simp [countCheck]

@[simp] theorem endReading_frame (r : Received) (l : List Level) (s : State) :
    (endReading r l s).straps = s.straps ∧ (endReading r l s).time = s.time ∧ (endReading r l s).timer = s.timer ∧
    (endReading r l s).session = s.session ∧ (endReading r l s).account = s.account ∧
    (endReading r l s).view = s.view ∧ (endReading r l s).alloc = s.alloc ∧ (endReading r l s).apply = s.apply ∧
    (endReading r l s).feeder = s.feeder ∧ (endReading r l s).port = s.port ∧ (endReading r l s).status = s.status ∧
    (endReading r l s).service = s.service ∧ (endReading r l s).pending = s.pending := by
  unfold endReading; simp

@[simp] theorem filterRead_frame (r : Received) (o : Order) (s : State) :
    (filterRead r o s).straps = s.straps ∧ (filterRead r o s).time = s.time ∧
    (filterRead r o s).session = s.session ∧ (filterRead r o s).port = s.port ∧
    (filterRead r o s).service = s.service ∧ (filterRead r o s).pending = s.pending := by
  unfold filterRead; split <;> simp

@[simp] theorem receive_frame (l : List Level) (o : Order) (s : State) :
    (receive l o s).straps = s.straps ∧ (receive l o s).time = s.time ∧ (receive l o s).session = s.session ∧
    (receive l o s).port = s.port ∧ (receive l o s).service = s.service ∧ (receive l o s).pending = s.pending := by
  simp [receive]

@[simp] theorem setRecord_frame (r : SessionRecord) (s : State) :
    (setRecord r s).straps = s.straps ∧ (setRecord r s).time = s.time ∧ (setRecord r s).line = s.line ∧
    (setRecord r s).timer = s.timer ∧ (setRecord r s).account = s.account ∧ (setRecord r s).view = s.view ∧
    (setRecord r s).alloc = s.alloc ∧ (setRecord r s).apply = s.apply ∧ (setRecord r s).feeder = s.feeder ∧
    (setRecord r s).port = s.port ∧ (setRecord r s).status = s.status ∧ (setRecord r s).service = s.service ∧
    (setRecord r s).pending = s.pending := by
  simp [setRecord]

@[simp] theorem packClip_frame (s : State) :
    (packClip s).straps = s.straps ∧ (packClip s).time = s.time ∧ (packClip s).line = s.line ∧
    (packClip s).timer = s.timer ∧ (packClip s).session = s.session ∧ (packClip s).account = s.account ∧
    (packClip s).view = s.view ∧ (packClip s).alloc = s.alloc ∧ (packClip s).feeder = s.feeder ∧
    (packClip s).port = s.port ∧ (packClip s).service = s.service ∧ (packClip s).pending = s.pending := by
  unfold packClip; split <;> simp

@[simp] theorem firstReport_frame (r : SessionRecord) (p : PackData) (s : State) :
    (firstReport r p s).straps = s.straps ∧ (firstReport r p s).time = s.time ∧ (firstReport r p s).line = s.line ∧
    (firstReport r p s).timer = s.timer ∧ (firstReport r p s).view = s.view ∧ (firstReport r p s).alloc = s.alloc ∧
    (firstReport r p s).apply = s.apply ∧ (firstReport r p s).feeder = s.feeder ∧
    (firstReport r p s).service = s.service ∧ (firstReport r p s).pending = s.pending := by
  unfold firstReport; dsimp only; (repeat' split) <;> simp

@[simp] theorem engagedReport_frame (p : PackData) (s : State) :
    (engagedReport p s).straps = s.straps ∧ (engagedReport p s).time = s.time ∧ (engagedReport p s).timer = s.timer ∧
    (engagedReport p s).alloc = s.alloc ∧ (engagedReport p s).feeder = s.feeder ∧
    (engagedReport p s).service = s.service ∧ (engagedReport p s).pending = s.pending := by
  unfold engagedReport; split <;> simp

@[simp] theorem stoppedReport_frame (p : PackData) (s : State) :
    (stoppedReport p s).straps = s.straps ∧ (stoppedReport p s).time = s.time ∧ (stoppedReport p s).line = s.line ∧
    (stoppedReport p s).timer = s.timer ∧ (stoppedReport p s).view = s.view ∧ (stoppedReport p s).alloc = s.alloc ∧
    (stoppedReport p s).feeder = s.feeder ∧ (stoppedReport p s).service = s.service ∧
    (stoppedReport p s).pending = s.pending := by
  unfold stoppedReport; dsimp only; (repeat' split) <;> simp

@[simp] theorem closingReport_frame (p : PackData) (s : State) :
    (closingReport p s).straps = s.straps ∧ (closingReport p s).time = s.time ∧ (closingReport p s).line = s.line ∧
    (closingReport p s).timer = s.timer ∧ (closingReport p s).session = s.session ∧
    (closingReport p s).account = s.account ∧ (closingReport p s).view = s.view ∧
    (closingReport p s).alloc = s.alloc ∧ (closingReport p s).apply = s.apply ∧
    (closingReport p s).feeder = s.feeder ∧ (closingReport p s).status = s.status ∧
    (closingReport p s).service = s.service ∧ (closingReport p s).pending = s.pending := by
  unfold closingReport; split <;> simp

@[simp] theorem closeStop_frame (r : CloseReason) (s : State) :
    (closeStop r s).straps = s.straps ∧ (closeStop r s).time = s.time ∧ (closeStop r s).line = s.line ∧
    (closeStop r s).timer = s.timer ∧ (closeStop r s).session = s.session ∧ (closeStop r s).account = s.account ∧
    (closeStop r s).view = s.view ∧ (closeStop r s).alloc = s.alloc ∧ (closeStop r s).apply = s.apply ∧
    (closeStop r s).feeder = s.feeder ∧ (closeStop r s).status = s.status ∧ (closeStop r s).service = s.service ∧
    (closeStop r s).pending = s.pending := by
  unfold closeStop; split <;> simp

@[simp] theorem popHead_frame (s : State) :
    (popHead s).straps = s.straps ∧ (popHead s).time = s.time ∧ (popHead s).line = s.line ∧
    (popHead s).timer = s.timer ∧ (popHead s).session = s.session ∧ (popHead s).account = s.account ∧
    (popHead s).view = s.view ∧ (popHead s).alloc = s.alloc ∧ (popHead s).apply = s.apply ∧
    (popHead s).feeder = s.feeder ∧ (popHead s).port = s.port ∧ (popHead s).status = s.status ∧
    (popHead s).pending = s.pending := by
  simp [popHead]

@[simp] theorem clockOut_frame (b : List Byte) (s : State) :
    (clockOut b s).straps = s.straps ∧ (clockOut b s).time = s.time ∧ (clockOut b s).line = s.line ∧
    (clockOut b s).timer = s.timer ∧ (clockOut b s).session = s.session ∧ (clockOut b s).account = s.account ∧
    (clockOut b s).view = s.view ∧ (clockOut b s).alloc = s.alloc ∧ (clockOut b s).apply = s.apply ∧
    (clockOut b s).feeder = s.feeder ∧ (clockOut b s).port = s.port ∧ (clockOut b s).status = s.status ∧
    (clockOut b s).pending = s.pending := by
  simp [clockOut]

@[simp] theorem clearFactors_frame (s : State) :
    (clearFactors s).straps = s.straps ∧ (clearFactors s).time = s.time ∧ (clearFactors s).line = s.line ∧
    (clearFactors s).timer = s.timer ∧ (clearFactors s).session = s.session ∧ (clearFactors s).account = s.account ∧
    (clearFactors s).view = s.view ∧ (clearFactors s).alloc = s.alloc ∧ (clearFactors s).apply = s.apply ∧
    (clearFactors s).feeder = s.feeder ∧ (clearFactors s).port = s.port ∧ (clearFactors s).service = s.service ∧
    (clearFactors s).pending = s.pending := by
  simp [clearFactors]

@[simp] theorem selectHigh_frame (s : State) :
    (selectHigh s).straps = s.straps ∧ (selectHigh s).time = s.time ∧ (selectHigh s).line = s.line ∧
    (selectHigh s).timer = s.timer ∧ (selectHigh s).session = s.session ∧ (selectHigh s).account = s.account ∧
    (selectHigh s).view = s.view ∧ (selectHigh s).alloc = s.alloc ∧ (selectHigh s).apply = s.apply ∧
    (selectHigh s).feeder = s.feeder ∧ (selectHigh s).port = s.port ∧ (selectHigh s).status = s.status ∧
    (selectHigh s).pending = s.pending := by
  simp [selectHigh]

@[simp] theorem allocationTick_frame (s : State) :
    (allocationTick s).straps = s.straps ∧ (allocationTick s).time = s.time ∧ (allocationTick s).line = s.line ∧
    (allocationTick s).timer = s.timer ∧ (allocationTick s).session = s.session ∧
    (allocationTick s).account = s.account ∧ (allocationTick s).apply = s.apply ∧
    (allocationTick s).feeder = s.feeder ∧ (allocationTick s).port = s.port ∧
    (allocationTick s).service = s.service ∧ (allocationTick s).pending = s.pending := by
  unfold allocationTick; split <;> try split
  all_goals simp

@[simp] theorem timeTick_frame (a b c : Bool) (s : State) :
    (timeTick a b c s).straps = s.straps ∧ (timeTick a b c s).line = s.line ∧ (timeTick a b c s).timer = s.timer ∧
    (timeTick a b c s).session = s.session ∧ (timeTick a b c s).account = s.account ∧
    (timeTick a b c s).view = s.view ∧ (timeTick a b c s).alloc = s.alloc ∧ (timeTick a b c s).apply = s.apply ∧
    (timeTick a b c s).feeder = s.feeder ∧ (timeTick a b c s).port = s.port ∧ (timeTick a b c s).status = s.status ∧
    (timeTick a b c s).service = s.service ∧ (timeTick a b c s).pending = s.pending := by
  simp [timeTick]

end Sys2Proof.Machine
end

