-- ==== Sys2Proof/Laws/Ops.lean ====
section
/-! SUPPORT. What each shared operation does: one lemma that says it once, which later proofs cite. -/

namespace Sys2Proof.Machine

/-! ## Counters and clamps -/

theorem count_le (k : Nat) (h : k ≤ 65535) : count k ≤ 65535 := by
  unfold count; split <;> omega

theorem le_count (k : Nat) : k ≤ count k := by
  unfold count; split <;> omega

theorem clampNat_le (high : Nat) (x : Int) : clampNat high x ≤ high := by
  unfold clampNat; (repeat' split) <;> omega

theorem clampInt_bounds (low high x : Int) (h : low ≤ high) : low ≤ clampInt low high x ∧ clampInt low high x ≤ high := by
  unfold clampInt; (repeat' split) <;> omega

theorem natAbs_withSignOf (x : Int) (m : Nat) : (withSignOf x m).natAbs = m := by
  unfold withSignOf; split <;> simp

/-! ## The slots -/

@[simp] theorem slot_setSlot (u : LineUnit) (k j : Slot) (q : Option Queued) :
    (u.setSlot k q).slot j = if j = k then q else u.slot j := by
  cases k <;> cases j <;> rfl

@[simp] theorem slot_detach (u : LineUnit) (k j : Slot) : (u.detach k).slot j = u.slot j := by
  cases j <;> rfl

/-- A cancelled slot is empty, and no other slot changes (R9). -/
theorem cancelSlot_slot (k j : Slot) (s : State) :
    (cancelSlot k s).line.slot j = if j = k then none else s.line.slot j := by
  unfold cancelSlot
  split
  · rename_i h
    by_cases hj : j = k
    · subst hj; simp [h]
    · simp [hj]
  · simp

/-- A queued frame stands in its slot, unless the line is in CLASH; no other slot changes (R9). -/
theorem queueFrame_slot (k j : Slot) (q : Queued) (s : State) :
    (queueFrame k q s).line.slot j =
      if j = k ∧ s.line.state ≠ .clash then some q else s.line.slot j := by
  unfold queueFrame
  split
  · rename_i h
    rw [if_neg (by simp [h])]
    unfold tellDrop
    (repeat' split) <;> cases j <;> simp [LineUnit.slot]
  · rename_i h
    split
    · simp [h]
    · by_cases hj : j = k
      · subst hj; cases j <;> simp [LineUnit.slot, LineUnit.setSlot, h]
      · cases j <;> cases k <;> simp_all [LineUnit.slot, LineUnit.setSlot, LineUnit.detach]

/-- Queuing a frame moves neither the line state nor the pointer (R9, R10). -/
@[simp] theorem queueFrame_line (k : Slot) (q : Queued) (s : State) :
    (queueFrame k q s).line.state = s.line.state ∧ (queueFrame k q s).line.pointer = s.line.pointer ∧
      (queueFrame k q s).line.failures = s.line.failures ∧ (queueFrame k q s).line.silence = s.line.silence := by
  unfold queueFrame tellDrop
  (repeat' split) <;> cases k <;> simp [LineUnit.setSlot, LineUnit.detach]

/-- Outside CLASH a queued frame replaces the one it finds in its slot as R9 has it. -/
theorem queueFrame_replaces (k : Slot) (q : Queued) (s : State) (h : s.line.state ≠ .clash) :
    Replaces k s (queueFrame k q s) := by
  have empty : s.line.slot k = none → queueFrame k q s = { s with line := s.line.setSlot k (some q) } := by
    intro none; simp [queueFrame, h, none]
  have full : ∀ old, s.line.slot k = some old → queueFrame k q s = { s with line :=
      { (s.line.detach k).setSlot k (some q) with
        txDropped := if old.timeRanOut s.timer.c then count s.line.txDropped else s.line.txDropped } } := by
    intro old some; simp [queueFrame, h, some]
  refine ⟨fun hn => ?_, fun old ho => ⟨fun out => ?_, fun fresh inTime => ?_, ?_⟩⟩
  · rw [empty hn]; cases k <;> exact ⟨rfl, rfl⟩
  · have : old.timeRanOut s.timer.c = true := by
      obtain out | ⟨d, hd, out⟩ := out
      · simp [Queued.timeRanOut, out]
      · simp [Queued.timeRanOut, hd, out]
    rw [full old ho]; simp [this]
  · have : old.timeRanOut s.timer.c = false := by
      rcases hd : old.deadline with _ | d
      · simp [Queued.timeRanOut, fresh, hd]
      · simp [Queued.timeRanOut, fresh, hd, inTime d hd]
    rw [full old ho]; simp [this]
  · rw [full old ho]; cases k <;> rfl

/-! ## Cuts (R116) -/

/-- What a cut does: the magnitude becomes the lesser of the present one and the bound, with the sign kept, and a cut that
changes the share records its cause. -/
theorem cut_spec (bound : Nat) (c : Cut) (s : State) :
    (cut bound c s).apply.share.natAbs = min s.apply.share.natAbs bound ∧
      (0 ≤ s.apply.share → 0 ≤ (cut bound c s).apply.share) ∧
      (s.apply.share ≤ 0 → (cut bound c s).apply.share ≤ 0) ∧
      (cut bound c s).apply.lastCut = (if bound < s.apply.share.natAbs then some c else s.apply.lastCut) := by
  unfold cut withSignOf
  split
  · rename_i h
    refine ⟨?_, ?_, ?_, ?_⟩
    · simp only; split <;> omega
    · intro h0; simp only; split <;> omega
    · intro h0; simp only; split <;> omega
    · simp
  · rename_i h
    refine ⟨by omega, fun h0 => h0, fun h0 => h0, by simp⟩

/-- A cut to 0 leaves 0. -/
@[simp] theorem cut_zero_share (c : Cut) (s : State) : (cut 0 c s).apply.share = 0 := by
  have := (cut_spec 0 c s).1
  omega

/-! ## Flags and factors (R157, R159) -/

theorem Flag.position_inj (f g : Flag) (h : f.position = g.position) : f = g := by
  cases f <;> cases g <;> first | rfl | (simp [Flag.position] at h)

/-- Raising a flag sets it and no other. -/
theorem isSet_raise (f g : Flag) (s : State) :
    g.isSet (raise f s).status.word = (g.isSet s.status.word || decide (g = f)) := by
  cases f <;> cases g <;> simp [Flag.isSet, raise, Flag.position]

@[simp] theorem raise_status (f : Flag) (s : State) :
    (raise f s).status.factors = s.status.factors ∧ (raise f s).status.enables = s.status.enables ∧
      (raise f s).status.first = s.status.first := ⟨rfl, rfl, rfl⟩

@[simp] theorem cause_status (f : Factor) (s : State) :
    (cause f s).status.word = s.status.word ∧ (cause f s).status.enables = s.status.enables ∧
      (cause f s).status.first = s.status.first := ⟨rfl, rfl, rfl⟩

/-- An action that raised no clear flag raises no transition. -/
@[simp] theorem newlyRaised_self (w : BitVec 14) : newlyRaised w w = none := by
  unfold newlyRaised
  rw [List.find?_eq_none]
  intro f _
  simp

/-! ## The withdrawal (R43) -/

@[simp] theorem withdrawOffer_line (s : State) :
    (withdrawOffer s).line.offerSlot = none ∧ (withdrawOffer s).line.state = s.line.state ∧
      (withdrawOffer s).line.withdrawSlot = s.line.withdrawSlot ∧ (withdrawOffer s).line.markSlot = s.line.markSlot ∧
      (withdrawOffer s).line.reportSlot = s.line.reportSlot ∧ (withdrawOffer s).line.pointer = s.line.pointer := by
  unfold withdrawOffer cancelSlot
  split
  · rename_i h; simp [h]
  · rename_i q h
    (repeat' split) <;> simp_all [LineUnit.setSlot, LineUnit.slot, LineUnit.detach]

/-- What a withdrawal leaves on the line: no OFFER, and its WITHDRAW unless the line is in CLASH (R9, R43). -/
theorem withdraw_line (r : WithdrawReason) (s : State) :
    (withdraw r s).line.offerSlot = none ∧
      (withdraw r s).line.withdrawSlot =
        (if s.line.state = .clash then s.line.withdrawSlot
        else some ⟨s.frame 0 s.timer.n (.withdraw r), none, false⟩) ∧
      (withdraw r s).line.markSlot = s.line.markSlot ∧ (withdraw r s).line.reportSlot = s.line.reportSlot ∧
      (withdraw r s).line.pointer = s.line.pointer ∧ (withdraw r s).line.state = s.line.state := by
  have q := queueFrame_slot .withdraw
  have h : ∀ x : State, (removeOwnEntry x).line = x.line := by simp
  simp only [withdraw, h]
  refine ⟨?_, ?_, ?_, ?_, ?_, ?_⟩
  · have := q .offer ⟨(withdrawOffer (abortComposition s)).frame 0 (withdrawOffer (abortComposition s)).timer.n (.withdraw r),
      none, false⟩ (withdrawOffer (abortComposition s))
    simpa [LineUnit.slot] using this
  · have := q .withdraw ⟨(withdrawOffer (abortComposition s)).frame 0 (withdrawOffer (abortComposition s)).timer.n
      (.withdraw r), none, false⟩ (withdrawOffer (abortComposition s))
    simp only [LineUnit.slot] at this
    rw [this]
    by_cases hc : s.line.state = .clash <;> simp [hc, State.frame]
  · have := q .mark ⟨(withdrawOffer (abortComposition s)).frame 0 (withdrawOffer (abortComposition s)).timer.n (.withdraw r),
      none, false⟩ (withdrawOffer (abortComposition s))
    simpa [LineUnit.slot] using this
  · have := q .report ⟨(withdrawOffer (abortComposition s)).frame 0 (withdrawOffer (abortComposition s)).timer.n
      (.withdraw r), none, false⟩ (withdrawOffer (abortComposition s))
    simpa [LineUnit.slot] using this
  · simp
  · simp

/-- What the cancelled OFFER leaves of the view, no composition being in flight (R82). -/
theorem withdrawOffer_view (s : State) (h : s.view.composing = none) :
    (withdrawOffer s).view = { s.view with composing := none, record := recordWithdrawn s } := by
  have same : s.view = { s.view with composing := none } := by rw [← h]
  unfold withdrawOffer cancelSlot recordWithdrawn
  rw [h]
  cases hq : s.line.offerSlot with
  | none => exact same
  | some q =>
    cases he : q.expired with
    | true => simpa [LineUnit.slot, hq, he] using same
    | false =>
      unfold offerFate
      by_cases hf : s.view.record.composed = true ∧ s.view.record.interval = q.frame.number ∧ s.view.record.fate = .pending
      · simp [LineUnit.slot, hq, he, hf, h]
      · simpa [LineUnit.slot, hq, he, hf] using same

/-- What an ended composition leaves of the view, whatever the OFFER slot holds (R80, R81). -/
theorem abortComposition_view (s : State) (c : Composition) (h : s.view.composing = some c) :
    (withdrawOffer (abortComposition s)).view = { s.view with composing := none, record := recordWithdrawn s } := by
  have hr : recordWithdrawn s = ⟨c.interval, false, c.outcome.endedReason, 0, .zero, .none⟩ := by
    obtain ⟨interval, outcome⟩ := c
    cases outcome <;> simp [recordWithdrawn, h, ComposeOutcome.endedReason, OfferBody.zero]
  rw [withdrawOffer_view _ (by simp [abortComposition, h]), hr]
  unfold recordWithdrawn
  cases hq : s.line.offerSlot <;> simp [abortComposition, h, hq]

/-- What a withdrawal leaves of the view: no composition in flight, its record, and no own entry in an OPEN view (R80, R82, R89). -/
theorem withdraw_view (r : WithdrawReason) (s : State) : (withdraw r s).view = viewWithdrawn s := by
  have queued : ∀ (n : IntervalNo) (x : State),
      (queueFrame .withdraw ⟨x.frame 0 n (.withdraw r), none, false⟩ x).view = x.view ∧
        (queueFrame .withdraw ⟨x.frame 0 n (.withdraw r), none, false⟩ x).straps = x.straps := by
    intro n x
    unfold queueFrame
    (repeat' split) <;> exact ⟨rfl, rfl⟩
  have own : ∀ x y : State, x.view = y.view → x.straps = y.straps → (removeOwnEntry x).view = (removeOwnEntry y).view := by
    intro x y hv hs
    unfold removeOwnEntry
    rw [hv, hs]
    split <;> simp [hv]
  have cancelled : (withdrawOffer (abortComposition s)).view =
      { s.view with composing := none, record := recordWithdrawn s } := by
    cases hc : s.view.composing with
    | none =>
      have : abortComposition s = s := by simp [abortComposition, hc]
      rw [this, withdrawOffer_view s hc]
    | some c => exact abortComposition_view s c hc
  unfold withdraw
  rw [own _ _ (queued _ _).1 (queued _ _).2]
  unfold removeOwnEntry viewWithdrawn
  rw [cancelled]
  by_cases hp : s.view.phase = .opened <;> simp [hp, cancelled]

/-! ## The first-fault record (R157, R162) -/

/-- Where FAULT is set already, a further transition captures nothing. -/
theorem capture_of_set (f : Flag) (s : State) (h : Factor.fault.isSet s.status.factors = true) : capture f s = s := by
  simp [capture, h]

/-- Where FAULT is clear, a transition sets it and captures its flag. -/
theorem capture_of_clear (f : Flag) (s : State) (h : Factor.fault.isSet s.status.factors = false) :
    (capture f s).status.first = some (firstFaultOf f s) ∧ Factor.fault.isSet (capture f s).status.factors = true ∧
      (capture f s).status.word = s.status.word ∧ (capture f s).status.enables = s.status.enables := by
  unfold capture
  rw [if_neg (by simp [h])]
  exact ⟨rfl, by simp [Factor.isSet, Factor.bit], rfl, rfl⟩

/-- The end of an action: nothing, or the capture of a flag that went from clear to set, no lower one having done so. -/
theorem noteFaults_cases (before : BitVec 14) (s : State) :
    noteFaults before s = s ∧ (∀ f : Flag, f.isSet s.status.word = true → f.isSet before = true) ∨
      ∃ f : Flag, noteFaults before s = capture f s ∧ f.isSet s.status.word = true ∧ f.isSet before = false := by
  unfold noteFaults
  cases h : newlyRaised before s.status.word with
  | none =>
    refine .inl ⟨rfl, fun f hf => ?_⟩
    have := List.find?_eq_none.mp h f (by cases f <;> decide)
    simpa [hf] using this
  | some f =>
    have := List.find?_some h
    simp only [Bool.and_eq_true, Bool.not_eq_true'] at this
    exact .inr ⟨f, rfl, this⟩

/-! ## The end of an action -/

/-- What the end of an action leaves as the action left it. -/
@[simp] theorem settle_frame (s s' : State) :
    (settle s s').straps = s'.straps ∧ (settle s s').time = s'.time ∧ (settle s s').line = s'.line ∧
      (settle s s').timer = s'.timer ∧ (settle s s').view = s'.view ∧ (settle s s').alloc = s'.alloc ∧
      (settle s s').apply = s'.apply ∧ (settle s s').feeder = s'.feeder ∧ (settle s s').service = s'.service ∧
      (settle s s').pending = s'.pending := by
  simp [settle]

/-- A whole action leaves these parts as its effect left them. -/
@[simp] theorem act_frame (f : State → State) (s : State) :
    (act f s).straps = (f s).straps ∧ (act f s).time = (f s).time ∧ (act f s).line = (f s).line ∧
      (act f s).timer = (f s).timer ∧ (act f s).view = (f s).view ∧ (act f s).alloc = (f s).alloc ∧
      (act f s).apply = (f s).apply ∧ (act f s).feeder = (f s).feeder ∧ (act f s).service = (f s).service ∧
      (act f s).pending = (f s).pending := by
  simp [act]

theorem requestEnable_of_settled (s : State) (h : Settled s) : requestEnable s = s := by
  unfold requestEnable; exact if_neg h.1

theorem vacate_of_settled (s : State) (h : Settled s) : vacate s = s := by
  unfold vacate; simp [h.2]

/-- An action that left the status word as it was ends without a transition (R157). -/
@[simp] theorem noteFaults_self (s : State) : noteFaults s.status.word s = s := by
  unfold noteFaults; rw [newlyRaised_self]

/-- The end of an action that raised no flag and left nothing outstanding changes nothing. -/
theorem settle_of_settled (s s' : State) (hw : s'.status.word = s.status.word) (h : Settled s') : settle s s' = s' := by
  unfold settle
  rw [requestEnable_of_settled s' h, vacate_of_settled s' h, ← hw, noteFaults_self]

/-- The end of an action leaves nothing outstanding (R61, R141). -/
theorem settled_settle (s s' : State) : Settled (settle s s') := by
  have hn : ∀ (w : BitVec 14) (x : State), Settled x → Settled (noteFaults w x) := by
    intro w x hx
    unfold Settled at *
    simpa [State.mayVacate] using hx
  have hr : ¬((requestEnable s').port.state = .disabled ∧ (requestEnable s').apply.share ≠ 0) := by
    unfold requestEnable
    split
    · simp
    · assumption
  refine hn _ _ ?_
  unfold vacate
  split
  · refine ⟨by simpa using hr, ?_⟩
    simp [State.mayVacate, enterSession, cause]
  · rename_i h
    exact ⟨hr, by simpa using h⟩

end Sys2Proof.Machine
end

