-- ==== Sys2Proof/Laws/Port.lean ====
section
/-! SUPPORT. What the end of a transaction leaves of the link (R139). -/

namespace Sys2Proof.Machine

/-- An exchange that can end is one the port has under way. -/
theorem exchanging_of_ends (s : State) (left : List Transaction) (owed : Nat) (h : ExchangeEnds s.port left owed) :
    s.exchanging = true := by
  obtain ⟨x, hl, hx, -⟩ | ⟨rest, hl, -, -⟩ := h
  · cases x <;> simp_all [State.exchanging]
  · simp [State.exchanging, hl]

/-- The end of an exchange changes the link alone. -/
theorem endExchange_of_ends (s : State) (left : List Transaction) (owed : Nat) (h : ExchangeEnds s.port left owed) :
    endExchange s = { s with port := { s.port with link := left, owed := owed } } := by
  obtain ⟨x, hl, hx, rfl⟩ | ⟨rest, hl, rfl, rfl⟩ := h
  · cases x <;> simp_all [endExchange, endTransaction]
  · simp [endExchange, hl]

end Sys2Proof.Machine
end

