-- ==== Sys2Proof/Laws/Posts.lean ====
section
/-! SUPPORT. How a post at the head of the FIFO is applied (R170, R171). -/

namespace Sys2Proof.Machine

/-- The head is applied by its owner in one action, once nothing it waits for is in flight (R170, R171). -/
theorem applyIfHead_eq (kind : PostKind) (code length : Nat) (body : List Byte) (rest : List Post) (s : State)
    (hf : s.service.fifo = ⟨code, body⟩ :: rest) (hc : postOf code = some (kind, length)) (hw : kind.waits s = false)
    (hk : kind ≠ .restart) :
    applyIfHead kind s = act (fun s => recordOutcome (ownerRule kind body (popHead s))) s := by
  have h : s.readyHead = some (kind, body) := by simp [State.readyHead, hf, Post.kind, hc, hw]
  simp only [applyIfHead, h, if_true]
  cases kind <;> first | rfl | exact absurd rfl hk

/-- RESTART at the head needs nothing to end first (R170, R172). -/
theorem applyIfHead_restart (body : List Byte) (rest : List Post) (s : State) (hf : s.service.fifo = ⟨26, body⟩ :: rest) :
    applyIfHead .restart s = restartState s := by
  simp [applyIfHead, State.readyHead, hf, Post.kind, postOf, PostKind.waits, applyHead]

/-- A post whose owner's rule changes nothing but gives an outcome leaves what every applied post leaves. -/
theorem act_recordOutcome_of_settled (s : State) (p : Post) (rest : List Post) (outcome : PostOutcome)
    (hf : s.service.fifo = p :: rest) (h : Settled s) :
    settle s (recordOutcome (popHead s, outcome)) = postDone rest outcome s := by
  rw [settle_of_settled]
  · simp [recordOutcome, cause, popHead, postDone, hf, Factor.bit, BitVec.twoPow]
  · rfl
  · exact h

end Sys2Proof.Machine
end

