-- ==== Sys2Proof/Laws/Reading.lean ====
section
/-! SUPPORT. The wait for a start bit (R6). -/

namespace Sys2Proof.Machine

/-- Recessive bits are counted, up to 10, and no start bit is found among them. -/
theorem awaitStart_recessive (more : List Level) (idle run : Nat) (h : run ≤ 10) :
    awaitStart run (List.replicate idle true ++ more) = awaitStart (min 10 (run + idle)) more := by
  induction idle generalizing run with
  | zero => simp [Nat.min_eq_right h]
  | succ k ih =>
    simp only [List.replicate_succ, List.cons_append, awaitStart, Config.idleBits]
    rw [ih _ (Nat.min_le_left _ _)]
    congr 1
    omega

/-- On an idle line the first dominant bit is the start bit. -/
theorem frameLevels_of_idle (more : List Level) (idle run : Nat) (h : 10 ≤ run + idle) (hr : run ≤ 10) :
    frameLevels [] run (List.replicate idle true ++ false :: more) = false :: more := by
  have : min 10 (run + idle) = 10 := Nat.min_eq_left h
  simp [frameLevels, awaitStart_recessive _ _ _ hr, this, awaitStart, Config.idleBits]

end Sys2Proof.Machine
end

