-- ==== Sys2Proof/Tests/Slice0.lean ====
section
/-! SUPPORT. The model's own tests: the smoke tests of well-formedness, the manual's worked figures, and for every obligation
with hypotheses a state and operands that meet them. -/

namespace Sys2Proof.Tests

open Sys2Proof.Machine

set_option Elab.async false

/-! ## Well-formedness: each check refuses an ill-formed term -/

theorem test_wf_lost : (Instr.lostArbitration []).wellFormed = false := by decide
theorem test_wf_confirmed : (Instr.frameConfirmed []).wellFormed = false := by decide
theorem test_wf_failure : (Instr.transmitFailure []).wellFormed = false := by decide
theorem test_wf_silent : (Instr.enterSilent []).wellFormed = false := by decide
theorem test_wf_received : (Instr.frameReceived [] {}).wellFormed = false := by decide
theorem test_wf_post : (Instr.postAcceptance (.run [0x12] 0)).wellFormed = false := by decide
theorem test_wf_read : (Instr.readRecord (.run [0x48] 0)).wellFormed = false := by decide
theorem test_wf_read_view : (Instr.readRecord (.run [0x05] 0)).wellFormed = false := by decide
theorem test_wf_clear : (Instr.readClearStatus (.run [0x08] 0)).wellFormed = false := by decide
theorem test_wf_view : (Instr.readView (.header 0x06 0 1)).wellFormed = false := by decide
theorem test_wf_good : (Instr.postAcceptance (.run [0x94] 0)).wellFormed = true := by decide

/-- The table gives no row bits, so no word spells a command. -/
theorem test_decode : decodeTableWord 16 5 = none := by decide

/-! ## Small states -/

/-- A CHARGER at station 3, site 5, INTV 0 (L = 600, F = 450, W = 37, P = 225). -/
def chargerStraps : Straps := ⟨3, .charger, 5, 0, 0⟩

/-- A FEEDER at station 40 of the same site. -/
def feederStraps : Straps := ⟨40, .feeder, 5, 0, 0⟩

/-- The state after reset of the charger. -/
def fresh : State := .afterReset chargerStraps .high []

/-- The state after reset of the feeder. -/
def freshFeeder : State := .afterReset feederStraps .high []

/-- A bus of 200,000 Wh with a route of 60,000 Wh: E_res = 95,000 Wh and E_goal = 180,000 Wh (4.9). -/
def record : SessionRecord := ⟨7, 200000, 1500, 60000, 43200, some ⟨800, 1200, 1000, .normal⟩, 10, false⟩

/-- An account with this E_now. -/
def accountAt (eNow : Nat) : Account := ⟨10 * eNow, false, ⟨.zero, 0, false, false⟩⟩

/-- An engaged bus in RUNNING at n = 519, its command at its share of 1200 hW. -/
def bus : State := { fresh with
  timer   := { TimerUnit.reset with state := .running, n := 519, c := 100 }
  session := ⟨.engaged, some record, none⟩
  account := { AccountUnit.reset with account := some (accountAt 160000), mark := true }
  view    := { ViewUnit.reset with phase := .opened }
  apply   := { ApplyUnit.reset with share := 1200 }
  port    := { PortUnit.reset .charger with
    state := .enabled, command := 1200, enable := true, reference := some ⟨1000, 12000⟩ } }

/-- A feeder in RUNNING at n = 802 with a limit of 2000 hW and a request of EXPORT 1500 hW. -/
def depot : State := { freshFeeder with
  timer  := { TimerUnit.reset with state := .running, n := 802, c := 225 }
  view   := { ViewUnit.reset with phase := .opened }
  feeder := { FeederUnit.reset with
    siteLimit := some 2000, mode := .exporting, level := 1500, valid := 2, request := 52, measured := some 1100
    tallies := [⟨3, 700⟩, ⟨9, 620⟩], goals := [⟨801, .exporting, 1500, false⟩, ⟨802, .exporting, 1500, false⟩] } }

/-- A state with one post in its FIFO. -/
def posted (s : State) (code : Nat) (body : List Byte) : State :=
  { s with service := { s.service with fifo := [⟨code, body⟩] } }

/-- The state a command leads to. -/
def after (c : Instr) (s : State) : State :=
  match exec c s with
  | .next t => t
  | _ => s

/-- An exchange under way. -/
def exchanging (s : State) : State := { s with port := { s.port with link := [.exchange (exchangeWord 0 false)] } }

/-- A meter read under way. -/
def metering (s : State) : State := { s with port := { s.port with link := [.meterRead] } }

/-- FRAME_RECEIVED with a frame after ten recessive bits. -/
def hear (f : Frame) : Instr := .frameReceived (List.replicate 10 true ++ f.levels) {}

/-- The station hears such a frame whenever no attempt is under way and no beginning of a frame has been read. -/
theorem hears_of (s : State) (f : Frame) (h : s.line.attempt = none) (h' : s.line.heard = []) :
    Hears s (List.replicate 10 true ++ f.levels) f :=
  ⟨fun a ha => by simp [h] at ha, Or.inl ⟨h', 10, by omega, rfl⟩⟩

/-- A reply word of the converter. -/
def reply (code : Nat) : LinkWord := linkWord (BitVec.ofNat 16 code)

/-- A good meter read of 16-bit readings. -/
def sample (exported imported : BitVec 16) : Instr := .meterSample (linkWord 0) (linkWord exported) (linkWord 0) (linkWord imported)

/-! ## The manual's worked figures -/

/-- 1.10: the priorities of the three OFFERs. -/
theorem test_priorities : [55000, 20000, 110000].map offerPriority = [242, 251, 229] := by decide

/-- 8.4, 4.10: J for the ratings of the manual, and for the unset limit of a feeder. -/
theorem test_plausible : [1500, 2000, 4000, 65535].map plausible = [843, 1121, 2232, 36418] := by decide

/-- Worked allocation, four stations: 600, 200, 400, 300 in three passes. -/
theorem test_division :
    let d := divide 1500 [⟨3, 60000, 600⟩, ⟨7, 20000, 600⟩, ⟨12, 100000, 400⟩, ⟨20, 30000, 900⟩]
    ([3, 7, 12, 20].map (shareOf d.1), d.2) = ([600, 200, 400, 300], 3) := by decide +kernel

/-- Worked allocation, the remainder: the lowest station number, then the largest residue. -/
theorem test_remainder :
    ([2, 6, 11].map (shareOf (divide 100 [⟨2, 30000, 500⟩, ⟨6, 30000, 500⟩, ⟨11, 30000, 500⟩]).1),
      [2, 6, 11].map (shareOf (divide 100 [⟨2, 10000, 500⟩, ⟨6, 20000, 500⟩, ⟨11, 40000, 500⟩]).1)) =
      ([34, 33, 33], [14, 29, 57]) := by decide +kernel

/-- 4.9: derived values. -/
theorem test_derived : (eRes record, eGoal record, pCe record, restoreTime record) = (95000, 180000, 1000, some 4860) := by
  decide

/-- 4.9: the projection and the offer values at a share of 1200 hW over 300 s. -/
theorem test_offer :
    offerValues { bus with straps := { chargerStraps with intv := 2 } } (accountAt 160000) record 1200 =
      ⟨⟨55000, 1200, 30000, 1000⟩, 150000, true, true⟩ := by decide +kernel

/-- 4.10: the TALLY of 100,000 tenths in 300 s. -/
theorem test_tally : netPower 100000 0 300 = 1200 := by decide

/-- 7.8, at P of 802: B = 220, H = 2220, e = 180, corr = 90, T = 1590. -/
theorem test_target :
    let r := composeTarget depot.feeder 802
    (r.load, r.headroom, r.error, r.corrected, r.level) = (some 220, 2220, 180, 90, 1590) := by decide +kernel

/-- 7.9, import: B = 300, H = 2200, a = 2100, and T lowered by half the error. -/
theorem test_target_import :
    let r := composeTarget { depot.feeder with
      siteLimit := some 2500, mode := .importing, level := 2000, measured := some (-2400), tallies := [⟨3, -2100⟩]
      goals := [⟨801, .importing, 2000, false⟩] } 802
    (r.load, r.headroom, r.achieved, r.error, r.level) = (some 300, 2200, 2100, -100, 1950) := by decide +kernel

/-- R2 to R6: a MARK as it is sent: start, kind 000, priority 0, source 3, site 5, length 1, number 1, INTV 0, with an insert
bit after every run of four, then the check and the end field. -/
theorem test_frame_levels :
    (Frame.levels ⟨0, 3, 5, 1, .mark 0⟩).take 35 =
      [false, false, false, false, true, false, false, false, false, true, false, false, false, false, true,
        false, false, false, false, true, true, true, false, true, false, true, false, false, false, true,
        false, false, false, false, true] := by
  decide +kernel

/-- R5: the check of the nine bytes of "123456789" in this register is 29B1 (hexadecimal), as is generally known of it. -/
theorem test_check :
    checkOf (([0x31, 0x32, 0x33, 0x34, 0x35, 0x36, 0x37, 0x38, 0x39] : List Nat).flatMap (bitsOf 8)) = 0x29B1#16 := by
  decide +kernel

/-- R139: the request word of 600 hW with the enable on has odd parity and carries bit 14. -/
theorem test_exchange_word : wordData (exchangeWord 600 true) = 0x4258#16 ∧ parityHolds (exchangeWord 600 true) = true := by
  decide

/-! ## Witnesses: a state and operands that meet the hypotheses of each obligation -/

/-- A bus with a frame in every slot, an attempt under way, a view, a computed result and a post: not the state after reset. -/
def busy : State := { bus with
  line    := { LineUnit.reset with
    markSlot := some ⟨⟨0, 3, 5, 519, .mark 0⟩, some 37, true⟩
    withdrawSlot := some ⟨⟨0, 3, 5, 519, .withdraw .paused⟩, none, false⟩
    offerSlot := some ⟨⟨255, 3, 5, 520, .offer ⟨100, 2, 0, 0⟩⟩, some 450, false⟩
    reportSlot := some ⟨⟨0, 3, 5, 518, .tally 5⟩, some 450, false⟩
    attempt := some ⟨.mark, ⟨0, 3, 5, 519, .mark 0⟩, false, false⟩, failures := 15 }
  view    := { ViewUnit.reset with
    phase := .frozen
    entries := [⟨2, ⟨10, 20, 30, 40⟩, some 5, .heard⟩, ⟨3, ⟨10, 20, 30, 40⟩, some 6, .own⟩]
    used := some ⟨⟨40, 520, .exporting, 11, 11, 1⟩, 2, 520⟩ }
  alloc   := { AllocUnit.reset with engine := .ready 6 }
  service := { ServiceUnit.reset .high with fifo := [⟨20, []⟩] }
  pending := [.ownBoundary {}] }

/-- Every law holds in `busy`, whose step answers next: the hypotheses of the nine StepKeeps obligations. -/
theorem witness_StepKeeps : Laws busy ∧ step busy = .next (after (.ownBoundary {}) { busy with pending := [] }) := by
  refine ⟨?_, rfl⟩
  constructor
  · show busy.timer.c < busy.profile.length; decide
  · show busy.timer.listen = 0; decide
  · exact ⟨fun h => absurd rfl h, fun h => absurd rfl h⟩
  · exact ⟨by decide, rfl⟩
  · intro a h _
    have : a = ⟨.mark, ⟨0, 3, 5, 519, .mark 0⟩, false, false⟩ := (Option.some.inj h).symm
    subst this
    exact ⟨_, rfl, rfl⟩
  · refine ⟨by decide, ?_, by decide⟩
    decide
  · intro u h
    have : u = ⟨⟨40, 520, .exporting, 11, 11, 1⟩, 2, 520⟩ := (Option.some.inj h).symm
    subst this; decide
  · refine ⟨rfl, fun _ => ⟨⟨3, ⟨10, 20, 30, 40⟩, some 6, .own⟩, by decide, rfl, rfl⟩⟩
  · exact ⟨by decide, ⟨record, ⟨800, 1200, 1000, .normal⟩, rfl, rfl⟩, rfl, by decide⟩
  · intro r h
    have : r = record := (Option.some.inj h).symm
    subst this
    refine ⟨by decide, by decide, by decide, by decide, by decide, by decide, ?_⟩
    intro p h
    have : p = ⟨800, 1200, 1000, .normal⟩ := (Option.some.inj h).symm
    subst this; decide
  · refine ⟨by decide, ?_⟩
    intro a r ha hr
    have ha : a = accountAt 160000 := (Option.some.inj ha).symm
    have hr : r = record := (Option.some.inj hr).symm
    subst ha hr; decide
  · exact ⟨fun _ => by decide, by decide⟩
  · exact ⟨by decide, by decide, by decide, by decide, by decide, by decide, by decide, by decide, by decide⟩
  · exact fun _ => by decide
  · exact ⟨by decide, by decide, by decide, by decide⟩
  · refine ⟨by decide, ?_⟩
    intro p h
    have : p = ⟨20, []⟩ := by
      have h : p ∈ [(⟨20, []⟩ : Post)] := h
      simpa using h
    subst this; exact ⟨_, rfl⟩
  · decide

/-- The feeder's half of the two laws that read the role: the tally list and the goal list are not empty. -/
theorem witness_StepKeepsTheFeederLaws :
    ChargerLaw depot ∧ FeederLaw depot ∧
      step { depot with pending := [.targetPoint] } = .next (after .targetPoint depot) := by
  refine ⟨fun h => absurd h (by decide), ⟨by decide, by decide, by decide, by decide⟩, rfl⟩

theorem witness_StepTakesTheFrontCommand : bus.pending = [] := rfl

theorem witness_StrapsAreHeldUntilDeviceReset :
    (∀ straps low, Instr.restart ≠ .deviceReset straps low) ∧ fresh.straps = chargerStraps ∧
      exec .restart (posted bus 26 []) = .next (after .restart (posted bus 26 [])) :=
  ⟨fun _ _ => by simp, rfl, rfl⟩

theorem witness_RestartLeavesTheResetValues : (posted bus 26 []).service.fifo = ⟨26, []⟩ :: [] := rfl

/-- One flag; and a re-alignment that raises MISALIGN and LATE, in either order. -/
theorem witness_FirstFaultChangesOnlyAtItsTransition :
    exec (.statusReport (reply 4)) (exchanging bus) = .next (after (.statusReport (reply 4)) (exchanging bus)) ∧
      (after (.statusReport (reply 4)) (exchanging bus)).status.first = some ⟨.converter, 519, 100, 0, .stopped⟩ ∧
      Flag.converter.isSet (exchanging bus).status.word = false ∧ Settled (exchanging bus) ∧
      (∀ p ∈ (exchanging bus).service.fifo, p.code ≠ 26) ∧
      (let marked (o : Order) := after (.frameReceived (List.replicate 10 true ++ Frame.levels ⟨0, 9, 5, 520, .mark 0⟩) o)
        { bus with alloc := { bus.alloc with engine := .computing ⟨520, [], ⟨none, false⟩⟩ 0 } }
       (marked {}).status.first.map FirstFault.flag = some .late ∧
        (marked { misalignFirst := true }).status.first.map FirstFault.flag = some .misalign) :=
  ⟨rfl, by decide +kernel⟩

/-- A cut that lowers a positive share, and one that changes a negative one; and by the clause of the counter a tick within the
interval, a trailing MARK at c = W − 1 and, at c = W, one of another profile, while a MARK of the own profile re-aligns there. -/
theorem witness_BetweenBoundariesTheShareOnlyFalls :
    0 ≤ bus.apply.share ∧ (after .pause (posted bus 20 [])).apply.share = 0 ∧
      (after .pause (posted { bus with apply := { bus.apply with share := -700 } } 20 [])).apply.share = 0 ∧
      ∀ o : Order, Instr.pause ≠ .tick o ∧ Instr.pause ≠ .ownBoundary o ∧ Instr.pause ≠ .listenExpiry o ∧
        Instr.pause ≠ .enableTimeout o ∧ Instr.pause ≠ .idleCountExpiry o ∧
        ∀ levels, Instr.pause ≠ .frameReceived levels o :=
  ⟨by decide, by decide +kernel, by decide +kernel, fun _ => by simp⟩

theorem witness_BetweenBoundariesTheShareOnlyFalls_counter :
    (let marked (c : Nat) (profile : Fin 4) :=
      after (.frameReceived (List.replicate 10 true ++ Frame.levels ⟨0, 9, 5, 520, .mark profile⟩) {})
        { bus with timer := { bus.timer with c := c } }
     (after (.tick {}) bus).timer.c = 101 ∧ (after (.tick {}) bus).timer.state = bus.timer.state ∧
      (marked 36 0).timer.c = 36 ∧ (marked 37 1).timer.c = 37 ∧ (marked 37 1).timer.state = bus.timer.state ∧
      (marked 37 0).timer.c = 0) := by decide +kernel

/-- A ramp step of 50 hW, and a forced stop to 0 with the enable off from a state with the port law; and a tick that first
applies a STOPPED and a NORMAL report and then loads a new share, so that it finds the port in ENABLING. -/
theorem witness_SetpointMovesByAtMostFiftyOrToZero :
    PortLaw (exchanging bus) ∧ ShareLaw (exchanging bus) ∧
    (after (.statusReport (reply 4)) (exchanging bus)).port.enable = false ∧
    (let restarted := after (.tick {}) { bus with
      timer := { bus.timer with c := 599 }, alloc := { bus.alloc with engine := .ready 700 }
      service := { bus.service with fifo :=
        [⟨17, [3, 32, 4, 176, 3, 232, 2]⟩, ⟨17, [3, 32, 4, 176, 3, 232, 0]⟩] } }
     restarted.port.state = .enabling ∧ restarted.port.command = 0 ∧ restarted.apply.share = 700) ∧
    (after (.tick {}) { bus with port := { bus.port with command := 1100 } }).port.command = 1150 ∧
      (after (.statusReport (reply 4)) (exchanging bus)).port.command = 0 :=
  ⟨⟨by decide, by decide, by decide, by decide, by decide, by decide, by decide, by decide, by decide⟩,
    ⟨fun _ => by decide, by decide⟩, by decide +kernel⟩

/-- One clause of each outcome: the roles, and the states of every session post. -/
theorem witness_PostsThatDoNotApplyAreIgnored :
    (posted depot 20 []).straps.role = .feeder ∧ Settled (posted depot 20 []) ∧
      (posted bus 23 [7, 208]).straps.role = .charger ∧ Settled (posted bus 23 [7, 208]) ∧
      bus.session.state ≠ .vacant ∧ fresh.session.state = .vacant ∧ Settled fresh ∧ bus.paused = false ∧
      bus.view.composing = none ∧ bus.feeder.composing = none ∧ Settled bus ∧
      { bus with session := { bus.session with state := .closing } }.mayVacate = false := by decide

theorem witness_SessionLaw_bus : SessionLaw bus ∧ SessionLaw fresh :=
  ⟨⟨by decide, ⟨record, ⟨800, 1200, 1000, .normal⟩, rfl, rfl⟩, rfl, by decide⟩, by decide, rfl, rfl⟩

/-- SESSION_OPEN at the least capacity, and one of capacity 9999 that is refused. -/
def opening (capacity : Nat) : State :=
  posted fresh 16 (natBytes 4 1 ++ natBytes 3 capacity ++ natBytes 2 10 ++ natBytes 3 0 ++ natBytes 3 86400)

theorem witness_SessionOpenCreatesTheRecord :
    (opening 10000).straps.role = .charger ∧ (opening 10000).session.state = .vacant ∧
      (opening 10000).view.composing = none ∧ Settled (opening 10000) ∧
      (after .sessionOpen (opening 10000)).session.state = .awaiting ∧
      (after .sessionOpen (opening 9999)).service.lastOutcome = some .rejectedRange := by decide +kernel

/-- A session that waits for its first report. -/
def awaiting (body : List Byte) : State :=
  { posted fresh 17 body with session := ⟨.awaiting, some { record with pack := none, age := 0 }, none⟩ }

/-- A PACK_REPORT body. -/
def reportBody (soc dis chg code : Nat) : List Byte := natBytes 2 soc ++ natBytes 2 dis ++ natBytes 2 chg ++ natBytes 1 code

theorem witness_FirstReportCreatesTheAccount :
    (awaiting (reportBody 800 1200 1000 0)).session.state = .awaiting ∧
      (awaiting (reportBody 800 1200 1000 0)).port.state ≠ .meterOnly ∧ ShareLaw (awaiting (reportBody 800 1200 1000 0)) ∧
      (after .packReport (awaiting (reportBody 800 1200 1000 0))).account.account = some (accountAt 160000) ∧
      (after .packReport (awaiting (reportBody 800 1200 1000 2))).session.state = .stopped := by
  refine ⟨by decide, by decide, ⟨fun h => absurd rfl h, by decide⟩, by decide +kernel, by decide +kernel⟩

/-- 4.10: the report of SoC 745 at E_now = 149,800 Wh is within the tolerance, the one of 720 at 146,500 Wh is not; each field
one above its range is clamped, and the record and the age follow. -/
theorem witness_EngagedReportResyncsAndClips :
    Settled (posted bus 17 (reportBody 720 450 1000 0)) ∧ bus.session.record = some record ∧
      bus.account.account = some (accountAt 160000) ∧
      (after .packReport (posted { bus with account := { bus.account with account := some (accountAt 149800) } } 17
        (reportBody 745 1200 1000 0))).account.account = some (accountAt 149800) ∧
      (after .packReport (posted { bus with account := { bus.account with account := some (accountAt 146500) } } 17
        (reportBody 720 450 1000 1))).account.account = some (accountAt 144000) ∧
      (after .packReport (posted bus 17 (reportBody 475 1200 1000 0))).apply = ⟨0, 0, .noResult, false, some .reserve⟩ ∧
      (after .packReport (posted bus 17 (reportBody 800 450 1000 0))).apply.share = 450 ∧
      (let clamped := after .packReport (posted bus 17 (reportBody 1001 4001 4001 1))
       clamped.session.record = some { record with pack := some ⟨1000, 4000, 4000, .derated⟩, age := 0 } ∧
        clamped.account.account = some (accountAt 200000) ∧ clamped.service.lastOutcome = some .clamped) ∧
      (after .packReport (posted bus 17 (reportBody 1000 4000 4000 0))).service.lastOutcome = some .applied := by
  decide +kernel

theorem witness_PackStateMovesTheSession :
    (reportedPack (reportBody 800 1200 1000 2)).value.state = .stopped ∧
      (reportedPack (reportBody 800 1200 1000 1)).value.state ≠ .stopped ∧ bus.session.state = .engaged ∧
      bus.port.state ≠ .meterOnly ∧
      (let stopped := after .packReport (posted bus 17 (reportBody 720 1200 1000 2))
       stopped.session.state = .stopped ∧ stopped.account.account = some (accountAt 144000) ∧
        stopped.session.record = some { record with pack := some ⟨720, 1200, 1000, .stopped⟩, age := 0 }) ∧
      (after .packReport (posted { bus with
        session := { bus.session with state := .stopped }, apply := ApplyUnit.reset } 17
        (reportBody 800 1200 1000 1))).session.state = .engaged ∧
      (let resynced := after .packReport (posted { bus with
          session := { bus.session with state := .stopped }, apply := ApplyUnit.reset } 17 (reportBody 720 1200 1000 2))
       resynced.session.state = .stopped ∧ resynced.account.account = some (accountAt 144000) ∧
        resynced.port.state = .disabled) ∧
      (after .packReport (posted { bus with
        session := { bus.session with state := .closing }, apply := ApplyUnit.reset } 17
        (reportBody 800 1200 1000 2))).session.state = .vacant := by decide +kernel

theorem witness_DepartureSetsTheCountdownAndRoute :
    Settled (posted bus 18 (natBytes 3 86401 ++ natBytes 3 200000)) ∧
      (after .departure (posted bus 18 (natBytes 3 86401 ++ natBytes 3 200000))).service.lastOutcome = some .clamped ∧
      (after .departure (posted bus 18 (natBytes 3 86400 ++ natBytes 3 110000))).service.lastOutcome = some .applied := by
  decide +kernel

theorem witness_SessionCloseEndsTheSession :
    bus.session.state ∈ [SessionState.awaiting, .engaged, .stopped] ∧ bus.port.state ≠ .meterOnly ∧
      (after .sessionClose (posted bus 19 [0])).session.state = .vacant ∧
      (after .sessionClose (posted bus 19 [1])).session.state = .closing ∧
      (after .sessionClose (posted { bus with port := PortUnit.reset .charger, apply := ApplyUnit.reset } 19
        [2])).session.state = .vacant ∧
      (after .sessionClose (posted { bus with port := { PortUnit.reset .charger with state := .faulted }, apply := .reset } 19
        [0])).session.state = .closing ∧
      (after .sessionClose (posted { bus with
        session := { bus.session with state := .closing }, apply := .reset } 19 [0])).session.state = .vacant := by
  decide +kernel

theorem witness_PauseWithdrawsAndResumeDoesNot :
    bus.session.state ∈ [SessionState.awaiting, .engaged, .stopped] ∧ record.paused = false ∧
      bus.view.composing = none ∧ Settled bus ∧
      (after .resume (posted (after .pause (posted bus 20 [])) 21 [])).paused = false ∧
      (after .pause (posted bus 20 [])).paused = true ∧
      (after .pause (posted { bus with
        line := { bus.line with offerSlot := some ⟨⟨255, 3, 5, 520, .offer ⟨1, 1, 0, 0⟩⟩, some 450, false⟩ }
        view := { bus.view with record := ⟨520, true, .role, 255, ⟨1, 1, 0, 0⟩, .pending⟩ } } 20 [])).view.record.fate =
        .withdrawn := by decide +kernel

theorem witness_FeederPostsReplaceTheirValues :
    Settled depot ∧ depot.straps.role = .feeder ∧ depot.feeder.composing = none ∧
      (after .request (posted depot 22 [3, 255, 255, 0, 255])).service.lastOutcome = some .clamped ∧
      (after .request (posted depot 22 [2, 5, 220, 1, 52])).feeder.level = 1500 ∧
      (after .siteLimit (posted depot 23 [7, 208])).rating = 2000 := by decide +kernel

theorem witness_NoticeEnableReplacesTheEnables :
    Settled (posted bus 24 [0xFF]) ∧ (after .noticeEnable (posted bus 24 [0xFF])).noticeLine = true ∧
      (after .noticeEnable (posted bus 24 [0x17])).noticeLine = false := by decide +kernel

theorem witness_StatusClearClearsTheMaskedFlags :
    Settled (posted bus 25 [0xFF, 0xFF]) ∧
      (after .statusClear (posted { bus with status := { bus.status with word := 0x3FFF } } 25 [0x2A, 0xAA])).status.word =
        0x1555#14 := by decide +kernel

/-- Nothing is outstanding, told by fields that can be evaluated. -/
theorem quiet_of (s : State)
    (h : (s.time.tickDue = false ∧ s.time.secondDue = false ∧ s.port.link = [] ∧ s.port.owed = 0) ∧
      (s.timer.freezeDue = false ∧ s.timer.targetDue = false ∧ s.line.markSlot = none ∧ s.line.withdrawSlot = none ∧
        s.line.offerSlot = none ∧ s.line.reportSlot = none) ∧
      s.view.composing = none ∧ s.feeder.composing = none ∧ (s.service.fifo = [] ∧ s.service.held = false) ∧
      s.alloc.engine = .idle) : Quiet s := by
  obtain ⟨⟨t, e, l, d⟩, ⟨f, p, hm, hw, ho, hr⟩, o, c, posts, engine⟩ := h
  refine ⟨⟨t, e, l, d⟩, ⟨f, p, fun slot => ?_⟩, o, c, posts, fun _ _ => by simp [engine]⟩
  cases slot <;> simp [State.deadlineDue, LineUnit.slot, hm, hw, ho, hr]

/-- The bus at this count, with its port as given. -/
def busAt (c : Nat) (port : PortUnit) : State := { bus with timer := { bus.timer with c := c }, port := port }

/-- A DISABLED port of a bus that runs no share. -/
def idleBus (c : Nat) : State :=
  { busAt c (PortUnit.reset .charger) with apply := .reset }

/-- The count before the freeze point, the last count of the interval, and the last listen count. -/
theorem witness_TickAdvancesTheCounts :
    Quiet (idleBus 449) ∧ Settled (idleBus 449) ∧ (idleBus 449).timer.c + 1 < (idleBus 449).profile.length ∧
      (idleBus 449).port.state ≠ .enabled ∧ (after (.tick {}) (idleBus 449)).timer.freezeDue = true ∧
      Quiet (idleBus 598) ∧ (after (.tick {}) (idleBus 598)).timer.c = 599 ∧ Quiet fresh ∧ Settled fresh ∧
      (after (.tick {}) fresh).timer.listen = 1 ∧
      (after (.tick {}) { idleBus 5 with time := ⟨9, false, false⟩ }).time = ⟨0, true, false⟩ :=
  ⟨quiet_of _ (by decide), by decide, by decide, by decide,
    by decide +kernel, quiet_of _ (by decide), by decide +kernel,
    quiet_of _ (by decide), by decide, by decide +kernel,
    by decide +kernel⟩

/-- A tick after which a reply and a post are still pending; and an engine that a tick leaves computing. -/
theorem witness_TickAdvancesTheCounts_later :
    let late : State := exchanging (posted (idleBus 5) 24 [1])
    let left := after (.tick { repliesLater := true, postsLater := true }) late
    NoPointDue late ∧ Settled late ∧ late.readyHead.isSome = true ∧ late.port.owed = 0 ∧ late.service.held = false ∧
      left.port.owed = 1 ∧ left.port.link.length = 2 ∧ left.service.held = true ∧ left.service.fifo = [⟨24, [1]⟩] ∧
      (after .noticeEnable left).service.held = false ∧ (after .exchangeLinkError left).port.owed = 0 ∧
      (after (.tick {}) { idleBus 5 with alloc := { AllocUnit.reset with
        engine := .computing ⟨520, [], ⟨none, false⟩⟩ 1 } }).alloc.engine = .computing ⟨520, [], ⟨none, false⟩⟩ 2 := by
  refine ⟨⟨rfl, rfl, fun slot => ?_⟩, by decide, by decide, rfl, rfl, by decide +kernel⟩
  cases slot <;> rfl

/-- What is due is taken first: a state for each command of the list, and the tick that comes to the same after it. -/
theorem witness_TickAdvancesTheCounts_due :
    let same (c : Instr) (s : State) : Prop := after (.tick {}) s = after (.tick {}) (after c s) ∧ after c s ≠ s
    NoEventDue (idleBus 5) ∧ Settled (idleBus 5) ∧ (idleBus 5).timer.c < (idleBus 5).profile.freeze ∧
      same (.ownBoundary {}) { idleBus 599 with time := ⟨4, false, true⟩ } ∧
      same .secondEvent { idleBus 5 with time := ⟨0, true, false⟩ } ∧
      same .exchangeLinkError (exchanging (idleBus 5)) ∧ same .meterDiscard (metering (idleBus 5)) ∧
      same .freezePoint { idleBus 450 with timer := { (idleBus 450).timer with freezeDue := true } } ∧
      same .targetPoint { depot with timer := { depot.timer with targetDue := true } } ∧
      same .offerCompositionEnd { idleBus 5 with view := { bus.view with composing := some ⟨520, .nothing .line⟩ } } ∧
      same .targetCompositionEnd { depot with feeder := { depot.feeder with composing := some .empty } } ∧
      same .pause (posted (idleBus 5) 20 []) ∧
      same .allocationComplete { idleBus 5 with alloc := { AllocUnit.reset with
        engine := .computing ⟨520, [], ⟨none, false⟩⟩ 2 } } :=
  ⟨⟨rfl, rfl, rfl, rfl⟩, by decide +kernel⟩

/-- 8.7: from 1200 hW to a share of 450 in steps of 50; at the reserve no step up; the tenth idle tick. -/
theorem witness_TickRampsTheCommand :
    Quiet bus ∧ Settled bus ∧ bus.port.state = .enabled ∧ bus.timer.c + 1 < bus.profile.length ∧
      ((after (.tick {}) { busAt 449 bus.port with time := ⟨9, false, false⟩ }).time = ⟨0, true, false⟩ ∧
        (after (.tick {}) (busAt 449 bus.port)).timer.freezeDue = true ∧ (after (.tick {}) bus).timer.c = 101) ∧
      (after (.tick {}) { bus with apply := { bus.apply with share := 450 } }).port.command = 1150 ∧
      (after (.tick {}) { bus with
        account := { bus.account with account := some (accountAt 95000) }
        port := { bus.port with command := 600 } }).port.command = 600 ∧
      (after (.tick {}) { bus with
        account := { bus.account with account := some (accountAt 95000) }
        apply := { bus.apply with share := 40 }, port := { bus.port with command := -30 } }).port.command = 0 ∧
      (after (.idleCountExpiry {}) { bus with
        apply := .reset, port := { bus.port with command := -50, idleCount := 9 } }).port.state = .disabling :=
  ⟨quiet_of _ (by decide), by decide, by decide, by decide, by decide +kernel,
    by decide +kernel, by decide +kernel, by decide +kernel, by decide +kernel⟩

/-- A port at the last tick of its enable wait. -/
def waiting : State := busAt 5 { PortUnit.reset .charger with state := .enabling, enable := true, enableWait := 49 }

theorem witness_EnableTimeoutEntersFaulted :
    Quiet waiting ∧ Settled waiting ∧ waiting.port.state = .enabling ∧ 49 ≤ waiting.port.enableWait ∧
      waiting.timer.c + 1 < waiting.profile.length ∧ waiting.session.state = .engaged ∧
      (after (.enableTimeout {}) waiting).port.lastCause = some .enableTimeout ∧
      (after (.enableTimeout {}) waiting).session.state = .stopped :=
  ⟨quiet_of _ (by decide), by decide, by decide, by decide, by decide,
    by decide, by decide +kernel, by decide +kernel⟩

/-- The bus at a second event, with its pack data this old. -/
def aged (age : Nat) : State :=
  { bus with time := ⟨0, true, false⟩, session := ⟨.engaged, some { record with age := age, depart := 0 }, none⟩ }

theorem witness_SecondEventCountsSeconds :
    (aged 58).time.secondDue = true ∧ Settled (aged 58) ∧ (aged 59).session.state = .engaged ∧
      (after .secondEvent (aged 58)).stale = false ∧ (after .stalePackData (aged 59)).stale = true ∧
      (after .secondEvent (aged 65535)).session.record = some { record with age := 65535, depart := 0 } := by
  decide +kernel

/-- The bus one tick before its boundary, with a share handed over. -/
def lastTick : State := busAt 599 bus.port

theorem witness_OwnBoundaryBeginsTheNextInterval :
    Quiet lastTick ∧ Settled lastTick ∧ lastTick.straps.role = .charger ∧ lastTick.timer.state = .running ∧
      lastTick.timer.c + 1 = lastTick.profile.length ∧ lastTick.account.mark = true ∧ lastTick.line.state ≠ .clash ∧
      (after (.ownBoundary {}) lastTick).timer.n = 520 ∧
      (after (.ownBoundary {}) { lastTick with
        line := { lastTick.line with state := .clash } }).line.markSlot = none ∧
      (after (.tick { timerLater := true }) lastTick).time = ⟨1, false, true⟩ ∧
      (after (.ownBoundary {}) { lastTick with time := ⟨1, false, true⟩ }).timer.n = 520 ∧
      (after (.ownBoundary {}) { lastTick with
        line := { lastTick.line with state := .silent, silence := 1 } }).line.state = .active :=
  ⟨quiet_of _ (by decide), by decide, by decide, by decide, by decide, by decide, by decide, by decide +kernel,
    by decide +kernel, by decide +kernel, by decide +kernel, by decide +kernel⟩

/-- The feeder one tick before its boundary: its MARK is queued, and no TALLY. -/
def feederLastTick : State := { depot with timer := { depot.timer with c := 599 } }

theorem witness_OwnBoundaryBeginsTheNextInterval_feeder :
    Quiet feederLastTick ∧ Settled feederLastTick ∧ feederLastTick.straps.role = .feeder ∧
      feederLastTick.timer.c + 1 = feederLastTick.profile.length ∧
      (after (.ownBoundary {}) feederLastTick).line.markSlot =
        some ⟨⟨0, 40, 5, 803, .mark 0⟩, some 37, false⟩ ∧
      (after (.ownBoundary {}) feederLastTick).line.reportSlot = none ∧
      (after (.ownBoundary {}) feederLastTick).view.record.interval = 804 :=
  ⟨quiet_of _ (by decide), by decide, by decide, by decide, by decide +kernel, by decide +kernel, by decide +kernel⟩

/-- The charger one tick before its listen expiry. -/
def lastListen : State := { fresh with timer := { fresh.timer with listen := 1199 } }

theorem witness_ListenExpiryEntersRunning :
    Quiet lastListen ∧ Settled lastListen ∧ lastListen.timer.state = .listen ∧
      lastListen.timer.listen + 1 = 2 * lastListen.profile.length ∧ lastListen.line.markSlot = none ∧
      lastListen.line.reportSlot = none ∧ lastListen.port.state ≠ .enabling ∧
      (after (.listenExpiry {}) lastListen).timer.state = .running ∧
      (after (.listenExpiry {}) { lastListen with time := ⟨1, false, true⟩ }).timer.state = .running :=
  ⟨quiet_of _ (by decide), by decide, by decide, by decide, by decide, by decide, by decide, by decide +kernel,
    by decide +kernel⟩

/-- The bus with this pending share. -/
def ready (share : Int) : State := { bus with alloc := { AllocUnit.reset with engine := .ready share } }

/-- The limit of 1200 hW itself, one hW more, and an import beyond 1000 hW. -/
theorem witness_BoundaryLoadsTheJudgedShare :
    (ready 1200).alloc.engine = .ready 1200 ∧
      (takeBoundary .own 520 {} (ready 1200)).apply = ⟨1200, 520, .loaded, false, none⟩ ∧
      (takeBoundary .own 520 {} (ready 1201)).apply = ⟨1200, 520, .loaded, true, none⟩ ∧
      (takeBoundary .early 520 {} (ready (-1001))).apply = ⟨-1000, 520, .loaded, true, none⟩ ∧
      (takeBoundary .realign 520 {} (ready 5)).apply.outcome = .discarded ∧
      (takeBoundary .own 520 {} { ready 5 with
        account := { bus.account with account := some (accountAt 95000) } }).apply.outcome = .reserve ∧
      (takeBoundary .own 520 {} { ready (-5) with
        account := { bus.account with account := some (accountAt 95000) } }).apply.share = -5 ∧
      (let abandoned := takeBoundary .early 520 {} { bus with
          alloc := { bus.alloc with engine := .computing ⟨520, [], ⟨none, false⟩⟩ 0 } }
       abandoned.apply.outcome = .abandoned ∧ abandoned.alloc.result.flags.late = true ∧
        Flag.late.isSet abandoned.status.word = true) := by decide +kernel

/-- 4.9 at the boundary of interval 520: the OFFER for 521 carries 55,000, 1200, 30,000 and 1000. -/
theorem witness_BoundaryComputesTheOfferValues :
    bus.straps.role = .charger ∧ bus.account.account = some (accountAt 160000) ∧ bus.session.record = some record ∧
      record.pack = some ⟨800, 1200, 1000, .normal⟩ ∧
      (takeBoundary .own 520 {} { ready 1200 with straps := { chargerStraps with intv := 2 } }).view.composing =
        some ⟨521, .offer ⟨55000, 1200, 30000, 1000⟩⟩ ∧
      (takeBoundary .own 520 {} { ready 1200 with
        line := { bus.line with state := .clash } }).view.composing = some ⟨521, .nothing .line⟩ := by decide +kernel

/-- The feeder one tick before its boundary. -/
def lastDepot : State := { depot with timer := { depot.timer with c := 599 } }

/-- Each kind of measurement, a composition in flight, and a TARGET in its slot. -/
theorem witness_BoundaryClosesTheSiteMeasurement :
    lastDepot.straps.role = .feeder ∧ (∀ slot, lastDepot.line.slot slot = none) ∧
      (after (.ownBoundary {}) lastDepot).feeder.valid = 1 ∧
      (takeBoundary .implied 803 {} { lastDepot with feeder := { lastDepot.feeder with exportTotal := 20000 } }).feeder.measured =
        some 1200 ∧
      (takeBoundary .realign 803 {} lastDepot).feeder.measured = none ∧
      (takeBoundary .early 803 {} { lastDepot with
        feeder := { lastDepot.feeder with lossMark := true } }).feeder.measured = none ∧
      (takeBoundary .own 803 {} { lastDepot with feeder := { lastDepot.feeder with
        composing := some { FeederRecord.empty with interval := 803 } } }).feeder.record =
          { FeederRecord.empty with interval := 803, idleReason := .abandoned } ∧
      ((takeBoundary .own 803 {} { lastDepot with line := { lastDepot.line with
        reportSlot := some ⟨⟨0, 40, 5, 802, .target .exporting 1 1 1⟩, some 450, false⟩ } }).feeder.goals.map Goal.dropped) =
          [false, true] := by
  refine ⟨by decide, fun slot => ?_, by decide +kernel⟩
  cases slot <;> rfl

/-- The bus with a composition in flight. -/
def composing (outcome : ComposeOutcome) : State :=
  { bus with view := { bus.view with composing := some ⟨520, outcome⟩ } }

/-- The bus with a composition in flight and an own OFFER of this deadline in the slot, which an attempt carries; c is 100. -/
def composingOver (deadline : Nat) : State :=
  let old : Frame := ⟨242, 3, 5, 519, .offer ⟨55000, 1200, 30000, 1000⟩⟩
  { composing (.offer ⟨1, 1, 0, 0⟩) with line := { bus.line with
    offerSlot := some ⟨old, some deadline, false⟩, attempt := some ⟨.offer, old, false, false⟩ } }

/-- Both outcomes, CLASH, and a frame replaced at its deadline tick and one tick before it. -/
theorem witness_OfferCompositionQueuesTheOffer :
    (after .offerCompositionEnd (composingOver 100)).line.txDropped = 1 ∧
      (after .offerCompositionEnd (composingOver 101)).line.txDropped = 0 ∧
      ((after .offerCompositionEnd (composingOver 101)).line.attempt.map Attempt.detached) = some true ∧
    (composing (.offer ⟨55000, 1200, 30000, 1000⟩)).view.composing =
        some ⟨520, .offer ⟨55000, 1200, 30000, 1000⟩⟩ ∧
      (after .offerCompositionEnd (composing (.offer ⟨55000, 1200, 30000, 1000⟩))).view.record.priority = 242 ∧
      (after .offerCompositionEnd (composing (.nothing .noDirection))).view.record.reason = .noDirection ∧
      (after .offerCompositionEnd { composing (.offer ⟨1, 1, 0, 0⟩) with
        line := { bus.line with state := .clash } }).view.record.fate = .dropped := by decide +kernel

/-- A TARGET held `hold` times, at an announced freeze point. -/
def freezing (hold : Nat) : State := { bus with
  timer := { bus.timer with c := 450, freezeDue := true }
  view := { bus.view with used := some ⟨⟨40, 518, .exporting, 1600, 1500, 1⟩, hold, 518⟩ } }

theorem witness_FreezePointFixesTheInputs :
    (freezing 1).timer.freezeDue = true ∧ (freezing 1).straps.role = .charger ∧
      (after .freezePoint (freezing 1)).view.used = some ⟨⟨40, 518, .exporting, 1600, 1500, 1⟩, 2, 520⟩ ∧
      (after .freezePoint (freezing 2)).view.used = none ∧
      depot.straps.role = .feeder ∧ depot.view.entries = [] ∧ depot.view.received = none ∧ depot.view.used = none ∧
      (after .freezePoint { depot with timer := { depot.timer with freezeDue := true } }).alloc.engine = .ready 0 := by
  decide +kernel

/-- The worked allocation as station 7 sees it. -/
def dividing : State := { bus with
  view  := { bus.view with phase := .frozen }
  alloc := { AllocUnit.reset with engine := .computing ⟨520,
    [⟨3, ⟨60000, 600, 0, 0⟩, none, .heard⟩, ⟨7, ⟨20000, 600, 0, 0⟩, none, .own⟩, ⟨12, ⟨100000, 400, 0, 0⟩, none, .heard⟩,
      ⟨20, ⟨30000, 900, 0, 0⟩, none, .heard⟩], ⟨some ⟨40, 520, .exporting, 1600, 1500, 1⟩, false⟩⟩ 0 } }

theorem witness_CompletionWritesTheShares :
    Settled dividing ∧ (after .allocationComplete dividing).alloc.engine = .ready 200 ∧
      (after .allocationComplete dividing).alloc.result =
        ⟨true, 520, .exporting, 1600, 1500, some 40, 1, 1500, 4, 4, 2500, 1500, 200, 3, ⟨true, true, false, false⟩⟩ := by
  decide +kernel

/-- The feeder at an announced TARGET point. -/
def targeting (u : FeederUnit) : State := { depot with timer := { depot.timer with targetDue := true }, feeder := u }

theorem witness_TargetPointComposesTheTarget :
    (targeting depot.feeder).timer.targetDue = true ∧ FeederLaw (targeting depot.feeder) ∧
      (after .targetPoint (targeting { depot.feeder with siteLimit := none })).feeder.composing.map
        FeederRecord.idleReason = some .limitUnset ∧
      (after .targetPoint (targeting { depot.feeder with mode := .idle })).feeder.composing.map
        FeederRecord.idleReason = some .noRequest ∧
      (after .targetPoint (targeting { depot.feeder with measured := none })).feeder.composing.map
        FeederRecord.idleReason = some .noMeasurement ∧
      (after .targetPoint (targeting { depot.feeder with mode := .importing })).feeder.composing.map
        FeederRecord.correction = some .modeChange ∧
      ([({ depot.feeder with goals := [⟨800, .exporting, 1500, false⟩] } : FeederUnit),
        { depot.feeder with goals := [⟨801, .exporting, 1500, true⟩], tallies := [] },
        { depot.feeder with tallies := [] }, depot.feeder].map fun u =>
          (after .targetPoint (targeting u)).feeder.composing.map FeederRecord.correction) =
        [some .noGoal, some .dropped, some .noTally, some .none] ∧
      (after .targetCompositionEnd (after .targetPoint (targeting depot.feeder))).feeder.goals =
        [⟨802, .exporting, 1500, false⟩, ⟨803, .exporting, 1590, false⟩] ∧
      (let replacing (expired : Bool) := after .targetCompositionEnd { after .targetPoint (targeting depot.feeder) with
        line := depot.line.setSlot .report (some ⟨⟨0, 40, 5, 802, .target .exporting 1500 2220 52⟩, some 450, expired⟩) }
       (replacing true).line.txDropped = 1 ∧ (replacing false).line.txDropped = 0) :=
  ⟨by decide, ⟨by decide, by decide, by decide, by decide⟩, by decide +kernel, by decide +kernel, by decide +kernel,
    by decide +kernel, by decide +kernel, by decide +kernel⟩

/-- The bus with a pending OFFER at this deadline. -/
def offering (deadline : Nat) : State := { bus with
  line := { bus.line with offerSlot := some ⟨⟨242, 3, 5, 520, .offer ⟨55000, 1200, 30000, 1000⟩⟩, some deadline, false⟩ }
  view := { bus.view with record := ⟨520, true, .role, 242, ⟨55000, 1200, 30000, 1000⟩, .pending⟩ } }

/-- The attempt that carries that OFFER. -/
def offerAttempt : Attempt := ⟨.offer, ⟨242, 3, 5, 520, .offer ⟨55000, 1200, 30000, 1000⟩⟩, false, false⟩

/-- The bus while it sends that OFFER. -/
def sending : State := { offering 450 with line := { (offering 450).line with attempt := some offerAttempt } }

/-- The deadline tick itself, the tick before it, and a carried frame. -/
theorem witness_PassedDeadlineDropsTheFrame :
    (offering 100).line.slot .offer = some ⟨⟨242, 3, 5, 520, .offer ⟨55000, 1200, 30000, 1000⟩⟩, some 100, false⟩ ∧
      100 ≤ (offering 100).timer.c ∧ (offering 100).line.attempt = none ∧
      (after (.frameDeadline .offer) (offering 100)).view.record.fate = .dropped ∧
      (after (.frameDeadline .offer) (offering 101)).line.offerSlot = (offering 101).line.offerSlot ∧
      offerAttempt.slot = .offer ∧ offerAttempt.detached = false := by decide +kernel

/-- The tenth recessive bit; a WITHDRAW before an OFFER; each source after the pointer. -/
theorem witness_StartTakesTheNextSource :
    (offering 450).line.state = .active ∧ (offering 450).line.attempt = none ∧
      10 ≤ { (offering 450).line with recessiveRun := 8 }.recessiveRun + 2 ∧
      ([Slot.mark, .withdraw, .offer, .report].find? fun k => ((offering 450).line.slot k).isSome) = some .offer ∧
      (after (.frameStart 10) (offering 450)).line.attempt = some offerAttempt ∧
      (after (.frameStart 9) (offering 450)).line.attempt = none ∧
      (after (.frameStart 10) { offering 450 with
        line := { (offering 450).line with heard := [false] } }).line.attempt = none ∧
      ((after (.frameStart 10) { busy with line := { busy.line with attempt := none } }).line.attempt.map Attempt.slot) =
        some .mark ∧
      ((after (.frameStart 10) { busy with
        line := { busy.line with attempt := none, pointer := .timing } }).line.attempt.map Attempt.slot) =
        some .withdraw := by decide +kernel

theorem witness_ConfirmedFrameLeavesItsSlot :
    sending.line.attempt = some offerAttempt ∧ sending.view.phase = .opened ∧ sending.view.record.composed = true ∧
      (after (.frameConfirmed offerAttempt.frame.levels) sending).view.entries =
        [⟨3, ⟨55000, 1200, 30000, 1000⟩, none, .own⟩] ∧
      (after (.frameConfirmed offerAttempt.frame.levels) sending).view.record.fate = .confirmed ∧
      (after (.frameConfirmed offerAttempt.frame.levels) { sending with
        view := { sending.view with phase := .frozen } }).view.record.fate = .late ∧
      (after (.frameConfirmed (offerAttempt.frame.levels.take 20)) sending).line.attempt = some offerAttempt := by
  decide +kernel

theorem witness_ViewLaw_sending : ViewLaw sending := ⟨by decide, by decide, by decide⟩

/-- A recessive level of the arbitration field read dominant; the start bit read recessive; the sixteenth failure. -/
theorem witness_AttemptEndsAtTheFirstDifference :
    sending.line.attempt = some offerAttempt ∧ Settled sending ∧
      offerAttempt.frame.levels = offerAttempt.frame.levels.take 2 ++ true :: offerAttempt.frame.levels.drop 3 ∧
      2 < offerAttempt.frame.arbitrationEnd ∧
      (after (.lostArbitration (offerAttempt.frame.levels.take 2 ++ [false, true])) sending).line.attempt = none ∧
      (after (.lostArbitration (offerAttempt.frame.levels.take 2 ++ [false, true])) sending).line.heard =
        offerAttempt.frame.levels.take 2 ++ [false] ∧
      (after (.transmitFailure [true]) sending).line.failures = 1 ∧
      (after (.enterSilent [true]) { sending with
        line := { sending.line with failures := 15 } }).line.state = .silent ∧
      (after (.enterSilent [true]) { sending with
        line := { sending.line with failures := 14 } }).line.attempt = some offerAttempt := by decide +kernel

/-- An OFFER of station 9, of this site and of another. -/
def heardOffer (site : Fin 16) (number : IntervalNo) : Frame := ⟨251, 9, site, number, .offer ⟨20000, 600, 0, 0⟩⟩

theorem witness_ForeignFrameIsDiscarded :
    (heardOffer 6 520).legal = true ∧ (heardOffer 6 520).site ≠ bus.straps.site ∧ Settled bus ∧
      Hears bus (List.replicate 10 true ++ (heardOffer 6 520).levels) (heardOffer 6 520) ∧
      (after (hear (heardOffer 6 520)) bus).line.rxForeign = 1 :=
  ⟨by decide, by decide, by decide, hears_of _ _ rfl rfl, by decide +kernel⟩

/-- A frame with the own number. -/
def ownNumber : Frame := { heardOffer 5 520 with source := 3 }

theorem witness_FilterStopsBadAndOwnFrames :
    ownNumber.legal = true ∧ Settled bus ∧ bus.line.state ≠ .clash ∧ bus.line.txDropped ≤ 65535 ∧
      Hears bus (List.replicate 10 true ++ ownNumber.levels) ownNumber ∧
      (after (hear ownNumber) bus).line.state = .clash ∧
      (after (.frameReceived ownNumber.levels {}) { sending with
        line := { sending.line with recessiveRun := 10 } }).line.attempt = none :=
  ⟨by decide, by decide, by decide, by decide, hears_of _ _ rfl rfl, by decide +kernel, by decide +kernel⟩

/-- The least and the greatest place of five equal levels, the ends of the end field, each way to be corrupt, and a busy line. -/
theorem witness_FilterStopsBadAndOwnFrames_reading :
    readFrame [] 10 (stuff .start (ownNumber.payload.take 1) ++ List.replicate 5 false) = .framing ∧
      readFrame [] 10 (stuff .start (ownNumber.payload.take 133) ++ List.replicate 5 true) = .framing ∧
      133 + 5 ≤ ownNumber.payload.length ∧
      (∀ k ∈ [0, 7], readFrame [] 10 (stuff .start ownNumber.payload ++ List.replicate k true ++ [false]) = .framing) ∧
      readFrame [] 10 (Frame.levels ⟨0, 9, 5, 1, .offer ⟨1, 4001, 0, 0⟩⟩) = .corrupt ∧
      (∀ header ∈ [bitsOf 3 5 ++ bitsOf 18 0, bitsOf 21 0], ∀ body ∈ [bitsOf 8 0, bitsOf 8 4],
        let span := header ++ bitsOf 4 1 ++ bitsOf 16 1 ++ body
        ¬(header = bitsOf 21 0 ∧ body = bitsOf 8 0) →
        readFrame [] 10 (stuff .start (false :: (span ++ bitsOf 16 (checkOf span).toNat)) ++ endField) = .corrupt) ∧
      (after (.frameReceived (List.replicate 9 true) {}) bus).line.recessiveRun = 9 ∧
      (after (.frameReceived (List.replicate 9 true ++ ownNumber.levels) {}) bus).line.state = .active := by
  decide +kernel

/-- The counts where the early window begins, each frame that implies a boundary, and one that does not. -/
theorem witness_HeardFramesReachTheirOwners_implied :
    (after (hear (heardOffer 5 521)) (busAt 563 bus.port)).timer.lastKind = some .implied ∧
      (after (hear (heardOffer 5 521)) (busAt 563 bus.port)).view.entries = [⟨9, ⟨20000, 600, 0, 0⟩, none, .heard⟩] ∧
      (after (hear (heardOffer 5 521)) (busAt 562 bus.port)).timer.n = 519 ∧
      (after (hear (heardOffer 5 520)) (busAt 563 bus.port)).timer.n = 519 ∧
      (after (hear ⟨0, 9, 5, 521, .target .exporting 5 5 1⟩) (busAt 599 bus.port)).view.received =
        some ⟨9, 521, .exporting, 5, 5, 1⟩ ∧
      (after (hear ⟨0, 9, 5, 802, .tally 5⟩) { depot with timer := { depot.timer with c := 563 } }).feeder.tallies =
        [⟨9, 5⟩] := by decide +kernel

/-- The last count outside the early window; each phase and each role. -/
theorem witness_HeardFramesReachTheirOwners :
    (heardOffer 5 520).legal = true ∧ (heardOffer 5 520).site = bus.straps.site ∧ (heardOffer 5 520).source ≠ bus.straps.stn ∧
      Settled (busAt 562 bus.port) ∧ ViewLaw (busAt 562 bus.port) ∧ FeederLaw (busAt 562 bus.port) ∧
      Hears (busAt 562 bus.port) (List.replicate 10 true ++ (heardOffer 5 520).levels) (heardOffer 5 520) ∧
      Hears { bus with line := { bus.line with heard := (heardOffer 5 520).levels.take 9 } } ((heardOffer 5 520).levels.drop 9)
        (heardOffer 5 520) ∧
      (after (hear (heardOffer 5 520)) (busAt 562 bus.port)).view.entries =
        [⟨9, ⟨20000, 600, 0, 0⟩, none, .heard⟩] ∧
      (after (hear (heardOffer 5 521)) bus).view.rxOff = 1 ∧
      (after (hear (heardOffer 5 520)) { bus with
        view := { bus.view with phase := .frozen } }).view.rxLate = 1 ∧
      (after (hear ⟨0, 9, 5, 801, .tally (-620)⟩) depot).feeder.tallies =
        [⟨3, 700⟩, ⟨9, -620⟩] ∧
      (after (hear ⟨0, 9, 5, 802, .tally 5⟩) depot).feeder.tallyOff = 1 :=
  ⟨by decide, by decide, by decide, by decide, ⟨by decide, by decide, by decide⟩, ⟨by decide, by decide, by decide, by decide⟩,
    hears_of _ _ rfl rfl, ⟨fun _ h => (nomatch h), Or.inr ⟨by decide +kernel, List.take_append_drop 9 _⟩⟩, by decide +kernel⟩

/-- A MARK of station 9. -/
def mark (number : IntervalNo) (profile : Fin 4) : Instr := hear ⟨0, 9, 5, number, .mark profile⟩

/-- The counts where the classes meet: 36 and 37, 562 and 563. -/
theorem witness_MarkIsClassifiedByTheCounter :
    (Frame.legal ⟨0, 9, 5, 520, .mark 0⟩) = true ∧ Settled bus ∧
      Hears bus (List.replicate 10 true ++ Frame.levels ⟨0, 9, 5, 520, .mark 0⟩) ⟨0, 9, 5, 520, .mark 0⟩ ∧
      (after (mark 519 0) (busAt 36 bus.port)).timer = (busAt 36 bus.port).timer ∧
      (after (mark 520 0) (busAt 37 bus.port)).timer.lastKind = some .realign ∧
      (after (mark 520 0) (busAt 562 bus.port)).timer.lastKind = some .realign ∧
      (after (mark 522 0) (busAt 563 bus.port)).timer.lastKind = some .early ∧
      (after (mark 522 0) (busAt 563 bus.port)).timer.slip = 1 ∧
      (after (mark 77 0) fresh).timer.lastKind = some .listenMark ∧
      (after (mark 77 1) fresh).timer = fresh.timer ∧
      ((after (.frameReceived (Frame.levels ⟨0, 9, 5, 519, .mark 0⟩) {}) { busy with
          timer := { busy.timer with c := 36 }
          line := { busy.line with recessiveRun := 10 } }).line.attempt.map Attempt.detached) = some true :=
  ⟨by decide, by decide, hears_of _ _ rfl rfl, by decide +kernel⟩

/-- A port in this state. -/
def portAt (state : PortState) (enable : Bool) : State :=
  exchanging { busAt 5 { PortUnit.reset .charger with state := state, enable := enable } with apply := .reset }

/-- Each row of the table, the ninth OFF of a run, and the second link error. -/
theorem witness_StatusReportMovesThePort :
    Settled (portAt .disabled false) ∧ ExchangeEnds (portAt .disabled false).port [] 0 ∧
      ExchangeEnds { (portAt .disabled false).port with link := [.meterRead, .stop] } [.meterRead] 0 ∧
      (after (.statusReport (reply 4)) (portAt .faulted false)).port.link = [.stop] ∧
      (after (.statusReport (reply 4)) (portAt .faulted false)).port.state = .faulted ∧
      (after .linkLoss { portAt .faulted false with
        port := { (portAt .faulted false).port with missCount := 2 } }).port.link = [.stop] ∧
      (after .exchangeLinkError { portAt .faulted false with
        port := { (portAt .faulted false).port with missCount := 3 } }).port.link = [] ∧
      (after (.statusReport (reply 3)) (portAt .disabled false)).port.state = .disabled ∧
      (after (.statusReport (reply 1)) (portAt .enabling true)).port.state = .enabling ∧
      (after (.statusReport (reply 2)) (portAt .enabling true)).port.state = .enabled ∧
      (after (.statusReport (reply 3)) (portAt .enabled true)).port.state = .enabled ∧
      (after (.statusReport (reply 3)) (portAt .disabling false)).port.state = .disabling ∧
      (after (.statusReport (reply 0)) (portAt .disabling false)).port.state = .disabled ∧
      (after (.statusReport (reply 0)) { portAt .faulted false with
        port := { (portAt .faulted false).port with offRun := 8 } }).port.offRun = 9 ∧
      (after (.statusReport (reply 5)) (portAt .enabled true)).port.linkErr = 1 ∧
      (after .exchangeLinkError { portAt .enabled true with
        port := { (portAt .enabled true).port with missCount := 1 } }).port.state = .enabled :=
  ⟨by decide, Or.inl ⟨_, rfl, by decide, rfl⟩, Or.inr ⟨[], rfl, rfl, rfl⟩, by decide +kernel⟩

theorem witness_PortFaultEntersFaulted :
    (exchanging bus).port.state ∈ [PortState.disabled, .enabling, .enabled, .disabling] ∧
      ExchangeEnds (exchanging bus).port [] 0 ∧
      (after (.statusReport (reply 4)) (exchanging (composing (.offer ⟨1, 1, 0, 0⟩)))).view.record.reason = .withdrawn ∧
      (after (.statusReport (reply 4)) (exchanging (composing (.nothing .line)))).view.record.reason = .line ∧
      (after (.statusReport (reply 4)) (exchanging bus)).port.lastCause = some .faultReport ∧
      (after (.statusReport (reply 1)) (exchanging bus)).port.lastCause = some .dropout ∧
      (after .linkLoss { exchanging bus with
        port := { (exchanging bus).port with missCount := 2 } }).port.lastCause = some .linkLoss ∧
      (after (.statusReport (reply 4)) (exchanging bus)).session.state = .stopped :=
  ⟨by decide, Or.inl ⟨_, rfl, by decide, rfl⟩, by decide +kernel⟩

/-- A CLOSING session. -/
def closing (port : PortUnit) : State :=
  { bus with session := { bus.session with state := .closing }, port := port, apply := .reset }

theorem witness_ClosingSessionBecomesVacant :
    (closing (.reset .charger)).port.command = 0 ∧ (closing (.reset .charger)).port.state = .disabled ∧
      (after .closingToVacant (closing (.reset .charger))).session.state = .vacant ∧
      (after .closingToVacant (closing bus.port)).session.state = .closing ∧
      (after .offRunComplete (exchanging (closing { PortUnit.reset .charger with
        state := .faulted, offRun := 9 }))).session.state = .vacant ∧
      (after .offRunComplete (exchanging (closing { PortUnit.reset .charger with
        state := .faulted, offRun := 8 }))).session.state = .closing ∧
      (after (.statusReport (reply 0)) (exchanging (closing { PortUnit.reset .charger with
        state := .disabling }))).session.state = .vacant := by decide +kernel

/-- 4.10 and 8.8: an increment of 333, J = 843 itself and 844; a wrapped counter; the reserve; a loss that ends. -/
theorem witness_MeterSampleIntegrates :
    Settled (metering bus) ∧ (metering bus).port.reference = some ⟨1000, 12000⟩ ∧ (metering bus).port.meterLost = false ∧
      (metering bus).rating * 5 / 9 + 10 = 843 ∧
      ((after (sample 1333 12000) (metering bus)).account.account.map Account.eNow) = some 159966 ∧
      (after (sample 1843 12000) (metering bus)).port.lastSample = some .good ∧
      (after (sample 1844 12000) (metering bus)).port.meterJump = 1 ∧
      (after (sample 270 12000) (metering { bus with port := { bus.port with
        reference := some ⟨4294967233, 12000⟩ } })).port.lastDx = 333 ∧
      (after (sample 1001 12000) (metering { bus with
        account := { bus.account with account := some (accountAt 95000) } })).apply.lastCut = some .reserve ∧
      ((after (sample 2207 0) (metering { bus with
        apply := .reset
        port := { bus.port with meterLost := true, reference := none } })).account.account.map
        Account.resyncPending) = some true ∧
      (after (sample 9 7) (metering depot)).port.lastSample = some .first ∧
      (let sampled := after (sample 1333 12000) (metering (composing (.offer ⟨55000, 1200, 30000, 1000⟩)))
       sampled.view.composing = none ∧ sampled.view.record.composed = true ∧
        sampled.account.account.map Account.eNow = some 159966) := by decide +kernel

theorem witness_ThirdDiscardLosesTheMeter :
    Settled (metering bus) ∧ (metering bus).port.link = [.meterRead] ∧
      (after .meterDiscard { metering bus with port := { (metering bus).port with discards := 1 } }).port.meterLost = false ∧
      (after .meterLoss { metering bus with
        port := { (metering bus).port with discards := 2 } }).apply.lastCut = some .meterLost ∧
      (after (.meterSample 0 0 0 0) (metering bus)).port.discards = 1 := by decide +kernel

/-- 10.8: accepted, refused for its length, its code, and a full FIFO. -/
theorem witness_PostIsJudgedAtSelectHigh :
    (0x93 : Byte).toNat / 64 = 2 ∧ (composing (.nothing .line)).service.select = .high ∧
      (composing (.nothing .line)).service.window = none ∧ (composing (.nothing .line)).readyHead = none ∧
      (after (.postAcceptance (.run [0x93, 1] 0)) (composing (.nothing .line))).service.acceptance = .accepted ∧
      (after (.postAcceptance (.run [0x93, 1] 1)) (composing (.nothing .line))).service.acceptance = .refusedLength ∧
      (after (.postAcceptance (.run [0x8F] 0)) (composing (.nothing .line))).service.acceptance = .refusedCode ∧
      (after (.postAcceptance (.run [0x9B] 0)) (composing (.nothing .line))).service.acceptance = .refusedCode ∧
      (after (.postAcceptance (.run [0x93, 1] 0)) { composing (.nothing .line) with
        service := { bus.service with fifo := [⟨20, []⟩, ⟨21, []⟩] } }).service.acceptance = .refusedFull := by
  decide +kernel

/-- The bytes of COUNTERS in the order of R173: fifteen counters with the numbers 1 to 15, the last one saturated. -/
theorem test_counters_bytes :
    recordOf 9 { bus with
      line    := { bus.line with txDone := 1, txErr := 2, txDropped := 3, rxCheck := 4, rxForeign := 5, rxGood := 6 }
      timer   := { bus.timer with slip := 7 }
      view    := { bus.view with rxDup := 8, rxOff := 9, rxLate := 10 }
      account := { bus.account with drift := 11 }
      feeder  := { bus.feeder with tallyOff := 12, tallyLate := 13 }
      port    := { bus.port with linkErr := 14, meterJump := 65535 } } =
      some [0, 1, 0, 2, 0, 3, 0, 4, 0, 5, 0, 6, 0, 7, 0, 8, 0, 9, 0, 10, 0, 11, 0, 12, 0, 13, 0, 14, 255, 255] := by
  decide +kernel

/-- The bytes of STATUS by the table of R174: RESERVE and CONVERTER set, a first fault of −1200 hW in STOPPED. -/
theorem test_status_bytes :
    recordOf 8 { bus with status :=
      ⟨0x0808, 0x1F, 0x10, some ⟨.converter, 519, 100, -1200, .stopped⟩⟩ } =
      some [0x88, 0x08, 0x1F, 0x10, 1, 0, 1, 11, 2, 7, 0, 100, 0xFB, 0x50, 3] := by decide +kernel

theorem witness_ReadsClockOutTheRecord :
    bus.service.select ≠ .ignored ∧ bus.service.window = none ∧ bus.readyHead = none ∧
      (after (.readRecord (.run [0x00, 0, 0, 0, 0] 0)) bus).service.out = [128, 0, 1, 156, 3] ∧
      (after (.readClearStatus (.run [0x48, 0] 0)) { bus with
        status := { bus.status with factors := 0x1F } }).status.factors = 0 ∧
      (after (.readClearStatus (.run [0x48] 0)) { bus with
        status := { bus.status with factors := 0x1F } }).status.factors = 0x1F ∧
      (after (.readRecord (.run [] 0)) { bus with
        service := { bus.service with select := .ignored } }).service.select = .high := by decide +kernel

/-- The window at its ends: the first index 255 is 63, and 0 entries are 1. -/
theorem witness_ViewIsReadEntryByEntry :
    (0x05 : Byte).toNat / 64 < 2 ∧ (0x05 : Byte).toNat % 32 = 5 ∧ bus.readyHead = none ∧
      (after (.readView (.header 0x05 255 255)) bus).service.window = some ⟨63, 1⟩ ∧
      (after (.readView (.header 0x05 0 0)) bus).service.window = some ⟨0, 1⟩ ∧
      (after (.readView .entry) (after (.readView (.header 0x05 0 1)) bus)).service.out =
        [128, 0, 0, 0, 1, 2, 8, 0, 255] ++ List.replicate 13 0 ∧
      (after (.readView .entry) { bus with service := { bus.service with window := some ⟨1, 0⟩ } }).service.out =
        List.replicate 14 0 := by decide +kernel

theorem witness_SentFrameIsReadBack :
    offerAttempt.frame.legal = true ∧
      readFrame [] 8 ([true, true] ++ offerAttempt.frame.levels) = .frame offerAttempt.frame ∧
      readFrame (offerAttempt.frame.levels.take 1) 0 (offerAttempt.frame.levels.drop 1) = .frame offerAttempt.frame ∧
      readFrame [] 9 offerAttempt.frame.levels ≠ .frame offerAttempt.frame := by
  decide +kernel

theorem witness_DivisionMeetsTheGoal :
    let claims : List Claim := [⟨3, 60000, 600⟩, ⟨7, 20000, 600⟩, ⟨12, 100000, 400⟩]
    claims.Pairwise (fun a b => a.station ≠ b.station) ∧ (∀ c ∈ claims, c.weight ≠ 0 ∧ c.cap ≠ 0) ∧
      awardSum (divide 1599 claims).1 = 1599 ∧ awardSum (divide 1600 claims).1 = 1600 ∧
      awardSum (divide 1601 claims).1 = 1600 ∧ (divide 1600 claims).2 = 0 ∧
      (divide 1599 claims).2 = 3 ∧ (divide 1 claims).2 = 1 ∧ [3, 7, 12].map (shareOf (divide 1 claims).1) = [0, 0, 1] := by
  decide +kernel

end Sys2Proof.Tests
end

