-- ==== Sys2Proof/Proofs/Division.lean ====
section
/-! SUPPORT. The division (R102 to R104): what a pass leaves to share, what the last pass hands out, and one induction over the
passes from which the allocation law follows. -/

namespace Sys2Proof.Machine

/-! ## Lists of awards -/

/-- The awards that give each claim the share `f` names. -/
def awardBy (f : Claim → Nat) (cs : List Claim) : List Award := cs.map fun c => ⟨c.station, f c⟩

@[simp] theorem awardBy_length (f : Claim → Nat) (cs : List Claim) : (awardBy f cs).length = cs.length := by
  simp [awardBy]

@[simp] theorem awardBy_stations (f : Claim → Nat) (cs : List Claim) :
    (awardBy f cs).map Award.station = cs.map Claim.station := by
  simp [awardBy]

@[simp] theorem awardSum_awardBy (f : Claim → Nat) (cs : List Claim) : awardSum (awardBy f cs) = (cs.map f).sum := by
  simp [awardSum, awardBy, Function.comp_def]

@[simp] theorem awardSum_append (as bs : List Award) : awardSum (as ++ bs) = awardSum as + awardSum bs := by
  simp [awardSum]

/-- Among awards before which the station does not stand, the share is that of the awards behind. -/
theorem shareOf_append_of_notMem {as bs : List Award} {i : Fin 64} (h : i ∉ as.map Award.station) :
    shareOf (as ++ bs) i = shareOf bs i := by
  have hnone : as.find? (fun a => a.station = i) = none := by
    simp only [List.find?_eq_none, decide_eq_true_eq]
    exact fun a ha hi => h (hi ▸ List.mem_map_of_mem ha)
  simp [shareOf, List.find?_append, hnone]

/-- Claims whose stations differ pairwise, as those of a view do (R83). -/
def DistinctStations (cs : List Claim) : Prop := cs.Pairwise fun a b => a.station ≠ b.station

theorem DistinctStations.filter {cs : List Claim} (h : DistinctStations cs) (p : Claim → Bool) :
    DistinctStations (cs.filter p) :=
  List.Pairwise.filter p h

theorem DistinctStations.stations_nodup {cs : List Claim} (h : DistinctStations cs) : (cs.map Claim.station).Nodup :=
  List.pairwise_map.mpr h

/-- Among distinct stations a claim is known by its station. -/
theorem DistinctStations.eq_of_station {cs : List Claim} (h : DistinctStations cs) {a b : Claim} (ha : a ∈ cs) (hb : b ∈ cs)
    (hs : a.station = b.station) : a = b :=
  List.inj_on_of_nodup_map h.stations_nodup ha hb hs

theorem DistinctStations.length_le {cs : List Claim} (h : DistinctStations cs) : cs.length ≤ 64 := by
  simpa using h.stations_nodup.length_le_card

/-- A claim receives what `f` names, whatever awards stand behind. -/
theorem shareOf_awardBy_append {cs : List Claim} (h : DistinctStations cs) (f : Claim → Nat) (bs : List Award) {c : Claim}
    (hc : c ∈ cs) : shareOf (awardBy f cs ++ bs) c.station = f c := by
  induction cs with
  | nil => simp at hc
  | cons d cs ih =>
    obtain ⟨hd, hcs⟩ := List.pairwise_cons.mp h
    rcases List.mem_cons.mp hc with rfl | hc
    · simp [awardBy, shareOf]
    · have hne : d.station ≠ c.station := hd c hc
      simpa [awardBy, shareOf, hne] using ih hcs hc

theorem shareOf_awardBy {cs : List Claim} (h : DistinctStations cs) (f : Claim → Nat) {c : Claim} (hc : c ∈ cs) :
    shareOf (awardBy f cs) c.station = f c := by
  simpa using shareOf_awardBy_append h f [] hc

/-! ## One pass (R103) -/

/-- The entries whose quotient reaches their cap (R103). -/
def cappedOf (goal : Nat) (cs : List Claim) : List Claim := cs.filter fun c => c.cap ≤ quotient goal (weightSum cs) c

/-- The entries that stay in S (R103). -/
def restOf (goal : Nat) (cs : List Claim) : List Claim := cs.filter fun c => quotient goal (weightSum cs) c < c.cap

/-- What the capped entries leave of R (R103). -/
def onwardOf (goal : Nat) (cs : List Claim) : Nat := goal - capSum (cappedOf goal cs)

section
variable {goal : Nat} {cs : List Claim}

theorem mem_cappedOf {c : Claim} : c ∈ cappedOf goal cs ↔ c ∈ cs ∧ c.cap ≤ quotient goal (weightSum cs) c := by
  simp [cappedOf]

theorem mem_restOf {c : Claim} : c ∈ restOf goal cs ↔ c ∈ cs ∧ quotient goal (weightSum cs) c < c.cap := by
  simp [restOf]

theorem cappedOf_eq_nil : cappedOf goal cs = [] ↔ ∀ c ∈ cs, quotient goal (weightSum cs) c < c.cap := by
  simp [cappedOf]

/-- A pass parts S. -/
theorem cappedOf_append_restOf_perm : (cappedOf goal cs ++ restOf goal cs).Perm cs := by
  have h := List.filter_append_perm (fun c => decide (c.cap ≤ quotient goal (weightSum cs) c)) cs
  simpa [cappedOf, restOf, ← decide_not] using h

theorem capSum_cappedOf_add_restOf : capSum (cappedOf goal cs) + capSum (restOf goal cs) = capSum cs := by
  simpa [capSum] using (cappedOf_append_restOf_perm.map Claim.cap).sum_eq

theorem length_cappedOf_add_restOf : (cappedOf goal cs).length + (restOf goal cs).length = cs.length := by
  simpa using cappedOf_append_restOf_perm.length_eq

/-- The exact parts R × w / W, times W, sum to R × W over S: quotients and residues account for all of it (R104). -/
theorem quotients_mul_add_residues (goal weights : Nat) (cs : List Claim) :
    (cs.map (quotient goal weights)).sum * weights + (cs.map (residue goal weights)).sum = goal * weightSum cs := by
  induction cs with
  | nil => simp [weightSum]
  | cons c cs ih =>
    have hc : quotient goal weights c * weights + residue goal weights c = goal * c.weight := Nat.div_add_mod' _ _
    simp only [weightSum, List.map_cons, List.sum_cons, Nat.add_mul, Nat.mul_add] at ih ⊢
    omega

/-- The quotients of a pass sum to at most R (R103). -/
theorem quotients_le (goal : Nat) (cs : List Claim) : (cs.map (quotient goal (weightSum cs))).sum ≤ goal := by
  have h := quotients_mul_add_residues goal (weightSum cs) cs
  rcases Nat.eq_zero_or_pos (weightSum cs) with h0 | hpos
  · have hq : quotient goal 0 = fun _ => 0 := funext fun c => Nat.div_zero _
    simp [h0, hq]
  · exact Nat.le_of_mul_le_mul_right (by omega) hpos

/-- R never becomes negative: the capped entries take no more than their quotients (R103). -/
theorem capSum_cappedOf_le : capSum (cappedOf goal cs) ≤ goal :=
  calc capSum (cappedOf goal cs)
      ≤ ((cappedOf goal cs).map (quotient goal (weightSum cs))).sum :=
        List.sum_le_sum fun _ hc => (mem_cappedOf.mp hc).2
    _ ≤ (cs.map (quotient goal (weightSum cs))).sum := (List.filter_sublist.map _).sum_le_sum (by simp)
    _ ≤ goal := quotients_le goal cs

/-- The goal stays below the caps still to be shared, so S never empties (R103). -/
theorem onwardOf_lt (h : goal < capSum cs) : onwardOf goal cs < capSum (restOf goal cs) := by
  have hle : capSum (cappedOf goal cs) ≤ goal := capSum_cappedOf_le
  have hsum : capSum (cappedOf goal cs) + capSum (restOf goal cs) = capSum cs := capSum_cappedOf_add_restOf
  unfold onwardOf
  omega

theorem restOf_length_lt (h : cappedOf goal cs ≠ []) : (restOf goal cs).length < cs.length := by
  have hlen : (cappedOf goal cs).length + (restOf goal cs).length = cs.length := length_cappedOf_add_restOf
  have hpos := List.length_pos_iff.mpr h
  omega

theorem ne_nil_of_lt_capSum (h : goal < capSum cs) : cs ≠ [] := by
  rintro rfl
  simp [capSum] at h

/-- Capped entries take their caps, and the rest is shared as what is left (R103). -/
theorem passes_succ_of_capped (fuel : Nat) (h : cappedOf goal cs ≠ []) :
    passes (fuel + 1) goal cs =
      (awardBy Claim.cap (cappedOf goal cs) ++ (passes fuel (onwardOf goal cs) (restOf goal cs)).1,
        (passes fuel (onwardOf goal cs) (restOf goal cs)).2 + 1) := by
  have hne : (cappedOf goal cs).isEmpty = false := by simpa using h
  unfold cappedOf at hne
  simp only [passes, hne, Nat.not_le]
  rfl

/-- A pass that caps no entry is the last (R103). -/
theorem passes_succ_of_none_capped (fuel : Nat) (h : cappedOf goal cs = []) :
    passes (fuel + 1) goal cs = (lastPass goal cs, 1) := by
  have hnil : (cappedOf goal cs).isEmpty = true := by simpa using h
  unfold cappedOf at hnil
  simp only [passes, hnil, if_true]

/-- As many passes as there are entries suffice: more fuel changes nothing. -/
theorem passes_eq_of_length_le {fuel fuel' : Nat} (hgoal : goal < capSum cs) (hf : cs.length ≤ fuel)
    (hf' : cs.length ≤ fuel') : passes fuel goal cs = passes fuel' goal cs := by
  induction fuel generalizing fuel' goal cs with
  | zero => exact absurd (List.length_eq_zero_iff.mp (Nat.le_zero.mp hf)) (ne_nil_of_lt_capSum hgoal)
  | succ fuel ih =>
    have hpos := List.length_pos_iff.mpr (ne_nil_of_lt_capSum hgoal)
    obtain ⟨fuel', rfl⟩ := Nat.exists_eq_succ_of_ne_zero (by omega : fuel' ≠ 0)
    by_cases hc : cappedOf goal cs = []
    · rw [passes_succ_of_none_capped _ hc, passes_succ_of_none_capped _ hc]
    · have hlt := restOf_length_lt hc
      rw [passes_succ_of_capped _ hc, passes_succ_of_capped _ hc,
        ih (onwardOf_lt hgoal) (by omega) (by omega : _ ≤ fuel')]

/-! ## The division, case by case (R102, R103) -/

theorem divide_of_capSum_le (h : capSum cs ≤ goal) : divide goal cs = (awardBy Claim.cap cs, 0) :=
  if_pos h

theorem divide_of_lt (h : goal < capSum cs) {fuel : Nat} (hf : cs.length ≤ fuel) :
    divide goal cs = passes fuel goal cs := by
  rw [divide, if_neg (by omega), passes_eq_of_length_le h le_rfl hf]

theorem divide_of_none_capped (h : goal < capSum cs) (hc : cappedOf goal cs = []) :
    divide goal cs = (lastPass goal cs, 1) := by
  rw [divide_of_lt h (Nat.le_succ _), passes_succ_of_none_capped _ hc]

theorem divide_of_capped (h : goal < capSum cs) (hc : cappedOf goal cs ≠ []) :
    divide goal cs =
      (awardBy Claim.cap (cappedOf goal cs) ++ (divide (onwardOf goal cs) (restOf goal cs)).1,
        (divide (onwardOf goal cs) (restOf goal cs)).2 + 1) := by
  rw [divide_of_lt h (Nat.le_succ _), passes_succ_of_capped _ hc,
    ← divide_of_lt (onwardOf_lt h) (restOf_length_lt hc).le]

end

/-- Induction over the passes: what holds of caps handed out at once, of a last pass, and of a pass that caps entries when it
holds of the division of what is left, holds of every division. -/
theorem divide_induction {P : Nat → List Claim → Prop}
    (full : ∀ goal cs, capSum cs ≤ goal → P goal cs)
    (last : ∀ goal cs, goal < capSum cs → cappedOf goal cs = [] → P goal cs)
    (pass : ∀ goal cs, goal < capSum cs → cappedOf goal cs ≠ [] → P (onwardOf goal cs) (restOf goal cs) → P goal cs)
    (goal : Nat) (cs : List Claim) : P goal cs := by
  rcases Nat.lt_or_ge goal (capSum cs) with h | h
  · by_cases hc : cappedOf goal cs = []
    · exact last goal cs h hc
    · exact pass goal cs h hc (divide_induction full last pass _ _)
  · exact full goal cs h
termination_by cs.length
decreasing_by exact restOf_length_lt hc

/-! ## The last pass (R104) -/

/-- What the quotients leave of R (R104). -/
def remainderOf (goal : Nat) (cs : List Claim) : Nat := goal - (cs.map (quotient goal (weightSum cs))).sum

/-- The one hW more that the first entries by rank receive (R104). -/
def extraOf (goal : Nat) (cs : List Claim) (c : Claim) : Nat :=
  if rank goal (weightSum cs) cs c < remainderOf goal cs then 1 else 0

theorem lastPass_eq (goal : Nat) (cs : List Claim) :
    lastPass goal cs = awardBy (fun c => quotient goal (weightSum cs) c + extraOf goal cs c) cs := rfl

theorem ranksBefore_iff {goal weights : Nat} {a b : Claim} :
    ranksBefore goal weights a b = true ↔ residue goal weights b < residue goal weights a ∨
      residue goal weights a = residue goal weights b ∧ a.station < b.station := by
  simp [ranksBefore]

theorem not_ranksBefore_self (goal weights : Nat) (c : Claim) : ¬ ranksBefore goal weights c c = true := by
  simp [ranksBefore_iff]

theorem ranksBefore_trans {goal weights : Nat} {a b c : Claim} (hab : ranksBefore goal weights a b = true)
    (hbc : ranksBefore goal weights b c = true) : ranksBefore goal weights a c = true := by
  rw [ranksBefore_iff] at *
  omega

/-- Of two stations one ranks before the other. -/
theorem ranksBefore_or (goal weights : Nat) {a b : Claim} (h : a.station ≠ b.station) :
    ranksBefore goal weights a b = true ∨ ranksBefore goal weights b a = true := by
  rw [ranksBefore_iff, ranksBefore_iff]
  omega

section
variable {goal weights : Nat} {cs : List Claim}

/-- An entry ranks behind fewer entries than one it ranks before: that one has it before it as well. -/
theorem rank_lt_rank {a b : Claim} (ha : a ∈ cs) (h : ranksBefore goal weights a b = true) :
    rank goal weights cs a < rank goal weights cs b := by
  have hsub : cs.filter (ranksBefore goal weights · a) =
      (cs.filter (ranksBefore goal weights · b)).filter (ranksBefore goal weights · a) := by
    rw [List.filter_filter]
    refine List.filter_congr fun c _ => ?_
    rw [Bool.eq_iff_iff, Bool.and_eq_true]
    exact ⟨fun hc => ⟨hc, ranksBefore_trans hc h⟩, And.left⟩
  unfold rank
  rw [hsub, List.length_filter_lt_length_iff_exists]
  exact ⟨a, List.mem_filter.mpr ⟨ha, h⟩, not_ranksBefore_self goal weights a⟩

theorem rank_lt_length {c : Claim} (hc : c ∈ cs) : rank goal weights cs c < cs.length :=
  List.length_filter_lt_length_iff_exists.mpr ⟨c, hc, not_ranksBefore_self goal weights c⟩

/-- The ranks are the numbers from 0, each once. -/
theorem ranks_perm_range (hd : DistinctStations cs) :
    (cs.map (rank goal weights cs)).Perm (List.range cs.length) := by
  have hnodup : (cs.map (rank goal weights cs)).Nodup := by
    refine List.pairwise_map.mpr (List.Pairwise.imp_of_mem (fun {a b} ha hb hne => ?_) hd)
    rcases ranksBefore_or goal weights hne with h | h
    · exact (rank_lt_rank ha h).ne
    · exact (rank_lt_rank hb h).ne'
  refine (List.subperm_of_subset hnodup fun r hr => ?_).perm_of_length_le (by simp)
  obtain ⟨c, hc, rfl⟩ := List.mem_map.mp hr
  exact List.mem_range.mpr (rank_lt_length hc)

/-- Of the numbers below `n`, min(r, n) lie below `r`. -/
theorem sum_indicator_lt_range (r n : Nat) : ((List.range n).map fun k => if k < r then 1 else 0).sum = min r n := by
  induction n with
  | zero => simp
  | succ n ih =>
    rw [List.range_succ, List.map_append, List.sum_append, ih, List.map_singleton, List.sum_singleton]
    split <;> omega

/-- The rank, with the order of R104 written out. -/
theorem rank_eq (c : Claim) : rank goal weights cs c =
    (cs.filter fun d => residue goal weights c < residue goal weights d ∨
      residue goal weights d = residue goal weights c ∧ d.station < c.station).length := by
  simp [rank, ranksBefore]

theorem weightSum_pos (hw : ∀ c ∈ cs, c.weight ≠ 0) (h : cs ≠ []) : 0 < weightSum cs := by
  obtain ⟨c, hc⟩ := List.exists_mem_of_ne_nil cs h
  have hle : c.weight ≤ weightSum cs := List.le_sum_of_mem (List.mem_map_of_mem hc)
  have hpos := hw c hc
  omega

/-- r is at most the number of entries, since every residue is below W (R104). -/
theorem remainderOf_le_length (hpos : 0 < weightSum cs) : remainderOf goal cs ≤ cs.length := by
  have hres : (cs.map (residue goal (weightSum cs))).sum ≤ cs.length * weightSum cs := by
    have h := List.sum_le_card_nsmul (cs.map (residue goal (weightSum cs))) (weightSum cs) fun r hr => by
      obtain ⟨c, -, rfl⟩ := List.mem_map.mp hr
      exact (Nat.mod_lt _ hpos).le
    simpa using h
  have hexact := quotients_mul_add_residues goal (weightSum cs) cs
  have hgoal : goal ≤ (cs.map (quotient goal (weightSum cs))).sum + cs.length := by
    refine Nat.le_of_mul_le_mul_right ?_ hpos
    rw [Nat.add_mul]
    omega
  unfold remainderOf
  omega

/-- The last pass hands out r hW beyond the quotients (R104). -/
theorem sum_extraOf (hd : DistinctStations cs) (hpos : 0 < weightSum cs) :
    (cs.map (extraOf goal cs)).sum = remainderOf goal cs :=
  calc (cs.map (extraOf goal cs)).sum
      = ((cs.map (rank goal (weightSum cs) cs)).map fun k => if k < remainderOf goal cs then 1 else 0).sum := by
        rw [List.map_map]
        rfl
    _ = ((List.range cs.length).map fun k => if k < remainderOf goal cs then 1 else 0).sum :=
        ((ranks_perm_range hd).map _).sum_eq
    _ = remainderOf goal cs := by
        rw [sum_indicator_lt_range, min_eq_left (remainderOf_le_length hpos)]

/-- The entries of the last pass receive R in total. -/
theorem awardSum_lastPass (hd : DistinctStations cs) (hpos : 0 < weightSum cs) : awardSum (lastPass goal cs) = goal := by
  have hq := quotients_le goal cs
  rw [lastPass_eq, awardSum_awardBy, List.sum_map_add, sum_extraOf hd hpos, remainderOf]
  omega

end

/-! ## The shares of a division -/

section
variable {goal : Nat} {cs : List Claim}

theorem share_of_capSum_le (hd : DistinctStations cs) (h : capSum cs ≤ goal) {c : Claim} (hc : c ∈ cs) :
    shareOf (divide goal cs).1 c.station = c.cap := by
  rw [divide_of_capSum_le h, shareOf_awardBy hd _ hc]

theorem share_of_none_capped (hd : DistinctStations cs) (h : goal < capSum cs) (hn : cappedOf goal cs = []) {c : Claim}
    (hc : c ∈ cs) : shareOf (divide goal cs).1 c.station = quotient goal (weightSum cs) c + extraOf goal cs c := by
  rw [divide_of_none_capped h hn, lastPass_eq, shareOf_awardBy hd _ hc]

theorem share_of_mem_cappedOf (hd : DistinctStations cs) (h : goal < capSum cs) {c : Claim} (hc : c ∈ cappedOf goal cs) :
    shareOf (divide goal cs).1 c.station = c.cap := by
  have hdc : DistinctStations (cappedOf goal cs) := hd.filter _
  rw [divide_of_capped h (List.ne_nil_of_mem hc), shareOf_awardBy_append hdc _ _ hc]

theorem share_of_mem_restOf (hd : DistinctStations cs) (h : goal < capSum cs) (hn : cappedOf goal cs ≠ []) {c : Claim}
    (hc : c ∈ restOf goal cs) :
    shareOf (divide goal cs).1 c.station = shareOf (divide (onwardOf goal cs) (restOf goal cs)).1 c.station := by
  rw [divide_of_capped h hn, shareOf_append_of_notMem]
  rw [awardBy_stations, List.mem_map]
  rintro ⟨d, hdc, hs⟩
  obtain ⟨hdcs, hcap⟩ := mem_cappedOf.mp hdc
  obtain ⟨hccs, hquot⟩ := mem_restOf.mp hc
  cases hd.eq_of_station hdcs hccs hs
  omega

end

/-- Every entry receives one award. -/
theorem divide_length (goal : Nat) (cs : List Claim) : (divide goal cs).1.length = cs.length := by
  induction goal, cs using divide_induction with
  | full goal cs h => simp [divide_of_capSum_le h]
  | last goal cs h hn => simp [divide_of_none_capped h hn, lastPass_eq]
  | pass goal cs h hn ih =>
    simpa [divide_of_capped h hn, ih] using length_cappedOf_add_restOf

/-- The allocation law, the sum: the shares sum to min(G, cap sum). -/
theorem awardSum_divide (goal : Nat) (cs : List Claim) (hd : DistinctStations cs) (hw : ∀ c ∈ cs, c.weight ≠ 0) :
    awardSum (divide goal cs).1 = min goal (capSum cs) := by
  induction goal, cs using divide_induction with
  | full goal cs h =>
    rw [divide_of_capSum_le h, awardSum_awardBy, min_eq_right h]
    rfl
  | last goal cs h hn =>
    rw [divide_of_none_capped h hn, awardSum_lastPass hd (weightSum_pos hw (ne_nil_of_lt_capSum h)), min_eq_left h.le]
  | pass goal cs h hn ih =>
    have hrest := ih (hd.filter _) fun c hc => hw c (mem_restOf.mp hc).1
    have hcapped : ((cappedOf goal cs).map Claim.cap).sum ≤ goal := capSum_cappedOf_le
    rw [divide_of_capped h hn, awardSum_append, awardSum_awardBy, hrest, min_eq_left (onwardOf_lt h).le,
      min_eq_left h.le]
    exact Nat.add_sub_cancel' hcapped

/-- The allocation law, each entry: no share is above its cap. -/
theorem share_le_cap (goal : Nat) (cs : List Claim) (hd : DistinctStations cs) {c : Claim} (hc : c ∈ cs) :
    shareOf (divide goal cs).1 c.station ≤ c.cap := by
  induction goal, cs using divide_induction with
  | full goal cs h => exact (share_of_capSum_le hd h hc).le
  | last goal cs h hn =>
    have hquot : quotient goal (weightSum cs) c < c.cap := cappedOf_eq_nil.mp hn c hc
    have hextra : extraOf goal cs c ≤ 1 := by unfold extraOf; split <;> omega
    rw [share_of_none_capped hd h hn hc]
    omega
  | pass goal cs h hn ih =>
    rcases Nat.lt_or_ge (quotient goal (weightSum cs) c) c.cap with hlt | hle
    · have hrest : c ∈ restOf goal cs := mem_restOf.mpr ⟨hc, hlt⟩
      rw [share_of_mem_restOf hd h hn hrest]
      exact ih (hd.filter _) hrest
    · exact (share_of_mem_cappedOf hd h (mem_cappedOf.mpr ⟨hc, hle⟩)).le

/-- The passes are at least 1 and at most the number of entries (R103). -/
theorem passes_bounds (goal : Nat) (cs : List Claim) (hgoal : goal < capSum cs) :
    1 ≤ (divide goal cs).2 ∧ (divide goal cs).2 ≤ cs.length := by
  induction goal, cs using divide_induction with
  | full goal cs h => omega
  | last goal cs h hn =>
    have hpos := List.length_pos_iff.mpr (ne_nil_of_lt_capSum h)
    rw [divide_of_none_capped h hn]
    exact ⟨le_rfl, hpos⟩
  | pass goal cs h hn ih =>
    obtain ⟨-, hle⟩ := ih (onwardOf_lt h)
    have hlt := restOf_length_lt hn
    rw [divide_of_capped h hn]
    omega

/-- The cap sum of a view stays within 256,000 (R102). -/
theorem capSum_le {cs : List Claim} (hd : DistinctStations cs) (h : ∀ c ∈ cs, c.cap ≤ 4000) : capSum cs ≤ 256000 := by
  have hsum : capSum cs ≤ cs.length * 4000 := by
    simpa [capSum] using List.sum_le_card_nsmul (cs.map Claim.cap) 4000 (by simpa using h)
  have hlen : cs.length ≤ 64 := hd.length_le
  omega

/-- Settles O60: the sum, the caps and the bound on the passes by induction over the passes; the rest is the division's
equation in each of its three cases. -/
theorem divisionMeetsTheGoal : Obligations.DivisionMeetsTheGoal := by
  unfold Obligations.DivisionMeetsTheGoal
  intro goal cs hd hpos
  have hsum : awardSum (divide goal cs).1 = min goal (capSum cs) := awardSum_divide goal cs hd fun c hc => (hpos c hc).1
  refine ⟨hsum, divide_length goal cs, fun c => share_le_cap goal cs hd, capSum_le hd, fun h => ?full,
    fun h hn => ?pass, fun h hn => ?last, passes_bounds goal cs⟩
  case full =>
    have hpasses : (divide goal cs).2 = 0 := by rw [divide_of_capSum_le h]
    exact ⟨hpasses, fun c => share_of_capSum_le hd h, by rw [hsum, min_eq_right h]⟩
  case pass =>
    exact ⟨fun c => share_of_mem_cappedOf hd h, fun c => share_of_mem_restOf hd h hn, onwardOf_lt h,
      congrArg Prod.snd (divide_of_capped h hn)⟩
  case last =>
    have hpasses : (divide goal cs).2 = 1 := by rw [divide_of_none_capped h hn]
    refine ⟨hpasses, fun c hc => ?_⟩
    have hshare := share_of_none_capped hd h hn hc
    rw [extraOf, rank_eq] at hshare
    exact hshare

end Sys2Proof.Machine
end

