-- ==== Sys2Proof/Proofs/StatusClear.lean ====
section
/-! SUPPORT. STATUS_CLEAR (R158): what the clearing makes of each flag, and that an action which sets no flag is no transition
(R157), so that it leaves the first-fault record. -/

namespace Sys2Proof.Machine

/-! ## Clearing flags by a mask (R158) -/

/-- The state with the flags of a mask cleared. -/
def clearFlags (mask : Nat) (s : State) : State :=
  { s with status := { s.status with word := s.status.word &&& ~~~BitVec.ofNat 14 mask } }

theorem Flag.position_lt (f : Flag) : f.position < 14 := by
  cases f <;> decide

/-- A flag is set after the clearing where it was set before and its mask bit is not. -/
theorem isSet_clearFlags (f : Flag) (mask : Nat) (s : State) :
    f.isSet (clearFlags mask s).status.word = (f.isSet s.status.word && !mask.testBit f.position) := by
  rw [Flag.isSet, clearFlags, BitVec.getLsbD_and, BitVec.getLsbD_not, BitVec.getLsbD_ofNat, decide_eq_true f.position_lt,
    Bool.true_and, Bool.true_and, Flag.isSet]

/-- The body of a STATUS_CLEAR clears the mask it spells. -/
theorem applyClear_natBytes (mask : Nat) (s : State) (hm : mask < 65536) :
    applyClear (natBytes 2 mask) s = (clearFlags mask s, .applied) := by
  have hfield : field (natBytes 2 mask) 0 2 = mask := field_natBytes_last [] 0 2 mask rfl hm
  rw [applyClear, hfield, clearFlags]

/-! ## Actions that set no flag (R157) -/

/-- An action after which no flag is set that was clear before ends without a transition. -/
theorem noteFaults_of_no_new_flag (before : BitVec 14) (s : State)
    (h : ∀ f : Flag, f.isSet s.status.word = true → f.isSet before = true) : noteFaults before s = s := by
  obtain ⟨hsame, -⟩ | ⟨f, -, hset, hclear⟩ := noteFaults_cases before s
  · exact hsame
  · simp [h f hset] at hclear

/-- The end of an action that set no clear flag and left nothing outstanding changes nothing. -/
theorem settle_of_no_new_flag (s s' : State) (hflags : ∀ f : Flag, f.isSet s'.status.word = true → f.isSet s.status.word = true)
    (h : Settled s') : settle s s' = s' := by
  rw [settle, requestEnable_of_settled s' h, vacate_of_settled s' h, noteFaults_of_no_new_flag _ _ hflags]

/-! ## The post -/

/-- STATUS_CLEAR clears the flags of its mask and leaves what every applied post leaves. -/
theorem exec_statusClear (s : State) (rest : List Post) (mask : Nat) (hf : s.service.fifo = ⟨25, natBytes 2 mask⟩ :: rest)
    (hm : mask < 65536) (h : Settled s) :
    exec .statusClear s = .next (clearFlags mask (postDone rest .applied s)) := by
  have happly := applyIfHead_eq .statusClear 25 2 (natBytes 2 mask) rest s hf rfl rfl (by decide)
  have heffect : recordOutcome (ownerRule .statusClear (natBytes 2 mask) (popHead s)) =
      clearFlags mask (postDone rest .applied s) := by
    rw [ownerRule, applyClear_natBytes mask _ hm]
    simp [recordOutcome, clearFlags, cause, popHead, postDone, hf, Factor.bit, BitVec.twoPow]
  have hsettle : settle s (clearFlags mask (postDone rest .applied s)) = clearFlags mask (postDone rest .applied s) := by
    refine settle_of_no_new_flag _ _ (fun f hset => ?_) h
    rw [isSet_clearFlags, Bool.and_eq_true] at hset
    exact hset.1
  calc exec .statusClear s
    _ = .next (applyIfHead .statusClear s) := rfl
    _ = .next (settle s (recordOutcome (ownerRule .statusClear (natBytes 2 mask) (popHead s)))) := by rw [happly, act]
    _ = _ := by rw [heffect, hsettle]

/-- Settles O29: the whole next state, of which the clearing takes the masked flags and nothing else but what every applied
post leaves. -/
theorem statusClearClearsTheMaskedFlags : Obligations.StatusClearClearsTheMaskedFlags := by
  unfold Obligations.StatusClearClearsTheMaskedFlags
  intro s rest mask hf hm h
  refine ⟨_, exec_statusClear s rest mask hf hm h, rfl, fun f => isSet_clearFlags f mask _, ?_⟩
  simp [clearFlags, postDone]

end Sys2Proof.Machine
end

