-- ==== Sys2Proof/Proofs/Moves.lean ====
section
/-! SUPPORT. What a command is made of: the effects that one action of a block has, the moves (whole actions, and the steps that
raise no flag and so end in none), and every command as a run of moves. A law that every move keeps is kept by every command. -/

open Sys2Proof Sys2Proof.Machine

namespace Sys2Proof.Machine

/-! ## Effects and moves -/

/-- Whose move it is: those whose moves some statements treat apart, and all others. -/
inductive Agent where
  /-- The Interval Timer takes a tick. -/
  | timer
  /-- A frame is received. -/
  | frames
  /-- The port takes a tick. -/
  | port
  /-- A status report. -/
  | reports
  /-- The time base moves on, or a meter read falls due. -/
  | clock
  /-- A RESTART at the head of the FIFO. -/
  | restart
  /-- A POST is accepted. -/
  | intake
  /-- A READ_CLEAR clears the factors it showed. -/
  | shown
  | others
deriving DecidableEq

/-- What one action does before it ends (`settle`), by the block that acts. -/
inductive Effect : Agent → State → State → Prop
  | timer (order : Order) (s : State) : Effect .timer s (timerTick order s)
  | receive (levels : List Level) (order : Order) (s : State) : Effect .frames s (receive levels order s)
  | portTick (s : State) : Effect .port s (portTick s)
  | points (order : Order) (s : State) : Effect .others s (takePoints order s)
  | freeze (s : State) : Effect .others s (takeFreezeIfDue s)
  | second (s : State) : Effect .others s (takeSecond s)
  | seconds (s : State) : Effect .others s (countSeconds s)
  | complete (s : State) : Effect .others s (complete s)
  | allocation (s : State) : Effect .others s (allocationTick s)
  | linkError {s : State} (h : s.exchanging = true) : Effect .others s (takeLinkError s)
  | status (st : ConverterStatus) {s : State} (h : s.exchanging = true) : Effect .reports s (takeStatus st s)
  | sample (reading : MeterReading) {s : State} (h : s.metering = true) :
      Effect .others s (goodSample reading (endTransaction s))
  | discard {s : State} (h : s.metering = true) : Effect .others s (takeDiscard s)
  | fail (s : State) : Effect .others s (failAttempt s)
  | post {kind : PostKind} {body : List Byte} {s : State} (h : s.readyHead = some (kind, body)) (hk : kind ≠ .restart) :
      Effect .others s (recordOutcome (ownerRule kind body (popHead s)))

/-- One move: a whole action, or a step outside every action. -/
inductive Move : Agent → State → State → Prop
  | action {a : Agent} {s u : State} (h : Effect a s u) : Move a s (settle s u)
  | restart {body : List Byte} {s : State} (h : s.readyHead = some (.restart, body)) : Move .restart s (restartState s)
  | endOffer (s : State) : Move .others s (endOffer s)
  | endTarget (s : State) : Move .others s (endTarget s)
  | targetPoint (s : State) : Move .others s (takeTargetIfDue s)
  | deadline (slot : Slot) (s : State) : Move .others s (takeDeadline slot s)
  | start {recessive : Nat} {slot : Slot} {s : State} (h : s.line.starts recessive = some slot) :
      Move .others s (startSlot slot s)
  | lose (read : List Level) (s : State) : Move .others s (loseAttempt read s)
  | confirm (s : State) : Move .others s (confirmAttempt s)
  | vacate (s : State) : Move .others s (vacate s)
  | requestRead (s : State) : Move .clock s (requestRead s)
  | time (x : TimeBase) (s : State) : Move .clock s { s with time := x }
  | owed (n : Nat) (s : State) : Move .others s { s with port := { s.port with owed := n } }
  | service {x : ServiceUnit} {s : State} (h : x.fifo = s.service.fifo) : Move .others s { s with service := x }
  | accept {bytes : List Byte} {spare : Fin 8} {s : State} (hne : bytes ≠ []) (h : judgePost bytes spare s = .accepted) :
      Move .intake s { s with service := { s.service with acceptance := .accepted, fifo := s.service.fifo ++ [postIn bytes] } }
  | clearFactors (s : State) : Move .shown s (clearFactors s)

/-- A run of moves by the agents that `p` allows. -/
def Moves (p : Agent → Prop) : State → State → Prop := Relation.ReflTransGen fun s t => ∃ a, p a ∧ Move a s t

/-- A run of moves in which only the time base moves on and meter reads fall due. -/
abbrev ClockMoves : State → State → Prop := Moves (· = .clock)

/-- The agents that may move at any place within a command. -/
abbrev Agent.free (a : Agent) : Prop := a = .others ∨ a = .clock ∨ a = .restart

/-- A run of moves in which neither the Interval Timer nor the port takes a tick, no frame and no report is received, and no
transaction of the service port has its effect. -/
abbrev FreeMoves : State → State → Prop := Moves Agent.free

/-- An agent of neither a tick nor a frame. -/
abbrev Agent.quiet (a : Agent) : Prop := a ≠ .timer ∧ a ≠ .frames ∧ a ≠ .port

theorem Agent.free.quiet {a : Agent} (h : a.free) : a.quiet ∧ a ≠ .reports := by
  obtain rfl | rfl | rfl := h <;> decide

/-- At most one move, by this agent. -/
def Once (a : Agent) (s t : State) : Prop := t = s ∨ Move a s t

section
variable {p : Agent → Prop} {s t u : State} {a : Agent}

theorem Moves.refl (s : State) : Moves p s s := Relation.ReflTransGen.refl

theorem Moves.trans (h : Moves p s t) (h' : Moves p t u) : Moves p s u := Relation.ReflTransGen.trans h h'

theorem Moves.single (ha : p a) (h : Move a s t) : Moves p s t := Relation.ReflTransGen.single ⟨a, ha, h⟩

theorem Moves.mono {q : Agent → Prop} (hpq : ∀ a, p a → q a) (h : Moves p s t) : Moves q s t :=
  Relation.ReflTransGen.mono (fun _ _ ⟨a, ha, m⟩ => ⟨a, hpq a ha, m⟩) _ _ h

theorem Move.free (h : Move .others s t) : FreeMoves s t := Moves.single (.inl rfl) h

theorem Move.ofClock (h : Move .clock s t) : ClockMoves s t := Moves.single rfl h

theorem Moves.free (h : ClockMoves s t) : FreeMoves s t := h.mono fun _ ha => .inr (.inl ha)

theorem Once.moves (ha : p a) (h : Once a s t) : Moves p s t := by
  obtain rfl | h := h
  · exact .refl _
  · exact .single ha h

/-- A relation that every allowed move respects, and that is reflexive and transitive, holds over the whole run. -/
theorem Moves.rel {R : State → State → Prop} (h : Moves p s t) (hrefl : ∀ s, R s s)
    (htrans : ∀ s t u, R s t → R t u → R s u) (hmove : ∀ a s t, p a → Move a s t → R s t) : R s t := by
  induction h with
  | refl => exact hrefl _
  | tail _ m ih =>
    obtain ⟨a, ha, m⟩ := m
    exact htrans _ _ _ ih (hmove a _ _ ha m)

/-- A law that every allowed move keeps is kept by the whole run. -/
theorem Moves.keeps {P : State → Prop} (h : Moves p s t) (hmove : ∀ a s t, p a → Move a s t → P s → P t) (hs : P s) : P t :=
  h.rel (R := fun s t => P s → P t) (fun _ h => h) (fun _ _ _ h h' hs => h' (h hs)) hmove hs

/-- One whole action is one move. -/
theorem act_move {f : State → State} (h : Effect a s (f s)) : Move a s (act f s) := .action h
end

/-! ## The head of the FIFO -/

/-- A head that is ready stands at the front of the FIFO, under a code that names its post. -/
theorem readyHead_eq {s : State} {kind : PostKind} {body : List Byte} (h : s.readyHead = some (kind, body)) :
    ∃ code rest, s.service.fifo = ⟨code, body⟩ :: rest ∧ (postOf code).map Prod.fst = some kind ∧ kind.waits s = false := by
  unfold State.readyHead at h
  cases hf : s.service.fifo with
  | nil => simp [hf] at h
  | cons p rest =>
    simp only [hf] at h
    cases hk : p.kind with
    | none => simp [hk] at h
    | some k =>
      simp only [hk] at h
      split at h
      · simp at h
      · rename_i hw
        simp only [Option.some.injEq, Prod.mk.injEq] at h
        obtain ⟨rfl, rfl⟩ := h
        exact ⟨p.code, rest, rfl, hk, by simpa using hw⟩

/-- Only code 26 is a RESTART (R173). -/
theorem code_of_restart {code : Nat} (h : (postOf code).map Prod.fst = some .restart) : code = 26 := by
  unfold postOf at h
  split at h <;> simp_all

/-- Only code 25 is a STATUS_CLEAR (R173). -/
theorem code_of_statusClear {code : Nat} (h : (postOf code).map Prod.fst = some .statusClear) : code = 25 := by
  unfold postOf at h
  split at h <;> simp_all

theorem applyHead_move {kind : PostKind} {body : List Byte} {s : State} (h : s.readyHead = some (kind, body)) :
    Move (if kind = .restart then .restart else .others) s (applyHead kind body s) := by
  by_cases hk : kind = .restart
  · subst hk; exact .restart h
  · have : applyHead kind body s = act (fun s => recordOutcome (ownerRule kind body (popHead s))) s := by
      cases kind <;> first | rfl | exact absurd rfl hk
    rw [this, if_neg hk]
    exact act_move (f := fun s => recordOutcome (ownerRule kind body (popHead s))) (.post h hk)

theorem applyIfHead_once (kind : PostKind) (s : State) :
    Once (if kind = .restart then .restart else .others) s (applyIfHead kind s) := by
  unfold applyIfHead
  cases h : s.readyHead with
  | none => exact .inl rfl
  | some head =>
    obtain ⟨k, body⟩ := head
    dsimp only
    by_cases hk : k = kind
    · subst hk; rw [if_pos rfl]; exact .inr (applyHead_move h)
    · rw [if_neg hk]; exact .inl rfl

theorem applyReady_moves (s : State) : FreeMoves s (applyReady s) := by
  unfold applyReady
  split
  · rename_i kind body h
    refine Moves.single ?_ (applyHead_move h)
    split
    · exact .inr (.inr rfl)
    · exact .inl rfl
  · exact .refl s

theorem flushPosts_moves (s : State) : FreeMoves s (flushPosts s) := (applyReady_moves s).trans (applyReady_moves _)

/-! ## Transactions -/

theorem service_move (x : ServiceUnit) {s : State} (h : x.fifo = s.service.fifo) : FreeMoves s { s with service := x } :=
  (Move.service h).free

theorem clockOut_moves (bytes : List Byte) (s : State) : FreeMoves s (clockOut bytes s) := service_move _ rfl

theorem selectHigh_moves (s : State) : FreeMoves s (selectHigh s) := service_move _ rfl

theorem selectLow_moves (s : State) : FreeMoves s (selectLow s) := by
  unfold selectLow
  split
  · exact (flushPosts_moves s).trans (service_move _ rfl)
  · exact .refl s

/-- A transaction of the service port: what its head lets come first, its effect by agent `a`, and no more than the port's own
state after it. -/
def Transacted (a : Agent) (s t : State) : Prop :=
  ∃ u v x, FreeMoves s u ∧ Once a u v ∧ x.fifo = v.service.fifo ∧ t = { v with service := x }

theorem FreeMoves.transacted {a : Agent} {s t : State} (h : FreeMoves s t) : Transacted a s t :=
  ⟨t, t, t.service, h, .inl rfl, rfl, rfl⟩

theorem Transacted.service {a : Agent} {s t : State} (h : Transacted a s t) (x : ServiceUnit) (hx : x.fifo = t.service.fifo) :
    Transacted a s { t with service := x } := by
  obtain ⟨u, v, y, hu, hv, hy, rfl⟩ := h
  exact ⟨u, v, x, hu, hv, hx.trans hy, rfl⟩

theorem Transacted.moves {a : Agent} {s t : State} {p : Agent → Prop} (hp : ∀ b, b.free → p b) (ha : p a) (h : Transacted a s t) :
    Moves p s t := by
  obtain ⟨u, v, x, hu, hv, hx, rfl⟩ := h
  exact (hu.mono hp).trans ((hv.moves ha).trans ((service_move x hx).mono hp))

theorem transact_transacted {a : Agent} (transfer : Transfer) (fits : List Byte → Bool) (body : List Byte → Fin 8 → State → State)
    (hbody : ∀ bytes spare s, fits bytes = true → Transacted a s (body bytes spare s)) (s : State) :
    Transacted a s (transact transfer fits body s) := by
  unfold transact
  split
  · exact (selectLow_moves s).transacted
  · rename_i bytes spare
    split
    · exact (selectHigh_moves s).transacted
    · split
      · rename_i hfits
        have hfits : fits bytes = true := by simp_all
        obtain ⟨u, v, x, hu, hv, hx, ht⟩ := hbody bytes spare (selectLow s) hfits
        exact Transacted.service ⟨u, v, x, (selectLow_moves s).trans hu, hv, hx, ht⟩ _ rfl
      · exact FreeMoves.transacted (.refl s)

theorem postBody_transacted (bytes : List Byte) (spare : Fin 8) (s : State) (hfits : posts bytes = true) :
    Transacted .intake s (postBody bytes spare s) := by
  have hflush : FreeMoves s (flushPosts (clockOut (List.replicate (bytes.length - 1) 0) s)) :=
    (clockOut_moves _ s).trans (flushPosts_moves _)
  unfold postBody
  generalize flushPosts (clockOut (List.replicate (bytes.length - 1) 0) s) = x at hflush
  dsimp only
  by_cases h : judgePost bytes spare x = .accepted
  · simp only [h, if_true]
    exact ⟨x, _, _, hflush, .inr (Move.accept (by rintro rfl; simp [posts] at hfits) h), rfl, rfl⟩
  · simp only [h, if_false]
    exact ⟨x, x, { x.service with acceptance := judgePost bytes spare x }, hflush, .inl rfl, rfl, rfl⟩

theorem clearBody_transacted (bytes : List Byte) (spare : Fin 8) (s : State) : Transacted .shown s (clearBody bytes spare s) := by
  unfold clearBody
  split
  · exact ⟨_, _, _, clockOut_moves _ s, .inr (Move.clearFactors _), rfl, rfl⟩
  · exact (clockOut_moves _ s).transacted

theorem viewMoment_moves (moment : ViewStep) (s : State) : FreeMoves s (viewMoment moment s) := by
  unfold viewMoment
  split
  · exact selectLow_moves s
  · split
    · refine (selectLow_moves s).trans (.trans ?_ (clockOut_moves _ _))
      exact service_move _ rfl
    · exact .refl s
  · unfold viewNext
    split
    · exact .refl s
    · split
      · exact clockOut_moves _ s
      · refine .trans ?_ (clockOut_moves _ _)
        exact service_move _ rfl
  · exact selectHigh_moves s

/-! ## The tick -/

theorem takeReply_effect (reply : LinkWord) {s : State} (h : s.exchanging = true) :
    ∃ a, (a = .reports ∨ a = .others) ∧ Effect a s (takeReply reply s) := by
  unfold takeReply
  split
  · exact ⟨_, .inl rfl, .status _ h⟩
  · exact ⟨_, .inr rfl, .linkError h⟩

theorem takeSample_effect (a b c d : LinkWord) {s : State} (h : s.metering = true) :
    Effect .others s (takeSample a b c d s) := by
  unfold takeSample
  split
  · exact .sample _ h
  · exact .discard h

theorem timeOutLink_moves (fuel : Nat) (s : State) : FreeMoves s (timeOutLink fuel s) := by
  induction fuel generalizing s with
  | zero => exact .refl s
  | succ n ih =>
    unfold timeOutLink
    split
    · exact .refl s
    · rename_i h
      have : s.metering = true := by simp [State.metering, h]
      exact (act_move (f := takeDiscard) (.discard this)).free.trans (ih _)
    · rename_i x h hx
      have : s.exchanging = true := by
        cases hl : s.port.link with
        | nil => exact absurd hl h
        | cons y rest =>
          cases y with
          | meterRead => exact absurd hl (hx rest)
          | _ => simp [State.exchanging, hl]
      exact (act_move (f := takeLinkError) (.linkError this)).free.trans (ih _)

theorem overdueSecond_moves (s : State) : FreeMoves s (overdueSecond s) := by
  unfold overdueSecond
  split
  · exact (act_move (f := takeSecond) (.second s)).free
  · exact .refl s

theorem overdueLink_moves (order : Order) (s : State) : FreeMoves s (overdueLink order s) := by
  unfold overdueLink
  refine (timeOutLink_moves s.port.owed s).trans ?_
  dsimp only
  split
  · exact (Move.owed _ _).free
  · exact timeOutLink_moves _ _

theorem overduePosts_moves (order : Order) (s : State) : FreeMoves s (overduePosts order s) := by
  unfold overduePosts
  split
  · exact service_move _ rfl
  · exact (flushPosts_moves s).trans (service_move _ rfl)

theorem takeDueTick_moves (order : Order) (s : State) :
    ∃ u, ClockMoves s u ∧ Move .timer u (takeDueTick order s) :=
  ⟨_, (Move.time _ s).ofClock, act_move (f := timerTick order) (.timer order _)⟩

theorem overdueTimer_moves (order : Order) (s : State) : ∃ u, ClockMoves s u ∧ Once .timer u (overdueTimer order s) := by
  unfold overdueTimer
  split
  · obtain ⟨u, hu, hm⟩ := takeDueTick_moves order s
    exact ⟨u, hu, .inr hm⟩
  · exact ⟨s, .refl s, .inl rfl⟩

/-- What ends before a tick: at most one tick of the Interval Timer, between moves of the others. -/
theorem overdue_moves (order : Order) (s : State) :
    ∃ u v, ClockMoves s u ∧ Once .timer u v ∧ FreeMoves v (overdue order s) := by
  obtain ⟨u, hu, htimer⟩ := overdueTimer_moves order s
  refine ⟨u, _, hu, htimer, ?_⟩
  refine (overdueSecond_moves _).trans <| (overdueLink_moves order _).trans <|
    (act_move (f := takePoints order) (.points order _)).free.trans <|
    (Move.endOffer _).free.trans <| (Move.endTarget _).free.trans <| (overduePosts_moves order _).trans ?_
  exact (act_move (f := allocationTick) (.allocation _)).free

/-- A tick that finds nothing overdue: the port's tick, and at most one of the Interval Timer's before or after it. -/
theorem tickNow_moves (order : Order) (s : State) :
    ∃ u v w, FreeMoves s u ∧ (Move .port u v ∧ Once .timer v w ∨ Once .timer u v ∧ Move .port v w) ∧
      ClockMoves w (tickNow order s) := by
  have hfirst : FreeMoves s (if (s.tenth && order.secondFirst) = true then act countSeconds s else s) := by
    split
    · exact (act_move (f := countSeconds) (.seconds s)).free
    · exact .refl s
  have hport (x : State) : Move .port x (act portTick x) := act_move (f := portTick) (.portTick x)
  have htimer (x : State) : Move .timer x (act (timerTick order) x) := act_move (f := timerTick order) (.timer order x)
  unfold tickNow
  dsimp only
  generalize (if (s.tenth && order.secondFirst) = true then act countSeconds s else s) = x at hfirst
  have hlast (y : State) : ClockMoves y (if (s.tenth && order.secondFirst) = true then
      requestRead (timeTick s.tenth order.secondFirst (timerWaits order s) y)
      else timeTick s.tenth order.secondFirst (timerWaits order s) y) := by
    have htime : ClockMoves y (timeTick s.tenth order.secondFirst (timerWaits order s) y) := (Move.time _ y).ofClock
    split
    · exact htime.trans (Move.requestRead _).ofClock
    · exact htime
  have hblocks : ∃ v, Move .port x v ∧ Once .timer v (if timerWaits order s = true then act portTick x else blocksTick order x) ∨
      Once .timer x v ∧ Move .port v (if timerWaits order s = true then act portTick x else blocksTick order x) := by
    split
    · exact ⟨_, .inl ⟨hport x, .inl rfl⟩⟩
    · unfold blocksTick
      split
      · exact ⟨_, .inl ⟨hport x, .inr (htimer _)⟩⟩
      · exact ⟨_, .inr ⟨.inr (htimer x), hport _⟩⟩
  obtain ⟨v, hv⟩ := hblocks
  exact ⟨x, v, _, hfirst, hv, hlast _⟩

/-- A tick of the part. -/
def Ticked (s t : State) : Prop :=
  ∃ u v w x y, ClockMoves s u ∧ Once .timer u v ∧ FreeMoves v w ∧
    (Move .port w x ∧ Once .timer x y ∨ Once .timer w x ∧ Move .port x y) ∧ ClockMoves y t

theorem tickAll_ticked (order : Order) (s : State) : Ticked s (tickAll order s) := by
  obtain ⟨u, v, hu, htimer, hv⟩ := overdue_moves order s
  obtain ⟨w, x, y, hw, hblocks, hy⟩ := tickNow_moves order (overdue order s)
  exact ⟨u, v, w, x, y, hu, htimer, hv.trans hw, hblocks, hy⟩

/-- What a command that brings a tick can do: nothing, the tick the Interval Timer has not taken, or a tick of the part. -/
def TickTaken (s t : State) : Prop :=
  t = s ∨ (∃ u, ClockMoves s u ∧ Move .timer u t) ∨ Ticked s t

theorem boundaryTick_taken (order : Order) (s : State) : TickTaken s (boundaryTick order s) := by
  unfold boundaryTick
  split
  · exact .inr (.inl (takeDueTick_moves order s))
  · exact .inr (.inr (tickAll_ticked _ s))

/-! ## Every command -/

/-- The commands that bring a tick. -/
def Instr.ticks : Instr → Bool
  | .tick _ => true
  | .ownBoundary _ => true
  | .listenExpiry _ => true
  | .enableTimeout _ => true
  | .idleCountExpiry _ => true
  | _ => false

/-- The commands of the service port that clock bytes. -/
def Instr.transacts : Instr → Bool
  | .postAcceptance _ => true
  | .readRecord _ => true
  | .readClearStatus _ => true
  | .readView _ => true
  | _ => false

/-- What a command can do, by its class. -/
inductive Ran (c : Instr) (s t : State) : Prop
  | reset (straps : Straps) (low : Bool) (hc : c = .deviceReset straps low) (h : t = deviceReset straps low s)
  | tick (hc : Instr.ticks c = true) (h : TickTaken s t)
  | transaction {a : Agent} (hc : Instr.transacts c = true) (ha : a = .intake ∨ a = .shown ∧ ∃ transfer, c = .readClearStatus transfer)
      (h : Transacted a s t)
  | frame (levels : List Level) (order : Order) (hc : c = .frameReceived levels order) (h : t = act (receive levels order) s)
  | idle (h : t = s)
  | single {a : Agent} (ht : Instr.ticks c = false) (hx : Instr.transacts c = false)
      (ha : a = .reports ∨ a = .others ∨ a = .restart ∧ c = .restart) (h : Move a s t)

/-- A guarded action outside the tick is one move, or nothing. -/
theorem Ran.guarded {c : Instr} {s t : State} {b : Bool} {f : State → State} (ht : Instr.ticks c = false)
    (hx : Instr.transacts c = false) (hm : b = true → ∃ a, (a = .reports ∨ a = .others) ∧ Move a s (f s))
    (h : (if b = true then .next (f s) else .next s : Host.Outcome State Fault Refusal) = .next t) : Ran c s t := by
  cases b with
  | true =>
    cases h
    obtain ⟨a, ha, hm⟩ := hm rfl
    exact .single ht hx (ha.imp_right .inl) hm
  | false => cases h; exact .idle rfl

/-- A post is one move, or nothing. -/
theorem Ran.post {c : Instr} {s : State} (kind : PostKind) (ht : Instr.ticks c = false) (hx : Instr.transacts c = false)
    (hk : kind = .restart → c = .restart) : Ran c s (applyIfHead kind s) := by
  obtain h | h := applyIfHead_once kind s
  · exact .idle h
  · refine .single ht hx ?_ h
    by_cases hkind : kind = .restart
    · exact .inr (.inr ⟨if_pos hkind, hk hkind⟩)
    · exact .inr (.inl (if_neg hkind))

/-- A guarded tick. -/
theorem Ran.guardedTick {c : Instr} {s t : State} {b : Bool} {f : State → State} (hc : Instr.ticks c = true)
    (hm : TickTaken s (f s))
    (h : (if b = true then .next (f s) else .next s : Host.Outcome State Fault Refusal) = .next t) : Ran c s t := by
  cases b with
  | true => cases h; exact .tick hc hm
  | false => cases h; exact .idle rfl

/-- Every command is a run of moves of its class. -/
theorem exec_ran (c : Instr) (s t : State) (h : exec c s = .next t) : Ran c s t := by
  cases c with
  | deviceReset straps low => cases h; exact .reset straps low rfl rfl
  | tick order => cases h; exact .tick rfl (.inr (.inr (tickAll_ticked order s)))
  | ownBoundary order => exact .guardedTick rfl (boundaryTick_taken order s) h
  | listenExpiry order => exact .guardedTick rfl (boundaryTick_taken order s) h
  | enableTimeout order => exact .guardedTick rfl (.inr (.inr (tickAll_ticked order s))) h
  | idleCountExpiry order => exact .guardedTick rfl (.inr (.inr (tickAll_ticked order s))) h
  | postAcceptance transfer => cases h; exact .transaction rfl (.inl rfl) (transact_transacted transfer posts _ postBody_transacted s)
  | readRecord transfer =>
    cases h
    exact .transaction rfl (.inl rfl) (transact_transacted transfer _ _ (fun _ _ _ _ => (clockOut_moves _ _).transacted) s)
  | readClearStatus transfer =>
    cases h
    exact .transaction rfl (.inr ⟨rfl, transfer, rfl⟩) (transact_transacted transfer _ _ (fun _ _ _ _ => clearBody_transacted _ _ _) s)
  | readView moment => cases h; exact .transaction rfl (.inl rfl) (viewMoment_moves moment s).transacted
  | frameReceived levels order =>
    change execFrameReceived levels order s = _ at h
    unfold execFrameReceived at h
    split at h
    · cases h; exact .frame levels order rfl rfl
    · cases h; exact .idle rfl
  | frameStart recessive =>
    change execFrameStart recessive s = _ at h
    unfold execFrameStart at h
    split at h
    · rename_i hs; cases h; exact .single rfl rfl (.inr (.inl rfl)) (.start hs)
    · cases h; exact .idle rfl
  | secondEvent => exact .guarded rfl rfl (fun _ => ⟨_, .inr rfl, act_move (f := takeSecond) (.second s)⟩) h
  | stalePackData => exact .guarded rfl rfl (fun _ => ⟨_, .inr rfl, act_move (f := takeSecond) (.second s)⟩) h
  | offerCompositionEnd => cases h; exact .single rfl rfl (.inr (.inl rfl)) (.endOffer s)
  | freezePoint => cases h; exact .single rfl rfl (.inr (.inl rfl)) (act_move (f := takeFreezeIfDue) (.freeze s))
  | allocationComplete => cases h; exact .single rfl rfl (.inr (.inl rfl)) (act_move (f := complete) (.complete s))
  | targetPoint => cases h; exact .single rfl rfl (.inr (.inl rfl)) (.targetPoint s)
  | targetCompositionEnd => cases h; exact .single rfl rfl (.inr (.inl rfl)) (.endTarget s)
  | frameDeadline slot => cases h; exact .single rfl rfl (.inr (.inl rfl)) (.deadline slot s)
  | lostArbitration read => exact .guarded rfl rfl (fun _ => ⟨_, .inr rfl, .lose read s⟩) h
  | frameConfirmed read => exact .guarded rfl rfl (fun _ => ⟨_, .inr rfl, .confirm s⟩) h
  | transmitFailure read => exact .guarded rfl rfl (fun _ => ⟨_, .inr rfl, act_move (f := failAttempt) (.fail s)⟩) h
  | enterSilent read => exact .guarded rfl rfl (fun _ => ⟨_, .inr rfl, act_move (f := failAttempt) (.fail s)⟩) h
  | statusReport reply =>
    refine .guarded rfl rfl (fun hb => ?_) h
    obtain ⟨a, ha, e⟩ := takeReply_effect reply hb
    exact ⟨a, ha, act_move (f := takeReply reply) e⟩
  | exchangeLinkError => exact .guarded rfl rfl (fun hb => ⟨_, .inr rfl, act_move (f := takeLinkError) (.linkError hb)⟩) h
  | linkLoss =>
    exact .guarded rfl rfl (fun hb => ⟨_, .inr rfl, act_move (f := takeLinkError) (.linkError (Bool.and_eq_true_iff.mp hb).1)⟩) h
  | offRunComplete =>
    refine .guarded rfl rfl (fun hb => ⟨_, .inl rfl, act_move (f := takeStatus .off) (.status _ ?_)⟩) h
    simp only [Bool.and_eq_true] at hb
    exact hb.1.1
  | closingToVacant => cases h; exact .single rfl rfl (.inr (.inl rfl)) (.vacate s)
  | meterSample a b c d => exact .guarded rfl rfl (fun hb => ⟨_, .inr rfl, act_move (f := takeSample a b c d) (takeSample_effect a b c d hb)⟩) h
  | meterDiscard => exact .guarded rfl rfl (fun hb => ⟨_, .inr rfl, act_move (f := takeDiscard) (.discard hb)⟩) h
  | meterLoss =>
    refine .guarded rfl rfl (fun hb => ⟨_, .inr rfl, act_move (f := takeDiscard) (.discard ?_)⟩) h
    simp only [Bool.and_eq_true] at hb
    exact hb.1.1
  | restart => cases h; exact .post _ rfl rfl fun _ => rfl
  | sessionOpen => cases h; exact .post _ rfl rfl (by decide)
  | packReport => cases h; exact .post _ rfl rfl (by decide)
  | departure => cases h; exact .post _ rfl rfl (by decide)
  | sessionClose => cases h; exact .post _ rfl rfl (by decide)
  | pause => cases h; exact .post _ rfl rfl (by decide)
  | resume => cases h; exact .post _ rfl rfl (by decide)
  | request => cases h; exact .post _ rfl rfl (by decide)
  | siteLimit => cases h; exact .post _ rfl rfl (by decide)
  | noticeEnable => cases h; exact .post _ rfl rfl (by decide)
  | statusClear => cases h; exact .post _ rfl rfl (by decide)

/-- A tick is a run of moves by the Interval Timer, the port, and agents that may move anywhere. -/
theorem Ticked.moves {p : Agent → Prop} {s t : State} (hfree : ∀ a, a.free → p a) (htick : p .timer ∧ p .port) (h : Ticked s t) :
    Moves p s t := by
  obtain ⟨u, v, w, x, y, hu, htimer, hw, hblocks, hy⟩ := h
  have blocks : Moves p w y := by
    obtain ⟨hp, ht⟩ | ⟨ht, hp⟩ := hblocks
    · exact (Moves.single htick.2 hp).trans (ht.moves htick.1)
    · exact (ht.moves htick.1).trans (.single htick.2 hp)
  exact (hu.free.mono hfree).trans <| (htimer.moves htick.1).trans <| (hw.mono hfree).trans <| blocks.trans (hy.free.mono hfree)

theorem TickTaken.moves {p : Agent → Prop} {s t : State} (hfree : ∀ a, a.free → p a) (htick : p .timer ∧ p .port)
    (h : TickTaken s t) : Moves p s t := by
  obtain rfl | ⟨u, hu, hm⟩ | h := h
  · exact .refl _
  · exact (hu.free.mono hfree).trans (.single htick.1 hm)
  · exact h.moves hfree htick

/-- Every command but DEVICE_RESET is a run of moves. -/
theorem Ran.moves {c : Instr} {s t : State} (h : Ran c s t) :
    (∃ straps low, c = .deviceReset straps low ∧ t = deviceReset straps low s) ∨ Moves (fun _ => True) s t := by
  cases h with
  | reset straps low hc h => exact .inl ⟨straps, low, hc, h⟩
  | tick hc h => exact .inr (h.moves (fun _ _ => trivial) ⟨trivial, trivial⟩)
  | transaction hc ha h => exact .inr (h.moves (fun _ _ => trivial) trivial)
  | frame levels order hc h => subst h; exact .inr (.single trivial (act_move (f := receive levels order) (.receive levels order s)))
  | idle h => subst h; exact .inr (.refl _)
  | single ht hx ha h => exact .inr (.single trivial h)

/-- A law that holds after every reset, that every move keeps and that does not speak of the queue is kept by every step. -/
theorem step_keeps {P : State → Prop} (hqueue : ∀ s pending, P s → P { s with pending := pending })
    (hreset : ∀ straps select pending, P (.afterReset straps select pending)) (hmove : ∀ a s t, Move a s t → P s → P t)
    {s t : State} (hs : P s) (h : step s = .next t) : P t := by
  unfold step at h
  split at h
  · cases h; exact hs
  · obtain ⟨straps, low, -, rfl⟩ | hm := (exec_ran _ _ _ h).moves
    · exact hreset _ _ _
    · exact hm.keeps (fun a _ _ _ => hmove a _ _) (hqueue _ _ hs)

/-- A command that acts only where its event can occur ends in a next state either way. -/
theorem guarded_next (b : Bool) (u s : State) :
    ∃ t, (if b = true then .next u else .next s : Host.Outcome State Fault Refusal) = .next t := by
  split <;> exact ⟨_, rfl⟩

/-- A transaction is a run of moves of quiet agents. -/
theorem Transacted.quiet {a : Agent} {c : Instr} {s t : State}
    (ha : a = .intake ∨ a = .shown ∧ ∃ transfer, c = .readClearStatus transfer) (h : Transacted a s t) :
    Moves (fun a => a.quiet ∧ a ≠ .reports) s t :=
  h.moves (fun _ hb => Agent.free.quiet hb) (by obtain rfl | ⟨rfl, -⟩ := ha <;> decide)

/-- A single move outside tick and frame is by a quiet agent. -/
theorem quiet_of_single {a : Agent} {c : Instr} (ha : a = .reports ∨ a = .others ∨ a = .restart ∧ c = .restart) : a.quiet := by
  obtain rfl | rfl | ⟨rfl, -⟩ := ha <;> decide

/-- No command stops the part. -/
theorem exec_next (c : Instr) (s : State) : ∃ t, exec c s = .next t := by
  cases c with
  | frameStart recessive =>
    change ∃ t, execFrameStart recessive s = .next t
    unfold execFrameStart
    split <;> exact ⟨_, rfl⟩
  | secondEvent | stalePackData | ownBoundary | listenExpiry | lostArbitration | frameConfirmed | transmitFailure
  | enterSilent | frameReceived | statusReport | exchangeLinkError | linkLoss | enableTimeout | idleCountExpiry
  | offRunComplete | meterSample | meterDiscard | meterLoss => exact guarded_next _ _ _
  | _ => exact ⟨_, rfl⟩

end Sys2Proof.Machine
end

