-- ==== Sys2Proof/Proofs/Hearing.lean ====
section
/-! SUPPORT. What receiving a frame is made of, and the parts of a boundary that several laws speak of. -/

namespace Sys2Proof.Machine

/-! ## Receiving (R17 to R20, R26, R30 to R34, R86 to R93, R126) -/

/-- What the counter and the timing state say where a frame brings a boundary of this kind (R26, R31, R33, R34). -/
def BoundaryGuard (kind : BoundaryKind) (s : State) : Prop :=
  (s.timer.state = .listen ∧ kind = .listenMark) ∨
    (s.timer.state = .running ∧ s.profile.window ≤ s.timer.c ∧ (kind = .early ∨ kind = .implied ∨ kind = .realign))

/-- The steps of which receiving a frame is made. -/
inductive Hearing : State → State → Prop
  | reading (r : Received) (levels : List Level) (s : State) : Hearing s (endReading r levels s)
  | counted (check foreign good : Nat) (s : State) :
      Hearing s { s with line := { s.line with rxCheck := check, rxForeign := foreign, rxGood := good } }
  | clash (s : State) : Hearing s (enterClash s)
  | flag (f : Flag) (s : State) : Hearing s (raise f s)
  | trailing (number : IntervalNo) (s : State) : Hearing s (trailingMark number s)
  | boundary {kind : BoundaryKind} (number : IntervalNo) (order : Order) {s : State} (h : BoundaryGuard kind s) :
      Hearing s (boundaryAt kind number order s)
  | offer {source : Fin 64} (number : IntervalNo) (v : OfferBody) {s : State} (h : source ≠ s.straps.stn) :
      Hearing s (takeOffer source number v s)
  | withdrawn (source : Fin 64) {s : State} (h : source ≠ s.straps.stn) : Hearing s (takeWithdraw source s)
  | target (t : TargetPart) (s : State) : Hearing s (takeTarget t s)
  | tally (source : Fin 64) (number : IntervalNo) (power : Int) {s : State} (h : s.straps.role = .feeder) :
      Hearing s (takeTally source number power s)

/-- A run of such steps. -/
abbrev Hearings : State → State → Prop := Relation.ReflTransGen Hearing

theorem profile_window_le (intv : Fin 4) :
    0 < (Config.profile intv).window ∧
      (Config.profile intv).window ≤ (Config.profile intv).length - (Config.profile intv).window ∧
      600 ≤ (Config.profile intv).length := by
  unfold Config.profile; split <;> decide

theorem presentHeader_hearings (body : FrameBody) (number : IntervalNo) (order : Order) (s : State) :
    Hearings s (presentHeader body number order s) := by
  unfold presentHeader
  split
  · rename_i h
    have := profile_window_le s.straps.intv
    refine .single (.boundary _ _ (.inr ⟨h.1, ?_, .inr (.inl rfl)⟩))
    have := h.2.1
    simp only [State.profile] at *
    omega
  · exact .refl

/-- A re-alignment by a MARK (R33), with the capture that may come first where MISALIGN is the first flag (R157). -/
def Realigned (order : Order) (s t : State) : Prop :=
  ∃ number, BoundaryGuard .realign s ∧ t = misalignNoted order s (boundaryAt .realign number order (raise .misalign s))

theorem takeMark_hearings (profile : Fin 4) (number : IntervalNo) (order : Order) (s : State) :
    Hearings s (takeMark profile number order s) ∨ Realigned order s (takeMark profile number order s) := by
  unfold takeMark
  split
  · exact .inl (.single (.flag _ _))
  · split
    · rename_i h; exact .inl (.single (.boundary _ _ (.inl ⟨h, rfl⟩)))
    · rename_i h
      split
      · exact .inl (.single (.trailing _ _))
      · rename_i hw
        split
        · exact .inl (.single (.boundary _ _ (.inr ⟨h, by omega, .inl rfl⟩)))
        · exact .inr ⟨number, .inr ⟨h, by omega, .inr (.inr rfl)⟩, rfl⟩

theorem handOff_hearings (f : Frame) (order : Order) (s : State) (h : f.source ≠ s.straps.stn) :
    Hearings s (handOff f order s) ∨ Realigned order s (handOff f order s) := by
  have hp := presentHeader_hearings f.body f.number order s
  unfold handOff
  cases hb : f.body with
  | mark p => exact takeMark_hearings _ _ _ _
  | withdraw r =>
    left
    dsimp only
    split
    · exact .single (.withdrawn _ h)
    · exact .refl
  | offer v =>
    left
    rw [hb] at hp
    dsimp only
    split
    · exact hp.tail (.offer _ _ (by simpa using h))
    · exact hp
  | target m t r q =>
    left
    rw [hb] at hp
    dsimp only
    split
    · exact hp.tail (.target _ _)
    · exact hp
  | tally p =>
    left
    rw [hb] at hp
    dsimp only
    split
    · exact hp
    · rename_i hr; exact hp.tail (.tally _ _ _ hr)

/-- Receiving is a run of its steps, or reading a MARK that re-aligns. -/
theorem receive_hearings (levels : List Level) (order : Order) (s : State) :
    Hearings s (receive levels order s) ∨ ∃ u, Hearings s u ∧ u.status = s.status ∧ Realigned order u (receive levels order s) := by
  unfold receive
  dsimp only
  generalize readFrame s.line.heard s.line.recessiveRun levels = r
  have hread : Hearing s (endReading r levels s) := .reading r levels s
  have hstatus : (endReading r levels s).status = s.status := rfl
  generalize endReading r levels s = u at hread hstatus
  unfold filterRead
  cases r with
  | nothing => exact .inl (.single hread)
  | framing => exact .inl (.head hread (.single (.counted _ _ _ u)))
  | corrupt => exact .inl (.head hread (.single (.counted _ _ _ u)))
  | frame f =>
    dsimp only [filterFrame]
    split
    · exact .inl (.head hread (.single (.counted _ _ _ u)))
    · split
      · exact .inl (.head hread (.single (.clash u)))
      · rename_i h
        have hgood : Hearing u { u with line := { u.line with rxGood := count u.line.rxGood } } := .counted _ _ _ u
        obtain hrun | hmark := handOff_hearings f order { u with line := { u.line with rxGood := count u.line.rxGood } } h
        · exact .inl (.head hread (.head hgood hrun))
        · exact .inr ⟨_, .head hread (.single hgood), hstatus, hmark⟩

theorem Hearings.keeps {P : State → Prop} (h : ∀ s t, Hearing s t → P s → P t) {s t : State} (hr : Hearings s t) (hs : P s) : P t := by
  induction hr with
  | refl => exact hs
  | tail _ m ih => exact h _ _ m ih

/-- A law that every step of receiving keeps, and that does not speak of the first-fault record, is kept by receiving. -/
theorem receive_keeps {P : State → Prop} (h : ∀ s t, Hearing s t → P s → P t) (hstatus : ∀ s x, P s → P { s with status := x })
    (levels : List Level) (order : Order) {s : State} (hs : P s) : P (receive levels order s) := by
  obtain hr | ⟨u, hu, -, number, hg, ht⟩ := receive_hearings levels order s
  · exact hr.keeps h hs
  · have hraised : P (raise .misalign u) := h _ _ (.flag _ _) (hu.keeps h hs)
    have hboundary : P (boundaryAt .realign number order (raise .misalign u)) := h _ _ (.boundary _ _ hg) hraised
    rw [ht]
    generalize boundaryAt .realign number order (raise .misalign u) = x at hboundary
    unfold misalignNoted capture
    split
    · split
      · exact hboundary
      · exact hstatus _ _ hboundary
    · exact hboundary

/-! ## Points and boundaries -/

/-- The points leave no point announced (R36). -/
@[simp] theorem takePoints_timer (order : Order) (s : State) :
    (takePoints order s).timer = { s.timer with freezeDue := false, targetDue := false } := by
  have hfreeze (x : State) : (takeFreezeIfDue x).timer = { x.timer with freezeDue := false } := by
    unfold takeFreezeIfDue takeFreeze
    split
    · dsimp only; split <;> simp
    · rename_i h; simp only [Bool.not_eq_true] at h; rw [← h]
  have htarget (x : State) : (takeTargetIfDue x).timer = { x.timer with targetDue := false } := by
    unfold takeTargetIfDue takeTargetPoint
    split
    · rfl
    · rename_i h; simp only [Bool.not_eq_true] at h; rw [← h]
  unfold takePoints
  rw [htarget, hfreeze]
  simp

/-- The Interval Timer's part is all that a boundary does to its state. -/
@[simp] theorem takeBoundary_timer (kind : BoundaryKind) (number : IntervalNo) (order : Order) (s : State) :
    (takeBoundary kind number order s).timer = (timerBoundary kind number s).timer := by
  simp [takeBoundary, timerBoundary]

/-- What a boundary puts into the apply part is the load judged as it was announced (R98, R111). -/
@[simp] theorem takeBoundary_apply (kind : BoundaryKind) (number : IntervalNo) (order : Order) (s : State) :
    (takeBoundary kind number order s).apply =
      ⟨(loadOf kind s).share, number, (loadOf kind s).outcome, (loadOf kind s).clipped, none⟩ := by
  simp [takeBoundary, applyLoad]

/-- After a boundary the engine is IDLE (R98). -/
@[simp] theorem takeBoundary_engine (kind : BoundaryKind) (number : IntervalNo) (order : Order) (s : State) :
    (takeBoundary kind number order s).alloc.engine = .idle := by
  have h : ∀ x : State, (engineBoundary x).alloc.engine = .idle := by
    intro x
    unfold engineBoundary
    split <;> simp [abandonWith, raise, cause]
  simp [takeBoundary, h]

/-- A boundary opens an empty view (R84, R91). -/
theorem takeBoundary_view (kind : BoundaryKind) (number : IntervalNo) (order : Order) (s : State) :
    (takeBoundary kind number order s).view.phase = .opened ∧ (takeBoundary kind number order s).view.entries = [] := by
  have hrec (k : Slot) (q : Queued) (x : State) : (queueFrame k q x).view.phase = x.view.phase ∧
      (queueFrame k q x).view.entries = x.view.entries := by
    unfold queueFrame tellDrop offerFate
    (repeat' split) <;> simp
  have hmark (x : State) : (markBoundary kind x).view.phase = x.view.phase ∧ (markBoundary kind x).view.entries = x.view.entries := by
    unfold markBoundary queueMark
    split
    · exact hrec _ _ _
    · exact ⟨rfl, rfl⟩
  have hcompose (x : State) (share : Int) : (beginComposition share x).view.phase = x.view.phase ∧
      (beginComposition share x).view.entries = x.view.entries := by
    unfold beginComposition
    split <;> simp
  have htotals (x : State) : (closeTotals kind x).view.phase = x.view.phase ∧ (closeTotals kind x).view.entries = x.view.entries := by
    simp only [closeTotals, restartTotals_frame]
    unfold queueTally
    split
    · exact hrec _ _ _
    · exact ⟨rfl, rfl⟩
  simp [takeBoundary, hmark, hcompose, htotals, viewBoundary]

end Sys2Proof.Machine
end

