-- ==== Sys2Proof/Proofs/Owners.lean ====
section
/-! SUPPORT. What the owners' rules for posts can do (R44 to R60, R123, R124, R158, R160), said once: one case for each branch in
which a rule changes anything, with the condition under which it is taken. -/

namespace Sys2Proof.Machine

/-- The state in which a report takes effect: pack data and age are replaced (R45). -/
def reportTaken (r : SessionRecord) (p : PackData) (s : State) : State := setRecord { r with pack := some p, age := 0 } s

/-- The account a first report creates, with the pack data (R47, R65). -/
def accountCreated (r : SessionRecord) (p : PackData) (s : State) : State :=
  { reportTaken r p s with account := { s.account with account := some (createAccount p.soc r.capacity) } }

/-- The close reason recorded (R59, R60). -/
def closeNoted (reason : CloseReason) (s : State) : State :=
  { s with session := { s.session with lastClose := some reason } }

/-- What an owner's rule for a post of this kind leaves. -/
inductive PostEffect (kind : PostKind) (s : State) : State → Prop
  | nothing : PostEffect kind s s
  | opened {body : List Byte} {r : Ranged SessionRecord} (hrole : s.straps.role = .charger) (hs : s.session.state = .vacant)
      (hr : openRecord body = some r) :
      PostEffect kind s (enterSession .awaiting
        { s with session := ⟨s.session.state, some r.value, none⟩, account := { s.account with mark := true } })
  | firstStopped {body : List Byte} {r : SessionRecord} {p : PackData} (hrole : s.straps.role = .charger)
      (hs : s.session.state = .awaiting) (hr : s.session.record = some r) (hp : p = (reportedPack body).value)
      (hstop : p.state = .stopped) : PostEffect kind s (enterSession .stopped (forcedStop (accountCreated r p s)))
  | first {body : List Byte} {r : SessionRecord} {p : PackData} (hrole : s.straps.role = .charger)
      (hs : s.session.state = .awaiting) (hr : s.session.record = some r) (hp : p = (reportedPack body).value)
      (hstop : p.state ≠ .stopped) :
      PostEffect kind s (enterSession (if s.port.state = .faulted then .stopped else .engaged) (accountCreated r p s))
  | engagedStopped {body : List Byte} {r : SessionRecord} {p : PackData} (hrole : s.straps.role = .charger)
      (hs : s.session.state = .engaged) (hr : s.session.record = some r) (hp : p = (reportedPack body).value)
      (hstop : p.state = .stopped) : PostEffect kind s (forcedStop (enterStopped (resync p.soc (reportTaken r p s))))
  | engaged {body : List Byte} {r : SessionRecord} {p : PackData} (hrole : s.straps.role = .charger)
      (hs : s.session.state = .engaged) (hr : s.session.record = some r) (hp : p = (reportedPack body).value)
      (hstop : p.state ≠ .stopped) : PostEffect kind s (packClip (resync p.soc (reportTaken r p s)))
  | stoppedStopped {body : List Byte} {r : SessionRecord} {p : PackData} (hrole : s.straps.role = .charger)
      (hs : s.session.state = .stopped) (hr : s.session.record = some r) (hp : p = (reportedPack body).value)
      (hstop : p.state = .stopped) : PostEffect kind s (forcedStop (resync p.soc (reportTaken r p s)))
  | stoppedFaulted {body : List Byte} {r : SessionRecord} {p : PackData} (hrole : s.straps.role = .charger)
      (hs : s.session.state = .stopped) (hr : s.session.record = some r) (hp : p = (reportedPack body).value)
      (hstop : p.state ≠ .stopped) (hport : s.port.state = .faulted) : PostEffect kind s (resync p.soc (reportTaken r p s))
  | stopped {body : List Byte} {r : SessionRecord} {p : PackData} (hrole : s.straps.role = .charger)
      (hs : s.session.state = .stopped) (hr : s.session.record = some r) (hp : p = (reportedPack body).value)
      (hstop : p.state ≠ .stopped) (hport : s.port.state ≠ .faulted) :
      PostEffect kind s (enterSession .engaged (resync p.soc (reportTaken r p s)))
  | closingStopped {body : List Byte} {r : SessionRecord} {p : PackData} (hrole : s.straps.role = .charger)
      (hs : s.session.state = .closing) (hr : s.session.record = some r) (hp : p = (reportedPack body).value)
      (hstop : p.state = .stopped) : PostEffect kind s (forcedStop (reportTaken r p s))
  | closing {body : List Byte} {r : SessionRecord} {p : PackData} (hrole : s.straps.role = .charger)
      (hs : s.session.state = .closing) (hr : s.session.record = some r) (hp : p = (reportedPack body).value)
      (hstop : p.state ≠ .stopped) : PostEffect kind s (reportTaken r p s)
  | departure {r : SessionRecord} {depart eRoute : Nat} (hrole : s.straps.role = .charger)
      (hs : s.session.state.inSession = true) (hr : s.session.record = some r) (hd : depart ≤ 86400)
      (he : eRoute ≤ r.capacity) : PostEffect kind s (setRecord { r with depart := depart, eRoute := eRoute } s)
  | close {reason : CloseReason} (hrole : s.straps.role = .charger) (hs : s.session.state.inSession = true) :
      PostEffect kind s (closeStop reason (enterSession .closing
        (withdraw (closeWithdraw reason) (cut 0 .close (closeNoted reason s)))))
  | unplugged (hrole : s.straps.role = .charger) (hs : s.session.state = .closing) :
      PostEffect kind s (forcedStop (closeNoted .unplugged s))
  | pause {r : SessionRecord} (hrole : s.straps.role = .charger) (hs : s.session.state.inSession = true)
      (hr : s.session.record = some r) (hp : r.paused = false) :
      PostEffect kind s (withdraw .paused (cut 0 .pause (setRecord { r with paused := true } s)))
  | resume {r : SessionRecord} (hrole : s.straps.role = .charger) (hs : s.session.state.inSession = true)
      (hr : s.session.record = some r) (hp : r.paused = true) : PostEffect kind s (setRecord { r with paused := false } s)
  | request {mode : Mode} {level valid request : Nat} (hrole : s.straps.role = .feeder) (hv : valid ≤ 255) :
      PostEffect kind s { s with feeder := { s.feeder with mode := mode, level := level, valid := valid, request := request } }
  | limit {x : Option Nat} (hrole : s.straps.role = .feeder) : PostEffect kind s { s with feeder := { s.feeder with siteLimit := x } }
  | enables {x : BitVec 5} : PostEffect kind s { s with status := { s.status with enables := x } }
  | clear {x : BitVec 14} (hk : kind = .statusClear) : PostEffect kind s { s with status := { s.status with word := s.status.word &&& ~~~x } }

theorem ranged_bounds (low high v : Nat) (h : low ≤ high) :
    low ≤ (ranged low high v).value ∧ (ranged low high v).value ≤ high := by
  unfold ranged
  (repeat' split) <;> constructor <;> dsimp only <;> omega

theorem applyReport_effect {kind : PostKind} (body : List Byte) (s : State) (hrole : s.straps.role = .charger) :
    PostEffect kind s (applyReport body s).1 := by
  unfold applyReport
  cases hr : s.session.record with
  | none => exact .nothing
  | some r =>
    have hp : ∃ p, p = (reportedPack body).value := ⟨_, rfl⟩
    obtain ⟨p, hp⟩ := hp
    dsimp only
    rw [← hp]
    cases hs : s.session.state with
    | vacant => exact .nothing
    | awaiting =>
      by_cases hstop : p.state = .stopped
      · have : firstReport r p (setRecord { r with pack := some p, age := 0 } s) =
            enterSession .stopped (forcedStop (accountCreated r p s)) := by simp only [firstReport, hstop]; rfl
        exact this ▸ .firstStopped hrole hs hr hp hstop
      · have : firstReport r p (setRecord { r with pack := some p, age := 0 } s) =
            enterSession (if s.port.state = .faulted then .stopped else .engaged) (accountCreated r p s) := by
          have hport : (setRecord { r with pack := some p, age := 0 } s).port.state = s.port.state := rfl
          unfold firstReport
          dsimp only
          rw [hport]
          split
          · rename_i h; exact absurd h hstop
          · split <;> rfl
        exact this ▸ .first hrole hs hr hp hstop
    | engaged =>
      by_cases hstop : p.state = .stopped
      · have : engagedReport p (setRecord { r with pack := some p, age := 0 } s) =
            forcedStop (enterStopped (resync p.soc (reportTaken r p s))) := by simp only [engagedReport, hstop]; rfl
        exact this ▸ .engagedStopped hrole hs hr hp hstop
      · have : engagedReport p (setRecord { r with pack := some p, age := 0 } s) =
            packClip (resync p.soc (reportTaken r p s)) := by
          unfold engagedReport
          dsimp only
          split
          · rename_i h; exact absurd h hstop
          · rfl
        exact this ▸ .engaged hrole hs hr hp hstop
    | stopped =>
      have hport : (resync p.soc (setRecord { r with pack := some p, age := 0 } s)).port.state = s.port.state := by simp
      by_cases hstop : p.state = .stopped
      · have : stoppedReport p (setRecord { r with pack := some p, age := 0 } s) =
            forcedStop (resync p.soc (reportTaken r p s)) := by simp only [stoppedReport, hstop]; rfl
        exact this ▸ .stoppedStopped hrole hs hr hp hstop
      · unfold stoppedReport
        dsimp only
        rw [hport]
        split
        · rename_i h; exact absurd h hstop
        · split
          · rename_i hf; exact .stoppedFaulted hrole hs hr hp hstop hf
          · rename_i hf; exact .stopped hrole hs hr hp hstop hf
    | closing =>
      change PostEffect kind s (closingReport p (reportTaken r p s))
      unfold closingReport
      split
      · rename_i h; exact .closingStopped hrole hs hr hp h
      · rename_i h; exact .closing hrole hs hr hp h

theorem applyClose_effect {kind : PostKind} (body : List Byte) (s : State) (hrole : s.straps.role = .charger) :
    PostEffect kind s (applyClose body s).1 := by
  unfold applyClose
  dsimp only
  generalize (closeReasonOf (field body 0 1)).value = reason
  split
  · rename_i hs; exact .close hrole hs
  · split
    · rename_i h
      obtain ⟨hs, rfl⟩ := h
      exact .unplugged hrole hs
    · exact .nothing

theorem applyOpen_effect {kind : PostKind} (body : List Byte) (s : State) (hrole : s.straps.role = .charger) :
    PostEffect kind s (applyOpen body s).1 := by
  unfold applyOpen
  split
  · exact .nothing
  · rename_i hs
    split
    · exact .nothing
    · rename_i r hr; exact .opened hrole (by simpa using hs) hr

theorem applyDeparture_effect {kind : PostKind} (body : List Byte) (s : State) (hrole : s.straps.role = .charger) :
    PostEffect kind s (applyDeparture body s).1 := by
  unfold applyDeparture
  split
  · exact .nothing
  · rename_i r hr
    split
    · rename_i hs
      exact .departure hrole hs hr (ranged_bounds 0 86400 _ (Nat.zero_le _)).2 (ranged_bounds 0 _ _ (Nat.zero_le _)).2
    · exact .nothing

theorem applyPause_effect {kind : PostKind} (s : State) (hrole : s.straps.role = .charger) : PostEffect kind s (applyPause s).1 := by
  unfold applyPause
  split
  · exact .nothing
  · rename_i r hr
    split
    · rename_i h; exact .pause hrole h.1 hr h.2
    · exact .nothing

theorem applyResume_effect {kind : PostKind} (s : State) (hrole : s.straps.role = .charger) : PostEffect kind s (applyResume s).1 := by
  unfold applyResume
  split
  · exact .nothing
  · rename_i r hr
    split
    · rename_i h; exact .resume hrole h.1 hr h.2
    · exact .nothing

/-- Every owner's rule does one of these. -/
theorem ownerRule_effect (kind : PostKind) (body : List Byte) (s : State) : PostEffect kind s (ownerRule kind body s).1 := by
  have charger {f : State → Applied} (h : s.straps.role = .charger → PostEffect kind s (f s).1) :
      PostEffect kind s (onCharger f s).1 := by
    unfold onCharger
    split
    · exact h ‹_›
    · exact .nothing
  have feeder {f : State → Applied} (h : s.straps.role = .feeder → PostEffect kind s (f s).1) : PostEffect kind s (onFeeder f s).1 := by
    unfold onFeeder
    split
    · exact .nothing
    · exact h ‹_›
  cases kind with
  | sessionOpen => exact charger (applyOpen_effect body s)
  | packReport => exact charger (applyReport_effect body s)
  | departure => exact charger (applyDeparture_effect body s)
  | sessionClose => exact charger (applyClose_effect body s)
  | pause => exact charger (applyPause_effect s)
  | resume => exact charger (applyResume_effect s)
  | request => exact feeder fun h => .request h (ranged_bounds 1 255 _ (by omega)).2
  | siteLimit => exact feeder fun h => .limit h
  | noticeEnable => exact .enables
  | statusClear => exact .clear rfl
  | restart => exact .nothing

@[simp] theorem reportTaken_frame (r : SessionRecord) (p : PackData) (s : State) :
    (reportTaken r p s).straps = s.straps ∧ (reportTaken r p s).time = s.time ∧ (reportTaken r p s).line = s.line ∧
    (reportTaken r p s).timer = s.timer ∧ (reportTaken r p s).account = s.account ∧ (reportTaken r p s).view = s.view ∧
    (reportTaken r p s).alloc = s.alloc ∧ (reportTaken r p s).apply = s.apply ∧ (reportTaken r p s).feeder = s.feeder ∧
    (reportTaken r p s).port = s.port ∧ (reportTaken r p s).status = s.status ∧
    (reportTaken r p s).service = s.service ∧ (reportTaken r p s).pending = s.pending :=
  ⟨rfl, rfl, rfl, rfl, rfl, rfl, rfl, rfl, rfl, rfl, rfl, rfl, rfl⟩

@[simp] theorem accountCreated_frame (r : SessionRecord) (p : PackData) (s : State) :
    (accountCreated r p s).straps = s.straps ∧ (accountCreated r p s).time = s.time ∧
    (accountCreated r p s).line = s.line ∧ (accountCreated r p s).timer = s.timer ∧
    (accountCreated r p s).view = s.view ∧ (accountCreated r p s).alloc = s.alloc ∧
    (accountCreated r p s).apply = s.apply ∧ (accountCreated r p s).feeder = s.feeder ∧
    (accountCreated r p s).port = s.port ∧ (accountCreated r p s).status = s.status ∧
    (accountCreated r p s).service = s.service ∧ (accountCreated r p s).pending = s.pending :=
  ⟨rfl, rfl, rfl, rfl, rfl, rfl, rfl, rfl, rfl, rfl, rfl, rfl⟩

@[simp] theorem closeNoted_frame (reason : CloseReason) (s : State) :
    (closeNoted reason s).straps = s.straps ∧ (closeNoted reason s).time = s.time ∧
    (closeNoted reason s).line = s.line ∧ (closeNoted reason s).timer = s.timer ∧
    (closeNoted reason s).account = s.account ∧ (closeNoted reason s).view = s.view ∧
    (closeNoted reason s).alloc = s.alloc ∧ (closeNoted reason s).apply = s.apply ∧
    (closeNoted reason s).feeder = s.feeder ∧ (closeNoted reason s).port = s.port ∧
    (closeNoted reason s).status = s.status ∧ (closeNoted reason s).service = s.service ∧
    (closeNoted reason s).pending = s.pending :=
  ⟨rfl, rfl, rfl, rfl, rfl, rfl, rfl, rfl, rfl, rfl, rfl, rfl, rfl⟩

end Sys2Proof.Machine
end

