-- ==== Sys2Proof/Proofs/QueueAndResets.lean ====
section
/-! SUPPORT. The queue, the resets, and the laws of the Interval Timer (R1, R22, R25, R26, R39, R40, R172). -/

open Sys2Proof Sys2Proof.Machine

namespace Sys2Proof.Machine

/-! ## The queue and the straps -/

/-- No owner's rule for a post touches these parts. -/
@[simp] theorem ownerRule_frame (kind : PostKind) (body : List Byte) (s : State) :
    (ownerRule kind body s).1.straps = s.straps ∧ (ownerRule kind body s).1.time = s.time ∧
    (ownerRule kind body s).1.timer = s.timer ∧ (ownerRule kind body s).1.alloc = s.alloc ∧
    (ownerRule kind body s).1.service = s.service ∧ (ownerRule kind body s).1.pending = s.pending := by
  unfold ownerRule onCharger onFeeder applyOpen applyReport applyDeparture applyClose applyPause applyResume applyRequest
    applyLimit applyEnable applyClear
  cases kind <;> dsimp only <;> (repeat' split) <;> simp

/-- Recording the outcome touches the status factors and the last outcome alone. -/
@[simp] theorem recordOutcome_frame (r : Applied) :
    (recordOutcome r).straps = r.1.straps ∧ (recordOutcome r).time = r.1.time ∧ (recordOutcome r).line = r.1.line ∧
    (recordOutcome r).timer = r.1.timer ∧ (recordOutcome r).session = r.1.session ∧
    (recordOutcome r).account = r.1.account ∧ (recordOutcome r).view = r.1.view ∧ (recordOutcome r).alloc = r.1.alloc ∧
    (recordOutcome r).apply = r.1.apply ∧ (recordOutcome r).feeder = r.1.feeder ∧ (recordOutcome r).port = r.1.port ∧
    (recordOutcome r).service.fifo = r.1.service.fifo ∧ (recordOutcome r).pending = r.1.pending := by
  simp [recordOutcome]

/-- No move touches the straps or the queue (R1). -/
theorem Move.straps_pending {a : Agent} {s t : State} (h : Move a s t) : t.straps = s.straps ∧ t.pending = s.pending := by
  have heffect {u : State} (he : Effect a s u) : u.straps = s.straps ∧ u.pending = s.pending := by
    cases he <;> simp
  cases h with
  | action he => simpa using heffect he
  | _ => simp [restartState, State.afterReset]

theorem Moves.straps_pending {p : Agent → Prop} {s t : State} (h : Moves p s t) :
    t.straps = s.straps ∧ t.pending = s.pending := by
  refine h.rel (R := fun s t => t.straps = s.straps ∧ t.pending = s.pending) (fun _ => ⟨rfl, rfl⟩) ?_ ?_
  · rintro s t u ⟨h, h'⟩ ⟨g, g'⟩; exact ⟨g.trans h, g'.trans h'⟩
  · intro a s t _ m; exact m.straps_pending

/-! ## The resets -/

/-- A state in which every block stands at its reset values, whatever its link, straps, time base and select line. -/
theorem resetValues_of_reset {t : State} {link : List Transaction} (hline : t.line = .reset) (htimer : t.timer = .reset)
    (hsession : t.session = .reset) (haccount : t.account = .reset) (hview : t.view = .reset) (halloc : t.alloc = .reset)
    (happly : t.apply = .reset) (hfeeder : t.feeder = .reset) (hport : t.port = { PortUnit.reset t.straps.role with link := link })
    (hstatus : t.status = .reset) (hfifo : t.service.fifo = []) (hacceptance : t.service.acceptance = .accepted)
    (houtcome : t.service.lastOutcome = none) : ResetValues t := by
  constructor
  case rating => cases hr : t.straps.role <;> simp [State.rating, hr, hsession, hfeeder, SessionUnit.reset, FeederUnit.reset]
  case port => rw [hport]; exact ⟨rfl, rfl, rfl, rfl, rfl, rfl, rfl, rfl, rfl, rfl, rfl, rfl, rfl, rfl, rfl, rfl, rfl⟩
  case status => simp [State.noticeLine, StatusUnit.lineActive, hstatus, StatusUnit.reset]
  case service => exact ⟨hfifo, hacceptance, houtcome⟩
  all_goals simp only [hline, htimer, hsession, haccount, hview, halloc, happly, hfeeder]; decide

theorem afterReset_values (straps : Straps) (select : Select) (pending : List Instr) :
    ResetValues (.afterReset straps select pending) :=
  resetValues_of_reset rfl rfl rfl rfl rfl rfl rfl rfl rfl rfl rfl rfl rfl

theorem restartState_values (s : State) : ResetValues (restartState s) :=
  resetValues_of_reset rfl rfl rfl rfl rfl rfl rfl rfl rfl rfl rfl rfl rfl

end Sys2Proof.Machine

/-- Settles O1: by definition of `step`. -/
theorem stepTakesTheFrontCommand : Obligations.StepTakesTheFrontCommand :=
  ⟨fun _ _ _ => rfl, fun s h => by rw [step, h]⟩

/-- Settles O2: every arm of exec ends in `next`. -/
theorem everyCommandEndsInANextState : Obligations.EveryCommandEndsInANextState := exec_next

/-- Settles O3: DEVICE_RESET puts in the straps it samples, and no move of any other command touches them or the queue. -/
theorem strapsAreHeldUntilDeviceReset : Obligations.StrapsAreHeldUntilDeviceReset := by
  refine ⟨fun straps low s => ⟨_, rfl, rfl⟩, fun c s t hc h => ?_, fun c s t h => ?_⟩
  · obtain ⟨straps, low, rfl, -⟩ | hm := (exec_ran c s t h).moves
    · exact absurd rfl (hc straps low)
    · exact hm.straps_pending.1
  · obtain ⟨straps, low, rfl, rfl⟩ | hm := (exec_ran c s t h).moves
    · rfl
    · exact hm.straps_pending.2

/-- Settles O4. -/
theorem deviceResetLeavesTheResetValues : Obligations.DeviceResetLeavesTheResetValues := by
  intro straps low s
  refine ⟨_, rfl, afterReset_values _ _ _, rfl, rfl, rfl, ?_, ?_⟩ <;> rintro rfl <;> rfl

/-- Settles O5: RESTART waits for nothing, so at the head it is applied. -/
theorem restartLeavesTheResetValues : Obligations.RestartLeavesTheResetValues := by
  intro body rest s hf
  refine ⟨restartState s, ?_, restartState_values s, rfl, rfl, rfl, rfl, rfl, rfl⟩
  exact congrArg _ (applyIfHead_restart body rest s hf)

namespace Sys2Proof.Machine

/-! ## The laws after a reset -/

theorem laws_afterReset (straps : Straps) (select : Select) (pending : List Instr) :
    Laws (.afterReset straps select pending) := by
  have hlength : 0 < 2 * (Config.profile straps.intv).length := by
    have := profile_window_le straps.intv
    omega
  constructor
  · rfl
  · exact ⟨hlength, rfl, rfl, rfl⟩
  · exact ⟨fun _ => rfl, fun _ => rfl⟩
  · exact ⟨(by decide : 0 < Config.failureLimit), rfl⟩
  · intro a ha; cases ha
  · exact ⟨.nil, fun e he => absurd he (List.not_mem_nil), fun _ => rfl⟩
  · intro u hu; cases hu
  · trivial
  · exact ⟨fun _ => rfl, rfl, rfl⟩
  · intro r hr; cases hr
  · exact ⟨fun _ => rfl, fun a r ha => by cases ha⟩
  · exact ⟨fun h => absurd rfl h, Nat.zero_le _⟩
  · cases hr : straps.role <;> simp [PortLaw, State.afterReset, PortUnit.reset, hr]
  · intro _; exact ⟨rfl, rfl⟩
  · exact ⟨.nil, .nil, Nat.zero_le _, Nat.zero_le _⟩
  · exact ⟨Nat.zero_le _, fun p hp => absurd hp (List.not_mem_nil)⟩
  · exact ⟨fun h => h.2 rfl, rfl⟩

end Sys2Proof.Machine

/-- Settles O6. -/
theorem resetMeetsEveryLaw : Obligations.ResetMeetsEveryLaw := ⟨laws_afterReset _ _ _, laws_afterReset⟩

namespace Sys2Proof.Machine

/-! ## The Interval Timer (R25, R26, R39) -/

/-- What the TIMING record promises. -/
def TimerLaw (s : State) : Prop := CounterLaw s ∧ ListenLaw s

theorem TimerLaw.congr {s t : State} (h : TimerLaw s) (ht : t.timer = s.timer) (hs : t.straps = s.straps) : TimerLaw t := by
  simpa [TimerLaw, CounterLaw, ListenLaw, State.profile, ht, hs] using h

theorem timerLaw_afterReset (straps : Straps) (select : Select) (pending : List Instr) :
    TimerLaw (.afterReset straps select pending) :=
  ⟨(laws_afterReset straps select pending).counter, (laws_afterReset straps select pending).listen⟩

/-- Taking the announced points keeps the law. -/
theorem TimerLaw.points {s t : State} (h : TimerLaw s) (hs : t.straps = s.straps) (freeze target : Bool)
    (hf : s.timer.freezeDue = false → freeze = false) (hg : s.timer.targetDue = false → target = false)
    (ht : t.timer = { s.timer with freezeDue := freeze, targetDue := target }) : TimerLaw t := by
  obtain ⟨hc, hl⟩ := h
  unfold TimerLaw CounterLaw ListenLaw State.profile at *
  rw [ht, hs]
  cases hstate : s.timer.state <;> simp_all

theorem TimerLaw.takeFreezeIfDue {s : State} (h : TimerLaw s) : TimerLaw (takeFreezeIfDue s) := by
  refine h.points (by simp) false s.timer.targetDue (fun _ => rfl) id ?_
  unfold Machine.takeFreezeIfDue takeFreeze
  split
  · dsimp only; split <;> simp
  · rename_i hd; simp only [Bool.not_eq_true] at hd; rw [← hd]

theorem TimerLaw.takeTargetIfDue {s : State} (h : TimerLaw s) : TimerLaw (takeTargetIfDue s) := by
  refine h.points (by simp) s.timer.freezeDue false id (fun _ => rfl) ?_
  unfold Machine.takeTargetIfDue takeTargetPoint
  split
  · rfl
  · rename_i hd; simp only [Bool.not_eq_true] at hd; rw [← hd]

theorem TimerLaw.takePoints {s : State} (h : TimerLaw s) (order : Order) : TimerLaw (takePoints order s) :=
  h.points (by simp) false false (fun _ => rfl) (fun _ => rfl) (by simp)

/-- A boundary establishes the law: RUNNING, with both counts at 0. -/
theorem timerLaw_takeBoundary (kind : BoundaryKind) (number : IntervalNo) (order : Order) (s : State) :
    TimerLaw (takeBoundary kind number order s) := by
  have := profile_window_le s.straps.intv
  simp only [TimerLaw, CounterLaw, ListenLaw, takeBoundary_timer, timerBoundary, State.profile, takeBoundary_frame]
  exact ⟨by omega, trivial⟩

theorem TimerLaw.timerTick {s : State} (h : TimerLaw s) (order : Order) : TimerLaw (timerTick order s) := by
  obtain ⟨hc, hl⟩ := h
  unfold Machine.timerTick
  cases hstate : s.timer.state with
  | running =>
    dsimp only
    split
    · rename_i hlt
      simp_all [TimerLaw, CounterLaw, ListenLaw, advance, State.profile]
    · exact timerLaw_takeBoundary _ _ _ _
  | listen =>
    dsimp only
    split
    · rename_i hlt
      simp_all [TimerLaw, CounterLaw, ListenLaw, State.profile]
    · exact timerLaw_takeBoundary _ _ _ _

theorem TimerLaw.hearing {s t : State} (h : TimerLaw s) (m : Hearing s t) : TimerLaw t := by
  cases m with
  | boundary number order hg => exact timerLaw_takeBoundary _ _ _ _
  | _ => exact h.congr (by simp) (by simp)

theorem TimerLaw.effect {a : Agent} {s t : State} (h : TimerLaw s) (e : Effect a s t) : TimerLaw t := by
  have hstraps : t.straps = s.straps := by simpa using (Move.action e).straps_pending.1
  cases e with
  | timer order => exact h.timerTick order
  | receive levels order => exact receive_keeps (fun _ _ m hs => TimerLaw.hearing hs m) (fun _ _ h => h) levels order h
  | points order => exact h.takePoints order
  | freeze => exact h.takeFreezeIfDue
  | _ => exact h.congr (by simp) hstraps

theorem TimerLaw.move {a : Agent} {s t : State} (h : TimerLaw s) (m : Move a s t) : TimerLaw t := by
  cases m with
  | action e => exact (h.effect e).congr (by simp) (by simp)
  | restart => exact (timerLaw_afterReset s.straps s.service.select s.pending).congr rfl rfl
  | targetPoint => exact h.takeTargetIfDue
  | _ => exact h.congr (by simp) (by simp)

end Sys2Proof.Machine

/-- Settles O7: every move keeps the law, and a boundary establishes it. -/
theorem stepKeepsTheCounterLaw : Obligations.StepKeepsTheCounterLaw := by
  intro s t hs h
  exact step_keeps (P := TimerLaw) (fun _ _ h => h.congr rfl rfl)
    timerLaw_afterReset (fun _ _ _ m hs => hs.move m) hs h
end

