-- ==== Sys2Proof/Proofs/LineLaws.lean ====
section
/-! SUPPORT. The laws of the line (R8, R9, R12, R14 to R16): what each operation on the slots and on the attempt under way keeps. -/

open Sys2Proof Sys2Proof.Machine

namespace Sys2Proof.Machine

/-- The three laws of the line together. -/
def LineLaws (s : State) : Prop := LineLaw s ∧ SilenceLaw s ∧ CarryLaw s

theorem LineLaws.congr {s t : State} (h : LineLaws s) (ht : t.line = s.line) : LineLaws t := by
  simpa [LineLaws, LineLaw, SilenceLaw, CarryLaw, ht] using h

theorem lineLaws_afterReset (straps : Straps) (select : Select) (pending : List Instr) :
    LineLaws (.afterReset straps select pending) :=
  ⟨(laws_afterReset straps select pending).line, (laws_afterReset straps select pending).silence,
    (laws_afterReset straps select pending).carry⟩

/-! ## The slots -/

/-- The parts of the line that no operation on a slot touches. -/
def SameStates (u v : LineUnit) : Prop :=
  v.state = u.state ∧ v.failures = u.failures ∧ v.silence = u.silence ∧ v.heard = u.heard

/-- Every attempt that still carries a frame carried it before, and its slot holds that frame. -/
def CarriesOn (u v : LineUnit) : Prop :=
  (u.attempt = none → v.attempt = none) ∧
    ∀ a, v.attempt = some a → a.detached = false →
      u.attempt = some a ∧ ∀ q, u.slot a.slot = some q → ∃ q', v.slot a.slot = some q' ∧ q'.frame = q.frame

/-- An operation on the slots that takes no carried frame from its slot keeps the laws. -/
theorem LineLaws.slots {s t : State} (h : LineLaws s) (hsame : SameStates s.line t.line) (hon : CarriesOn s.line t.line) :
    LineLaws t := by
  obtain ⟨⟨hactive, hheard⟩, hsilence, hcarry⟩ := h
  obtain ⟨hstate, hfailures, hcount, hlevels⟩ := hsame
  obtain ⟨hnone, hon⟩ := hon
  refine ⟨⟨fun hs => hnone (hactive (hstate ▸ hs)), fun hl => hnone (hheard (hlevels ▸ hl))⟩, ?_, fun a ha hd => ?_⟩
  · unfold SilenceLaw at *; rw [hstate, hfailures, hcount]; exact hsilence
  · obtain ⟨hbefore, hslot⟩ := hon a ha hd
    obtain ⟨q, hq, hframe⟩ := hcarry a hbefore hd
    obtain ⟨q', hq', hframe'⟩ := hslot q hq
    exact ⟨q', hq', hframe'.trans hframe⟩

@[simp] theorem setSlot_states (u : LineUnit) (k : Slot) (q : Option Queued) :
    (u.setSlot k q).state = u.state ∧ (u.setSlot k q).failures = u.failures ∧ (u.setSlot k q).silence = u.silence ∧
      (u.setSlot k q).heard = u.heard := by
  cases k <;> exact ⟨rfl, rfl, rfl, rfl⟩

@[simp] theorem setSlot_attempt (u : LineUnit) (k : Slot) (q : Option Queued) : (u.setSlot k q).attempt = u.attempt := by
  cases k <;> rfl

theorem sameStates_setSlot (u : LineUnit) (k : Slot) (q : Option Queued) : SameStates u (u.setSlot k q) := setSlot_states u k q

/-- Of a slot that was empty or not carried, nothing is taken from the attempt. -/
theorem carriesOn_setSlot {u v : LineUnit} {k : Slot} {q : Option Queued} (hv : v.attempt = u.attempt)
    (hslot : ∀ j, v.slot j = (u.setSlot k q).slot j) (hc : u.slot k = none ∨ u.carries k = false ∨ ∃ x y, u.slot k = some x ∧ q = some y ∧ y.frame = x.frame) :
    CarriesOn u v := by
  refine ⟨fun h => hv.trans h, fun a ha hd => ⟨hv ▸ ha, fun x hx => ?_⟩⟩
  rw [hslot, slot_setSlot]
  rw [hv] at ha
  by_cases hk : a.slot = k
  · subst hk
    obtain hc | hc | ⟨y, z, hy, rfl, hf⟩ := hc
    · rw [hx] at hc; cases hc
    · simp [LineUnit.carries, ha, hd] at hc
    · rw [hx] at hy; cases hy; exact ⟨z, by simp, hf⟩
  · exact ⟨x, by simp [hk, hx], rfl⟩

/-- Of a slot whose attempt is detached nothing is taken either. -/
theorem carriesOn_detach (u : LineUnit) (k : Slot) (q : Option Queued) {v : LineUnit}
    (hv : v.attempt = (u.detach k).attempt) (hslot : ∀ j, v.slot j = ((u.detach k).setSlot k q).slot j) : CarriesOn u v := by
  have hmap : (u.detach k).attempt = u.attempt.map fun a => if a.slot = k then { a with detached := true } else a := rfl
  refine ⟨fun h => by rw [hv, hmap, h]; rfl, fun a ha hd => ?_⟩
  rw [hv, hmap, Option.map_eq_some_iff] at ha
  obtain ⟨b, hb, hab⟩ := ha
  split at hab
  · subst hab; cases hd
  · rename_i hk
    subst hab
    refine ⟨hb, fun x hx => ⟨x, ?_, rfl⟩⟩
    rw [hslot, slot_setSlot, if_neg hk, slot_detach, hx]

theorem LineLaws.queueFrame {s : State} (h : LineLaws s) (k : Slot) (q : Queued) : LineLaws (queueFrame k q s) := by
  unfold Machine.queueFrame
  split
  · refine h.slots (by simpa using ⟨rfl, rfl, rfl, rfl⟩) ⟨fun h => by simpa using h, fun a ha hd => ?_⟩
    simp only [tellDrop_frame] at ha ⊢
    exact ⟨ha, fun x hx => ⟨x, by cases hs : a.slot <;> simpa [LineUnit.slot, hs] using hx, rfl⟩⟩
  · split
    · rename_i hempty
      exact h.slots (sameStates_setSlot _ _ _) (carriesOn_setSlot (by simp) (fun _ => rfl) (.inl hempty))
    · refine h.slots (by cases k <;> exact ⟨rfl, rfl, rfl, rfl⟩) (carriesOn_detach _ k (some q) ?_ ?_)
      · cases k <;> rfl
      · intro j; cases k <;> cases j <;> rfl

theorem LineLaws.cancelSlot {s : State} (h : LineLaws s) (k : Slot) : LineLaws (cancelSlot k s) := by
  unfold Machine.cancelSlot
  split
  · exact h
  · refine h.slots (by cases k <;> exact ⟨rfl, rfl, rfl, rfl⟩) (carriesOn_detach _ k none ?_ fun _ => rfl)
    cases k <;> rfl

/-- What a drop leaves on the line: an empty slot, and the drop counted (R11). -/
theorem dropSlot_line (k : Slot) (s : State) (q : Queued) (h : s.line.slot k = some q) :
    (dropSlot k s).line = { s.line.setSlot k none with txDropped := count s.line.txDropped } := by
  simp [dropSlot, h]

theorem dropSlot_of_empty (k : Slot) (s : State) (h : s.line.slot k = none) : dropSlot k s = s := by
  simp [dropSlot, h]

/-- Neither the drop of a frame nor that of all frames touches the line's states. -/
theorem dropSlot_sameStates (k : Slot) (s : State) :
    SameStates s.line (dropSlot k s).line ∧ (dropSlot k s).line.attempt = s.line.attempt := by
  cases hq : s.line.slot k with
  | none => rw [dropSlot_of_empty k s hq]; exact ⟨⟨rfl, rfl, rfl, rfl⟩, rfl⟩
  | some q => rw [dropSlot_line k s q hq]; cases k <;> exact ⟨⟨rfl, rfl, rfl, rfl⟩, rfl⟩

theorem dropAll_sameStates (s : State) : SameStates s.line (dropAll s).line ∧ (dropAll s).line.attempt = s.line.attempt := by
  unfold dropAll
  obtain ⟨⟨a1, b1, c1, d1⟩, e1⟩ := dropSlot_sameStates .mark s
  obtain ⟨⟨a2, b2, c2, d2⟩, e2⟩ := dropSlot_sameStates .withdraw (dropSlot .mark s)
  obtain ⟨⟨a3, b3, c3, d3⟩, e3⟩ := dropSlot_sameStates .offer (dropSlot .withdraw (dropSlot .mark s))
  obtain ⟨⟨a4, b4, c4, d4⟩, e4⟩ := dropSlot_sameStates .report (dropSlot .offer (dropSlot .withdraw (dropSlot .mark s)))
  exact ⟨⟨by rw [a4, a3, a2, a1], by rw [b4, b3, b2, b1], by rw [c4, c3, c2, c1], by rw [d4, d3, d2, d1]⟩,
    by rw [e4, e3, e2, e1]⟩

theorem LineLaws.dropAtDeadline {s : State} (h : LineLaws s) (k : Slot) (hc : s.line.carries k = false) :
    LineLaws (dropAtDeadline k s) := by
  unfold Machine.dropAtDeadline
  split
  · exact h
  · rename_i q hq
    dsimp only
    rw [dropSlot_line k s q hq]
    refine h.slots (by cases k <;> exact ⟨rfl, rfl, rfl, rfl⟩) (carriesOn_setSlot (k := k) (q := none) ?_ ?_ (.inr (.inl hc)))
    · cases k <;> rfl
    · intro j; cases k <;> cases j <;> rfl

theorem LineLaws.takeDeadline {s : State} (h : LineLaws s) (k : Slot) : LineLaws (takeDeadline k s) := by
  unfold Machine.takeDeadline
  split
  · rename_i hd
    refine h.dropAtDeadline k ?_
    unfold State.deadlineDue at hd
    split at hd <;> simp_all
  · exact h

theorem LineLaws.takeDeadlines {s : State} (h : LineLaws s) (order : Order) : LineLaws (takeDeadlines order s) := by
  unfold Machine.takeDeadlines
  split <;> exact ((h.takeDeadline _).takeDeadline _).takeDeadline _

theorem LineLaws.endDeadline {s : State} (h : LineLaws s) (k : Slot) : LineLaws (endDeadline k s) := by
  unfold Machine.endDeadline
  split
  · exact h
  · rename_i q hq
    split
    · exact h
    · split
      · exact h.slots (sameStates_setSlot _ _ _)
          (carriesOn_setSlot (by simp) (fun _ => rfl) (.inr (.inr ⟨q, { q with expired := true }, hq, rfl, rfl⟩)))
      · rename_i hc; exact h.dropAtDeadline k (by simpa using hc)

theorem LineLaws.endDeadlines {s : State} (h : LineLaws s) (order : Order) : LineLaws (endDeadlines order s) := by
  unfold Machine.endDeadlines
  split <;> exact ((h.endDeadline _).endDeadline _).endDeadline _

/-! ## Withdrawals, compositions and boundaries -/

theorem LineLaws.withdraw {s : State} (h : LineLaws s) (r : WithdrawReason) : LineLaws (withdraw r s) := by
  have hoffer : LineLaws (withdrawOffer (abortComposition s)) := by
    have habort : LineLaws (abortComposition s) := h.congr (by simp)
    generalize abortComposition s = x at habort
    unfold withdrawOffer
    split
    · exact habort
    · refine LineLaws.cancelSlot ?_ _
      split
      · exact habort
      · exact habort.congr (by simp)
  exact (hoffer.queueFrame _ _).congr (removeOwnEntry_frame _).2.2.1

theorem LineLaws.enterStopped {s : State} (h : LineLaws s) : LineLaws (enterStopped s) := by
  have hcut : LineLaws (cut 0 .stopped s) := h.congr (by simp)
  exact (hcut.withdraw .stopped).congr (by simp [Machine.enterStopped])

theorem LineLaws.enterFaulted {s : State} (h : LineLaws s) (c : FaultCause) : LineLaws (enterFaulted c s) := by
  unfold Machine.enterFaulted
  split
  · exact h.congr (by simp)
  · dsimp only
    split
    · exact LineLaws.enterStopped (h.congr (by simp))
    · exact h.congr (by simp)

theorem LineLaws.endOffer {s : State} (h : LineLaws s) : LineLaws (endOffer s) := by
  unfold Machine.endOffer endOfferWith
  split
  · dsimp only
    split
    · refine LineLaws.queueFrame ?_ _ _
      exact h.congr rfl
    · exact h.congr rfl
  · exact h

theorem LineLaws.endTarget {s : State} (h : LineLaws s) : LineLaws (endTarget s) := by
  unfold Machine.endTarget endTargetWith
  split
  · refine LineLaws.queueFrame ?_ _ _
    exact h.congr rfl
  · exact h

theorem LineLaws.countSilence {s : State} (h : LineLaws s) : LineLaws (countSilence s) := by
  obtain ⟨⟨hactive, hheard⟩, ⟨hfailures, hsilence⟩, hcarry⟩ := h
  unfold Machine.countSilence
  split
  · exact ⟨⟨hactive, hheard⟩, ⟨hfailures, hsilence⟩, hcarry⟩
  · rename_i hne
    refine ⟨⟨fun hs => hactive fun ha => hs ?_, hheard⟩, ⟨hfailures, ?_⟩, hcarry⟩
    · simp [ha]
    · cases hstate : s.line.state <;> simp only [hstate] at hsilence ⊢
      · exact absurd hsilence hne
      · by_cases hone : s.line.silence = 1
        · simp [hone]
        · simp only [hone, false_and, if_false]; omega
      · simp only [reduceCtorEq, and_false, if_false]; omega

theorem LineLaws.takeBoundary {s : State} (h : LineLaws s) (kind : BoundaryKind) (number : IntervalNo) (order : Order) :
    LineLaws (takeBoundary kind number order s) := by
  have htotals (x : State) (hx : LineLaws x) : LineLaws (closeTotals kind x) := by
    have hq : LineLaws (queueTally kind x) := by
      unfold queueTally
      split
      · exact hx.queueFrame _ _
      · exact hx
    exact hq.congr (by simp [closeTotals])
  have hmark (x : State) (hx : LineLaws x) : LineLaws (markBoundary kind x) := by
    unfold markBoundary queueMark
    split
    · exact hx.queueFrame _ _
    · exact hx
  have hended : LineLaws (timerBoundary kind number (Machine.endDeadlines order s)) := (h.endDeadlines order).congr (by simp)
  have hloaded : LineLaws (viewBoundary (engineBoundary (applyLoad (loadOf kind s) number
      (Machine.countSilence (timerBoundary kind number (Machine.endDeadlines order s)))))) :=
    hended.countSilence.congr (by simp)
  have hcomposed (x : State) (hx : LineLaws x) :
      LineLaws (beginComposition (loadOf kind s).share (feederBoundary kind (closeTotals kind x))) :=
    (htotals x hx).congr (by simp)
  exact (hmark _ (hcomposed _ hloaded)).congr (cause_frame _ _).2.2.1

theorem LineLaws.takePoints {s : State} (h : LineLaws s) (order : Order) : LineLaws (takePoints order s) := by
  refine (h.takeDeadlines order).congr ?_
  simp [Machine.takePoints]

/-! ## The attempt under way (R7, R12, R15, R19) -/

/-- With no attempt under way only the counts of the line states matter. -/
theorem lineLaws_of_no_attempt {s : State} (ha : s.line.attempt = none) (h : SilenceLaw s) : LineLaws s :=
  ⟨⟨fun _ => ha, fun _ => ha⟩, h, fun a h' => by rw [ha] at h'; cases h'⟩

theorem LineLaws.startSlot {s : State} (h : LineLaws s) {k : Slot} {recessive : Nat}
    (hs : s.line.starts recessive = some k) : LineLaws (startSlot k s) := by
  obtain ⟨⟨hactive, hheard⟩, hsilence, hcarry⟩ := h
  have hguard : s.line.state = .active ∧ s.line.heard = [] := by
    unfold LineUnit.starts at hs
    split at hs
    · rename_i hg; exact ⟨hg.1, hg.2.2.1⟩
    · cases hs
  unfold Machine.startSlot
  split
  · rename_i q hq
    refine ⟨⟨fun hs => absurd hguard.1 hs, fun hl => absurd hguard.2 hl⟩, hsilence, fun a ha hd => ?_⟩
    simp only [Option.some.injEq] at ha
    subst ha
    exact ⟨q, by cases k <;> exact hq, rfl⟩
  · exact ⟨⟨hactive, hheard⟩, hsilence, hcarry⟩

theorem LineLaws.endAttempt {s : State} (h : LineLaws s) (recessive : Nat) : LineLaws (endAttempt recessive s) :=
  lineLaws_of_no_attempt rfl h.2.1

theorem LineLaws.loseAttempt {s : State} (h : LineLaws s) (read : List Level) : LineLaws (loseAttempt read s) := by
  unfold Machine.loseAttempt
  split
  · dsimp only
    have hx (a : Attempt) : LineLaws { Machine.endAttempt 0 s with line := { (Machine.endAttempt 0 s).line with
        heard := heardUntilLost a.frame.levels read } } := lineLaws_of_no_attempt rfl h.2.1
    unfold releaseSlot
    split
    · exact hx _
    · exact (hx _).takeDeadline _
  · exact h

theorem LineLaws.confirmAttempt {s : State} (h : LineLaws s) : LineLaws (confirmAttempt s) := by
  have hcounts : SilenceLaw { s with line := { s.line with failures := 0 } } := ⟨(by decide : 0 < Config.failureLimit), h.2.1.2⟩
  unfold Machine.confirmAttempt
  split
  · exact h
  · dsimp only
    split
    · exact lineLaws_of_no_attempt rfl hcounts
    · split
      · refine lineLaws_of_no_attempt (by simp [Machine.endAttempt]) ?_
        simpa [SilenceLaw, Machine.endAttempt] using hcounts
      · exact lineLaws_of_no_attempt rfl hcounts

/-- A frame dropped at its deadline leaves the line's states and the attempt as they are. -/
theorem takeDeadline_sameStates (k : Slot) (s : State) :
    SameStates s.line (Machine.takeDeadline k s).line ∧ (Machine.takeDeadline k s).line.attempt = s.line.attempt := by
  unfold Machine.takeDeadline Machine.dropAtDeadline
  split
  · split
    · exact ⟨⟨rfl, rfl, rfl, rfl⟩, rfl⟩
    · exact dropSlot_sameStates k s
  · exact ⟨⟨rfl, rfl, rfl, rfl⟩, rfl⟩

theorem releaseSlot_sameStates (a : Attempt) (s : State) :
    SameStates s.line (releaseSlot a s).line ∧ (releaseSlot a s).line.attempt = s.line.attempt := by
  unfold releaseSlot
  split
  · exact ⟨⟨rfl, rfl, rfl, rfl⟩, rfl⟩
  · exact takeDeadline_sameStates _ _

theorem LineLaws.failAttempt {s : State} (h : LineLaws s) : LineLaws (failAttempt s) := by
  unfold Machine.failAttempt
  split
  · exact h
  · rename_i a ha
    dsimp only
    have hactive : s.line.state = .active := by
      by_contra hs
      rw [h.1.1 hs] at ha; cases ha
    have hquiet : s.line.silence = 0 := by have := h.2.1.2; simpa [hactive] using this
    obtain ⟨⟨hstate, hfailures, hcount, -⟩, hnone⟩ := releaseSlot_sameStates a { Machine.endAttempt 0 s with line :=
      { (Machine.endAttempt 0 s).line with txErr := count (Machine.endAttempt 0 s).line.txErr, failures := (Machine.endAttempt 0 s).line.failures + 1 } }
    generalize releaseSlot a _ = x at *
    replace hstate : x.line.state = .active := hstate.trans hactive
    replace hcount : x.line.silence = 0 := hcount.trans hquiet
    replace hnone : x.line.attempt = none := hnone
    split
    · rename_i hlt
      refine lineLaws_of_no_attempt hnone ⟨hlt, ?_⟩
      rw [hstate]; exact hcount
    · unfold enterSilent
      refine lineLaws_of_no_attempt ?_ ?_
      · simpa [(dropAll_sameStates x).2] using hnone
      · simp [SilenceLaw, Config.failureLimit, Config.silenceIntervals]

theorem LineLaws.enterClash {s : State} (h : LineLaws s) : LineLaws (enterClash s) := by
  unfold Machine.enterClash
  split
  · exact h
  · rename_i hne
    dsimp only
    obtain ⟨⟨-, -, hcount, -⟩, hattempt⟩ := dropAll_sameStates s
    have hgiven : (giveUpAttempt (dropAll s)).line.attempt = none ∧
        (giveUpAttempt (dropAll s)).line.silence = s.line.silence := by
      unfold giveUpAttempt
      split
      · exact ⟨rfl, hcount⟩
      · rename_i hnone; exact ⟨by simpa using hnone, hcount⟩
    refine lineLaws_of_no_attempt hgiven.1 ⟨(by decide : 0 < Config.failureLimit), ?_⟩
    have hsilence := h.2.1.2
    change (giveUpAttempt (dropAll s)).line.silence ≤ Config.silenceIntervals
    rw [hgiven.2]
    cases hs : s.line.state <;> simp only [hs] at hsilence
    · omega
    · exact hsilence.2
    · exact hsilence

/-! ## Receiving -/

theorem LineLaws.hearing {s t : State} (h : LineLaws s) (m : Hearing s t) : LineLaws t := by
  cases m with
  | reading r levels =>
    unfold endReading
    cases ha : s.line.attempt with
    | none => exact lineLaws_of_no_attempt ha h.2.1
    | some a =>
      have hheard : s.line.heard = [] := by
        by_contra hne
        rw [h.1.2 hne] at ha; cases ha
      have hactive : s.line.state = .active := by
        by_contra hne
        rw [h.1.1 hne] at ha; cases ha
      refine ⟨⟨fun hs => absurd hactive hs, fun hl => absurd hheard hl⟩, h.2.1, fun b hb hd => ?_⟩
      simp only [Option.some.injEq] at hb
      subst hb
      obtain ⟨q, hq, hf⟩ := h.2.2 a ha hd
      exact ⟨q, by cases hk : a.slot <;> simpa [LineUnit.slot, hk] using hq, hf⟩
  | counted check foreign good =>
    refine h.slots ⟨rfl, rfl, rfl, rfl⟩ ⟨id, fun a ha hd => ⟨ha, fun q hq => ⟨q, ?_, rfl⟩⟩⟩
    cases hk : a.slot <;> simpa [LineUnit.slot, hk] using hq
  | clash => exact h.enterClash
  | trailing number =>
    unfold trailingMark
    split
    · split
      · exact h.cancelSlot _
      · exact h
    · exact h
  | boundary number order hg => exact (h.takePoints order).takeBoundary _ _ _
  | _ => exact h.congr (by simp)

/-! ## Posts -/

theorem LineLaws.post {s t : State} (h : LineLaws s) {kind : PostKind} (e : PostEffect kind s t) : LineLaws t := by
  cases e with
  | @engagedStopped body r p hrole hs hr hp hstop =>
    have hsync : LineLaws (resync p.soc (reportTaken r p s)) := h.congr (by simp)
    exact hsync.enterStopped.congr (by simp)
  | @close reason hrole hs =>
    have hcut : LineLaws (cut 0 .close (closeNoted reason s)) := h.congr (by simp)
    exact (hcut.withdraw (closeWithdraw reason)).congr (by simp)
  | pause hrole hs hr hp =>
    refine LineLaws.withdraw ?_ _
    exact h.congr (by simp)
  | _ => exact h.congr (by simp)

/-! ## The moves -/

theorem LineLaws.reportEffect {s : State} (h : LineLaws s) (st : ConverterStatus) : LineLaws (reportEffect st s) := by
  have hoff (n : Nat) : LineLaws { s with port := { s.port with offRun := n } } := h.congr rfl
  unfold Machine.reportEffect
  cases s.port.state <;> cases st <;> dsimp only
  all_goals first
    | exact h
    | exact h.enterFaulted _
    | exact (hoff 0).enterFaulted _
    | exact h.congr rfl
    | (split <;> exact h.congr rfl)

theorem LineLaws.effect {a : Agent} {s t : State} (h : LineLaws s) (e : Effect a s t) : LineLaws t := by
  cases e with
  | timer order =>
    unfold timerTick
    (repeat' split) <;> first | exact h.takeBoundary _ _ _ | exact h.congr rfl
  | receive levels order => exact receive_keeps (fun _ _ m hs => LineLaws.hearing hs m) (fun _ _ h => h) levels order h
  | portTick =>
    have hwait : LineLaws (waitTick s) := by
      unfold waitTick
      dsimp only
      split
      · exact h.congr rfl
      · refine LineLaws.enterFaulted ?_ _
        exact h.congr rfl
    unfold portTick
    split
    · exact h
    · exact h.congr (by simp)
    · exact hwait.congr (by simp)
    all_goals exact h.congr (by simp)
  | points order => exact h.takePoints order
  | linkError hx =>
    unfold takeLinkError
    dsimp only
    split
    · refine LineLaws.enterFaulted ?_ _
      exact h.congr (by simp)
    · exact h.congr (by simp)
  | status st hx =>
    refine LineLaws.reportEffect ?_ _
    exact h.congr (by simp)
  | sample reading hx =>
    have hends (x : State) (dx dm : Nat) (hx : LineLaws x) : LineLaws (handIncrements dx dm x) := by
      unfold handIncrements
      split
      · exact hx.endOffer.congr (by simp)
      · exact hx.congr rfl
    unfold goodSample
    split
    · exact h.congr (by simp)
    · dsimp only
      split
      · exact h.congr (by simp)
      · refine hends _ _ _ ?_
        exact h.congr (by simp)
  | fail => exact h.failAttempt
  | @post kind body _ hr hk =>
    have hpop : LineLaws (popHead s) := h.congr (by simp)
    exact (hpop.post (ownerRule_effect kind body _)).congr (by simp)
  | _ => exact h.congr (by simp)

theorem LineLaws.move {a : Agent} {s t : State} (h : LineLaws s) (m : Move a s t) : LineLaws t := by
  cases m with
  | action e => exact (h.effect e).congr (by simp)
  | restart => exact (lineLaws_afterReset s.straps s.service.select s.pending).congr rfl
  | endOffer => exact h.endOffer
  | endTarget => exact h.endTarget
  | deadline slot => exact h.takeDeadline slot
  | start hs => exact h.startSlot hs
  | lose read => exact h.loseAttempt read
  | confirm => exact h.confirmAttempt
  | _ => exact h.congr (by simp)

end Sys2Proof.Machine

/-- Settles O8: every move keeps the three laws together. -/
theorem stepKeepsTheLineLaw : Obligations.StepKeepsTheLineLaw := by
  intro s t hs h
  exact step_keeps (P := LineLaws) (fun _ _ h => h.congr rfl) lineLaws_afterReset (fun _ _ _ m hs => hs.move m) hs h
end

