-- ==== Sys2Proof/Proofs/PortLaw.lean ====
section
/-! SUPPORT. The law of the Power Stage Port (8.2): what each operation on the port and its link keeps. -/

open Sys2Proof Sys2Proof.Machine

namespace Sys2Proof.Machine

theorem PortLaw.congr {s t : State} (h : PortLaw s) (hp : t.port = s.port) (hs : t.straps = s.straps) : PortLaw t := by
  simpa [PortLaw, hp, hs] using h

/-- A change of the port that leaves state, command and enable as they are: the link may lose transactions or gain meter reads,
and every count stays in its range. -/
theorem PortLaw.counts {s t : State} (h : PortLaw s) (hs : t.straps = s.straps) (hstate : t.port.state = s.port.state)
    (hcommand : t.port.command = s.port.command) (henable : t.port.enable = s.port.enable)
    (hlink : ∀ x ∈ t.port.link, x ∈ s.port.link ∨ x = .meterRead) (hwait : t.port.enableWait = s.port.enableWait)
    (hidle : t.port.idleCount = s.port.idleCount) (hoff : t.port.offRun ≤ s.port.offRun)
    (hmiss : t.port.missCount ≤ Config.lossCount) (hdiscards : t.port.discards ≤ Config.lossCount) : PortLaw t := by
  obtain ⟨h1, h2, h3, h4, h5, h6, h7, -, -⟩ := h
  unfold PortLaw
  rw [hs, hstate, hcommand, henable, hwait, hidle]
  refine ⟨h1, h2, h3, fun hr x hx => ?_, h5, h6, hoff.trans h7, hmiss, hdiscards⟩
  obtain hx | hx := hlink x hx
  · exact h4 hr x hx
  · exact hx

/-- A FEEDER's link holds meter reads alone, so no exchange is under way (R147). -/
theorem PortLaw.not_meterOnly_of_exchanging {s : State} (h : PortLaw s) (hx : s.exchanging = true) :
    s.port.state ≠ .meterOnly ∧ s.straps.role = .charger := by
  obtain ⟨-, -, hrole, hlink, -⟩ := h
  have hcharger : s.straps.role = .charger := by
    cases hr : s.straps.role with
    | charger => rfl
    | feeder =>
      have hall := hlink hr
      unfold State.exchanging at hx
      split at hx <;> simp_all
  refine ⟨fun hs => ?_, hcharger⟩
  rw [hrole.mp hs] at hcharger
  cases hcharger

/-- The forced stop of a port that is not METER_ONLY, in any state with the enable off (R148). -/
theorem PortLaw.stopped {s t : State} (h : PortLaw s) (hs : t.straps = s.straps) (hm : s.port.state ≠ .meterOnly)
    (hstate : t.port.state = .disabled ∨ t.port.state = .faulted) (hcommand : t.port.command = 0)
    (henable : t.port.enable = false) (hwait : t.port.enableWait = s.port.enableWait)
    (hidle : t.port.idleCount = s.port.idleCount) (hoff : t.port.offRun ≤ s.port.offRun)
    (hmiss : t.port.missCount = s.port.missCount) (hdiscards : t.port.discards = s.port.discards) : PortLaw t := by
  obtain ⟨-, -, h3, -, h5, h6, h7, h8, h9⟩ := h
  have hrole : t.straps.role ≠ .feeder := by rw [hs]; exact fun hr => hm (h3.mpr hr)
  unfold PortLaw
  rw [hcommand, henable, hwait, hidle, hmiss, hdiscards]
  refine ⟨fun h => absurd rfl h, ?_, ?_, fun hr => absurd hr hrole, h5, h6, hoff.trans h7, h8, h9⟩
  · obtain hstate | hstate := hstate <;> simp [hstate]
  · obtain hstate | hstate := hstate <;> simp [hstate, hrole]

theorem PortLaw.forcedStop {s : State} (h : PortLaw s) : PortLaw (forcedStop s) := by
  unfold Machine.forcedStop
  split
  · exact h
  · rename_i hm
    refine h.stopped rfl hm ?_ rfl rfl rfl rfl le_rfl rfl rfl
    dsimp only
    split
    · exact .inr rfl
    · exact .inl rfl

theorem PortLaw.enterFaulted {s : State} (h : PortLaw s) (hm : s.port.state ≠ .meterOnly) (c : FaultCause) :
    PortLaw (enterFaulted c s) := by
  unfold Machine.enterFaulted
  split
  · rename_i hf
    exact h.stopped (by simp) hm (.inr hf) rfl rfl rfl rfl le_rfl rfl rfl
  · dsimp only
    have hstop : PortLaw { dropCommand s with port :=
        { (dropCommand s).port with state := .faulted, lastCause := some c, offRun := 0 } } :=
      h.stopped rfl hm (.inr rfl) rfl rfl rfl rfl (Nat.zero_le _) rfl rfl
    split
    · exact hstop.congr (by simp) (by simp)
    · exact hstop.congr (by simp) (by simp)

theorem PortLaw.requestEnable {s : State} (h : PortLaw s) : PortLaw (requestEnable s) := by
  unfold Machine.requestEnable
  split
  · rename_i hd
    obtain ⟨h1, h2, h3, h4, h5, h6, h7, h8, h9⟩ := h
    have hcommand : s.port.command = 0 := by
      by_contra hne
      rw [h1 hne] at hd
      exact absurd hd.1 (by decide)
    have hrole : s.straps.role ≠ .feeder := fun hr => by rw [h3.mpr hr] at hd; exact absurd hd.1 (by decide)
    exact ⟨fun h => absurd hcommand h, by simp, by simp [hrole], h4, Nat.zero_le _, h6, h7, h8, h9⟩
  · exact h

theorem PortLaw.settle {s u : State} (h : PortLaw u) : PortLaw (settle s u) :=
  h.requestEnable.congr (by simp [Machine.settle]) (by simp)

/-! ## The link -/

theorem mem_link_of_endTransaction {s : State} {x : Transaction} (h : x ∈ (endTransaction s).port.link) : x ∈ s.port.link :=
  List.mem_of_mem_tail h

theorem mem_link_of_endExchange {s : State} {x : Transaction} (h : x ∈ (endExchange s).port.link) : x ∈ s.port.link := by
  unfold endExchange at h
  split at h
  · rename_i rest hl
    rw [hl]
    simp only [List.mem_cons] at h ⊢
    tauto
  · exact mem_link_of_endTransaction h

/-- The end of an exchange changes the link and the count of what is owed alone. -/
theorem endExchange_port (s : State) :
    (endExchange s).port = { s.port with link := (endExchange s).port.link, owed := (endExchange s).port.owed } := by
  unfold endExchange endTransaction
  split <;> rfl

/-- What the end of an exchange leaves of the port. -/
@[simp] theorem endExchange_port_frame (s : State) :
    (endExchange s).port.state = s.port.state ∧ (endExchange s).port.command = s.port.command ∧
      (endExchange s).port.enable = s.port.enable ∧ (endExchange s).port.enableWait = s.port.enableWait ∧
      (endExchange s).port.idleCount = s.port.idleCount ∧ (endExchange s).port.offRun = s.port.offRun ∧
      (endExchange s).port.missCount = s.port.missCount ∧ (endExchange s).port.lastStatus = s.port.lastStatus ∧
      (endExchange s).port.lastCause = s.port.lastCause ∧ (endExchange s).port.discards = s.port.discards ∧
      (endExchange s).port.meterLost = s.port.meterLost ∧ (endExchange s).port.linkErr = s.port.linkErr := by
  rw [endExchange_port]
  simp

theorem PortLaw.endTransaction {s : State} (h : PortLaw s) : PortLaw (endTransaction s) :=
  h.counts rfl rfl rfl rfl (fun _ hx => .inl (mem_link_of_endTransaction hx)) rfl rfl le_rfl h.2.2.2.2.2.2.2.1 h.2.2.2.2.2.2.2.2

theorem PortLaw.reportEffect {s : State} (h : PortLaw s) (hm : s.port.state ≠ .meterOnly) (st : ConverterStatus) :
    PortLaw (reportEffect st s) := by
  have hrole : s.straps.role ≠ .feeder := fun hr => hm (h.2.2.1.mpr hr)
  have hoff : PortLaw { s with port := { s.port with offRun := 0 } } := by
    obtain ⟨h1, h2, h3, h4, h5, h6, h7, h8, h9⟩ := h
    exact ⟨h1, h2, h3, h4, h5, h6, Nat.zero_le _, h8, h9⟩
  have hfault (c : FaultCause) : PortLaw (Machine.enterFaulted c s) := h.enterFaulted hm c
  have hready (hs : s.port.state = .enabling) :
      PortLaw { s with port := { s.port with state := .enabled, command := 0, idleCount := 0 } } := by
    obtain ⟨h1, h2, h3, h4, h5, h6, h7, h8, h9⟩ := h
    exact ⟨fun h => absurd rfl h, by simp [h2.mpr (.inl hs)], by simp [hrole], h4, h5, Nat.zero_le _, h7, h8, h9⟩
  have hdown (n : Nat) (hn : n ≤ Config.offRunLength) (hs : s.port.state = .disabling ∨ s.port.state = .faulted) :
      PortLaw { s with port := { s.port with offRun := n, state := .disabled } } := by
    obtain ⟨h1, h2, h3, h4, h5, h6, h7, h8, h9⟩ := h
    have hcommand : s.port.command = 0 := by
      by_contra hne
      obtain hs | hs := hs <;> rw [h1 hne] at hs <;> cases hs
    have henable : s.port.enable = false := by
      obtain hs | hs := hs <;> simpa [hs] using h2
    exact ⟨fun h => absurd hcommand h, by simp [henable], by simp [hrole], h4, h5, h6, hn, h8, h9⟩
  unfold Machine.reportEffect
  cases hs : s.port.state with
  | disabled => cases st <;> first | exact h | exact hfault _
  | enabling => cases st <;> first | exact h | exact hfault _ | exact hready hs
  | enabled => cases st <;> first | exact h | exact hfault _
  | disabling =>
    cases st with
    | off => exact hdown _ h.2.2.2.2.2.2.1 (.inl hs)
    | fault => exact hfault _
    | _ => exact h
  | faulted =>
    cases st with
    | off =>
      dsimp only
      split
      · rename_i hlt
        obtain ⟨h1, h2, h3, h4, h5, h6, h7, h8, h9⟩ := h
        exact ⟨h1, h2, h3, h4, h5, h6, Nat.le_of_lt hlt, h8, h9⟩
      · exact hdown _ le_rfl (.inr hs)
    | fault => exact hoff.enterFaulted (by simpa using hm) _
    | _ => exact hoff
  | meterOnly => exact absurd hs hm

/-- The counts of a status report (R140). -/
def reportCounted (st : ConverterStatus) (s : State) : State :=
  { endExchange s with port := { (endExchange s).port with lastStatus := some st, missCount := 0 } }

/-- The counts of a link error (R139, R140, R146). -/
def errorCounted (s : State) : State :=
  { endExchange s with port := { (endExchange s).port with
      linkErr   := count (endExchange s).port.linkErr
      missCount := min Config.lossCount ((endExchange s).port.missCount + 1)
      offRun    := if (endExchange s).port.state = .faulted then 0 else (endExchange s).port.offRun } }

theorem takeStatus_eq (st : ConverterStatus) (s : State) : takeStatus st s = reportEffect st (reportCounted st s) := rfl

theorem takeLinkError_eq (s : State) :
    takeLinkError s = if s.lossNext = true then enterFaulted .linkLoss (errorCounted s) else errorCounted s := rfl

theorem PortLaw.reportCounted {s : State} (h : PortLaw s) (st : ConverterStatus) : PortLaw (reportCounted st s) :=
  h.counts (endExchange_frame s).1 (by simp [Machine.reportCounted]) (by simp [Machine.reportCounted])
    (by simp [Machine.reportCounted]) (fun _ hx => .inl (mem_link_of_endExchange hx)) (by simp [Machine.reportCounted])
    (by simp [Machine.reportCounted]) (by simp [Machine.reportCounted]) (Nat.zero_le _)
    (by simpa [Machine.reportCounted] using h.2.2.2.2.2.2.2.2)

theorem PortLaw.errorCounted {s : State} (h : PortLaw s) : PortLaw (errorCounted s) := by
  refine h.counts (endExchange_frame s).1 (by simp [Machine.errorCounted]) (by simp [Machine.errorCounted])
    (by simp [Machine.errorCounted]) (fun _ hx => .inl (mem_link_of_endExchange hx)) (by simp [Machine.errorCounted])
    (by simp [Machine.errorCounted]) ?_ (Nat.min_le_left _ _) (by simpa [Machine.errorCounted] using h.2.2.2.2.2.2.2.2)
  unfold Machine.errorCounted
  dsimp only
  split
  · exact Nat.zero_le _
  · simp

theorem PortLaw.takeStatus {s : State} (h : PortLaw s) (hx : s.exchanging = true) (st : ConverterStatus) :
    PortLaw (takeStatus st s) := by
  refine (h.reportCounted st).reportEffect ?_ st
  simpa [Machine.reportCounted] using (h.not_meterOnly_of_exchanging hx).1

theorem PortLaw.takeLinkError {s : State} (h : PortLaw s) (hx : s.exchanging = true) : PortLaw (takeLinkError s) := by
  rw [takeLinkError_eq]
  split
  · refine h.errorCounted.enterFaulted ?_ _
    simpa [Machine.errorCounted] using (h.not_meterOnly_of_exchanging hx).1
  · exact h.errorCounted

/-! ## The tick of the port -/

theorem PortLaw.startExchange {s : State} (h : PortLaw s) (hm : s.port.state ≠ .meterOnly) : PortLaw (startExchange s) := by
  obtain ⟨h1, h2, h3, -, h5, h6, h7, h8, h9⟩ := h
  exact ⟨h1, h2, h3, fun hr => absurd (h3.mpr hr) hm, h5, h6, h7, h8, h9⟩

/-- The idle count after the ramp step of a tick (R144). -/
def idleAfter (s : State) : Nat :=
  if s.apply.share = 0 ∧ rampTo s.port.command s.apply.share s.aboveReserve = 0 then s.port.idleCount + 1 else 0

/-- The ramp step of a tick, by its command and its idle count (R143, R144). -/
theorem rampTick_eq (s : State) :
    rampTick s =
      if idleAfter s < Config.idleTicks then
        { s with port := { s.port with
            command := rampTo s.port.command s.apply.share s.aboveReserve, idleCount := idleAfter s } }
      else
        { s with port := { s.port with
            command := rampTo s.port.command s.apply.share s.aboveReserve, idleCount := Config.idleTicks, state := .disabling, enable := false } } :=
  rfl

theorem PortLaw.rampTick {s : State} (h : PortLaw s) (hs : s.port.state = .enabled) : PortLaw (rampTick s) := by
  obtain ⟨h1, h2, h3, h4, h5, h6, h7, h8, h9⟩ := h
  have hrole : s.straps.role ≠ .feeder := fun hr => by rw [h3.mpr hr] at hs; cases hs
  rw [rampTick_eq]
  split
  · rename_i hlt
    exact ⟨fun _ => hs, h2, h3, h4, h5, Nat.le_of_lt hlt, h7, h8, h9⟩
  · rename_i hlt
    -- The idle count went up, so the step left the command at 0.
    have hzero : rampTo s.port.command s.apply.share s.aboveReserve = 0 := by
      by_contra hne
      exact hlt (by simp [idleAfter, hne, Config.idleTicks])
    exact ⟨fun h => absurd hzero h, by simp, by simp [hrole], h4, h5, le_rfl, h7, h8, h9⟩

theorem PortLaw.waitTick {s : State} (h : PortLaw s) (hm : s.port.state ≠ .meterOnly) : PortLaw (waitTick s) := by
  have hwait (n : Nat) (hn : n ≤ Config.enableTimeout) : PortLaw { s with port := { s.port with enableWait := n } } := by
    obtain ⟨h1, h2, h3, h4, h5, h6, h7, h8, h9⟩ := h
    exact ⟨h1, h2, h3, h4, hn, h6, h7, h8, h9⟩
  unfold Machine.waitTick
  dsimp only
  split
  · rename_i hlt; exact hwait _ (Nat.le_of_lt hlt)
  · exact (hwait _ le_rfl).enterFaulted hm _

/-- A fault leaves a port that is FAULTED. -/
@[simp] theorem enterFaulted_state (c : FaultCause) (s : State) : (enterFaulted c s).port.state = .faulted := by
  unfold enterFaulted
  split
  · simpa [dropCommand] using ‹_›
  · dsimp only
    split <;> simp

theorem PortLaw.portTick {s : State} (h : PortLaw s) : PortLaw (portTick s) := by
  unfold Machine.portTick
  cases hs : s.port.state with
  | meterOnly => exact h
  | enabled =>
    refine (h.rampTick hs).startExchange ?_
    rw [rampTick_eq]
    split <;> simp [hs]
  | enabling =>
    refine (h.waitTick (by simp [hs])).startExchange ?_
    unfold Machine.waitTick
    dsimp only
    split <;> simp [hs]
  | disabled => exact h.startExchange (by simp [hs])
  | disabling => exact h.startExchange (by simp [hs])
  | faulted => exact h.startExchange (by simp [hs])

/-! ## The meter -/

theorem PortLaw.beginLoss {s : State} (h : PortLaw s) : PortLaw (beginLoss s) := by
  obtain ⟨h1, h2, h3, h4, h5, h6, h7, h8, h9⟩ := h
  have hlost : PortLaw { s with port := { s.port with meterLost := true, reference := none } } :=
    ⟨h1, h2, h3, h4, h5, h6, h7, h8, h9⟩
  unfold Machine.beginLoss
  dsimp only
  split <;> exact hlost.congr (by simp) (by simp)

theorem PortLaw.discardSample {s : State} (h : PortLaw s) : PortLaw (discardSample s) := by
  obtain ⟨h1, h2, h3, h4, h5, h6, h7, h8, h9⟩ := h
  have hcounted : PortLaw { s with port := { s.port with
      linkErr := count s.port.linkErr, lastSample := some .discarded, discards := min Config.lossCount (s.port.discards + 1) } } :=
    ⟨h1, h2, h3, h4, h5, h6, h7, h8, Nat.min_le_left _ _⟩
  unfold Machine.discardSample
  dsimp only
  split
  · exact hcounted.beginLoss
  · exact hcounted

theorem PortLaw.goodSample {s : State} (h : PortLaw s) (reading : MeterReading) : PortLaw (goodSample reading s) := by
  have hloss (x : State) (hx : PortLaw x) : PortLaw (endLoss x) := by
    obtain ⟨h1, h2, h3, h4, h5, h6, h7, h8, h9⟩ := hx
    have hfound : PortLaw { x with port := { x.port with meterLost := false } } := ⟨h1, h2, h3, h4, h5, h6, h7, h8, h9⟩
    unfold endLoss
    split
    · dsimp only
      split
      · exact hfound.congr (by simp) (by simp)
      · exact hfound
    · exact ⟨h1, h2, h3, h4, h5, h6, h7, h8, h9⟩
  have hread (x : State) (hx : PortLaw x) (dx dm : Nat) (kind : Option SampleKind) (r : Option MeterReading) :
      PortLaw { x with port := { x.port with reference := r, discards := 0, lastDx := dx, lastDm := dm, lastSample := kind } } := by
    obtain ⟨h1, h2, h3, h4, h5, h6, h7, h8, h9⟩ := hx
    exact ⟨h1, h2, h3, h4, h5, h6, h7, h8, Nat.zero_le _⟩
  have hjudged (x : State) (hx : PortLaw x) (kind : Option SampleKind) (n : Nat) :
      PortLaw { x with port := { x.port with lastSample := kind, meterJump := n } } := by
    obtain ⟨h1, h2, h3, h4, h5, h6, h7, h8, h9⟩ := hx
    exact ⟨h1, h2, h3, h4, h5, h6, h7, h8, h9⟩
  unfold Machine.goodSample
  split
  · exact hloss _ (hread s h s.port.lastDx s.port.lastDm _ _)
  · dsimp only
    split
    · exact hjudged _ (hloss _ (hread s h _ _ s.port.lastSample _)) _ _
    · exact (hjudged _ (hloss _ (hread s h _ _ s.port.lastSample _)) (some .good) _).congr
        (handIncrements_frame _ _ _).2.2.2.2.2.1 (handIncrements_frame _ _ _).1

/-! ## The moves -/

theorem PortLaw.post {s t : State} (h : PortLaw s) {kind : PostKind} (e : PostEffect kind s t) : PortLaw t := by
  have hstop (x : State) (hx : x.port = s.port) (hs : x.straps = s.straps) : PortLaw (Machine.forcedStop x) :=
    (h.congr hx hs).forcedStop
  cases e with
  | @firstStopped body r p hrole hs hr hp hdown => exact (hstop (accountCreated r p s) (by simp) (by simp)).congr (by simp) (by simp)
  | engagedStopped hrole hs hr hp hdown => exact hstop _ (by simp) (by simp)
  | stoppedStopped hrole hs hr hp hdown => exact hstop _ (by simp) (by simp)
  | closingStopped hrole hs hr hp hdown => exact hstop _ (by simp) (by simp)
  | unplugged hrole hs => exact hstop _ (by simp) (by simp)
  | @close reason hrole hs =>
    cases reason with
    | unplugged => exact hstop _ (by simp) (by simp)
    | _ => exact h.congr (by simp [closeStop]) (by simp [closeStop])
  | _ => exact h.congr (by simp) (by simp)

theorem PortLaw.effect {a : Agent} {s t : State} (h : PortLaw s) (e : Effect a s t) : PortLaw t := by
  cases e with
  | portTick => exact h.portTick
  | second =>
    have hsecond : PortLaw (countSeconds { s with time := { s.time with secondDue := false } }) := h.congr (by simp) (by simp)
    exact hsecond.counts rfl rfl rfl rfl (fun x hx => by simpa [takeSecond, requestRead] using hx) rfl rfl le_rfl
      hsecond.2.2.2.2.2.2.2.1 hsecond.2.2.2.2.2.2.2.2
  | linkError hx => exact h.takeLinkError hx
  | status st hx => exact h.takeStatus hx st
  | sample reading hx => exact h.endTransaction.goodSample reading
  | discard hx => exact h.endTransaction.discardSample
  | @post kind body _ hr hk =>
    have hpop : PortLaw (popHead s) := h.congr (by simp) (by simp)
    exact (hpop.post (ownerRule_effect kind body _)).congr (by simp) (by simp)
  | _ => exact h.congr (by simp) (by simp)

theorem PortLaw.move {a : Agent} {s t : State} (h : PortLaw s) (m : Move a s t) : PortLaw t := by
  cases m with
  | action e => exact (h.effect e).settle
  | restart =>
    have hreset := (laws_afterReset s.straps s.service.select s.pending).port
    obtain ⟨h1, h2, h3, -, h5, h6, h7, h8, h9⟩ := hreset
    refine ⟨h1, h2, h3, fun hr x hx => ?_, h5, h6, h7, h8, h9⟩
    replace hr : s.straps.role = .feeder := hr
    simp [restartState, restartLink, hr] at hx
  | requestRead =>
    exact h.counts rfl rfl rfl rfl (fun x hx => by simpa [requestRead] using hx) rfl rfl le_rfl
      h.2.2.2.2.2.2.2.1 h.2.2.2.2.2.2.2.2
  | owed n => exact h
  | _ => exact h.congr (by simp) (by simp)

end Sys2Proof.Machine

/-- Settles O13: every move keeps the port law. -/
theorem stepKeepsThePortLaw : Obligations.StepKeepsThePortLaw := by
  intro s t hs h
  exact step_keeps (P := PortLaw) (fun _ _ h => h.congr rfl rfl) (fun straps select pending => (laws_afterReset straps select pending).port)
    (fun _ _ _ m hs => hs.move m) hs h
end

