-- ==== Sys2Proof/Proofs/SessionLaws.lean ====
section
/-! SUPPORT. The laws of the session, its record and the Battery Account (R41, R42, R44, R53, R64, R66). -/

open Sys2Proof Sys2Proof.Machine

namespace Sys2Proof.Machine

/-! ## What becomes of the account -/

/-- An operation that neither creates nor discards the account. -/
def SameAccount (s t : State) : Prop := t.account.account.isSome = s.account.account.isSome

@[simp] theorem reserveCheck_account (s : State) : (reserveCheck s).account = s.account := by simp

theorem sameAccount_integrate (dx dm : Nat) (s : State) : SameAccount s (integrate dx dm s) := by
  unfold SameAccount integrate
  split
  · rfl
  · dsimp only
    split
    · rename_i h; simp [h]
    · rename_i h; simp [h]

theorem sameAccount_resync (soc : Nat) (s : State) : SameAccount s (resync soc s) := by
  unfold SameAccount resync
  split
  · rename_i h _
    dsimp only
    (repeat' split) <;> simp [h]
  · rfl

theorem sameAccount_computeOffer (share : Int) (s : State) : SameAccount s (computeOffer share s) := by
  unfold SameAccount computeOffer
  split
  · rename_i h _; simp [h]
  · rfl

theorem sameAccount_endLoss (s : State) : SameAccount s (endLoss s) := by
  unfold SameAccount endLoss
  split
  · dsimp only
    split <;> simp [markResync]
  · rfl

theorem sameAccount_takeBoundary (kind : BoundaryKind) (number : IntervalNo) (order : Order) (s : State) :
    SameAccount s (takeBoundary kind number order s) := by
  have htotals (x : State) : (closeTotals kind x).account.account = x.account.account := by
    simp [closeTotals, restartTotals]
  have hcompose (share : Int) (x : State) :
      (beginComposition share x).account.account.isSome = x.account.account.isSome := by
    unfold beginComposition
    split
    · exact sameAccount_computeOffer share x
    · rfl
  simp [SameAccount, takeBoundary, hcompose, htotals]

theorem sameAccount_handIncrements (dx dm : Nat) (s : State) : SameAccount s (handIncrements dx dm s) := by
  unfold handIncrements
  split
  · have := sameAccount_integrate dx dm (endOffer s)
    simpa [SameAccount] using this
  · rfl

theorem sameAccount_goodSample (reading : MeterReading) (s : State) : SameAccount s (goodSample reading s) := by
  unfold goodSample
  split
  · exact sameAccount_endLoss _
  · dsimp only
    split
    · exact sameAccount_endLoss _
    · exact (sameAccount_handIncrements _ _ _).trans (sameAccount_endLoss _)

/-! ## The session law -/

/-- The ranges of a session record (R41). -/
def RecordOk (r : SessionRecord) : Prop :=
  (1 ≤ r.tag ∧ r.tag ≤ 4294967295) ∧ (10000 ≤ r.capacity ∧ r.capacity ≤ 1000000) ∧ (10 ≤ r.pRate ∧ r.pRate ≤ 4000) ∧
    r.eRoute ≤ r.capacity ∧ r.depart ≤ 86400 ∧ r.age ≤ 65535 ∧
    ∀ p, r.pack = some p → p.soc ≤ 1000 ∧ p.pDis ≤ 4000 ∧ p.pChg ≤ 4000

/-- The laws of session state and record. -/
def SessionLaws (s : State) : Prop := SessionLaw s ∧ RecordLaw s

theorem sessionLaws_afterReset (straps : Straps) (select : Select) (pending : List Instr) :
    SessionLaws (.afterReset straps select pending) :=
  ⟨(laws_afterReset straps select pending).session, (laws_afterReset straps select pending).record⟩

theorem RecordLaw.ok {s : State} (h : RecordLaw s) {r : SessionRecord} (hr : s.session.record = some r) : RecordOk r := h r hr

theorem recordLaw_of_some {s : State} {r : SessionRecord} (hr : s.session.record = some r) (h : RecordOk r) : RecordLaw s := by
  intro x hx
  rw [hr] at hx
  cases hx
  exact h

/-- The law speaks of the session state, the record, the presence of the account, the role and a FAULTED port. -/
theorem SessionLaws.congr {s t : State} (h : SessionLaws s) (hs : t.straps = s.straps)
    (hstate : t.session.state = s.session.state) (hrecord : t.session.record = s.session.record) (haccount : SameAccount s t)
    (hport : t.port.state = .faulted → s.port.state = .faulted) : SessionLaws t := by
  obtain ⟨⟨hrole, hlaw⟩, hok⟩ := h
  unfold SameAccount at haccount
  refine ⟨⟨by rw [hs, hstate]; exact hrole, ?_⟩, fun r hr => hok r (hrecord ▸ hr)⟩
  have hnone : s.account.account = none → t.account.account = none := by
    intro hn; simpa [hn] using haccount
  rw [hstate, hrecord]
  cases hst : s.session.state <;> simp only [hst] at hlaw ⊢
  · exact ⟨hlaw.1, hnone hlaw.2⟩
  · exact ⟨hlaw.1, hnone hlaw.2⟩
  · exact ⟨hlaw.1, haccount ▸ hlaw.2.1, fun hf => hlaw.2.2 (hport hf)⟩
  · exact ⟨hlaw.1, haccount ▸ hlaw.2⟩
  · exact hlaw

/-- Operations that leave session, account and port as they are. -/
theorem SessionLaws.same {s t : State} (h : SessionLaws s) (hs : t.straps = s.straps) (hsession : t.session = s.session)
    (haccount : t.account = s.account) (hport : t.port = s.port) : SessionLaws t :=
  h.congr hs (by rw [hsession]) (by rw [hsession]) (by rw [SameAccount, haccount]) (by rw [hport]; exact id)

theorem faulted_of_forcedStop {s : State} (h : (forcedStop s).port.state = .faulted) : s.port.state = .faulted := by
  unfold forcedStop at h
  split at h
  · exact h
  · dsimp only at h
    split at h
    · assumption
    · cases h

/-- What a forced stop keeps of the session it keeps of the law. -/
theorem SessionLaws.forcedStop {s : State} (h : SessionLaws s) : SessionLaws (forcedStop s) :=
  h.congr (by simp) (by simp) (by simp) (by simp [SameAccount]) faulted_of_forcedStop

/-- An ENGAGED session that becomes STOPPED may have any port. -/
theorem SessionLaws.stopped {s t : State} (h : SessionLaws s) (he : s.session.state = .engaged) (hs : t.straps = s.straps)
    (hstate : t.session.state = .stopped) (hrecord : t.session.record = s.session.record) (haccount : SameAccount s t) :
    SessionLaws t := by
  obtain ⟨⟨hrole, hlaw⟩, hok⟩ := h
  rw [he] at hlaw hrole
  refine ⟨⟨fun hr => ?_, ?_⟩, fun r hr => hok r (hrecord ▸ hr)⟩
  · have := hrole (hs ▸ hr); cases this
  · rw [hstate]
    dsimp only at hlaw ⊢
    rw [hrecord]
    exact ⟨hlaw.1, haccount ▸ hlaw.2.1⟩

@[simp] theorem enterSession_session (state : SessionState) (s : State) :
    (enterSession state s).session = { s.session with state := state } := rfl

@[simp] theorem enterStopped_session (s : State) : (enterStopped s).session = { s.session with state := .stopped } := by
  simp [enterStopped]

theorem SessionLaws.enterFaulted {s : State} (h : SessionLaws s) (c : FaultCause) : SessionLaws (enterFaulted c s) := by
  unfold Machine.enterFaulted
  split
  · rename_i hf
    exact h.congr (by simp) (by simp) (by simp) (by simp [SameAccount]) (fun _ => hf)
  · dsimp only
    split
    · rename_i he
      exact h.stopped (by simpa using he) (by simp) (by simp) (by simp) (by simp [SameAccount])
    · rename_i he
      obtain ⟨⟨hrole, hlaw⟩, hok⟩ := h
      have hne : s.session.state ≠ .engaged := by simpa using he
      -- No ENGAGED session, so nothing is said of the port.
      refine ⟨⟨by simpa using hrole, ?_⟩, by simpa [RecordLaw] using hok⟩
      cases hst : s.session.state <;> simp_all

theorem SessionLaws.vacate {s : State} (h : SessionLaws s) : SessionLaws (vacate s) := by
  unfold Machine.vacate
  split
  · exact ⟨⟨fun _ => rfl, rfl, rfl⟩, fun r hr => by cases hr⟩
  · exact h

theorem SessionLaws.settle {s u : State} (h : SessionLaws u) : SessionLaws (settle s u) := by
  have henable : SessionLaws (requestEnable u) := by
    refine h.congr (by simp) (by simp) (by simp) (by simp [SameAccount]) fun hf => ?_
    unfold requestEnable at hf
    split at hf
    · cases hf
    · exact hf
  exact henable.vacate.same (by simp [Machine.settle]) (by simp [Machine.settle]) (by simp [Machine.settle]) (by simp [Machine.settle])

/-! ## The second event, the port's moves, and the meter -/

/-- A record that takes new values within the ranges, its pack data kept. -/
theorem SessionLaws.setRecord {s : State} (h : SessionLaws s) {r r' : SessionRecord} (hr : s.session.record = some r)
    (hp : r'.pack = r.pack) (hok : RecordOk r') : SessionLaws (setRecord r' s) := by
  obtain ⟨⟨hrole, hlaw⟩, -⟩ := h
  refine ⟨⟨hrole, ?_⟩, recordLaw_of_some rfl hok⟩
  change match s.session.state with
    | .vacant => some r' = none ∧ s.account.account = none
    | .awaiting => (∃ r, some r' = some r ∧ r.pack = none) ∧ s.account.account = none
    | .engaged => (∃ r p, some r' = some r ∧ r.pack = some p) ∧ s.account.account.isSome ∧ s.port.state ≠ .faulted
    | .stopped => (∃ r p, some r' = some r ∧ r.pack = some p) ∧ s.account.account.isSome
    | .closing => (some r').isSome
  cases hst : s.session.state <;> simp_all

theorem SessionLaws.countSeconds {s : State} (h : SessionLaws s) : SessionLaws (countSeconds s) := by
  unfold Machine.countSeconds
  cases hr : s.session.record with
  | none => exact h
  | some r =>
    have hcounted : SessionLaws (Machine.setRecord (secondTick r) s) := by
      obtain ⟨h1, h2, h3, h4, h5, h6, h7⟩ := h.2.ok hr
      exact h.setRecord hr rfl ⟨h1, h2, h3, h4, (Nat.sub_le _ _).trans h5, count_le _ h6, h7⟩
    dsimp only
    split
    · exact hcounted.same (by simp [Machine.setRecord]) (by simp [Machine.setRecord]) (by simp [Machine.setRecord])
        (by simp [Machine.setRecord])
    · exact hcounted

theorem SessionLaws.reportEffect {s : State} (h : SessionLaws s) (st : ConverterStatus) : SessionLaws (reportEffect st s) := by
  have hport (p : PortUnit) (hp : p.state = .faulted → s.port.state = .faulted) : SessionLaws { s with port := p } :=
    h.congr rfl rfl rfl rfl hp
  unfold Machine.reportEffect
  cases hs : s.port.state <;> cases st <;> dsimp only
  all_goals first
    | exact h
    | exact h.enterFaulted _
    | exact hport _ (fun hf => by cases hf)
    | exact hport _ id
    | exact (hport _ (fun _ => hs)).enterFaulted _
    | skip
  split
  · exact hport _ fun _ => hs
  · exact hport _ fun hf => by cases hf

theorem SessionLaws.portTick {s : State} (h : SessionLaws s) : SessionLaws (portTick s) := by
  have hstart (x : State) (hx : SessionLaws x) : SessionLaws (startExchange x) :=
    hx.congr (by simp) (by simp) (by simp) (by simp [SameAccount]) id
  unfold Machine.portTick
  split
  · exact h
  · refine hstart _ (h.congr (by simp) (by simp) (by simp) (by simp [SameAccount]) ?_)
    rw [rampTick_eq]
    split
    · exact id
    · exact fun hf => by cases hf
  · refine hstart _ ?_
    unfold waitTick
    dsimp only
    split
    · exact h.congr rfl rfl rfl rfl id
    · refine SessionLaws.enterFaulted ?_ _
      exact h.congr rfl rfl rfl rfl id
  all_goals exact hstart _ h

theorem goodSample_state (reading : MeterReading) (s : State) : (goodSample reading s).port.state = s.port.state := by
  have hloss (x : State) : (endLoss x).port.state = x.port.state := by
    unfold endLoss
    split
    · dsimp only; split <;> simp
    · rfl
  unfold goodSample
  split
  · exact hloss _
  · dsimp only
    split <;> simp [hloss]

theorem discardSample_state (s : State) : (discardSample s).port.state = s.port.state := by
  unfold discardSample beginLoss
  dsimp only
  split
  · split <;> simp
  · rfl

/-! ## The posts -/

theorem bytesNat_lt (bytes : List Byte) : bytesNat bytes < 256 ^ bytes.length := by
  induction bytes with
  | nil => simp [bytesNat]
  | cons b l ih =>
    rw [bytesNat_cons, List.length_cons, pow_succ]
    have hb : b.toNat ≤ 255 := by have := b.isLt; omega
    calc b.toNat * 256 ^ l.length + bytesNat l < b.toNat * 256 ^ l.length + 256 ^ l.length := by omega
      _ ≤ 255 * 256 ^ l.length + 256 ^ l.length := by gcongr
      _ = 256 ^ l.length * 256 := by ring

/-- A field of `width` bytes is a number of that width. -/
theorem field_lt (body : List Byte) (at_ width : Nat) : field body at_ width < 256 ^ width := by
  unfold field
  calc bytesNat ((body.drop at_).take width) < 256 ^ ((body.drop at_).take width).length := bytesNat_lt _
    _ ≤ 256 ^ width := Nat.pow_le_pow_right (by decide) (List.length_take_le _ _)

/-- The record a SESSION_OPEN creates lies in its ranges and has no pack data (R41, R45, R46). -/
theorem openRecord_ok {body : List Byte} {r : Ranged SessionRecord} (h : openRecord body = some r) :
    RecordOk r.value ∧ r.value.pack = none := by
  unfold openRecord at h
  dsimp only at h
  split at h
  · cases h
  · rename_i hne
    cases h
    have htag := field_lt body 0 4
    have hcapacity := ranged_bounds 10000 1000000 (field body 4 3) (by decide)
    have hrate := ranged_bounds 10 4000 (field body 7 2) (by decide)
    have hroute := ranged_bounds 0 (ranged 10000 1000000 (field body 4 3)).value (field body 9 3) (Nat.zero_le _)
    have hdepart := ranged_bounds 0 86400 (field body 12 3) (by decide)
    refine ⟨⟨⟨?_, ?_⟩, hcapacity, hrate, hroute.2, hdepart.2, Nat.zero_le _, fun p hp => by cases hp⟩, rfl⟩
    · dsimp only; omega
    · dsimp only; omega

/-- The pack data of a report lies in its ranges (R41, R45). -/
theorem reportedPack_ok (body : List Byte) :
    (reportedPack body).value.soc ≤ 1000 ∧ (reportedPack body).value.pDis ≤ 4000 ∧ (reportedPack body).value.pChg ≤ 4000 :=
  ⟨(ranged_bounds 0 1000 _ (by decide)).2, (ranged_bounds 0 4000 _ (by decide)).2, (ranged_bounds 0 4000 _ (by decide)).2⟩

/-- A record with the pack data of a report lies in its ranges. -/
theorem RecordOk.reported {r : SessionRecord} (h : RecordOk r) {p : PackData} {body : List Byte}
    (hp : p = (reportedPack body).value) : RecordOk { r with pack := some p, age := 0 } := by
  obtain ⟨h1, h2, h3, h4, h5, -, -⟩ := h
  refine ⟨h1, h2, h3, h4, h5, Nat.zero_le _, fun x hx => ?_⟩
  cases hx
  exact hp ▸ reportedPack_ok body

/-- A session with its record, pack data and account, STOPPED, or ENGAGED with a port that is not FAULTED. -/
theorem sessionLaws_of_pack {s : State} {r : SessionRecord} {p : PackData} (hrole : s.straps.role = .charger)
    (hrec : s.session.record = some r) (hok : RecordOk r) (hp : r.pack = some p) (ha : s.account.account.isSome)
    (hstate : s.session.state = .stopped ∨ s.session.state = .engaged ∧ s.port.state ≠ .faulted) : SessionLaws s := by
  refine ⟨⟨fun hr => absurd hr (by simp [hrole]), ?_⟩, recordLaw_of_some hrec hok⟩
  obtain hstate | ⟨hstate, hport⟩ := hstate <;> rw [hstate] <;> dsimp only
  · exact ⟨⟨r, p, hrec, hp⟩, ha⟩
  · exact ⟨⟨r, p, hrec, hp⟩, ha, hport⟩

/-- A CLOSING session needs a record alone. -/
theorem sessionLaws_of_closing {s : State} {r : SessionRecord} (hrole : s.straps.role = .charger)
    (hrec : s.session.record = some r) (hok : RecordOk r) (hstate : s.session.state = .closing) : SessionLaws s := by
  refine ⟨⟨fun hr => absurd hr (by simp [hrole]), ?_⟩, recordLaw_of_some hrec hok⟩
  rw [hstate]
  dsimp only
  rw [hrec]
  rfl

@[simp] theorem reportTaken_session (r : SessionRecord) (p : PackData) (s : State) :
    (reportTaken r p s).session = { s.session with record := some { r with pack := some p, age := 0 } } := rfl

@[simp] theorem accountCreated_session (r : SessionRecord) (p : PackData) (s : State) :
    (accountCreated r p s).session = { s.session with record := some { r with pack := some p, age := 0 } } ∧
      (accountCreated r p s).account = { s.account with account := some (createAccount p.soc r.capacity) } := ⟨rfl, rfl⟩

theorem SessionLaws.post {s t : State} (h : SessionLaws s) {kind : PostKind} (e : PostEffect kind s t) : SessionLaws t := by
  obtain ⟨⟨-, hlaw⟩, hok⟩ := id h
  have hsync (r : SessionRecord) (p : PackData) (ha : s.account.account.isSome) :
      (resync p.soc (reportTaken r p s)).account.account.isSome :=
    (sameAccount_resync p.soc (reportTaken r p s)).trans ha
  have hrecorded : s.session.state.inSession = true → ∃ r, s.session.record = some r := by
    intro hs
    cases hst : s.session.state <;> simp only [hst] at hlaw hs
    · cases hs
    · exact ⟨_, hlaw.1.choose_spec.1⟩
    · exact ⟨_, hlaw.1.choose_spec.choose_spec.1⟩
    · exact ⟨_, hlaw.1.choose_spec.choose_spec.1⟩
    · cases hs
  cases e with
  | opened hrole hs hr =>
    obtain ⟨hrange, hpack⟩ := openRecord_ok hr
    rw [hs] at hlaw
    exact ⟨⟨fun hf => absurd (show s.straps.role = .feeder from hf) (by simp [hrole]), ⟨_, rfl, hpack⟩, hlaw.2⟩,
      recordLaw_of_some rfl hrange⟩
  | @firstStopped body r p hrole hs hr hp hstop =>
    exact sessionLaws_of_pack (by simpa using hrole) (by simp) ((hok.ok hr).reported hp) rfl (by simp) (.inl rfl)
  | @first body r p hrole hs hr hp hstop =>
    refine sessionLaws_of_pack (by simpa using hrole) (by simp) ((hok.ok hr).reported hp) rfl (by simp) ?_
    by_cases hf : s.port.state = .faulted
    · exact .inl (by simp [hf])
    · exact .inr ⟨by simp [hf], by simpa using hf⟩
  | @engagedStopped body r p hrole hs hr hp hstop =>
    rw [hs] at hlaw
    exact sessionLaws_of_pack (by simpa using hrole) (by simp) ((hok.ok hr).reported hp) rfl
      (by simpa using hsync r p hlaw.2.1) (.inl (by simp))
  | @engaged body r p hrole hs hr hp hstop =>
    rw [hs] at hlaw
    exact sessionLaws_of_pack (by simpa using hrole) (by simp) ((hok.ok hr).reported hp) rfl
      (by simpa using hsync r p hlaw.2.1) (.inr ⟨by simpa using hs, by simpa using hlaw.2.2⟩)
  | @stoppedStopped body r p hrole hs hr hp hstop =>
    rw [hs] at hlaw
    exact sessionLaws_of_pack (by simpa using hrole) (by simp) ((hok.ok hr).reported hp) rfl
      (by simpa using hsync r p hlaw.2) (.inl (by simpa using hs))
  | @stoppedFaulted body r p hrole hs hr hp hstop hport =>
    rw [hs] at hlaw
    exact sessionLaws_of_pack (by simpa using hrole) (by simp) ((hok.ok hr).reported hp) rfl
      (by simpa using hsync r p hlaw.2) (.inl (by simpa using hs))
  | @stopped body r p hrole hs hr hp hstop hport =>
    rw [hs] at hlaw
    exact sessionLaws_of_pack (by simpa using hrole) (by simp) ((hok.ok hr).reported hp) rfl
      (by simpa using hsync r p hlaw.2) (.inr ⟨rfl, by simpa using hport⟩)
  | @closingStopped body r p hrole hs hr hp hstop =>
    exact sessionLaws_of_closing (by simpa using hrole) (by simp) ((hok.ok hr).reported hp) (by simpa using hs)
  | @closing body r p hrole hs hr hp hstop =>
    exact sessionLaws_of_closing (by simpa using hrole) (by simp) ((hok.ok hr).reported hp) (by simpa using hs)
  | departure hrole hs hr hd he =>
    obtain ⟨h1, h2, h3, -, -, h6, h7⟩ := hok.ok hr
    exact h.setRecord hr rfl ⟨h1, h2, h3, he, hd, h6, h7⟩
  | @pause r hrole hs hr hp =>
    have hr' : RecordOk r := hok.ok hr
    have hset : SessionLaws (Machine.setRecord { r with paused := true } s) := h.setRecord hr rfl hr'
    exact hset.same (by simp) (by simp) (by simp) (by simp)
  | @resume r hrole hs hr hp =>
    have hr' : RecordOk r := hok.ok hr
    exact h.setRecord hr rfl hr'
  | @close reason hrole hs =>
    obtain ⟨r, hr⟩ := hrecorded hs
    have hclosed : SessionLaws (enterSession .closing (withdraw (closeWithdraw reason) (cut 0 .close (closeNoted reason s)))) :=
      sessionLaws_of_closing (by simpa using hrole) (by simpa [closeNoted] using hr) (hok.ok hr) rfl
    unfold closeStop
    split
    · exact hclosed.forcedStop
    · exact hclosed
    · exact hclosed
  | unplugged hrole hs =>
    have hnoted : SessionLaws (closeNoted .unplugged s) := h.congr rfl rfl rfl rfl id
    exact hnoted.forcedStop
  | _ => exact h.congr rfl rfl rfl rfl id

/-! ## The moves -/

theorem SessionLaws.takeBoundary {s : State} (h : SessionLaws s) (kind : BoundaryKind) (number : IntervalNo) (order : Order) :
    SessionLaws (takeBoundary kind number order s) :=
  h.congr (by simp) (by simp) (by simp) (sameAccount_takeBoundary kind number order s) (by simp)

theorem SessionLaws.hearing {s t : State} (h : SessionLaws s) (m : Hearing s t) : SessionLaws t := by
  cases m with
  | boundary number order hg =>
    have hpoints : SessionLaws (takePoints order s) := h.same (by simp) (by simp) (by simp) (by simp)
    exact hpoints.takeBoundary _ _ _
  | _ => exact h.same (by simp) (by simp) (by simp) (by simp)

theorem SessionLaws.effect {a : Agent} {s t : State} (h : SessionLaws s) (e : Effect a s t) : SessionLaws t := by
  cases e with
  | timer order =>
    unfold timerTick
    (repeat' split) <;> first | exact h.takeBoundary _ _ _ | exact h.same rfl rfl rfl rfl
  | receive levels order => exact receive_keeps (fun _ _ m hs => SessionLaws.hearing hs m) (fun _ _ h => h) levels order h
  | portTick => exact h.portTick
  | second =>
    have htime : SessionLaws { s with time := { s.time with secondDue := false } } := h.same rfl rfl rfl rfl
    exact htime.countSeconds.congr (by simp [takeSecond]) (by simp [takeSecond]) (by simp [takeSecond])
      (by simp [takeSecond, SameAccount]) id
  | seconds => exact h.countSeconds
  | linkError hx =>
    unfold takeLinkError
    dsimp only
    split
    · refine SessionLaws.enterFaulted ?_ _
      exact h.congr (by simp) (by simp) (by simp) (by simp [SameAccount]) (by simp)
    · exact h.congr (by simp) (by simp) (by simp) (by simp [SameAccount]) (by simp)
  | status st hx =>
    refine SessionLaws.reportEffect ?_ st
    exact h.congr (by simp) (by simp) (by simp) (by simp [SameAccount]) (by simp)
  | sample reading hx =>
    refine h.congr (by simp) (by simp) (by simp) ?_ (by simp [goodSample_state, endTransaction])
    exact (sameAccount_goodSample reading (endTransaction s)).trans (by simp)
  | discard hx =>
    exact h.congr (by simp) (by simp) (by simp) (by simp [SameAccount]) (by simp [takeDiscard, discardSample_state, endTransaction])
  | @post kind body _ hr hk =>
    have hpop : SessionLaws (popHead s) := h.same (by simp) (by simp) (by simp) (by simp)
    exact (hpop.post (ownerRule_effect kind body _)).same (by simp) (by simp) (by simp) (by simp)
  | _ => exact h.same (by simp) (by simp) (by simp) (by simp)

theorem SessionLaws.move {a : Agent} {s t : State} (h : SessionLaws s) (m : Move a s t) : SessionLaws t := by
  cases m with
  | action e => exact (h.effect e).settle
  | restart =>
    refine (sessionLaws_afterReset s.straps s.service.select s.pending).congr rfl rfl rfl rfl fun hf => ?_
    cases hr : s.straps.role <;> simp [restartState, PortUnit.reset, hr] at hf
  | vacate => exact h.vacate
  | requestRead => exact h.congr rfl rfl rfl rfl id
  | owed n => exact h.congr rfl rfl rfl rfl id
  | _ => exact h.same (by simp) (by simp) (by simp) (by simp)

end Sys2Proof.Machine

/-- Settles O10: every move keeps session law and record law together. -/
theorem stepKeepsTheSessionLaw : Obligations.StepKeepsTheSessionLaw := by
  intro s t hs h
  exact step_keeps (P := SessionLaws) (fun _ _ h => h.same rfl rfl rfl rfl) sessionLaws_afterReset (fun _ _ _ m hs => hs.move m) hs h
end

