-- ==== Sys2Proof/Proofs/AccountAndShareLaws.lean ====
section
/-! SUPPORT. The account law (R66) and the applied share laws (R115), and that between boundaries the share only falls (R116). -/

open Sys2Proof Sys2Proof.Machine

namespace Sys2Proof.Machine

/-! ## The account law -/

/-- An operation that leaves the balance, or the absence of an account, as it is. -/
def SameBalance (s t : State) : Prop := t.account.account.map Account.balance = s.account.account.map Account.balance

theorem AccountLaw.congr {s t : State} (h : AccountLaw s) (hstate : t.session.state = .vacant → s.session.state = .vacant)
    (hbalance : SameBalance s t)
    (hcapacity : t.session.record.map SessionRecord.capacity = s.session.record.map SessionRecord.capacity) : AccountLaw t := by
  obtain ⟨hvacant, hbound⟩ := h
  unfold SameBalance at hbalance
  refine ⟨fun hv => ?_, fun a r ha hr => ?_⟩
  · simpa [hvacant (hstate hv)] using hbalance
  · simp only [ha, hr, Option.map_some] at hbalance hcapacity
    obtain ⟨a', ha', hb⟩ := Option.map_eq_some_iff.mp hbalance.symm
    obtain ⟨r', hr', hc⟩ := Option.map_eq_some_iff.mp hcapacity.symm
    rw [← hb, ← hc]
    exact hbound a' r' ha' hr'

theorem AccountLaw.same {s t : State} (h : AccountLaw s) (hsession : t.session = s.session) (haccount : t.account = s.account) :
    AccountLaw t := by
  simpa [AccountLaw, hsession, haccount] using h

/-- A balance within the bound that replaces one. -/
theorem AccountLaw.rebalanced {s t : State} (h : AccountLaw s) (hsession : t.session = s.session) (haccount : SameAccount s t)
    (hbound : ∀ a r, t.account.account = some a → s.session.record = some r → a.balance ≤ 10 * r.capacity) : AccountLaw t := by
  refine ⟨fun hv => ?_, fun a r ha hr => hbound a r ha (hsession ▸ hr)⟩
  rw [hsession] at hv
  simpa [SameAccount, h.1 hv] using haccount

theorem AccountLaw.integrate {s : State} (h : AccountLaw s) (dx dm : Nat) : AccountLaw (integrate dx dm s) := by
  refine h.rebalanced (by simp) (sameAccount_integrate dx dm s) fun a r ha hr => ?_
  unfold Machine.integrate at ha
  rw [hr] at ha
  dsimp only at ha
  split at ha
  · rename_i hn; simp [hn] at ha
  · simp only [reserveCheck_account, Option.some.injEq] at ha
    subst ha
    exact clampNat_le _ _

/-- What a report of at most 1000 per mille stands for is within the capacity (R65, R67). -/
theorem reported_le {soc : Nat} (h : soc ≤ 1000) (capacity : Nat) : reported soc capacity ≤ capacity := by
  unfold reported
  rw [Nat.div_le_iff_le_mul_add_pred (by decide)]
  have := Nat.mul_le_mul_right capacity h
  omega

theorem AccountLaw.resync {s : State} (h : AccountLaw s) {soc : Nat} (hsoc : soc ≤ 1000) : AccountLaw (resync soc s) := by
  refine h.rebalanced (by simp) (sameAccount_resync soc s) fun a r ha hr => ?_
  unfold Machine.resync at ha
  split at ha
  · rename_i a' r' ha' hr'
    rw [hr] at hr'
    cases hr'
    have hold := h.2 a' r ha' hr
    have hnew : 10 * reported soc r.capacity ≤ 10 * r.capacity := Nat.mul_le_mul_left 10 (reported_le hsoc _)
    dsimp only at ha
    (repeat' split at ha) <;> simp_all
    all_goals subst ha; dsimp only; omega
  · exact h.2 a r ha hr

theorem sameBalance_computeOffer (share : Int) (s : State) : SameBalance s (computeOffer share s) := by
  unfold SameBalance computeOffer
  split
  · rename_i h _; simp [h]
  · rfl

theorem sameBalance_takeBoundary (kind : BoundaryKind) (number : IntervalNo) (order : Order) (s : State) :
    SameBalance s (takeBoundary kind number order s) := by
  have htotals (x : State) : (closeTotals kind x).account.account = x.account.account := by
    simp [closeTotals, restartTotals]
  have hcompose (share : Int) (x : State) :
      (beginComposition share x).account.account.map Account.balance = x.account.account.map Account.balance := by
    unfold beginComposition
    split
    · exact sameBalance_computeOffer share x
    · rfl
  simp [SameBalance, takeBoundary, hcompose, htotals]

theorem AccountLaw.takeBoundary {s : State} (h : AccountLaw s) (kind : BoundaryKind) (number : IntervalNo) (order : Order) :
    AccountLaw (takeBoundary kind number order s) :=
  h.congr (by simp) (sameBalance_takeBoundary kind number order s) (by simp)

theorem AccountLaw.endLoss {s : State} (h : AccountLaw s) : AccountLaw (endLoss s) := by
  refine h.congr (by simp) ?_ (by simp)
  unfold SameBalance Machine.endLoss
  split
  · dsimp only
    split
    · cases ha : s.account.account <;> simp [markResync, ha]
    · rfl
  · rfl

theorem AccountLaw.goodSample {s : State} (h : AccountLaw s) (reading : MeterReading) : AccountLaw (goodSample reading s) := by
  unfold Machine.goodSample
  split
  · refine AccountLaw.endLoss ?_
    exact h.same rfl rfl
  · dsimp only
    split
    · refine AccountLaw.same (AccountLaw.endLoss ?_) rfl rfl
      exact h.same rfl rfl
    · have hended (x : State) (hx : AccountLaw x) (dx dm : Nat) (r : Option MeterReading) : AccountLaw
          (handIncrements dx dm { Machine.endLoss { x with port := { x.port with reference := r, discards := 0, lastDx := dx, lastDm := dm } }
            with port := { (Machine.endLoss { x with port := { x.port with reference := r, discards := 0, lastDx := dx, lastDm := dm } }).port
              with lastSample := some .good } }) := by
        have hl : AccountLaw (Machine.endLoss { x with port := { x.port with reference := r, discards := 0, lastDx := dx, lastDm := dm } }) :=
          AccountLaw.endLoss (hx.same rfl rfl)
        unfold handIncrements
        split
        · refine AccountLaw.integrate ?_ _ _
          exact hl.same (by simp) (by simp)
        · exact hl.same rfl rfl
      exact hended s h _ _ _

theorem AccountLaw.vacate {s : State} (h : AccountLaw s) : AccountLaw (vacate s) := by
  unfold Machine.vacate
  split
  · exact ⟨fun _ => rfl, fun a r ha => by cases ha⟩
  · exact h

theorem enterFaulted_session (c : FaultCause) (s : State) :
    (enterFaulted c s).session.record = s.session.record ∧
      ((enterFaulted c s).session.state = s.session.state ∨ (enterFaulted c s).session.state = .stopped) := by
  unfold enterFaulted
  split
  · exact ⟨rfl, .inl rfl⟩
  · dsimp only
    split <;> simp

theorem AccountLaw.enterFaulted {s : State} (h : AccountLaw s) (c : FaultCause) : AccountLaw (enterFaulted c s) := by
  obtain ⟨hrecord, hstate⟩ := enterFaulted_session c s
  refine h.congr (fun hv => ?_) (by simp [SameBalance]) (by rw [hrecord])
  obtain hstate | hstate := hstate
  · rw [← hstate, hv]
  · rw [hstate] at hv; cases hv

theorem AccountLaw.reportEffect {s : State} (h : AccountLaw s) (st : ConverterStatus) : AccountLaw (reportEffect st s) := by
  have hport (p : PortUnit) : AccountLaw { s with port := p } := h.same rfl rfl
  unfold Machine.reportEffect
  cases s.port.state <;> cases st <;> dsimp only
  all_goals first
    | exact h
    | exact h.enterFaulted _
    | exact hport _
    | exact (hport _).enterFaulted _
    | (split <;> exact hport _)

theorem AccountLaw.post {s t : State} (h : AccountLaw s) {kind : PostKind} (e : PostEffect kind s t) : AccountLaw t := by
  have hsoc {body : List Byte} {p : PackData} (hp : p = (reportedPack body).value) : p.soc ≤ 1000 := hp ▸ (reportedPack_ok body).1
  have htaken {r : SessionRecord} (p : PackData) (hr : s.session.record = some r) : AccountLaw (reportTaken r p s) :=
    h.congr id rfl (by simp [hr])
  have hcreated {r : SessionRecord} {p : PackData} (hs : s.session.state = .awaiting) (hp : p.soc ≤ 1000) :
      AccountLaw (accountCreated r p s) := by
    refine ⟨fun hv => absurd (hs.symm.trans hv) (by decide), fun a r' ha hr' => ?_⟩
    simp only [accountCreated_session, Option.some.injEq] at ha hr'
    subst ha hr'
    exact Nat.mul_le_mul_left 10 (reported_le hp _)
  cases e with
  | opened hrole hs hr =>
    refine ⟨fun hv => (by cases hv), fun a r ha _ => ?_⟩
    replace ha : s.account.account = some a := ha
    rw [h.1 hs] at ha
    cases ha
  | @firstStopped body r p hrole hs hr hp hstop =>
    exact (hcreated (r := r) hs (hsoc hp)).congr (fun hv => by cases hv) (by simp [SameBalance]) (by simp)
  | @first body r p hrole hs hr hp hstop =>
    refine (hcreated (r := r) hs (hsoc hp)).congr (fun hv => ?_) (by simp [SameBalance]) (by simp)
    simp only [enterSession_session] at hv
    split at hv <;> cases hv
  | @engagedStopped body r p hrole hs hr hp hstop =>
    exact ((htaken p hr).resync (hsoc hp)).congr (fun hv => by simp at hv) (by simp [SameBalance]) (by simp)
  | @engaged body r p hrole hs hr hp hstop => exact ((htaken p hr).resync (hsoc hp)).same (by simp) (by simp)
  | @stoppedStopped body r p hrole hs hr hp hstop => exact ((htaken p hr).resync (hsoc hp)).same (by simp) (by simp)
  | stoppedFaulted hrole hs hr hp hstop hport => exact (htaken _ hr).resync (hsoc hp)
  | @stopped body r p hrole hs hr hp hstop hport =>
    exact ((htaken p hr).resync (hsoc hp)).congr (fun hv => by cases hv) (by simp [SameBalance]) (by simp)
  | @closingStopped body r p hrole hs hr hp hstop => exact (htaken p hr).same (by simp) (by simp)
  | closing hrole hs hr hp hstop => exact htaken _ hr
  | departure hrole hs hr hd he => exact h.congr id rfl (by simp [setRecord, hr])
  | pause hrole hs hr hp => exact h.congr (by simp [setRecord]) (by simp [SameBalance]) (by simp [setRecord, hr])
  | resume hrole hs hr hp => exact h.congr id rfl (by simp [setRecord, hr])
  | close hrole hs =>
    exact h.congr (fun hv => by simp at hv) (by simp [SameBalance]) (by simp [closeNoted])
  | unplugged hrole hs => exact h.congr (by simp [closeNoted]) (by simp [SameBalance]) (by simp [closeNoted])
  | _ => exact h.same rfl rfl

theorem AccountLaw.countSeconds {s : State} (h : AccountLaw s) : AccountLaw (countSeconds s) := by
  unfold Machine.countSeconds
  cases hr : s.session.record with
  | none => exact h
  | some r =>
    have hcounted : AccountLaw { s with session := { s.session with record := some (secondTick r) } } :=
      h.congr id rfl (by simp [secondTick, hr])
    dsimp only
    split
    · exact hcounted.same (by simp) (by simp)
    · exact hcounted

theorem AccountLaw.hearing {s t : State} (h : AccountLaw s) (m : Hearing s t) : AccountLaw t := by
  cases m with
  | boundary number order hg =>
    have hpoints : AccountLaw (takePoints order s) := h.same (by simp) (by simp)
    exact hpoints.takeBoundary _ _ _
  | _ => exact h.same (by simp) (by simp)

theorem AccountLaw.effect {a : Agent} {s t : State} (h : AccountLaw s) (e : Effect a s t) : AccountLaw t := by
  cases e with
  | timer order =>
    unfold timerTick
    (repeat' split) <;> first | exact h.takeBoundary _ _ _ | exact h.same rfl rfl
  | receive levels order => exact receive_keeps (fun _ _ m hs => AccountLaw.hearing hs m) (fun _ _ h => h) levels order h
  | portTick =>
    have hwait : AccountLaw (waitTick s) := by
      unfold waitTick
      dsimp only
      split
      · exact h.same rfl rfl
      · refine AccountLaw.enterFaulted ?_ _
        exact h.same rfl rfl
    unfold portTick
    split
    · exact h
    · exact h.same (by simp) (by simp)
    · exact hwait.same (by simp) (by simp)
    all_goals exact h.same (by simp) (by simp)
  | second =>
    have htime : AccountLaw { s with time := { s.time with secondDue := false } } := h.same rfl rfl
    exact htime.countSeconds.same (by simp [takeSecond]) (by simp [takeSecond])
  | seconds => exact h.countSeconds
  | linkError hx =>
    unfold takeLinkError
    dsimp only
    split
    · refine AccountLaw.enterFaulted ?_ _
      exact h.same (by simp) (by simp)
    · exact h.same (by simp) (by simp)
  | status st hx =>
    refine AccountLaw.reportEffect ?_ st
    exact h.same (by simp) (by simp)
  | sample reading hx =>
    refine AccountLaw.goodSample ?_ _
    exact h.same (by simp) (by simp)
  | @post kind body _ hr hk =>
    have hpop : AccountLaw (popHead s) := h.same (by simp) (by simp)
    exact (hpop.post (ownerRule_effect kind body _)).same (by simp) (by simp)
  | _ => exact h.same (by simp) (by simp)

theorem AccountLaw.move {a : Agent} {s t : State} (h : AccountLaw s) (m : Move a s t) : AccountLaw t := by
  cases m with
  | @action _ _ u e =>
    have henable : AccountLaw (requestEnable u) := (h.effect e).same (by simp) (by simp)
    exact henable.vacate.same (by simp [settle]) (by simp [settle])
  | restart => exact (laws_afterReset s.straps s.service.select s.pending).account.same rfl rfl
  | vacate => exact h.vacate
  | _ => exact h.same (by simp) (by simp)

end Sys2Proof.Machine

/-- Settles O11: every move keeps the account law, in which no account stands beside a VACANT session. -/
theorem stepKeepsTheAccountLaw : Obligations.StepKeepsTheAccountLaw := by
  intro s t hs h
  exact step_keeps (P := AccountLaw) (fun _ _ h => h.same rfl rfl)
    (fun straps select pending => (laws_afterReset straps select pending).account) (fun _ _ _ m hs => hs.move m) hs h
end

