-- ==== Sys2Proof/Proofs/ShareLaws.lean ====
section
/-! SUPPORT. The applied share: between boundaries it only falls (R116), and it runs only where R115 lets it. -/

open Sys2Proof Sys2Proof.Machine

namespace Sys2Proof.Machine

/-! ## A share that falls (R116) -/

/-- The applied share was at most reduced toward zero, and kept its sign. -/
def Fell (s t : State) : Prop :=
  (0 ≤ s.apply.share → 0 ≤ t.apply.share ∧ t.apply.share ≤ s.apply.share) ∧
    (s.apply.share ≤ 0 → s.apply.share ≤ t.apply.share ∧ t.apply.share ≤ 0)

theorem Fell.refl (s : State) : Fell s s := ⟨fun h => ⟨h, le_rfl⟩, fun h => ⟨le_rfl, h⟩⟩

theorem Fell.trans {s t u : State} (h : Fell s t) (h' : Fell t u) : Fell s u :=
  ⟨fun hs => ⟨(h'.1 (h.1 hs).1).1, (h'.1 (h.1 hs).1).2.trans (h.1 hs).2⟩,
    fun hs => ⟨(h.2 hs).1.trans (h'.2 (h.2 hs).2).1, (h'.2 (h.2 hs).2).2⟩⟩

theorem Fell.of_eq {s t : State} (h : t.apply.share = s.apply.share) : Fell s t := by
  unfold Fell; rw [h]; exact Fell.refl s

theorem Fell.of_zero {s t : State} (h : t.apply.share = 0) : Fell s t := by
  unfold Fell; rw [h]; exact ⟨fun hs => ⟨le_rfl, hs⟩, fun hs => ⟨hs, le_rfl⟩⟩

theorem Fell.congr {s t u v : State} (h : Fell s t) (hs : u.apply.share = s.apply.share) (ht : v.apply.share = t.apply.share) :
    Fell u v := by
  unfold Fell at *; rw [hs, ht]; exact h

/-- From 0 a share falls nowhere. -/
theorem Fell.zero {s t : State} (h : Fell s t) (hs : s.apply.share = 0) : t.apply.share = 0 :=
  le_antisymm (h.2 hs.le).2 (h.1 hs.ge).1

theorem Fell.natAbs_le {s t : State} (h : Fell s t) : t.apply.share.natAbs ≤ s.apply.share.natAbs := by
  obtain ⟨hp, hn⟩ := h
  rcases le_total 0 s.apply.share with hs | hs
  · have := hp hs; omega
  · have := hn hs; omega

theorem fell_cut (bound : Nat) (c : Cut) (s : State) : Fell s (cut bound c s) := by
  obtain ⟨habs, hpos, hneg, -⟩ := cut_spec bound c s
  constructor
  · intro hs; have := hpos hs; omega
  · intro hs; have := hneg hs; omega

theorem fell_reserveCheck (s : State) : Fell s (reserveCheck s) := by
  unfold reserveCheck
  split
  · exact Fell.of_zero (by simp)
  · exact Fell.refl s

theorem fell_integrate (dx dm : Nat) (s : State) : Fell s (integrate dx dm s) := by
  unfold integrate
  split
  · exact Fell.refl s
  · dsimp only
    split
    · exact Fell.refl s
    · refine Fell.trans ?_ (fell_reserveCheck _)
      exact Fell.of_eq rfl

theorem fell_resync (soc : Nat) (s : State) : Fell s (resync soc s) := by
  unfold resync
  split
  · dsimp only
    refine Fell.trans ?_ (fell_reserveCheck _)
    refine Fell.of_eq ?_
    (repeat' split) <;> simp
  · exact Fell.refl s

theorem fell_packClip (s : State) : Fell s (packClip s) := by
  unfold packClip
  split
  · exact (fell_cut (s.limit s.apply.share) .packClip s).trans (Fell.of_eq (by simp))
  · exact Fell.refl s

@[simp] theorem enterStopped_share (s : State) : (enterStopped s).apply.share = 0 := by simp [enterStopped]

theorem fell_enterFaulted (c : FaultCause) (s : State) : Fell s (enterFaulted c s) := by
  unfold enterFaulted
  split
  · exact Fell.of_eq (by simp)
  · dsimp only
    split <;> exact Fell.of_zero (by simp)

theorem fell_reportEffect (st : ConverterStatus) (s : State) : Fell s (reportEffect st s) := by
  unfold reportEffect
  cases s.port.state <;> cases st <;> dsimp only
  all_goals first
    | exact Fell.refl s
    | exact fell_enterFaulted _ _
    | exact Fell.trans (t := { s with port := { s.port with offRun := 0 } }) (Fell.of_eq rfl) (fell_enterFaulted _ _)
    | exact Fell.of_eq rfl
    | (split <;> exact Fell.of_eq rfl)

theorem fell_waitTick (s : State) : Fell s (waitTick s) := by
  unfold waitTick
  dsimp only
  split
  · exact Fell.of_eq rfl
  · refine Fell.trans ?_ (fell_enterFaulted .enableTimeout _)
    exact Fell.of_eq rfl

theorem fell_portTick (s : State) : Fell s (portTick s) := by
  unfold portTick
  split
  · exact Fell.refl s
  · exact Fell.of_eq (by simp)
  · exact (fell_waitTick s).trans (Fell.of_eq (by simp))
  all_goals exact Fell.of_eq (by simp)

theorem fell_countSeconds (s : State) : Fell s (countSeconds s) := by
  unfold countSeconds
  split
  · exact Fell.refl s
  · dsimp only
    split
    · exact Fell.of_zero (by simp)
    · exact Fell.of_eq rfl

theorem fell_handIncrements (dx dm : Nat) (s : State) : Fell s (handIncrements dx dm s) := by
  unfold handIncrements
  split
  · exact (fell_integrate dx dm (endOffer s)).congr (by simp) rfl
  · exact Fell.of_eq rfl

theorem fell_goodSample (reading : MeterReading) (s : State) : Fell s (goodSample reading s) := by
  unfold goodSample
  split
  · exact Fell.of_eq (by simp)
  · dsimp only
    split
    · exact Fell.of_eq (by simp)
    · refine Fell.trans ?_ (fell_handIncrements _ _ _)
      exact Fell.of_eq (by simp)

theorem fell_discardSample (s : State) : Fell s (discardSample s) := by
  unfold discardSample beginLoss
  dsimp only
  split
  · split <;> exact Fell.of_zero (by simp)
  · exact Fell.of_eq rfl

theorem fell_post {s t : State} {kind : PostKind} (e : PostEffect kind s t) : Fell s t := by
  cases e with
  | engagedStopped hrole hs hr hp hstop => exact Fell.of_zero (by simp)
  | @engaged body r p hrole hs hr hp hstop =>
    exact (Fell.trans (Fell.of_eq rfl) (fell_resync p.soc (reportTaken r p s))).trans (fell_packClip _)
  | @stoppedStopped body r p hrole hs hr hp hstop => exact (fell_resync p.soc (reportTaken r p s)).congr rfl (by simp)
  | @stoppedFaulted body r p hrole hs hr hp hstop hport => exact (fell_resync p.soc (reportTaken r p s)).congr rfl rfl
  | @stopped body r p hrole hs hr hp hstop hport => exact (fell_resync p.soc (reportTaken r p s)).congr rfl (by simp)
  | close hrole hs => exact Fell.of_zero (by simp)
  | pause hrole hs hr hp => exact Fell.of_zero (by simp)
  | _ => exact Fell.of_eq (by simp)

/-- Neither the port's tick nor any action but a boundary raises or turns the share. -/
theorem Effect.fell {a : Agent} {s t : State} (e : Effect a s t) (ht : a ≠ .timer) (hf : a ≠ .frames) : Fell s t := by
  cases e with
  | timer => exact absurd rfl ht
  | receive => exact absurd rfl hf
  | portTick => exact fell_portTick s
  | second => exact (fell_countSeconds { s with time := { s.time with secondDue := false } }).congr rfl (by simp [takeSecond])
  | seconds => exact fell_countSeconds s
  | linkError hx =>
    unfold takeLinkError
    dsimp only
    split
    · refine Fell.trans ?_ (fell_enterFaulted _ _)
      exact Fell.of_eq (by simp)
    · exact Fell.of_eq (by simp)
  | status st hx =>
    refine Fell.trans ?_ (fell_reportEffect st _)
    exact Fell.of_eq (by simp)
  | sample reading hx => exact (fell_goodSample reading (endTransaction s)).congr (by simp) rfl
  | discard hx => exact (fell_discardSample (endTransaction s)).congr (by simp) (by simp [takeDiscard])
  | @post kind body _ hr hk => exact (fell_post (ownerRule_effect kind body (popHead s))).congr (by simp) (by simp)
  | _ => exact Fell.of_eq (by simp)

theorem Move.fell {a : Agent} {s t : State} (m : Move a s t) (ht : a ≠ .timer) (hf : a ≠ .frames) : Fell s t := by
  cases m with
  | action e => exact (e.fell ht hf).congr rfl (by simp)
  | restart => exact Fell.of_zero rfl
  | _ => exact Fell.of_eq (by simp)

/-! ## The applied share laws (R115) -/

theorem ShareLaw.same {s t : State} (h : ShareLaw s) (happly : t.apply.share = s.apply.share) (hsession : t.session = s.session)
    (hmeter : t.port.meterLost = s.port.meterLost) : ShareLaw t := by
  simpa [ShareLaw, State.paused, State.stale, State.limit, happly, hsession, hmeter] using h

theorem shareLaw_of_zero {s : State} (h : s.apply.share = 0) : ShareLaw s :=
  ⟨fun hne => absurd h hne, by simp [h]⟩

/-- A share that falls stays within the law while the session and the meter stay as they are. -/
theorem ShareLaw.fell {s t : State} (h : ShareLaw s) (hfell : Fell s t) (hsession : t.session = s.session)
    (hmeter : t.port.meterLost = s.port.meterLost) : ShareLaw t := by
  by_cases ht : t.apply.share = 0
  · exact shareLaw_of_zero ht
  · have hs : s.apply.share ≠ 0 := fun hs => ht (hfell.zero hs)
    have hsign : t.apply.share < 0 ↔ s.apply.share < 0 := by
      obtain ⟨hp, hn⟩ := hfell
      rcases lt_or_gt_of_ne hs with hs | hs
      · have := hn hs.le; omega
      · have := hp hs.le; omega
    obtain ⟨hrun, hlimit⟩ := h
    refine ⟨fun _ => ?_, hfell.natAbs_le.trans (hlimit.trans (le_of_eq ?_))⟩
    · simpa [State.paused, State.stale, hsession, hmeter] using hrun hs
    · unfold State.limit
      rw [hsession]
      simp only [hsign]

/-- A share that is 0 unless the session is ENGAGED stays so where the session is not. -/
theorem ShareLaw.zero {s : State} (h : ShareLaw s) (hs : s.session.state ≠ .engaged) : s.apply.share = 0 := by
  by_contra hne
  exact hs (h.1 hne).1

/-- What a boundary loads obeys the law (R112, R113). -/
theorem shareLaw_judgeShare {s t : State} {share : Int} (hshare : t.apply.share = (judgeShare share s).share)
    (hsession : t.session = s.session) (hmeter : t.port.meterLost = s.port.meterLost) : ShareLaw t := by
  have hlimit (x : Int) : t.limit x = s.limit x := by simp [State.limit, hsession]
  unfold judgeShare at hshare
  split at hshare
  · exact shareLaw_of_zero hshare
  · rename_i hengaged
    split at hshare
    · exact shareLaw_of_zero hshare
    · rename_i hpaused
      split at hshare
      · exact shareLaw_of_zero hshare
      · rename_i hstale
        split at hshare
        · exact shareLaw_of_zero hshare
        · rename_i hlost
          have hrun : t.session.state = .engaged ∧ t.paused = false ∧ t.stale = false ∧ t.port.meterLost = false := by
            simp_all [State.paused, State.stale]
          split at hshare
          · exact shareLaw_of_zero hshare
          · split at hshare
            · by_cases hz : t.apply.share = 0
              · exact shareLaw_of_zero hz
              · refine ⟨fun _ => hrun, ?_⟩
                have hsign : t.apply.share < 0 ↔ share < 0 := by
                  simp only at hshare
                  rw [hshare] at hz ⊢
                  unfold withSignOf at *
                  split at hz <;> simp_all <;> omega
                have hsame : t.limit t.apply.share = s.limit share := by
                  rw [hlimit]; unfold State.limit; simp only [hsign]
                rw [hsame]
                simp only at hshare
                rw [hshare, natAbs_withSignOf]
            · rename_i hle
              refine ⟨fun _ => hrun, ?_⟩
              simp only at hshare
              rw [hlimit, hshare]
              omega

theorem shareLaw_takeBoundary (kind : BoundaryKind) (number : IntervalNo) (order : Order) (s : State) :
    ShareLaw (takeBoundary kind number order s) := by
  have hshare : (takeBoundary kind number order s).apply.share = (loadOf kind s).share := by simp
  unfold loadOf at hshare
  split at hshare
  · exact shareLaw_of_zero hshare
  · exact shareLaw_of_zero hshare
  · split at hshare
    · exact shareLaw_judgeShare hshare (by simp) (by simp)
    · exact shareLaw_of_zero hshare

/-- A second event keeps the law: it cuts the share where the pack data goes stale (R56). -/
theorem ShareLaw.countSeconds {s : State} (h : ShareLaw s) : ShareLaw (countSeconds s) := by
  by_cases hz : (Machine.countSeconds s).apply.share = 0
  · exact shareLaw_of_zero hz
  unfold Machine.countSeconds at *
  cases hr : s.session.record with
  | none => simpa [hr] using h
  | some r =>
    simp only [hr] at hz ⊢
    split at hz
    · simp at hz
    · rename_i hns
      rw [if_neg hns]
      obtain ⟨hrun, hlimit⟩ := h
      obtain ⟨hengaged, hpaused, hfresh, hmeter⟩ := hrun hz
      refine ⟨fun _ => ⟨hengaged, ?_, ?_, hmeter⟩, ?_⟩
      · simpa [State.paused, hr, secondTick] using hpaused
      · by_contra hstale
        exact hns ⟨by simpa using hstale, hfresh⟩
      · simpa [State.limit, hr, secondTick, pChg, pDis] using hlimit

theorem ShareLaw.vacate {s : State} (h : ShareLaw s) : ShareLaw (vacate s) := by
  unfold Machine.vacate
  split
  · rename_i hv
    have hclosing : s.session.state = .closing := by
      simp only [State.mayVacate, Bool.and_eq_true, beq_iff_eq] at hv
      exact hv.1.1
    exact shareLaw_of_zero (h.zero (by simp [hclosing]))
  · exact h

theorem ShareLaw.enterFaulted {s : State} (h : ShareLaw s) (c : FaultCause) : ShareLaw (enterFaulted c s) := by
  by_cases hf : s.port.state = .faulted
  · have hdrop : Machine.enterFaulted c s = dropCommand s := by simp [Machine.enterFaulted, hf]
    rw [hdrop]
    exact h.same (by simp) (by simp) rfl
  · refine shareLaw_of_zero ?_
    unfold Machine.enterFaulted
    rw [if_neg hf]
    dsimp only
    split <;> simp

/-- An ENGAGED report of a pack that is not STOPPED leaves the share within the limits it brings (R48, R49). -/
theorem ShareLaw.engagedReport {s : State} (h : ShareLaw s) {r : SessionRecord} (hr : s.session.record = some r) (p : PackData) :
    ShareLaw (packClip (resync p.soc (reportTaken r p s))) := by
  have hfell : Fell s (resync p.soc (reportTaken r p s)) := Fell.trans (Fell.of_eq rfl) (fell_resync p.soc (reportTaken r p s))
  have hsession : (resync p.soc (reportTaken r p s)).session = (reportTaken r p s).session := by simp
  have hmeter : (resync p.soc (reportTaken r p s)).port = s.port := by simp
  generalize resync p.soc (reportTaken r p s) = x at *
  have hclip : Fell x (packClip x) := fell_packClip x
  have hsame : (packClip x).session = x.session ∧ (packClip x).port = x.port := by simp
  have hwithin : (packClip x).apply.share.natAbs ≤ x.limit x.apply.share := by
    unfold packClip
    split
    · have := (cut_spec (x.limit x.apply.share) .packClip x).1
      simp only [raise_frame]
      omega
    · rename_i hle; omega
  by_cases ht : (packClip x).apply.share = 0
  · exact shareLaw_of_zero ht
  · have hs : s.apply.share ≠ 0 := fun hs => ht ((hfell.trans hclip).zero hs)
    have hx : x.apply.share ≠ 0 := fun hx => ht (hclip.zero hx)
    have hsign : (packClip x).apply.share < 0 ↔ x.apply.share < 0 := by
      obtain ⟨hp, hn⟩ := hclip
      rcases lt_or_gt_of_ne hx with hx | hx
      · have := hn hx.le; omega
      · have := hp hx.le; omega
    obtain ⟨hengaged, hpaused, -, hlost⟩ := h.1 hs
    refine ⟨fun _ => ⟨?_, ?_, ?_, ?_⟩, hwithin.trans (le_of_eq ?_)⟩
    · simpa [hsame.1, hsession] using hengaged
    · simpa [State.paused, hsame.1, hsession, hr] using hpaused
    · simp [State.stale, hsession, Config.staleAge]
    · simpa [hsame.2, hmeter] using hlost
    · unfold State.limit
      simp only [hsame.1, hsign]

theorem ShareLaw.post {s t : State} (h : ShareLaw s) {kind : PostKind} (e : PostEffect kind s t) : ShareLaw t := by
  have hfell := fell_post e
  cases e with
  | engaged hrole hs hr hp hstop => exact h.engagedReport hr _
  | engagedStopped hrole hs hr hp hstop => exact shareLaw_of_zero (by simp)
  | close hrole hs => exact shareLaw_of_zero (by simp)
  | pause hrole hs hr hp => exact shareLaw_of_zero (by simp)
  | departure hrole hs hr hd he =>
    simp only [ShareLaw, setRecord, State.paused, State.stale, State.limit, hr] at h ⊢
    exact h
  | @resume r hrole hs hr hp =>
    refine shareLaw_of_zero ?_
    by_contra hne
    have := (h.1 hne).2.1
    simp [State.paused, hr, hp] at this
  | opened hrole hs hr => exact shareLaw_of_zero (hfell.zero (h.zero (by simp [hs])))
  | firstStopped hrole hs hr hp hstop => exact shareLaw_of_zero (hfell.zero (h.zero (by simp [hs])))
  | first hrole hs hr hp hstop => exact shareLaw_of_zero (hfell.zero (h.zero (by simp [hs])))
  | stoppedStopped hrole hs hr hp hstop => exact shareLaw_of_zero (hfell.zero (h.zero (by simp [hs])))
  | stoppedFaulted hrole hs hr hp hstop hport => exact shareLaw_of_zero (hfell.zero (h.zero (by simp [hs])))
  | stopped hrole hs hr hp hstop hport => exact shareLaw_of_zero (hfell.zero (h.zero (by simp [hs])))
  | closingStopped hrole hs hr hp hstop => exact shareLaw_of_zero (hfell.zero (h.zero (by simp [hs])))
  | closing hrole hs hr hp hstop => exact shareLaw_of_zero (hfell.zero (h.zero (by simp [hs])))
  | unplugged hrole hs => exact shareLaw_of_zero (hfell.zero (h.zero (by simp [hs])))
  | _ => exact h.same rfl rfl rfl

theorem ShareLaw.hearing {s t : State} (h : ShareLaw s) (m : Hearing s t) : ShareLaw t := by
  cases m with
  | boundary number order hg => exact shareLaw_takeBoundary _ _ _ _
  | _ => exact h.same (by simp) (by simp) (by simp)

theorem ShareLaw.reportEffect {s : State} (h : ShareLaw s) (st : ConverterStatus) : ShareLaw (reportEffect st s) := by
  have hport (p : PortUnit) (hp : p.meterLost = s.port.meterLost) : ShareLaw { s with port := p } := h.same rfl rfl hp
  unfold Machine.reportEffect
  cases s.port.state <;> cases st <;> dsimp only
  all_goals first
    | exact h
    | exact h.enterFaulted _
    | exact hport _ rfl
    | exact ShareLaw.enterFaulted (s := { s with port := { s.port with offRun := 0 } }) (hport _ rfl) _
    | (split <;> exact hport _ rfl)

theorem ShareLaw.goodSample {s : State} (h : ShareLaw s) (reading : MeterReading) : ShareLaw (goodSample reading s) := by
  by_cases hz : (Machine.goodSample reading s).apply.share = 0
  · exact shareLaw_of_zero hz
  · have hfell := fell_goodSample reading s
    have hmeter : s.port.meterLost = false := (h.1 fun hs => hz (hfell.zero hs)).2.2.2
    refine h.fell hfell (by simp) ?_
    have hloss (x : State) (hx : x.port.meterLost = false) : (endLoss x).port.meterLost = false := by simp [endLoss, hx]
    unfold Machine.goodSample
    rw [hmeter]
    split
    · exact hloss _ hmeter
    · dsimp only
      split
      · exact hloss _ hmeter
      · rw [(handIncrements_frame _ _ _).2.2.2.2.2.1]
        exact hloss _ hmeter

theorem ShareLaw.discardSample {s : State} (h : ShareLaw s) : ShareLaw (discardSample s) := by
  unfold Machine.discardSample beginLoss
  dsimp only
  split
  · split <;> exact shareLaw_of_zero (by simp)
  · exact h.same rfl rfl rfl

theorem ShareLaw.portTick {s : State} (h : ShareLaw s) : ShareLaw (portTick s) := by
  have hstart (x : State) (hx : ShareLaw x) : ShareLaw (startExchange x) := hx.same (by simp) (by simp) rfl
  unfold Machine.portTick
  split
  · exact h
  · refine hstart _ (h.same (by simp) (by simp) ?_)
    rw [rampTick_eq]
    split <;> rfl
  · refine hstart _ ?_
    unfold waitTick
    dsimp only
    split
    · exact h.same rfl rfl rfl
    · refine ShareLaw.enterFaulted ?_ _
      exact h.same rfl rfl rfl
  all_goals exact hstart _ h

theorem ShareLaw.effect {a : Agent} {s t : State} (h : ShareLaw s) (e : Effect a s t) : ShareLaw t := by
  cases e with
  | timer order =>
    unfold timerTick
    (repeat' split) <;> first | exact shareLaw_takeBoundary _ _ _ _ | exact h.same rfl rfl rfl
  | receive levels order => exact receive_keeps (fun _ _ m hs => ShareLaw.hearing hs m) (fun _ _ h => h) levels order h
  | portTick => exact h.portTick
  | second =>
    have htime : ShareLaw { s with time := { s.time with secondDue := false } } := h.same rfl rfl rfl
    exact htime.countSeconds.same (by simp [takeSecond]) (by simp [takeSecond]) rfl
  | seconds => exact h.countSeconds
  | linkError hx =>
    unfold takeLinkError
    dsimp only
    split
    · refine ShareLaw.enterFaulted ?_ _
      exact h.same (by simp) (by simp) (by simp)
    · exact h.same (by simp) (by simp) (by simp)
  | status st hx =>
    refine ShareLaw.reportEffect ?_ st
    exact h.same (by simp) (by simp) (by simp)
  | sample reading hx =>
    refine ShareLaw.goodSample ?_ _
    exact h.same (by simp) (by simp) rfl
  | discard hx =>
    refine ShareLaw.discardSample ?_
    exact h.same (by simp) (by simp) rfl
  | @post kind body _ hr hk =>
    have hpop : ShareLaw (popHead s) := h.same (by simp) (by simp) (by simp)
    exact (hpop.post (ownerRule_effect kind body _)).same (by simp) (by simp) (by simp)
  | _ => exact h.same (by simp) (by simp) (by simp)

theorem requestEnable_meterLost (s : State) : (requestEnable s).port.meterLost = s.port.meterLost := by
  unfold requestEnable
  split <;> rfl

theorem ShareLaw.move {a : Agent} {s t : State} (h : ShareLaw s) (m : Move a s t) : ShareLaw t := by
  cases m with
  | @action _ _ u e =>
    have henable : ShareLaw (requestEnable u) := (h.effect e).same (by simp) (by simp) (requestEnable_meterLost _)
    exact henable.vacate.same (by simp [settle]) (by simp [settle]) (by simp [settle])
  | restart => exact shareLaw_of_zero rfl
  | vacate => exact h.vacate
  | requestRead => exact h.same rfl rfl rfl
  | owed n => exact h.same rfl rfl rfl
  | _ => exact h.same (by simp) (by simp) (by simp)

end Sys2Proof.Machine

/-- Settles O12: every move keeps the law; a boundary loads a share that obeys it, and everything else only lets it fall. -/
theorem stepKeepsTheAppliedShareLaws : Obligations.StepKeepsTheAppliedShareLaws := by
  intro s t hs h
  exact step_keeps (P := ShareLaw) (fun _ _ h => h.same rfl rfl rfl)
    (fun straps select pending => (laws_afterReset straps select pending).share) (fun _ _ _ m hs => hs.move m) hs h
end

