-- ==== Sys2Proof/Proofs/ShareBetweenBoundaries.lean ====
section
/-! SUPPORT. Between boundaries the share only falls (R116): what a tick and a frame can do to the counter, the timing state and
the share, and the composition of these over a command. -/

open Sys2Proof Sys2Proof.Machine

namespace Sys2Proof.Machine

/-! ## Moves that keep the timing -/

/-- Just after a RESTART: LISTEN anew, no result waiting, and a share of 0. -/
def Restarted (s : State) : Prop :=
  s.timer.state = .listen ∧ s.timer.listen = 0 ∧ s.apply.share = 0

/-- The counter and the timing state stayed, and the share only fell; or a RESTART came. -/
def Steady (s t : State) : Prop :=
  (t.timer.state = s.timer.state ∧ t.timer.c = s.timer.c ∧ t.timer.listen = s.timer.listen ∧ Fell s t) ∨ Restarted t

theorem Steady.trans {s t u : State} (h : Steady s t) (h' : Steady t u) : Steady s u := by
  obtain ⟨hs, hc, hl, hf⟩ | hr := h'
  · obtain ⟨hs', hc', hl', hf'⟩ | ⟨hs', hl', hz⟩ := h
    · exact .inl ⟨hs.trans hs', hc.trans hc', hl.trans hl', hf'.trans hf⟩
    · exact .inr ⟨hs.trans hs', hl.trans hl', hf.zero hz⟩
  · exact .inr hr

theorem Steady.refl (s : State) : Steady s s := .inl ⟨rfl, rfl, rfl, Fell.refl s⟩

/-- No move but the Interval Timer's and a frame's touches the counter. -/
theorem Move.steady {a : Agent} {s t : State} (m : Move a s t) (ht : a ≠ .timer) (hf : a ≠ .frames) : Steady s t := by
  have hfell := m.fell ht hf
  cases m with
  | action e =>
    have htimer : ∀ u, Effect a s u → u.timer.state = s.timer.state ∧ u.timer.c = s.timer.c ∧ u.timer.listen = s.timer.listen := by
      intro u e
      have hfreeze : (takeFreezeIfDue s).timer.state = s.timer.state ∧ (takeFreezeIfDue s).timer.c = s.timer.c ∧
          (takeFreezeIfDue s).timer.listen = s.timer.listen := by
        unfold takeFreezeIfDue takeFreeze
        split
        · dsimp only; split <;> simp
        · simp
      cases e with
      | timer => exact absurd rfl ht
      | receive => exact absurd rfl hf
      | freeze => exact hfreeze
      | _ => simp
    obtain ⟨hs, hc, hl⟩ := htimer _ e
    exact .inl ⟨by simpa using hs, by simpa using hc, by simpa using hl, hfell⟩
  | restart => exact .inr ⟨rfl, rfl, rfl⟩
  | targetPoint =>
    refine .inl ⟨?_, ?_, ?_, hfell⟩ <;> unfold takeTargetIfDue takeTargetPoint <;> split <;> rfl
  | _ => exact .inl ⟨by simp, by simp, by simp, hfell⟩

theorem FreeMoves.steady {s t : State} (h : FreeMoves s t) : Steady s t :=
  h.rel Steady.refl (fun _ _ _ => Steady.trans) fun _ _ _ ha m =>
    m.steady ha.quiet.1.1 ha.quiet.1.2.1

/-! ## The tick of the Interval Timer, and a frame -/

theorem profile_length_pos (s : State) : 600 ≤ s.profile.length := (profile_window_le s.straps.intv).2.2

/-- The Interval Timer's tick: c or the listen count goes up by 1 and the share stays, or a boundary comes. -/
theorem timerTick_cases (order : Order) (s : State) :
    (timerTick order s).apply = s.apply ∧ (timerTick order s).timer.state = s.timer.state ∧
        s.timer.c ≤ (timerTick order s).timer.c ∧ (timerTick order s).timer.c ≤ s.timer.c + 1 ∧
        (timerTick order s).timer.listen ≤ s.timer.listen + 1 ∨
      (timerTick order s).timer.state = .running ∧ (timerTick order s).timer.c = 0 ∧
        (s.timer.state = .running ∧ 599 ≤ s.timer.c ∨ s.timer.state = .listen ∧ 1199 ≤ s.timer.listen) := by
  have hlength := profile_length_pos s
  unfold timerTick
  cases hs : s.timer.state with
  | running =>
    dsimp only
    split
    · exact .inl ⟨rfl, hs, Nat.le_succ _, le_rfl, Nat.le_succ _⟩
    · exact .inr ⟨by simp [timerBoundary], by simp [timerBoundary], .inl ⟨rfl, by omega⟩⟩
  | listen =>
    dsimp only
    split
    · exact .inl ⟨rfl, hs, le_rfl, Nat.le_succ _, le_rfl⟩
    · exact .inr ⟨by simp [timerBoundary], by simp [timerBoundary], .inr ⟨rfl, by omega⟩⟩

/-- At most one move of the Interval Timer: at most one count, or a boundary from a late count. -/
theorem Once.timerCases {s t : State} (h : Once .timer s t) :
    (t.timer.state = s.timer.state ∧ s.timer.c ≤ t.timer.c ∧ t.timer.c ≤ s.timer.c + 1 ∧ t.apply.share = s.apply.share ∧
        t.timer.listen ≤ s.timer.listen + 1) ∨
      t.timer.state = .running ∧ t.timer.c = 0 ∧
        (s.timer.state = .running ∧ 599 ≤ s.timer.c ∨ s.timer.state = .listen ∧ 1199 ≤ s.timer.listen) := by
  obtain rfl | m := h
  · exact .inl ⟨rfl, le_rfl, Nat.le_succ _, rfl, Nat.le_succ _⟩
  · obtain ⟨e⟩ := m
    cases e with
    | timer order =>
      obtain ⟨ha, hs, hc, hc', hl⟩ | ⟨hs, hc, hfrom⟩ := timerTick_cases order s
      · exact .inl ⟨by simpa using hs, by simpa using hc, by simpa using hc', by simp [ha], by simpa using hl⟩
      · exact .inr ⟨by simpa using hs, by simpa using hc, hfrom⟩

/-- What a tick of the part with `k` moves of the Interval Timer can do: within the interval the share only fell; a RESTART came
with it; or a boundary left the counter near 0, from LISTEN or from a late count. -/
def Timed (k : Nat) (s t : State) : Prop :=
  (t.timer.state = s.timer.state ∧ s.timer.c ≤ t.timer.c ∧ t.timer.c ≤ s.timer.c + k ∧ Fell s t) ∨
    (t.timer.state = .listen ∧ t.timer.listen ≤ k ∧ t.apply.share = 0) ∨
    t.timer.state = .running ∧ t.timer.c ≤ k ∧ (s.timer.state = .listen ∨ 599 ≤ s.timer.c + k)

theorem Timed.steady {k : Nat} {s t u : State} (h : Timed k s t) (hs : Steady t u) : Timed k s u := by
  obtain ⟨hstate, hc, hl, hf⟩ | ⟨hstate, hl, hz⟩ := hs
  · obtain ⟨hs', hc', hk, hf'⟩ | ⟨hs', hl', hz⟩ | ⟨hs', hc', hfrom⟩ := h
    · exact .inl ⟨hstate.trans hs', hc'.trans hc.ge, hc.le.trans hk, hf'.trans hf⟩
    · exact .inr (.inl ⟨hstate.trans hs', hl.le.trans hl', hf.zero hz⟩)
    · exact .inr (.inr ⟨hstate.trans hs', hc.le.trans hc', hfrom⟩)
  · exact .inr (.inl ⟨hstate, by omega, hz⟩)

theorem Timed.once {k : Nat} {s t u : State} (h : Timed k s t) (hk : k < 3) (ho : Once .timer t u) : Timed (k + 1) s u := by
  obtain ⟨hs', hc', hk', hf'⟩ | ⟨hs', hl', hz⟩ | ⟨hs', hc', hfrom⟩ := h <;>
    obtain ⟨hstate, hc, hck, hshare, hl⟩ | ⟨hstate, hc, hlate⟩ := ho.timerCases
  · exact .inl ⟨hstate.trans hs', hc'.trans hc, by omega, hf'.trans (Fell.of_eq hshare)⟩
  · refine .inr (.inr ⟨hstate, by omega, ?_⟩)
    obtain ⟨-, hlate⟩ | ⟨hlisten, -⟩ := hlate
    · exact .inr (by omega)
    · exact .inl (hs' ▸ hlisten)
  · exact .inr (.inl ⟨hstate.trans hs', by omega, hshare.trans hz⟩)
  · obtain ⟨hr, -⟩ | ⟨-, hlate⟩ := hlate
    · rw [hs'] at hr; cases hr
    · omega
  · exact .inr (.inr ⟨hstate.trans hs', by omega, hfrom.imp_right (by omega)⟩)
  · obtain ⟨-, hlate⟩ | ⟨hl, -⟩ := hlate
    · omega
    · rw [hs'] at hl; cases hl

/-- After a tick that took no boundary the share has only fallen. -/
theorem Timed.fell {s t : State} (h : Timed 2 s t) (hs : t.timer.state = s.timer.state) (hc : s.timer.c ≤ t.timer.c) : Fell s t := by
  obtain ⟨-, -, -, hf⟩ | ⟨-, -, hz⟩ | ⟨hr, hc', hl | hlate⟩ := h
  · exact hf
  · exact Fell.of_zero hz
  · rw [hs, hl] at hr; cases hr
  · omega

theorem TickTaken.timed {s t : State} (h : TickTaken s t) : Timed 2 s t := by
  have hstart : Timed 0 s s := .inl ⟨rfl, le_rfl, le_rfl, Fell.refl s⟩
  obtain rfl | ⟨u, hu, hm⟩ | ⟨u, v, w, x, y, hu, hv, hw, hblocks, hy⟩ := h
  · exact .inl ⟨rfl, le_rfl, by omega, Fell.refl _⟩
  · exact ((hstart.steady hu.free.steady).once (by decide) (.inr hm)).once (by decide) (.inl rfl)
  · have hfirst : Timed 1 s w := ((hstart.steady hu.free.steady).once (by decide) hv).steady hw.steady
    obtain ⟨hp, ht⟩ | ⟨ht, hp⟩ := hblocks
    · exact ((hfirst.steady (hp.steady (by decide) (by decide))).once (by decide) ht).steady hy.free.steady
    · exact ((hfirst.once (by decide) ht).steady (hp.steady (by decide) (by decide))).steady hy.free.steady

/-- What a frame can do: the counter and the share stay, or a boundary leaves the counter at 0. -/
def HeardAt (s t : State) : Prop :=
  (t.timer.state = s.timer.state ∧ t.timer.c = s.timer.c ∧ t.apply.share = s.apply.share) ∨
    t.timer.state = .running ∧ t.timer.c = 0 ∧ (s.timer.state = .listen ∨ 1 ≤ s.timer.c)

theorem HeardAt.congr {s t u : State} (h : HeardAt s t) (htimer : u.timer = t.timer) (happly : u.apply = t.apply) :
    HeardAt s u := by
  unfold HeardAt at *; rw [htimer, happly]; exact h

theorem HeardAt.hearing {s t u : State} (h : HeardAt s t) (m : Hearing t u) : HeardAt s u := by
  cases m with
  | boundary number order hg =>
    have hwindow : 0 < t.profile.window := (profile_window_le t.straps.intv).1
    refine .inr ⟨by simp [boundaryAt, timerBoundary], by simp [boundaryAt, timerBoundary], ?_⟩
    obtain ⟨hs, hc, -⟩ | ⟨hs, hc, -⟩ := h <;> obtain ⟨hl, -⟩ | ⟨-, hw, -⟩ := hg
    · exact .inl (hs ▸ hl)
    · exact .inr (by omega)
    · rw [hs] at hl; cases hl
    · omega
  | _ => exact h.congr (by simp) (by simp)

theorem heardAt_receive (levels : List Level) (order : Order) (s : State) : HeardAt s (receive levels order s) :=
  receive_keeps (P := HeardAt s) (fun _ _ m h => h.hearing m) (fun _ _ h => h) levels order (.inl ⟨rfl, rfl, rfl⟩)

end Sys2Proof.Machine

/-- Settles O17: outside ticks and frames no move raises the share; a tick or a frame that does takes a boundary, which leaves
LISTEN or lowers the counter. -/
theorem betweenBoundariesTheShareOnlyFalls : Obligations.BetweenBoundariesTheShareOnlyFalls := by
  intro c s t h hno
  change Fell s t
  cases exec_ran c s t h with
  | reset straps low hc ht => subst ht; exact Fell.of_zero rfl
  | idle ht => subst ht; exact Fell.refl _
  | single htick hx ha m => exact m.fell (quiet_of_single ha).1 (quiet_of_single ha).2.1
  | transaction hc ha hm =>
    exact (hm.quiet ha).rel Fell.refl (fun _ _ _ => Fell.trans) fun _ _ _ ha m => m.fell ha.1.1 ha.1.2.1
  | frame levels order hc ht =>
    obtain ⟨hs, hcount⟩ : t.timer.state = s.timer.state ∧ s.timer.c ≤ t.timer.c :=
      hno.resolve_left fun hno => (hno order).2.2.2.2.2 levels hc
    subst ht
    simp only [act_frame] at hs hcount
    obtain ⟨-, -, hshare⟩ | ⟨hr, hz, hl | hpos⟩ := heardAt_receive levels order s
    · exact Fell.of_eq (by simpa using hshare)
    · rw [hs, hl] at hr; cases hr
    · omega
  | tick hc htaken =>
    obtain ⟨hs, hcount⟩ : t.timer.state = s.timer.state ∧ s.timer.c ≤ t.timer.c := by
      refine hno.resolve_left fun hno => ?_
      have hnot := fun o => hno o
      cases c <;> simp [Instr.ticks] at hc hnot
    exact htaken.timed.fell hs hcount
end

