-- ==== Sys2Proof/Proofs/Setpoint.lean ====
section
/-! SUPPORT. The setpoint command: a tick moves it by one ramp step (R143), anything else leaves it or brings it to 0 (R148). -/

open Sys2Proof Sys2Proof.Machine

namespace Sys2Proof.Machine

/-! ## What leaves the command, or brings it to 0 -/

/-- The command stayed, in a port that was ENABLED if it is; or it is 0 in a port that is not ENABLED. -/
def Held (s t : State) : Prop :=
  (t.port.command = s.port.command ∧ (t.port.state = .enabled → s.port.state = .enabled)) ∨
    (t.port.command = 0 ∧ t.port.state ≠ .enabled)

theorem Held.of_port {s t : State} (h : t.port = s.port) : Held s t := by
  rw [Held, h]; exact .inl ⟨rfl, id⟩

theorem Held.refl (s : State) : Held s s := .of_port rfl

theorem Held.trans {s t u : State} (h : Held s t) (h' : Held t u) : Held s u := by
  obtain ⟨hc', hs'⟩ | hz' := h'
  · obtain ⟨hc, hs⟩ | ⟨hc, hs⟩ := h
    · exact .inl ⟨hc'.trans hc, fun he => hs (hs' he)⟩
    · exact .inr ⟨hc'.trans hc, fun he => hs (hs' he)⟩
  · exact .inr hz'

theorem Held.congr {s t u v : State} (h : Held s t) (hs : u.port = s.port) (ht : v.port = t.port) : Held u v := by
  unfold Held at *; rw [hs, ht]; exact h

theorem Held.command {s t : State} (h : Held s t) : t.port.command = s.port.command ∨ t.port.command = 0 :=
  h.imp And.left And.left

theorem held_forcedStop (s : State) : Held s (forcedStop s) := by
  unfold forcedStop
  split
  · exact .refl s
  · refine .inr ⟨rfl, ?_⟩
    dsimp only
    split <;> simp

@[simp] theorem enterFaulted_command (c : FaultCause) (s : State) : (enterFaulted c s).port.command = 0 := by
  unfold enterFaulted
  split
  · rfl
  · dsimp only
    split <;> simp [dropCommand]

@[simp] theorem enterFaulted_enable (c : FaultCause) (s : State) : (enterFaulted c s).port.enable = false := by
  unfold enterFaulted
  split
  · rfl
  · dsimp only
    split <;> simp [dropCommand]

theorem held_enterFaulted (c : FaultCause) (s t : State) : Held s (enterFaulted c t) := .inr ⟨by simp, by simp⟩

theorem held_post {s t : State} {kind : PostKind} (e : PostEffect kind s t) : Held s t := by
  cases e with
  | @firstStopped body r p hrole hs hr hp hstop => exact (held_forcedStop (accountCreated r p s)).congr (by simp) (by simp)
  | engagedStopped hrole hs hr hp hstop => exact (held_forcedStop _).congr (by simp) rfl
  | stoppedStopped hrole hs hr hp hstop => exact (held_forcedStop _).congr (by simp) rfl
  | closingStopped hrole hs hr hp hstop => exact (held_forcedStop _).congr (by simp) rfl
  | unplugged hrole hs => exact (held_forcedStop _).congr (by simp) rfl
  | @close reason hrole hs =>
    cases reason with
    | unplugged => exact (held_forcedStop _).congr (by simp) rfl
    | _ => exact .of_port (by simp [closeStop])
  | _ => exact .of_port (by simp)

/-- An action's end can take the port to ENABLING alone, and leaves the command. -/
theorem held_settle (s u : State) : Held u (settle s u) := by
  refine Held.congr (s := u) (t := requestEnable u) ?_ rfl (by simp [settle])
  unfold requestEnable
  split
  · exact .inl ⟨rfl, fun h => by simp at h⟩
  · exact .refl u

/-- A meter sample leaves command and enable. -/
theorem goodSample_setpoint (reading : MeterReading) (s : State) :
    (goodSample reading s).port.command = s.port.command ∧ (goodSample reading s).port.enable = s.port.enable := by
  have hloss (x : State) : (endLoss x).port.command = x.port.command ∧ (endLoss x).port.enable = x.port.enable := by
    unfold endLoss
    split
    · dsimp only; split <;> simp
    · exact ⟨rfl, rfl⟩
  unfold goodSample
  split
  · exact hloss _
  · dsimp only
    split <;> simp [hloss]

theorem discardSample_setpoint (s : State) :
    (discardSample s).port.command = s.port.command ∧ (discardSample s).port.enable = s.port.enable := by
  unfold discardSample beginLoss
  dsimp only
  split
  · split <;> simp
  · exact ⟨rfl, rfl⟩

/-- No action but a status report and the port's tick raises the command or enters ENABLED. -/
theorem Effect.held {a : Agent} {s t : State} (e : Effect a s t) (hp : a ≠ .port) (hr : a ≠ .reports) : Held s t := by
  cases e with
  | portTick => exact absurd rfl hp
  | status => exact absurd rfl hr
  | second => exact .inl ⟨by simp [takeSecond, requestRead], by simp [takeSecond, requestRead]⟩
  | linkError hx =>
    rw [takeLinkError_eq]
    split
    · exact held_enterFaulted _ _ _
    · exact .inl ⟨by simp [errorCounted], by simp [errorCounted]⟩
  | sample reading hx => exact .inl ⟨(goodSample_setpoint _ _).1, by rw [goodSample_state]; exact id⟩
  | discard hx => exact .inl ⟨(discardSample_setpoint _).1, by unfold takeDiscard; rw [discardSample_state]; exact id⟩
  | @post kind body _ hh hk => exact (held_post (ownerRule_effect kind body (popHead s))).congr (by simp) (by simp)
  | _ => exact .of_port (by simp)

theorem Move.held {a : Agent} {s t : State} (m : Move a s t) (hp : a ≠ .port) (hr : a ≠ .reports) : Held s t := by
  cases m with
  | action e => exact (e.held hp hr).trans (held_settle _ _)
  | restart => exact .inr ⟨rfl, by simp only [restartState, State.afterReset, PortUnit.reset]; split <;> simp⟩
  | requestRead => exact .inl ⟨rfl, id⟩
  | owed n => exact .inl ⟨rfl, id⟩
  | _ => exact .of_port (by simp)

theorem reportEffect_command (st : ConverterStatus) (s : State) :
    (reportEffect st s).port.command = s.port.command ∨ (reportEffect st s).port.command = 0 := by
  unfold reportEffect
  cases s.port.state <;> cases st <;> dsimp only
  all_goals first
    | exact .inl rfl
    | exact .inr rfl
    | exact .inr (enterFaulted_command _ _)
    | (split <;> exact .inl rfl)

/-- Only the port's tick moves the command otherwise than to 0 (R143). -/
theorem Move.command {a : Agent} {s t : State} (m : Move a s t) (hp : a ≠ .port) :
    t.port.command = s.port.command ∨ t.port.command = 0 := by
  by_cases hr : a = .reports
  · subst hr
    obtain ⟨e⟩ := m
    cases e with
    | status st hx =>
      have hset := (held_settle s (takeStatus st s)).command
      have hreport := reportEffect_command st (reportCounted st s)
      rw [show (reportCounted st s).port.command = s.port.command by simp [reportCounted]] at hreport
      obtain hset | hset := hset
      · exact hset ▸ hreport
      · exact .inr hset
  · exact (m.held hp hr).command

/-! ## The port's tick -/

/-- One ramp step moves the command by at most 50 hW (R143). -/
theorem natAbs_rampTo_sub_le (command share : Int) (above : Bool) : (rampTo command share above - command).natAbs ≤ 50 := by
  have hstep : -50 ≤ clampInt (-Config.rampStep) Config.rampStep (share - command) ∧
      clampInt (-Config.rampStep) Config.rampStep (share - command) ≤ 50 := by
    unfold clampInt
    simp only [Config.rampStep]
    omega
  unfold rampTo
  generalize clampInt (-Config.rampStep) Config.rampStep (share - command) = step at hstep
  dsimp only
  split
  · split <;> omega
  · omega

theorem rampTick_command (s : State) : (rampTick s).port.command = rampTo s.port.command s.apply.share s.aboveReserve := by
  rw [rampTick_eq]; split <;> rfl

theorem portTick_command (s : State) : ((portTick s).port.command - s.port.command).natAbs ≤ 50 ∨ (portTick s).port.command = 0 := by
  have hsame (x : State) (hx : x.port.command = s.port.command ∨ x.port.command = 0) :
      ((startExchange x).port.command - s.port.command).natAbs ≤ 50 ∨ (startExchange x).port.command = 0 := by
    refine hx.imp_left fun h => ?_
    rw [show (startExchange x).port.command = x.port.command from rfl, h]
    simp
  unfold portTick
  split
  · simp
  · left
    rw [show (startExchange (rampTick s)).port.command = (rampTick s).port.command from rfl, rampTick_command]
    exact natAbs_rampTo_sub_le _ _ _
  · refine hsame _ ?_
    unfold waitTick
    dsimp only
    split
    · exact .inl rfl
    · exact .inr (enterFaulted_command _ _)
  all_goals exact hsame _ (.inl rfl)

/-- A port that is not ENABLED leaves its command at 0. -/
theorem portTick_command_zero {s : State} (hc : s.port.command = 0) (hs : s.port.state ≠ .enabled) : (portTick s).port.command = 0 := by
  unfold portTick
  split
  · exact hc
  · rename_i he; exact absurd he hs
  · rw [show ∀ x : State, (startExchange x).port.command = x.port.command from fun _ => rfl]
    unfold waitTick
    dsimp only
    split
    · exact hc
    · exact enterFaulted_command _ _
  all_goals exact hc

theorem settle_command (s u : State) : (settle s u).port.command = u.port.command := by
  have h : (settle s u).port.command = (requestEnable u).port.command := by simp [settle]
  rw [h]
  unfold requestEnable
  split <;> rfl

theorem Move.portTick_eq {s t : State} (m : Move .port s t) : t = settle s (portTick s) := by
  obtain ⟨e⟩ := m
  cases e with
  | portTick => rfl

theorem Move.portCommand {s t : State} (m : Move .port s t) : (t.port.command - s.port.command).natAbs ≤ 50 ∨ t.port.command = 0 := by
  rw [m.portTick_eq, settle_command]
  exact portTick_command s

theorem Move.portCommand_zero {s t : State} (m : Move .port s t) (hc : s.port.command = 0) (hs : s.port.state ≠ .enabled) :
    t.port.command = 0 := by
  rw [m.portTick_eq, settle_command]
  exact portTick_command_zero hc hs

theorem FreeMoves.held {s t : State} (h : FreeMoves s t) : Held s t :=
  h.rel Held.refl (fun _ _ _ => Held.trans) fun _ _ _ ha m => m.held ha.quiet.1.2.2 ha.quiet.2

theorem Once.held {s t : State} (h : Once .timer s t) : Held s t := by
  obtain rfl | m := h
  · exact .refl _
  · exact m.held (by decide) (by decide)

/-- A tick moves the command by at most 50 hW, or to 0 (R143, R148). -/
theorem Ticked.command {s t : State} (h : Ticked s t) : (t.port.command - s.port.command).natAbs ≤ 50 ∨ t.port.command = 0 := by
  obtain ⟨u, v, w, x, y, hu, hv, hw, hblocks, hy⟩ := h
  have hbefore : Held s w := (hu.free.held.trans hv.held).trans hw.held
  have hmoved {a b c d : State} (hab : Held a b) (m : Move .port b c) (hcd : Held c d) :
      (d.port.command - a.port.command).natAbs ≤ 50 ∨ d.port.command = 0 := by
    have hc : (c.port.command - a.port.command).natAbs ≤ 50 ∨ c.port.command = 0 := by
      obtain ⟨hsame, -⟩ | ⟨hz, hs⟩ := hab
      · exact hsame ▸ m.portCommand
      · exact .inr (m.portCommand_zero hz hs)
    obtain hd | hd := hcd.command
    · exact hd ▸ hc
    · exact .inr hd
  obtain ⟨hp, ht⟩ | ⟨ht, hp⟩ := hblocks
  · exact hmoved hbefore hp (ht.held.trans hy.free.held)
  · exact hmoved (hbefore.trans ht.held) hp hy.free.held

/-! ## Under the port law and the share law -/

/-- A command of 0 with the enable off and nothing to run for. -/
def Unpowered (s : State) : Prop := s.port.command = 0 ∧ s.apply.share = 0 ∧ s.port.enable = false

/-- A command of 0 with the enable off, but where a new share has asked for it again (R141). -/
def Dropped (s : State) : Prop :=
  s.port.command = 0 ∧ (s.port.enable = false ∨ s.port.state = .enabling ∧ s.apply.share ≠ 0)

theorem Unpowered.dropped {s : State} (h : Unpowered s) : Dropped s := ⟨h.1, .inl h.2.2⟩

theorem Unpowered.congr {s t : State} (h : Unpowered s) (hp : t.port = s.port) (ha : t.apply = s.apply) : Unpowered t := by
  unfold Unpowered at *; rw [hp, ha]; exact h

theorem Unpowered.settle {s u : State} (h : Unpowered u) : Unpowered (settle s u) := by
  refine Unpowered.congr (s := requestEnable u) ?_ (by simp [Machine.settle]) (by simp [Machine.settle])
  unfold requestEnable
  rw [if_neg fun hd => hd.2 h.2.1]
  exact h

/-- What follows an action raises the enable only for a share that is not 0 (R141). -/
theorem Dropped.settle {s u : State} (h : Dropped u) : Dropped (settle s u) := by
  have hport : (Machine.settle s u).port = (requestEnable u).port := by simp [Machine.settle]
  have happly : (Machine.settle s u).apply = u.apply := by simp
  unfold Dropped
  rw [hport, happly]
  unfold requestEnable
  split
  · rename_i hd; exact ⟨h.1, .inr ⟨rfl, hd.2⟩⟩
  · exact h

/-- The command stayed, and the enable was not raised; or the port is left without power. -/
def Stopped (s t : State) : Prop :=
  (t.port.command = s.port.command ∧ (t.port.enable = true → s.port.enable = true)) ∨ Unpowered t

theorem Stopped.of_eq {s t : State} (hc : t.port.command = s.port.command) (he : t.port.enable = s.port.enable) : Stopped s t :=
  .inl ⟨hc, by rw [he]; exact id⟩

theorem Stopped.congr {s t u v : State} (h : Stopped s t) (hc : u.port.command = s.port.command)
    (he : u.port.enable = s.port.enable) (hp : v.port = t.port) (ha : v.apply = t.apply) : Stopped u v := by
  unfold Stopped Unpowered at *; rw [hc, he, hp, ha]; exact h

theorem stopped_forcedStop {x : State} (hz : x.apply.share = 0) : Stopped x (forcedStop x) := by
  unfold forcedStop
  split
  · exact .of_eq rfl rfl
  · exact .inr ⟨rfl, hz, rfl⟩

/-- A fault stops a port that runs, and leaves one that is FAULTED with its command of 0 (R146, R148). -/
theorem stopped_enterFaulted {x : State} (h : PortLaw x) (c : FaultCause) : Stopped x (enterFaulted c x) := by
  by_cases hf : x.port.state = .faulted
  · refine .inl ⟨?_, by simp⟩
    rw [enterFaulted_command]
    by_contra hne
    have := h.1 (Ne.symm hne)
    rw [hf] at this
    cases this
  · refine .inr ⟨by simp, ?_, by simp⟩
    unfold enterFaulted
    rw [if_neg hf]
    dsimp only
    split <;> simp

/-- A post that moves the command stops the port of a session that is out of the round (R48, R51, R59, R60). -/
theorem stopped_post {s t : State} (h : ShareLaw s) {kind : PostKind} (e : PostEffect kind s t) : Stopped s t := by
  have hfell := fell_post e
  have hout (hs : s.session.state ≠ .engaged) : t.apply.share = 0 := hfell.zero (h.zero hs)
  have hstop (x y : State) (hp : x.port = s.port) (hyp : y.port = (forcedStop x).port) (hya : y.apply = x.apply)
      (hz : y.apply.share = 0) : Stopped s y :=
    (stopped_forcedStop (x := x) (by rw [← hya, hz])).congr (by rw [hp]) (by rw [hp]) hyp (by simp [hya])
  cases e with
  | @firstStopped body r p hrole hs hr hp hd =>
    exact hstop (accountCreated r p s) _ (by simp) (by simp) (by simp) (hout (by simp [hs]))
  | engagedStopped hrole hs hr hp hd => exact hstop _ _ (by simp) rfl (by simp) (by simp)
  | stoppedStopped hrole hs hr hp hd => exact hstop _ _ (by simp) rfl (by simp) (hout (by simp [hs]))
  | closingStopped hrole hs hr hp hd => exact hstop _ _ (by simp) rfl (by simp) (hout (by simp [hs]))
  | unplugged hrole hs => exact hstop _ _ (by simp) rfl (by simp) (hout (by simp [hs]))
  | @close reason hrole hs =>
    cases reason with
    | unplugged => exact hstop _ _ (by simp) rfl (by simp) (by simp)
    | _ => exact .of_eq (by simp [closeStop]) (by simp [closeStop])
  | _ => exact .of_eq (by simp) (by simp)

theorem stopped_reportEffect {x : State} (h : PortLaw x) (st : ConverterStatus) : Stopped x (reportEffect st x) := by
  have hfault (c : FaultCause) := stopped_enterFaulted h c
  have hoff : PortLaw { x with port := { x.port with offRun := 0 } } := by
    obtain ⟨h1, h2, h3, h4, h5, h6, h7, h8, h9⟩ := h
    exact ⟨h1, h2, h3, h4, h5, h6, Nat.zero_le _, h8, h9⟩
  have hready (hs : x.port.state = .enabling) : (0 : Int) = x.port.command := by
    by_contra hne
    have := h.1 (Ne.symm hne)
    rw [hs] at this
    cases this
  unfold reportEffect
  cases hs : x.port.state <;> cases st <;> dsimp only
  all_goals first
    | exact .of_eq rfl rfl
    | exact hfault _
    | exact .of_eq (hready hs) rfl
    | exact stopped_enterFaulted hoff _
    | (split <;> exact .of_eq rfl rfl)

/-- Every action but the port's tick leaves the command or leaves the port without power. -/
theorem Effect.stopped {a : Agent} {s t : State} (e : Effect a s t) (hp : PortLaw s) (hs : ShareLaw s) (ha : a ≠ .port) :
    Stopped s t := by
  cases e with
  | portTick => exact absurd rfl ha
  | second => exact .of_eq (by simp [takeSecond, requestRead]) (by simp [takeSecond, requestRead])
  | linkError hx =>
    rw [takeLinkError_eq]
    split
    · exact (stopped_enterFaulted hp.errorCounted _).congr (by simp [errorCounted]) (by simp [errorCounted]) rfl rfl
    · exact .of_eq (by simp [errorCounted]) (by simp [errorCounted])
  | status st hx =>
    exact (stopped_reportEffect (hp.reportCounted st) st).congr (by simp [reportCounted]) (by simp [reportCounted]) rfl rfl
  | sample reading hx => exact .of_eq (goodSample_setpoint _ _).1 (goodSample_setpoint _ _).2
  | discard hx => exact .of_eq (discardSample_setpoint _).1 (discardSample_setpoint _).2
  | @post kind body _ hh hk =>
    have hpop : ShareLaw (popHead s) := hs.same (by simp) (by simp) (by simp)
    exact (stopped_post hpop (ownerRule_effect kind body (popHead s))).congr (by simp) (by simp) (by simp) (by simp)
  | _ => exact .of_eq (by simp) (by simp)

theorem Move.stopped {a : Agent} {s t : State} (m : Move a s t) (hp : PortLaw s) (hs : ShareLaw s) (ha : a ≠ .port) :
    t.port.command = s.port.command ∨ Unpowered t := by
  cases m with
  | action e => exact (e.stopped hp hs ha).imp (fun h => (settle_command _ _).trans h.1) Unpowered.settle
  | restart => exact .inr ⟨rfl, rfl, rfl⟩
  | requestRead => exact .inl rfl
  | owed n => exact .inl rfl
  | _ => exact .inl (by simp)

/-- A port without power stays so until a boundary brings a share (R141). -/
theorem Move.unpowered {a : Agent} {s t : State} (m : Move a s t) (hp : PortLaw s) (hs : ShareLaw s) (ha : a ≠ .port)
    (ht : a ≠ .timer) (hf : a ≠ .frames) (h : Unpowered s) : Unpowered t := by
  have hshare : t.apply.share = 0 := (m.fell ht hf).zero h.2.1
  cases m with
  | action e =>
    obtain ⟨hc, he⟩ | hu := e.stopped hp hs ha
    · exact Unpowered.settle ⟨hc.trans h.1, by simpa using hshare, by simpa [h.2.2] using he⟩
    · exact hu.settle
  | restart => exact ⟨rfl, rfl, rfl⟩
  | requestRead => exact h
  | owed n => exact h
  | _ => exact h.congr (by simp) (by simp)

/-- What a run of moves from `s` has done to the command, with the laws it keeps. -/
structure Watched (s t : State) : Prop where
  port : PortLaw t
  share : ShareLaw t
  command : t.port.command = s.port.command ∨ Unpowered t

theorem Watched.start {s : State} (hp : PortLaw s) (hs : ShareLaw s) : Watched s s := ⟨hp, hs, .inl rfl⟩

theorem Watched.quiet {s t u : State} (h : Watched s t) (m : Moves (fun a => a.quiet ∧ a ≠ .reports) t u) : Watched s u := by
  refine m.keeps (fun a x y ha m h => ⟨h.port.move m, h.share.move m, ?_⟩) h
  obtain ⟨⟨htimer, hframes, hport⟩, -⟩ := ha
  obtain hc | hu := h.command
  · exact (m.stopped h.port h.share hport).imp_left fun h' => h'.trans hc
  · exact .inr (m.unpowered h.port h.share hport htimer hframes hu)

theorem Watched.free {s t u : State} (h : Watched s t) (m : FreeMoves t u) : Watched s u :=
  h.quiet (m.mono fun _ ha => ha.quiet)

/-! ## The tick under the laws -/

theorem Once.laws {a : Agent} {s t : State} (h : Once a s t) (hp : PortLaw s) (hs : ShareLaw s) : PortLaw t ∧ ShareLaw t := by
  obtain rfl | m := h
  · exact ⟨hp, hs⟩
  · exact ⟨hp.move m, hs.move m⟩

/-- The Interval Timer's tick leaves the command, and raises the enable only for a share that is not 0 (R141). -/
theorem Once.timerPort {s t : State} (h : Once .timer s t) :
    t.port.command = s.port.command ∧ (Unpowered s → Dropped t) := by
  obtain rfl | m := h
  · exact ⟨rfl, Unpowered.dropped⟩
  · obtain ⟨e⟩ := m
    cases e with
    | timer order =>
      refine ⟨by rw [settle_command]; simp, fun hu => Dropped.settle ⟨?_, .inl ?_⟩⟩
      · simpa using hu.1
      · simpa using hu.2.2

/-- With the enable off the port's tick only starts its exchange. -/
theorem portTick_port_of_disabled {s : State} (hp : PortLaw s) (he : s.port.enable = false) :
    (portTick s).port.command = s.port.command ∧ (portTick s).port.enable = false ∧ (portTick s).port.state = s.port.state := by
  obtain ⟨-, henable, -⟩ := hp
  unfold portTick
  cases hs : s.port.state with
  | enabling => simp [hs, he] at henable
  | enabled => simp [hs, he] at henable
  | _ => exact ⟨rfl, he, hs⟩

theorem portTick_dropped {s : State} (hp : PortLaw s) (h : Dropped s) : Dropped (portTick s) := by
  obtain ⟨hc, he | ⟨hs, hshare⟩⟩ := h
  · obtain ⟨hc', he', -⟩ := portTick_port_of_disabled hp he
    exact ⟨hc'.trans hc, .inl he'⟩
  · have htick : portTick s = startExchange (waitTick s) := by simp [portTick, hs]
    rw [htick]
    refine ⟨?_, ?_⟩
    · rw [show (startExchange (waitTick s)).port.command = (waitTick s).port.command from rfl]
      unfold waitTick
      dsimp only
      split
      · exact hc
      · simp
    · rw [show (startExchange (waitTick s)).port.enable = (waitTick s).port.enable from rfl,
        show (startExchange (waitTick s)).port.state = (waitTick s).port.state from rfl,
        show (startExchange (waitTick s)).apply = (waitTick s).apply by simp]
      unfold waitTick
      dsimp only
      split
      · exact .inr ⟨hs, hshare⟩
      · exact .inl (by simp)

theorem Move.portUnder {s t : State} (m : Move .port s t) (hp : PortLaw s) :
    (t.port.command - s.port.command).natAbs ≤ 50 ∧ (Dropped s → Dropped t) ∧ (Unpowered s → Unpowered t) := by
  rw [m.portTick_eq]
  refine ⟨?_, fun h => (portTick_dropped hp h).settle, fun h => Unpowered.settle ?_⟩
  · rw [settle_command]
    obtain hle | hz := portTick_command s
    · exact hle
    · by_cases hs : s.port.state = .enabled
      · rw [show portTick s = startExchange (rampTick s) by simp [portTick, hs],
          show (startExchange (rampTick s)).port.command = (rampTick s).port.command from rfl, rampTick_command]
        exact natAbs_rampTo_sub_le _ _ _
      · have hc : s.port.command = 0 := by
          by_contra hne
          exact hs (hp.1 hne)
        simp [hz, hc]
  · obtain ⟨hc, he, -⟩ := portTick_port_of_disabled hp h.2.2
    exact ⟨hc.trans h.1, (fell_portTick s).zero h.2.1, he⟩

theorem ClockMoves.dropped {s t : State} (h : ClockMoves s t) :
    t.port.command = s.port.command ∧ (Dropped s → Dropped t) :=
  h.rel (R := fun s t => t.port.command = s.port.command ∧ (Dropped s → Dropped t)) (fun _ => ⟨rfl, id⟩)
    (fun _ _ _ h h' => ⟨h'.1.trans h.1, fun hd => h'.2 (h.2 hd)⟩) fun a _ _ ha m => by
      subst ha
      cases m with
      | action e => cases e
      | requestRead => exact ⟨rfl, id⟩
      | time => exact ⟨rfl, id⟩

/-- A tick that moves the command by more than 50 hW has taken a forced stop (R148). -/
theorem Ticked.dropped {s t : State} (h : Ticked s t) (hp : PortLaw s) (hs : ShareLaw s) :
    (t.port.command - s.port.command).natAbs ≤ 50 ∨ Dropped t := by
  obtain ⟨u, v, w, x, y, hu, hv, hw, hblocks, hy⟩ := h
  have hlaws := hv.laws (Moves.keeps hu (fun _ _ _ _ m h => PortLaw.move h m) hp) (Moves.keeps hu (fun _ _ _ _ m h => ShareLaw.move h m) hs)
  have hwatched : Watched v w := (Watched.start hlaws.1 hlaws.2).free hw
  have hbefore : v.port.command = s.port.command := hv.timerPort.1.trans hu.dropped.1
  have hafter := hy.dropped
  rw [hafter.1]
  obtain hc | hun := hwatched.command
  · left
    rw [← hbefore, ← hc]
    obtain ⟨hpt, ht⟩ | ⟨ht, hpt⟩ := hblocks
    · rw [ht.timerPort.1]
      exact (hpt.portUnder hwatched.port).1
    · rw [← ht.timerPort.1]
      exact (hpt.portUnder (ht.laws hwatched.port hwatched.share).1).1
  · right
    refine hafter.2 ?_
    obtain ⟨hpt, ht⟩ | ⟨ht, hpt⟩ := hblocks
    · exact ht.timerPort.2 ((hpt.portUnder hwatched.port).2.2 hun)
    · exact (hpt.portUnder (ht.laws hwatched.port hwatched.share).1).2.1 (ht.timerPort.2 hun)

theorem TickTaken.command {s t : State} (h : TickTaken s t) :
    ((t.port.command - s.port.command).natAbs ≤ 50 ∨ t.port.command = 0) ∧
      (PortLaw s → ShareLaw s → (t.port.command - s.port.command).natAbs ≤ 50 ∨ Dropped t) := by
  obtain rfl | ⟨u, hu, m⟩ | h := h
  · simp
  · have : t.port.command = s.port.command := (Once.timerPort (.inr m)).1.trans hu.dropped.1
    simp [this]
  · exact ⟨h.command, h.dropped⟩

/-- A command that brings no tick leaves the setpoint command, or leaves the port without power. -/
theorem Ran.command {c : Instr} {s t : State} (h : Ran c s t) (hc : Instr.ticks c = false) :
    (t.port.command = s.port.command ∨ t.port.command = 0) ∧
      (PortLaw s → ShareLaw s → t.port.command = s.port.command ∨ Unpowered t) := by
  cases h with
  | reset straps low hc h => subst h; exact ⟨.inr rfl, fun _ _ => .inr ⟨rfl, rfl, rfl⟩⟩
  | tick hc' => rw [hc] at hc'; cases hc'
  | transaction hc ha h =>
    refine ⟨?_, fun hp hs => ((Watched.start hp hs).quiet (h.quiet ha)).command⟩
    exact ((h.quiet ha).rel Held.refl (fun _ _ _ => Held.trans) fun _ _ _ ha m => m.held ha.1.2.2 ha.2).command
  | frame levels order hc h =>
    have m : Move .frames s t := by subst h; exact act_move (f := receive levels order) (.receive levels order s)
    exact ⟨m.command (by decide), fun hp hs => m.stopped hp hs (by decide)⟩
  | idle h => subst h; exact ⟨.inl rfl, fun _ _ => .inl rfl⟩
  | single ht hx ha m => exact ⟨m.command (quiet_of_single ha).2.2, fun hp hs => m.stopped hp hs (quiet_of_single ha).2.2⟩

end Sys2Proof.Machine

/-- Settles O18: the port's tick moves the command by one ramp step; every other move leaves it or stops the port. -/
theorem setpointMovesByAtMostFiftyOrToZero : Obligations.SetpointMovesByAtMostFiftyOrToZero := by
  intro c s t h
  have hran := exec_ran c s t h
  cases hticks : Instr.ticks c with
  | false =>
    obtain ⟨hzero, hlaws⟩ := hran.command hticks
    have hstop : PortLaw s → ShareLaw s → t.port.command = s.port.command ∨ t.port.command = 0 ∧ t.port.enable = false :=
      fun hp hs => (hlaws hp hs).imp_right fun hu => ⟨hu.1, hu.2.2⟩
    refine ⟨hzero.imp_left fun h => by simp [h], fun _ => hzero, fun hp hs _ => hstop hp hs, fun hp hs hfar => ?_⟩
    obtain hc | ⟨hc, he⟩ := hstop hp hs
    · simp [hc] at hfar
    · exact ⟨hc, .inl he⟩
  | true =>
    have htick : TickTaken s t := by
      cases hran with
      | tick _ h => exact h
      | idle h => exact .inl h
      | reset straps low hc => subst hc; cases hticks
      | transaction hx => cases c <;> cases hticks <;> cases hx
      | frame levels order hc => subst hc; cases hticks
      | single ht => rw [hticks] at ht; cases ht
    have hnot (hno : ∀ o, c ≠ .tick o ∧ c ≠ .ownBoundary o ∧ c ≠ .listenExpiry o ∧ c ≠ .enableTimeout o ∧ c ≠ .idleCountExpiry o) : False := by
      cases c <;> simp [Instr.ticks] at hticks hno
    refine ⟨htick.command.1, fun hno => (hnot hno).elim, fun _ _ hno => (hnot hno).elim, fun hp hs hfar => ?_⟩
    exact (htick.command.2 hp hs).resolve_left (by omega)
end

