-- ==== Sys2Proof/Proofs/ViewLaws.lean ====
section
/-! SUPPORT. The laws of the Peer View and of the Allocation Engine: lists kept in key order, what leaves the view as it is, and
what each operation on the view keeps. -/

open Sys2Proof Sys2Proof.Machine

namespace Sys2Proof.Machine

/-! ## Lists in key order (R83, R126) -/

section
variable {α : Type} (key : α → Fin 64)

/-- Write an element at its key, replacing one present, in key order: what the view and the tally list do. -/
def insertKeyed (x : α) : List α → List α
  | [] => [x]
  | y :: rest => if key x < key y then x :: y :: rest else if key x = key y then x :: rest else y :: insertKeyed x rest

theorem mem_of_mem_insertKeyed (x y : α) (l : List α) (h : y ∈ insertKeyed key x l) : y = x ∨ y ∈ l := by
  induction l with
  | nil => simpa [insertKeyed] using h
  | cons z rest ih =>
    unfold insertKeyed at h
    split at h
    · simpa using h
    · split at h
      · simp only [List.mem_cons] at h ⊢
        tauto
      · simp only [List.mem_cons] at h ⊢
        obtain h | h := h
        · exact .inr (.inl h)
        · exact (ih h).imp_right .inr

theorem pairwise_insertKeyed (x : α) (l : List α) (h : l.Pairwise fun a b => key a < key b) :
    (insertKeyed key x l).Pairwise fun a b => key a < key b := by
  induction l with
  | nil => simp [insertKeyed]
  | cons y rest ih =>
    obtain ⟨hy, hrest⟩ := List.pairwise_cons.mp h
    unfold insertKeyed
    split
    · rename_i hlt
      refine List.pairwise_cons.mpr ⟨fun z hz => ?_, h⟩
      obtain rfl | hz := List.mem_cons.mp hz
      · exact hlt
      · exact hlt.trans (hy z hz)
    · rename_i hge
      split
      · rename_i heq
        exact List.pairwise_cons.mpr ⟨fun z hz => heq ▸ hy z hz, hrest⟩
      · rename_i hne
        refine List.pairwise_cons.mpr ⟨fun z hz => ?_, ih hrest⟩
        obtain rfl | hz := mem_of_mem_insertKeyed key x z rest hz
        · exact lt_of_le_of_ne (not_lt.mp hge) (Ne.symm hne)
        · exact hy z hz
end

theorem insertOwn_eq (station : Fin 64) (v : OfferBody) (l : List Entry) :
    confirmOffer.insertOwn station v l = insertKeyed Entry.station ⟨station, v, none, .own⟩ l := by
  induction l with
  | nil => rfl
  | cons e rest ih => simp [confirmOffer.insertOwn, insertKeyed, ih]

theorem insertHeard_eq (station : Fin 64) (v : OfferBody) (l : List Entry) :
    insertHeard station v l = insertKeyed Entry.station ⟨station, v, none, .heard⟩ l := by
  induction l with
  | nil => rfl
  | cons e rest ih => simp [insertHeard, insertKeyed, ih]

/-! ## What leaves phase, entries and used part of the view -/

@[simp] theorem offerFate_shown (f : Fate) (n : IntervalNo) (s : State) :
    (offerFate f n s).view.phase = s.view.phase ∧ (offerFate f n s).view.entries = s.view.entries ∧
      (offerFate f n s).view.used = s.view.used := by
  unfold offerFate; split <;> simp

@[simp] theorem tellDrop_shown (q : Queued) (s : State) :
    (tellDrop q s).view.phase = s.view.phase ∧ (tellDrop q s).view.entries = s.view.entries ∧
      (tellDrop q s).view.used = s.view.used := by
  unfold tellDrop; (repeat' split) <;> simp

@[simp] theorem dropSlot_shown (k : Slot) (s : State) :
    (dropSlot k s).view.phase = s.view.phase ∧ (dropSlot k s).view.entries = s.view.entries ∧
      (dropSlot k s).view.used = s.view.used := by
  unfold dropSlot; split <;> simp

@[simp] theorem takeDeadline_shown (k : Slot) (s : State) :
    (takeDeadline k s).view.phase = s.view.phase ∧ (takeDeadline k s).view.entries = s.view.entries ∧
      (takeDeadline k s).view.used = s.view.used := by
  unfold takeDeadline dropAtDeadline; (repeat' split) <;> simp

@[simp] theorem takeDeadlines_shown (o : Order) (s : State) :
    (takeDeadlines o s).view.phase = s.view.phase ∧ (takeDeadlines o s).view.entries = s.view.entries ∧
      (takeDeadlines o s).view.used = s.view.used := by
  unfold takeDeadlines; split <;> simp

@[simp] theorem dropAll_shown (s : State) :
    (dropAll s).view.phase = s.view.phase ∧ (dropAll s).view.entries = s.view.entries ∧
      (dropAll s).view.used = s.view.used := by
  simp [dropAll]

@[simp] theorem queueFrame_shown (k : Slot) (q : Queued) (s : State) :
    (queueFrame k q s).view.phase = s.view.phase ∧ (queueFrame k q s).view.entries = s.view.entries ∧
      (queueFrame k q s).view.used = s.view.used := by
  unfold queueFrame; (repeat' split) <;> simp

@[simp] theorem endOffer_shown (s : State) :
    (endOffer s).view.phase = s.view.phase ∧ (endOffer s).view.entries = s.view.entries ∧
      (endOffer s).view.used = s.view.used := by
  unfold endOffer endOfferWith; (repeat' split) <;> simp

@[simp] theorem endTarget_shown (s : State) :
    (endTarget s).view.phase = s.view.phase ∧ (endTarget s).view.entries = s.view.entries ∧
      (endTarget s).view.used = s.view.used := by
  unfold endTarget endTargetWith; split <;> simp

@[simp] theorem handIncrements_shown (dx dm : Nat) (s : State) :
    (handIncrements dx dm s).view.phase = s.view.phase ∧ (handIncrements dx dm s).view.entries = s.view.entries ∧
      (handIncrements dx dm s).view.used = s.view.used := by
  unfold handIncrements; split <;> simp

@[simp] theorem goodSample_shown (r : MeterReading) (s : State) :
    (goodSample r s).view.phase = s.view.phase ∧ (goodSample r s).view.entries = s.view.entries ∧
      (goodSample r s).view.used = s.view.used := by
  unfold goodSample
  split
  · simp
  · dsimp only; split <;> simp

@[simp] theorem releaseSlot_shown (a : Attempt) (s : State) :
    (releaseSlot a s).view.phase = s.view.phase ∧ (releaseSlot a s).view.entries = s.view.entries ∧
      (releaseSlot a s).view.used = s.view.used := by
  unfold releaseSlot; split <;> simp

@[simp] theorem loseAttempt_shown (l : List Level) (s : State) :
    (loseAttempt l s).view.phase = s.view.phase ∧ (loseAttempt l s).view.entries = s.view.entries ∧
      (loseAttempt l s).view.used = s.view.used := by
  unfold loseAttempt; split <;> simp

@[simp] theorem failAttempt_shown (s : State) :
    (failAttempt s).view.phase = s.view.phase ∧ (failAttempt s).view.entries = s.view.entries ∧
      (failAttempt s).view.used = s.view.used := by
  unfold failAttempt enterSilent
  split
  · simp
  · dsimp only; split <;> simp

@[simp] theorem enterClash_shown (s : State) :
    (enterClash s).view.phase = s.view.phase ∧ (enterClash s).view.entries = s.view.entries ∧
      (enterClash s).view.used = s.view.used := by
  unfold enterClash; split <;> simp

@[simp] theorem beginComposition_shown (x : Int) (s : State) :
    (beginComposition x s).view.phase = s.view.phase ∧ (beginComposition x s).view.entries = s.view.entries ∧
      (beginComposition x s).view.used = s.view.used := by
  unfold beginComposition; split <;> simp

@[simp] theorem markBoundary_shown (k : BoundaryKind) (s : State) :
    (markBoundary k s).view.phase = s.view.phase ∧ (markBoundary k s).view.entries = s.view.entries ∧
      (markBoundary k s).view.used = s.view.used := by
  unfold markBoundary queueMark; split <;> simp

@[simp] theorem closeTotals_shown (k : BoundaryKind) (s : State) :
    (closeTotals k s).view.phase = s.view.phase ∧ (closeTotals k s).view.entries = s.view.entries ∧
      (closeTotals k s).view.used = s.view.used := by
  simp only [closeTotals, restartTotals_frame]
  unfold queueTally; split <;> simp

@[simp] theorem endDeadlines_shown (o : Order) (s : State) :
    (endDeadlines o s).view.phase = s.view.phase ∧ (endDeadlines o s).view.entries = s.view.entries ∧
      (endDeadlines o s).view.used = s.view.used := by
  have hone (k : Slot) (x : State) : (endDeadline k x).view.phase = x.view.phase ∧ (endDeadline k x).view.entries = x.view.entries ∧
      (endDeadline k x).view.used = x.view.used := by
    unfold endDeadline dropAtDeadline
    (repeat' split) <;> simp
  unfold endDeadlines; split <;> simp [hone]

/-- A boundary leaves the used part of the target record (R91, R94). -/
theorem takeBoundary_used (kind : BoundaryKind) (number : IntervalNo) (order : Order) (s : State) :
    (takeBoundary kind number order s).view.used = s.view.used := by
  simp [takeBoundary, viewBoundary]

/-! ## The laws -/

/-- The three laws of view and engine together. -/
def ViewLaws (s : State) : Prop := ViewLaw s ∧ HoldLaw s ∧ EngineLaw s

theorem ViewLaws.same {s t : State} (h : ViewLaws s)
    (hv : t.view.phase = s.view.phase ∧ t.view.entries = s.view.entries ∧ t.view.used = s.view.used) (ha : t.alloc = s.alloc)
    (hs : t.straps = s.straps) : ViewLaws t := by
  obtain ⟨hphase, hentries, hused⟩ := hv
  simpa [ViewLaws, ViewLaw, HoldLaw, EngineLaw, hphase, hentries, hused, ha, hs] using h

theorem viewLaws_afterReset (straps : Straps) (select : Select) (pending : List Instr) :
    ViewLaws (.afterReset straps select pending) :=
  ⟨(laws_afterReset straps select pending).view, (laws_afterReset straps select pending).hold,
    (laws_afterReset straps select pending).engine⟩

/-- Over an OPEN view the engine is IDLE (R98). -/
theorem ViewLaws.idle {s : State} (h : ViewLaws s) (ho : s.view.phase = .opened) : s.alloc.engine = .idle := by
  obtain ⟨-, -, he⟩ := h
  unfold EngineLaw at he
  split at he
  · assumption
  · rw [ho] at he; cases he.1
  · rw [ho] at he; cases he.1

/-- A change of the entries of an OPEN view that keeps the view law. -/
theorem ViewLaws.entries {s t : State} (h : ViewLaws s) (ho : s.view.phase = .opened) (hphase : t.view.phase = s.view.phase)
    (hused : t.view.used = s.view.used) (ha : t.alloc = s.alloc) (hpair : t.view.entries.Pairwise fun a b => a.station < b.station)
    (hown : ∀ e ∈ t.view.entries, e.station = t.straps.stn ↔ e.origin = .own) : ViewLaws t := by
  refine ⟨⟨hpair, hown, fun hc => ?_⟩, ?_, ?_⟩
  · rw [hphase, ho] at hc; cases hc
  · unfold HoldLaw; rw [hused]; exact h.2.1
  · unfold EngineLaw; rw [ha, h.idle ho]; trivial

/-- Entries may leave an OPEN view (R88, R89). -/
theorem ViewLaws.fewer {s t : State} (h : ViewLaws s) (ho : s.view.phase = .opened) (p : Entry → Bool)
    (hphase : t.view.phase = s.view.phase) (hentries : t.view.entries = s.view.entries.filter p)
    (hused : t.view.used = s.view.used) (ha : t.alloc = s.alloc) (hs : t.straps = s.straps) : ViewLaws t := by
  obtain ⟨hpair, hown, -⟩ := h.1
  refine h.entries ho hphase hused ha ?_ fun e he => ?_
  · rw [hentries]; exact hpair.filter _
  · rw [hentries] at he; rw [hs]; exact hown e (List.mem_filter.mp he).1

/-- An entry may enter an OPEN view, with the own number only as the own one (R85, R86). -/
theorem ViewLaws.insert {s t : State} (h : ViewLaws s) (ho : s.view.phase = .opened) (e : Entry)
    (hphase : t.view.phase = s.view.phase) (hentries : t.view.entries = insertKeyed Entry.station e s.view.entries)
    (hused : t.view.used = s.view.used) (ha : t.alloc = s.alloc) (hs : t.straps = s.straps)
    (he : e.station = s.straps.stn ↔ e.origin = .own) : ViewLaws t := by
  obtain ⟨hpair, hown, -⟩ := h.1
  refine h.entries ho hphase hused ha ?_ fun x hx => ?_
  · rw [hentries]; exact pairwise_insertKeyed _ _ _ hpair
  · rw [hentries] at hx
    rw [hs]
    obtain rfl | hx := mem_of_mem_insertKeyed _ _ _ _ hx
    · exact he
    · exact hown x hx

theorem ViewLaws.boundary {s : State} (h : ViewLaws s) (kind : BoundaryKind) (number : IntervalNo) (order : Order) :
    ViewLaws (takeBoundary kind number order s) := by
  obtain ⟨hphase, hentries⟩ := takeBoundary_view kind number order s
  refine ⟨⟨?_, ?_, fun _ => hentries⟩, ?_, ?_⟩
  · rw [hentries]; exact .nil
  · rw [hentries]; simp
  · unfold HoldLaw; rw [takeBoundary_used]; exact h.2.1
  · unfold EngineLaw; rw [takeBoundary_engine]; trivial

/-- Completion writes the shares into the entries from which they were computed (R106, R108). -/
theorem ViewLaws.completeWith {s : State} (h : ViewLaws s) {i : AllocInput} {ticks : Nat} (hi : s.alloc.engine = .computing i ticks) :
    ViewLaws (completeWith i s) := by
  obtain ⟨⟨hpair, hown, hclosed⟩, hhold, hengine⟩ := h
  rw [EngineLaw, hi] at hengine
  obtain ⟨hphase, hentries⟩ := hengine
  unfold Machine.completeWith
  refine ⟨⟨?_, ?_, ?_⟩, ?_, ?_⟩
  · simpa [List.pairwise_map] using hpair
  · simpa using hown
  · simpa using hclosed
  · simpa [HoldLaw] using hhold
  · simp only [EngineLaw, cause_frame, raiseResult_frame]
    refine ⟨hphase, fun hne => ?_⟩
    unfold AllocInput.ownShare at hne ⊢
    rw [hentries] at hne ⊢
    cases hf : s.view.entries.find? (fun e => e.origin = .own) with
    | none => simp [hf] at hne
    | some e =>
      have horigin := List.find?_some hf
      exact ⟨{ e with share := some (i.shareField e) }, List.mem_map_of_mem (List.mem_of_find?_eq_some hf), by simpa using horigin, rfl⟩

theorem ViewLaws.complete {s : State} (h : ViewLaws s) : ViewLaws (complete s) := by
  unfold Machine.complete
  split
  · rename_i hi; exact h.completeWith hi
  · exact h

theorem ViewLaws.allocationTick {s : State} (h : ViewLaws s) : ViewLaws (allocationTick s) := by
  unfold Machine.allocationTick
  split
  · rename_i i ticks hi
    split
    · obtain ⟨hv, hh, he⟩ := h
      refine ⟨hv, hh, ?_⟩
      rw [EngineLaw, hi] at he
      exact he
    · exact h.completeWith hi
  · exact h

/-- The freeze point freezes the entries the engine computes from (R90, R99). -/
theorem ViewLaws.takeFreeze {s : State} (h : ViewLaws s) : ViewLaws (takeFreeze s) := by
  obtain ⟨⟨hpair, hown, -⟩, hhold, -⟩ := h
  have hused (u : UsedTarget) (hu : usedAfter s.view (s.timer.n + 1) = some u) : u.hold ≤ 2 := by
    unfold usedAfter at hu
    split at hu
    · cases hu; exact Nat.zero_le _
    · split at hu
      · split at hu
        · rename_i hlt; cases hu; exact hlt
        · cases hu
      · cases hu
  have hstart : ViewLaws { s with
      timer := { s.timer with freezeDue := false }
      view  := { s.view with phase := .frozen, used := usedAfter s.view (s.timer.n + 1) }
      alloc := { s.alloc with engine := .computing ⟨s.timer.n + 1, s.view.entries, chooseTarget s.view⟩ 0 } } :=
    ⟨⟨hpair, hown, fun hc => by cases hc⟩, hused, rfl, rfl⟩
  unfold Machine.takeFreeze
  dsimp only
  split
  · exact hstart
  · exact hstart.complete

theorem ViewLaws.takeFreezeIfDue {s : State} (h : ViewLaws s) : ViewLaws (takeFreezeIfDue s) := by
  unfold Machine.takeFreezeIfDue
  split
  · exact h.takeFreeze
  · exact h

theorem ViewLaws.takePoints {s : State} (h : ViewLaws s) (order : Order) : ViewLaws (takePoints order s) := by
  have hdeadlines : ViewLaws (takeDeadlines order s) := h.same (by simp) (by simp) (by simp)
  have htarget (x : State) (hx : ViewLaws x) : ViewLaws (takeTargetIfDue x) := by
    unfold takeTargetIfDue
    split
    · exact hx.same (by simp) (by simp) (by simp)
    · exact hx
  exact htarget _ hdeadlines.takeFreezeIfDue

theorem ViewLaws.withdraw {s : State} (h : ViewLaws s) (reason : WithdrawReason) : ViewLaws (withdraw reason s) := by
  have hview := withdraw_view reason s
  by_cases ho : s.view.phase = .opened
  · refine h.fewer ho (fun e => e.station ≠ s.straps.stn) ?_ ?_ ?_ (by simp) (by simp) <;> rw [hview] <;> simp [viewWithdrawn, ho]
  · refine h.same ?_ (by simp) (by simp)
    rw [hview]
    simp [viewWithdrawn, ho]

theorem ViewLaws.enterStopped {s : State} (h : ViewLaws s) : ViewLaws (enterStopped s) := by
  have hcut : ViewLaws (cut 0 .stopped s) := h.same (by simp) (by simp) (by simp)
  exact (hcut.withdraw .stopped).same (by simp [Machine.enterStopped]) (by simp [Machine.enterStopped]) (by simp [Machine.enterStopped])

theorem ViewLaws.enterFaulted {s : State} (h : ViewLaws s) (c : FaultCause) : ViewLaws (enterFaulted c s) := by
  unfold Machine.enterFaulted
  split
  · exact h.same (by simp) (by simp) (by simp)
  · dsimp only
    split
    · refine ViewLaws.enterStopped ?_
      exact h.same (by simp) (by simp) (by simp)
    · exact h.same (by simp) (by simp) (by simp)

theorem ViewLaws.reportEffect {s : State} (h : ViewLaws s) (st : ConverterStatus) : ViewLaws (reportEffect st s) := by
  have hport (p : PortUnit) : ViewLaws { s with port := p } := h.same ⟨rfl, rfl, rfl⟩ rfl rfl
  unfold Machine.reportEffect
  cases s.port.state <;> cases st <;> dsimp only
  all_goals first
    | exact h
    | exact h.enterFaulted _
    | exact hport _
    | exact ViewLaws.enterFaulted (s := { s with port := { s.port with offRun := 0 } }) (hport _) _
    | (split <;> exact hport _)

theorem ViewLaws.portTick {s : State} (h : ViewLaws s) : ViewLaws (portTick s) := by
  have hstart (x : State) (hx : ViewLaws x) : ViewLaws (startExchange x) := hx.same (by simp) (by simp) (by simp)
  unfold Machine.portTick
  split
  · exact h
  · exact hstart _ (h.same (by simp) (by simp) (by simp))
  · refine hstart _ ?_
    unfold waitTick
    dsimp only
    split
    · exact h.same ⟨rfl, rfl, rfl⟩ rfl rfl
    · refine ViewLaws.enterFaulted ?_ _
      exact h.same ⟨rfl, rfl, rfl⟩ rfl rfl
  all_goals exact hstart _ h

theorem ViewLaws.confirmAttempt {s : State} (h : ViewLaws s) : ViewLaws (confirmAttempt s) := by
  have hoffer (q : Queued) (v : OfferBody) (x : State) (hx : ViewLaws x) : ViewLaws (confirmOffer q v x) := by
    unfold confirmOffer
    split
    · exact hx
    · split
      · rename_i ho
        split
        · have hin : ViewLaws { x with view := { x.view with entries := confirmOffer.insertOwn x.straps.stn v x.view.entries } } :=
            hx.insert ho ⟨x.straps.stn, v, none, .own⟩ rfl (insertOwn_eq _ _ _) rfl rfl rfl (by simp)
          exact hin.same (by simp) (by simp) (by simp)
        · exact hx
      · exact hx.same (by simp) (by simp) (by simp)
      · exact hx
  have htell (q : Queued) (x : State) (hx : ViewLaws x) : ViewLaws (tellConfirmed q x) := by
    unfold tellConfirmed
    split
    · exact hoffer _ _ _ hx
    · exact hx
  have hline (x : LineUnit) : ViewLaws { s with line := x } := h.same ⟨rfl, rfl, rfl⟩ rfl rfl
  unfold Machine.confirmAttempt
  split
  · exact h
  · dsimp only [endAttempt]
    split
    · exact hline _
    · split
      · exact htell _ _ (hline _)
      · exact hline _

theorem ViewLaws.hearing {s t : State} (h : ViewLaws s) (m : Hearing s t) : ViewLaws t := by
  cases m with
  | boundary number order hg => exact (h.takePoints order).boundary _ _ _
  | offer number v hsource =>
    unfold takeOffer
    split
    · exact h.same ⟨rfl, rfl, rfl⟩ rfl rfl
    · split <;> exact h.same ⟨rfl, rfl, rfl⟩ rfl rfl
    · rename_i ho
      split
      · refine h.insert ho ⟨_, v, none, .heard⟩ rfl (insertHeard_eq _ _ _) rfl rfl rfl ?_
        simp [hsource]
      · exact h.same ⟨rfl, rfl, rfl⟩ rfl rfl
  | withdrawn source hsource =>
    unfold takeWithdraw
    split
    · exact h
    · exact h.same ⟨rfl, rfl, rfl⟩ rfl rfl
    · rename_i ho
      exact h.fewer ho _ rfl rfl rfl rfl rfl
  | target x =>
    have hview : (takeTarget x s).view.phase = s.view.phase ∧ (takeTarget x s).view.entries = s.view.entries ∧
        (takeTarget x s).view.used = s.view.used := by
      unfold takeTarget countOff countLate
      (repeat' split) <;> simp
    exact h.same hview (by simp) (by simp)
  | _ => exact h.same (by simp) (by simp) (by simp)

theorem ViewLaws.post {s t : State} (h : ViewLaws s) {kind : PostKind} (e : PostEffect kind s t) : ViewLaws t := by
  have hsame (x : State) (hv : x.view = s.view) (ha : x.alloc = s.alloc) (hs : x.straps = s.straps) : ViewLaws x :=
    h.same (by simp [hv]) ha hs
  cases e with
  | @engagedStopped body r p hrole hs hr hp hstop =>
    exact (hsame (resync p.soc (reportTaken r p s)) (by simp) (by simp) (by simp)).enterStopped.same (by simp) (by simp) (by simp)
  | @close reason hrole hs =>
    have hwithdrawn := (hsame (cut 0 .close (closeNoted reason s)) (by simp) (by simp) (by simp)).withdraw (closeWithdraw reason)
    exact hwithdrawn.same (by simp) (by simp) (by simp)
  | @pause r hrole hs hr hp =>
    exact (hsame (cut 0 .pause (setRecord { r with paused := true } s)) (by simp) (by simp) (by simp)).withdraw .paused
  | _ => exact hsame _ (by simp) (by simp) (by simp)

theorem ViewLaws.effect {a : Agent} {s t : State} (h : ViewLaws s) (e : Effect a s t) : ViewLaws t := by
  cases e with
  | timer order =>
    unfold timerTick
    split
    · split
      · exact h.same (by simp) (by simp) (by simp)
      · exact h.boundary _ _ _
    · split
      · exact h.same ⟨rfl, rfl, rfl⟩ rfl rfl
      · exact h.boundary _ _ _
  | receive levels order => exact receive_keeps (fun _ _ m hs => ViewLaws.hearing hs m) (fun _ _ h => h) levels order h
  | portTick => exact h.portTick
  | points order => exact h.takePoints order
  | freeze => exact h.takeFreezeIfDue
  | complete => exact h.complete
  | allocation => exact h.allocationTick
  | linkError hx =>
    have hcounted : ViewLaws (errorCounted s) := h.same (by simp [errorCounted]) (by simp [errorCounted]) (by simp [errorCounted])
    rw [takeLinkError_eq]
    split
    · exact hcounted.enterFaulted _
    · exact hcounted
  | status st hx =>
    rw [takeStatus_eq]
    refine ViewLaws.reportEffect ?_ st
    exact h.same (by simp [reportCounted]) (by simp [reportCounted]) (by simp [reportCounted])
  | @post kind body _ hr hk =>
    have hpop : ViewLaws (popHead s) := h.same (by simp) (by simp) (by simp)
    exact (hpop.post (ownerRule_effect kind body _)).same (by simp) (by simp) (by simp)
  | _ => exact h.same (by simp) (by simp) (by simp)

theorem ViewLaws.move {a : Agent} {s t : State} (h : ViewLaws s) (m : Move a s t) : ViewLaws t := by
  cases m with
  | action e => exact (h.effect e).same (by simp) (by simp) (by simp)
  | restart => exact (viewLaws_afterReset s.straps s.service.select s.pending).same ⟨rfl, rfl, rfl⟩ rfl rfl
  | confirm => exact h.confirmAttempt
  | targetPoint =>
    unfold takeTargetIfDue
    split
    · exact h.same (by simp) (by simp) (by simp)
    · exact h
  | requestRead => exact h.same ⟨rfl, rfl, rfl⟩ rfl rfl
  | _ => exact h.same (by simp) (by simp) (by simp)

end Sys2Proof.Machine

/-- Settles O9: every move keeps the laws of view and engine together; a nonzero pending share needs the frozen view's own entry. -/
theorem stepKeepsTheViewAndEngineLaws : Obligations.StepKeepsTheViewAndEngineLaws := by
  intro s t hs h
  exact step_keeps (P := ViewLaws) (fun _ _ h => h.same ⟨rfl, rfl, rfl⟩ rfl rfl) viewLaws_afterReset (fun _ _ _ m hs => hs.move m) hs h
end

