-- ==== Sys2Proof/Proofs/FeederLaws.lean ====
section
/-! SUPPORT. The laws of the Feeder Unit on either role: drops mark goals alone, and what the feeder's own steps keep. -/

open Sys2Proof Sys2Proof.Machine

namespace Sys2Proof.Machine

/-! ## What a drop does to the Feeder Unit -/

/-- The Feeder Unit stayed as it was but for the fates of its goals, each of which kept its interval (R135). -/
def GoalsMarked (u v : FeederUnit) : Prop :=
  ∃ f : Goal → Goal, (∀ g, (f g).interval = g.interval) ∧ v = { u with goals := u.goals.map f }

theorem GoalsMarked.refl (u : FeederUnit) : GoalsMarked u u := ⟨id, fun _ => rfl, by simp⟩

theorem GoalsMarked.of_eq {u v : FeederUnit} (h : v = u) : GoalsMarked u v := h ▸ .refl u

theorem GoalsMarked.trans {u v w : FeederUnit} (h : GoalsMarked u v) (h' : GoalsMarked v w) : GoalsMarked u w := by
  obtain ⟨f, hf, rfl⟩ := h
  obtain ⟨g, hg, rfl⟩ := h'
  exact ⟨g ∘ f, fun x => (hg _).trans (hf x), by simp⟩

theorem goalsMarked_tellDrop (q : Queued) (s : State) : GoalsMarked s.feeder (tellDrop q s).feeder := by
  unfold tellDrop
  split
  · split
    · exact .refl _
    · exact .of_eq (by simp)
  · refine ⟨fun g => if g.interval = q.frame.number then { g with dropped := true } else g, fun g => ?_, rfl⟩
    dsimp only
    split <;> rfl
  · exact .refl _

theorem goalsMarked_dropSlot (k : Slot) (s : State) : GoalsMarked s.feeder (dropSlot k s).feeder := by
  unfold dropSlot
  split
  · exact .refl _
  · exact goalsMarked_tellDrop _ _

theorem goalsMarked_dropAtDeadline (k : Slot) (s : State) : GoalsMarked s.feeder (dropAtDeadline k s).feeder := by
  unfold dropAtDeadline
  split
  · exact .refl _
  · exact goalsMarked_dropSlot _ _

theorem goalsMarked_takeDeadline (k : Slot) (s : State) : GoalsMarked s.feeder (takeDeadline k s).feeder := by
  unfold takeDeadline
  split
  · exact goalsMarked_dropAtDeadline _ _
  · exact .refl _

/-- Three steps in a row, in either order of the last two. -/
theorem goalsMarked_ordered {f : Slot → State → State} (hf : ∀ k s, GoalsMarked s.feeder (f k s).feeder) (b : Bool) (s : State) :
    GoalsMarked s.feeder (if b = true then f .offer (f .report (f .mark s)) else f .report (f .offer (f .mark s))).feeder := by
  split <;> exact ((hf _ _).trans (hf _ _)).trans (hf _ _)

theorem goalsMarked_takeDeadlines (o : Order) (s : State) : GoalsMarked s.feeder (takeDeadlines o s).feeder :=
  goalsMarked_ordered goalsMarked_takeDeadline _ _

theorem goalsMarked_endDeadlines (o : Order) (s : State) : GoalsMarked s.feeder (endDeadlines o s).feeder := by
  refine goalsMarked_ordered (f := endDeadline) (fun k s => ?_) _ _
  unfold endDeadline
  split
  · exact .refl _
  · split
    · exact .refl _
    · split
      · exact .refl _
      · exact goalsMarked_dropAtDeadline _ _

theorem goalsMarked_dropAll (s : State) : GoalsMarked s.feeder (dropAll s).feeder :=
  (((goalsMarked_dropSlot _ _).trans (goalsMarked_dropSlot _ _)).trans (goalsMarked_dropSlot _ _)).trans (goalsMarked_dropSlot _ _)

theorem goalsMarked_queueFrame (k : Slot) (q : Queued) (s : State) : GoalsMarked s.feeder (queueFrame k q s).feeder := by
  unfold queueFrame
  split
  · exact goalsMarked_tellDrop _ _
  · split <;> exact .refl _

theorem goalsMarked_endOffer (s : State) : GoalsMarked s.feeder (endOffer s).feeder := by
  unfold endOffer endOfferWith
  split
  · split
    · exact goalsMarked_queueFrame _ _ _
    · exact .refl _
  · exact .refl _

theorem goalsMarked_releaseSlot (a : Attempt) (s : State) : GoalsMarked s.feeder (releaseSlot a s).feeder := by
  unfold releaseSlot
  split
  · exact .refl _
  · exact goalsMarked_takeDeadline _ _

theorem goalsMarked_loseAttempt (l : List Level) (s : State) : GoalsMarked s.feeder (loseAttempt l s).feeder := by
  unfold loseAttempt
  split
  · exact goalsMarked_releaseSlot _ _
  · exact .refl _

theorem goalsMarked_failAttempt (s : State) : GoalsMarked s.feeder (failAttempt s).feeder := by
  have hsilent (x : State) : GoalsMarked x.feeder (enterSilent x).feeder :=
    (goalsMarked_dropAll x).trans (.of_eq (by simp [enterSilent]))
  have hreleased (a : Attempt) (x : State) (hx : x.feeder = s.feeder) : GoalsMarked s.feeder (releaseSlot a x).feeder :=
    hx ▸ goalsMarked_releaseSlot a x
  unfold failAttempt
  split
  · exact .refl _
  · dsimp only
    split
    · exact hreleased _ _ rfl
    · refine GoalsMarked.trans ?_ (hsilent _)
      exact hreleased _ _ rfl

theorem goalsMarked_enterClash (s : State) : GoalsMarked s.feeder (enterClash s).feeder := by
  unfold enterClash
  split
  · exact .refl _
  · exact (goalsMarked_dropAll s).trans (.of_eq (by simp))

theorem goalsMarked_markBoundary (kind : BoundaryKind) (s : State) : GoalsMarked s.feeder (markBoundary kind s).feeder := by
  unfold markBoundary queueMark
  split
  · exact goalsMarked_queueFrame _ _ _
  · exact .refl _

theorem goalsMarked_closeTotals (kind : BoundaryKind) (s : State) : GoalsMarked s.feeder (closeTotals kind s).feeder := by
  have hqueue (x : State) : GoalsMarked x.feeder (queueTally kind x).feeder := by
    unfold queueTally
    split
    · exact goalsMarked_queueFrame _ _ _
    · exact .refl _
  exact (hqueue s).trans (.of_eq (by simp [closeTotals]))

/-! ## The laws -/

/-- The laws of the Feeder Unit on either role. -/
def FeederLaws (s : State) : Prop := ChargerLaw s ∧ FeederLaw s

theorem FeederLaws.marked {s t : State} (h : FeederLaws s) (hf : GoalsMarked s.feeder t.feeder)
    (hd : t.timer.targetDue = true → s.timer.targetDue = true) (hs : t.straps = s.straps) : FeederLaws t := by
  obtain ⟨hcharger, htallies, hgoals, hlength, hvalid⟩ := h
  obtain ⟨f, hkeep, hfeeder⟩ := hf
  refine ⟨fun hr => ?_, ?_, ?_, ?_, ?_⟩
  · obtain ⟨hreset, hdue⟩ := hcharger (hs ▸ hr)
    refine ⟨by rw [hfeeder, hreset]; rfl, ?_⟩
    cases ht : t.timer.targetDue with
    | false => rfl
    | true => rw [hd ht] at hdue; cases hdue
  · rw [hfeeder]; exact htallies
  · rw [hfeeder]
    simpa [List.pairwise_map, hkeep] using hgoals
  · rw [hfeeder]; simpa using hlength
  · rw [hfeeder]; exact hvalid

theorem FeederLaws.same {s t : State} (h : FeederLaws s) (hf : t.feeder = s.feeder) (ht : t.timer = s.timer)
    (hs : t.straps = s.straps) : FeederLaws t :=
  h.marked (.of_eq hf) (by rw [ht]; exact id) hs

/-- On a FEEDER the law of its lists is all. -/
theorem feederLaws_of_feeder {s : State} (hr : s.straps.role = .feeder) (h : FeederLaw s) : FeederLaws s :=
  ⟨fun hc => absurd (hr.symm.trans hc) (by decide), h⟩

theorem feederLaws_afterReset (straps : Straps) (select : Select) (pending : List Instr) :
    FeederLaws (.afterReset straps select pending) :=
  ⟨(laws_afterReset straps select pending).charger, (laws_afterReset straps select pending).feeder⟩

theorem insertTally_eq (t : Tally) (l : List Tally) : insertTally t l = insertKeyed Tally.station t l := by
  induction l with
  | nil => rfl
  | cons u rest ih => simp [insertTally, insertKeyed, ih]

/-- The goal list after a composition: at most one goal of the interval before, and the new one (R134). -/
theorem enterGoal_law (record : FeederRecord) (goals : List Goal) (h : goals.Pairwise fun a b => a.interval ≠ b.interval) :
    ((enterGoal record goals).Pairwise fun a b => a.interval ≠ b.interval) ∧ (enterGoal record goals).length ≤ 2 := by
  have hkept := h.filter (fun g => g.interval = record.interval - 1)
  have hmem (g : Goal) (hg : g ∈ goals.filter (fun g => g.interval = record.interval - 1)) : g.interval = record.interval - 1 := by
    simpa using (List.mem_filter.mp hg).2
  have hnext : record.interval - 1 ≠ record.interval := by bv_omega
  unfold enterGoal
  generalize goals.filter (fun g => g.interval = record.interval - 1) = kept at hkept hmem
  refine ⟨List.pairwise_append.mpr ⟨hkept, List.pairwise_singleton _ _, fun a ha b hb => ?_⟩, ?_⟩
  · rw [hmem a ha, List.mem_singleton.mp hb]
    exact hnext
  · match kept, hkept, hmem with
    | [], _, _ => simp
    | [_], _, _ => simp
    | a :: b :: rest, hkept, hmem =>
      have hne := (List.pairwise_cons.mp hkept).1 b (by simp)
      rw [hmem a (by simp), hmem b (by simp)] at hne
      exact absurd rfl hne

theorem FeederLaws.endTarget {s : State} (h : FeederLaws s) : FeederLaws (endTarget s) := by
  unfold Machine.endTarget
  cases hc : s.feeder.composing with
  | none => exact h
  | some record =>
    have hrole : s.straps.role = .feeder := by
      cases hr : s.straps.role with
      | feeder => rfl
      | charger => rw [(h.1 hr).1] at hc; cases hc
    obtain ⟨-, htallies, hgoals, -, hvalid⟩ := h
    have hentered : FeederLaws { s with feeder := { s.feeder with
        composing := none, record := record, goals := enterGoal record s.feeder.goals } } :=
      feederLaws_of_feeder hrole ⟨htallies, (enterGoal_law record _ hgoals).1, (enterGoal_law record _ hgoals).2, hvalid⟩
    exact hentered.marked (goalsMarked_queueFrame _ _ _) (by simp [endTargetWith]) (by simp [endTargetWith])

theorem FeederLaws.takeTargetIfDue {s : State} (h : FeederLaws s) : FeederLaws (takeTargetIfDue s) := by
  unfold Machine.takeTargetIfDue
  split
  · rename_i hd
    have hrole : s.straps.role = .feeder := by
      cases hr : s.straps.role with
      | feeder => rfl
      | charger => rw [(h.1 hr).2] at hd; cases hd
    exact feederLaws_of_feeder hrole h.2
  · exact h

theorem FeederLaws.takeFreezeIfDue {s : State} (h : FeederLaws s) : FeederLaws (takeFreezeIfDue s) := by
  refine h.marked (.of_eq (by simp)) ?_ (by simp)
  unfold Machine.takeFreezeIfDue takeFreeze
  split
  · dsimp only; split <;> simp
  · exact id

theorem FeederLaws.takePoints {s : State} (h : FeederLaws s) (order : Order) : FeederLaws (takePoints order s) := by
  have hdeadlines : FeederLaws (takeDeadlines order s) := h.marked (goalsMarked_takeDeadlines order s) (by simp) (by simp)
  exact hdeadlines.takeFreezeIfDue.takeTargetIfDue

theorem FeederLaws.feederBoundary {s : State} (h : FeederLaws s) (kind : BoundaryKind) : FeederLaws (feederBoundary kind s) := by
  unfold Machine.feederBoundary
  cases hr : s.straps.role with
  | charger => exact h
  | feeder =>
    obtain ⟨-, -, hgoals, hlength, hvalid⟩ := h
    have habandon : (abandonTarget s.feeder).goals = s.feeder.goals ∧ (abandonTarget s.feeder).valid = s.feeder.valid := by
      unfold abandonTarget; split <;> exact ⟨rfl, rfl⟩
    have hcount : (countValid (abandonTarget s.feeder)).goals = s.feeder.goals ∧ (countValid (abandonTarget s.feeder)).valid ≤ 255 := by
      unfold countValid
      split
      · exact ⟨habandon.1, habandon.2 ▸ hvalid⟩
      · exact ⟨habandon.1, by dsimp only; omega⟩
    refine feederLaws_of_feeder hr ⟨.nil, ?_, ?_, hcount.2⟩ <;> simp only [closeSite, hcount.1] <;> assumption

theorem FeederLaws.boundary {s : State} (h : FeederLaws s) (kind : BoundaryKind) (number : IntervalNo) (order : Order) :
    FeederLaws (takeBoundary kind number order s) := by
  have hdeadlines : FeederLaws (endDeadlines order s) := h.marked (goalsMarked_endDeadlines order s) (by simp) (by simp)
  have htimer : FeederLaws (timerBoundary kind number (endDeadlines order s)) :=
    hdeadlines.marked (.refl _) (by simp [timerBoundary]) rfl
  have htotals (x : State) (hx : FeederLaws x) : FeederLaws (closeTotals kind x) :=
    hx.marked (goalsMarked_closeTotals kind x) (by simp) (by simp)
  have hcompose (x : State) (hx : FeederLaws x) (share : Int) : FeederLaws (beginComposition share x) :=
    hx.same (by simp) (by simp) (by simp)
  have hmark (x : State) (hx : FeederLaws x) : FeederLaws (cause .boundary (markBoundary kind x)) :=
    hx.marked ((goalsMarked_markBoundary kind x).trans (.of_eq (by simp))) (by simp) (by simp)
  refine hmark _ (hcompose _ ((htotals _ ?_).feederBoundary kind) _)
  exact htimer.same (by simp) (by simp) (by simp)

theorem FeederLaws.hearing {s t : State} (h : FeederLaws s) (m : Hearing s t) : FeederLaws t := by
  cases m with
  | boundary number order hg => exact (h.takePoints order).boundary _ _ _
  | clash => exact h.marked (goalsMarked_enterClash s) (by simp) (by simp)
  | tally source number power hr =>
    obtain ⟨-, htallies, hrest⟩ := h
    unfold takeTally
    split
    · refine feederLaws_of_feeder hr ⟨?_, hrest⟩
      dsimp only
      rw [insertTally_eq]
      exact pairwise_insertKeyed _ _ _ htallies
    · exact feederLaws_of_feeder hr ⟨htallies, hrest⟩
  | _ => exact h.same (by simp) (by simp) (by simp)

theorem FeederLaws.goodSample {s : State} (h : FeederLaws s) (reading : MeterReading) : FeederLaws (goodSample reading s) := by
  have hloss (x : State) (hx : FeederLaws x) : FeederLaws (endLoss x) := hx.same (by simp) (by simp) (by simp)
  have hport (p : PortUnit) : FeederLaws { s with port := p } := h.same rfl rfl rfl
  have hhand (dx dm : Nat) (x : State) (hx : FeederLaws x) : FeederLaws (handIncrements dx dm x) := by
    unfold handIncrements
    cases hr : x.straps.role with
    | charger =>
      exact (hx.marked (goalsMarked_endOffer x) (by simp) (by simp)).same (by simp) (by simp) (by simp)
    | feeder => exact feederLaws_of_feeder hr hx.2
  unfold Machine.goodSample
  split
  · exact hloss _ (hport _)
  · dsimp only
    split
    · exact (hloss _ (hport _)).same rfl rfl rfl
    · exact hhand _ _ _ ((hloss _ (hport _)).same rfl rfl rfl)

theorem FeederLaws.discardSample {s : State} (h : FeederLaws s) : FeederLaws (discardSample s) := by
  have hloss (x : State) (hx : FeederLaws x) : FeederLaws (beginLoss x) := by
    unfold beginLoss
    dsimp only
    split
    · exact hx.same (by simp) (by simp) (by simp)
    · rename_i hr
      refine feederLaws_of_feeder (by simpa using hr) ?_
      simpa [FeederLaw] using hx.2
  unfold Machine.discardSample
  dsimp only
  split
  · exact hloss _ (h.same rfl rfl rfl)
  · exact h.same rfl rfl rfl

theorem FeederLaws.post {s t : State} (h : FeederLaws s) {kind : PostKind} (e : PostEffect kind s t) : FeederLaws t := by
  cases e with
  | request hr hv => exact feederLaws_of_feeder hr ⟨h.2.1, h.2.2.1, h.2.2.2.1, hv⟩
  | limit hr => exact feederLaws_of_feeder hr h.2
  | _ => exact h.same (by simp) (by simp) (by simp)

theorem FeederLaws.effect {a : Agent} {s t : State} (h : FeederLaws s) (e : Effect a s t) : FeederLaws t := by
  cases e with
  | timer order =>
    unfold timerTick
    split
    · split
      · refine ⟨fun hr => ?_, h.2⟩
        obtain ⟨hreset, hdue⟩ := h.1 hr
        replace hr : s.straps.role = .charger := hr
        exact ⟨hreset, by simp [advance, hdue, hr]⟩
      · exact h.boundary _ _ _
    · split
      · exact h.marked (.refl _) id rfl
      · exact h.boundary _ _ _
  | receive levels order => exact receive_keeps (fun _ _ m hs => FeederLaws.hearing hs m) (fun _ _ h => h) levels order h
  | points order => exact h.takePoints order
  | freeze => exact h.takeFreezeIfDue
  | sample reading hx => exact FeederLaws.goodSample (s := endTransaction s) (h.same rfl rfl rfl) reading
  | discard hx => exact FeederLaws.discardSample (s := endTransaction s) (h.same rfl rfl rfl)
  | fail => exact h.marked (goalsMarked_failAttempt s) (by simp) (by simp)
  | @post kind body _ hr hk =>
    have hpop : FeederLaws (popHead s) := h.same (by simp) (by simp) (by simp)
    exact (hpop.post (ownerRule_effect kind body _)).same (by simp) (by simp) (by simp)
  | _ => exact h.same (by simp) (by simp) (by simp)

theorem FeederLaws.move {a : Agent} {s t : State} (h : FeederLaws s) (m : Move a s t) : FeederLaws t := by
  cases m with
  | action e => exact (h.effect e).same (by simp) (by simp) (by simp)
  | restart => exact (feederLaws_afterReset s.straps s.service.select s.pending).same rfl rfl rfl
  | endOffer => exact h.marked (goalsMarked_endOffer s) (by simp) (by simp)
  | endTarget => exact h.endTarget
  | targetPoint => exact h.takeTargetIfDue
  | deadline slot => exact h.marked (goalsMarked_takeDeadline slot s) (by simp) (by simp)
  | lose read => exact h.marked (goalsMarked_loseAttempt read s) (by simp) (by simp)
  | _ => exact h.same (by simp) (by simp) (by simp)

end Sys2Proof.Machine

/-- Settles O14: every move keeps both laws; drops mark goals alone, and only a FEEDER's own steps change anything else. -/
theorem stepKeepsTheFeederLaws : Obligations.StepKeepsTheFeederLaws := by
  intro s t hs h
  exact step_keeps (P := FeederLaws) (fun _ _ h => h.same rfl rfl rfl) feederLaws_afterReset (fun _ _ _ m hs => hs.move m) hs h
end

