-- ==== Sys2Proof/Proofs/FifoLaws.lean ====
section
/-! SUPPORT. The post FIFO (R169, R170), and that no move leaves outstanding what follows at once (R61, R141). -/

open Sys2Proof Sys2Proof.Machine

namespace Sys2Proof.Machine

/-- The FIFO law, with nothing outstanding. -/
def FifoLaws (s : State) : Prop := FifoLaw s ∧ Settled s

theorem Settled.congr {s t : State} (h : Settled s) (hstate : t.port.state = s.port.state) (hcommand : t.port.command = s.port.command)
    (hshare : t.apply.share = s.apply.share) (hsession : t.session.state = s.session.state) : Settled t := by
  simpa [Settled, State.mayVacate, hstate, hcommand, hshare, hsession] using h

theorem FifoLaw.congr {s t : State} (h : FifoLaw s) (hf : t.service.fifo = s.service.fifo) : FifoLaw t := by
  unfold FifoLaw; rw [hf]; exact h

/-- Posts leave the FIFO from its head. -/
theorem FifoLaw.tail {s t : State} (h : FifoLaw s) (hf : t.service.fifo = s.service.fifo.tail) : FifoLaw t := by
  obtain ⟨hlength, hbody⟩ := h
  unfold FifoLaw
  rw [hf]
  refine ⟨le_trans ?_ hlength, fun p hp => hbody p (List.mem_of_mem_tail hp)⟩
  simp

/-- An accepted post found a code, the length of that code, and room (R169, R173). -/
theorem judgePost_accepted {bytes : List Byte} {spare : Fin 8} {s : State} (hne : bytes ≠ [])
    (h : judgePost bytes spare s = .accepted) :
    (∃ kind, postOf (postIn bytes).code = some (kind, (postIn bytes).body.length)) ∧ s.service.fifo.length < Config.fifoSlots := by
  cases bytes with
  | nil => exact absurd rfl hne
  | cons access body =>
    unfold judgePost at h
    dsimp only at h
    split at h
    · cases h
    · rename_i kind length hpost
      split at h
      · cases h
      · split at h
        · cases h
        · rename_i hfits hroom
          have hlength : body.length = length := by
            by_contra hne
            exact hfits (.inl hne)
          exact ⟨⟨kind, by simpa [postIn, hlength] using hpost⟩, by omega⟩

theorem FifoLaw.accept {s t : State} (h : FifoLaw s) {bytes : List Byte} {spare : Fin 8} (hne : bytes ≠ [])
    (hj : judgePost bytes spare s = .accepted) (hf : t.service.fifo = s.service.fifo ++ [postIn bytes]) : FifoLaw t := by
  obtain ⟨hlength, hbody⟩ := h
  obtain ⟨hpost, hroom⟩ := judgePost_accepted hne hj
  unfold FifoLaw
  rw [hf]
  refine ⟨by simpa using hroom, fun p hp => ?_⟩
  obtain hp | hp := List.mem_append.mp hp
  · exact hbody p hp
  · rw [List.mem_singleton.mp hp]; exact hpost

theorem FifoLaw.effect {a : Agent} {s t : State} (h : FifoLaw s) (e : Effect a s t) : FifoLaw t := by
  cases e with
  | @post kind body _ hr hk =>
    refine h.tail ?_
    simp [recordOutcome, cause, popHead]
  | _ => exact h.congr (by simp)

theorem FifoLaws.move {a : Agent} {s t : State} (h : FifoLaws s) (m : Move a s t) : FifoLaws t := by
  obtain ⟨hfifo, hsettled⟩ := h
  cases m with
  | action e => exact ⟨(hfifo.effect e).congr (by simp), settled_settle _ _⟩
  | restart =>
    refine ⟨(laws_afterReset s.straps s.service.select s.pending).fifo.congr rfl, ?_⟩
    exact (laws_afterReset s.straps s.service.select s.pending).settled.congr rfl rfl rfl rfl
  | vacate => rw [vacate_of_settled s hsettled]; exact ⟨hfifo, hsettled⟩
  | requestRead => exact ⟨hfifo.congr rfl, hsettled.congr rfl rfl rfl rfl⟩
  | owed n => exact ⟨hfifo.congr rfl, hsettled.congr rfl rfl rfl rfl⟩
  | service hf => exact ⟨hfifo.congr hf, hsettled.congr rfl rfl rfl rfl⟩
  | accept hne hj => exact ⟨hfifo.accept hne hj rfl, hsettled.congr rfl rfl rfl rfl⟩
  | _ => exact ⟨hfifo.congr (by simp), hsettled.congr (by simp) (by simp) (by simp) (by simp)⟩

end Sys2Proof.Machine

/-- Settles O15: every action ends settled, and only an accepted post enters the FIFO. -/
theorem stepKeepsThePostFifoLaw : Obligations.StepKeepsThePostFifoLaw := by
  intro s t hs h
  exact step_keeps (P := FifoLaws) (fun _ _ h => h) (fun straps select pending =>
      ⟨(laws_afterReset straps select pending).fifo, (laws_afterReset straps select pending).settled⟩)
    (fun _ _ _ m hs => hs.move m) hs h
end

