-- ==== Sys2Proof/Proofs/FirstFault.lean ====
section
/-! SUPPORT. The FAULT factor and the first-fault record (R157, R159, R162): no effect of an action touches them, its end captures the
lowest flag it raised, and along a command the record is written at most once. -/

open Sys2Proof Sys2Proof.Machine

namespace Sys2Proof.Machine

/-! ## What an action does to the status before it ends -/

/-- The first-fault record and the FAULT factor stayed. -/
def FaultKept (s t : State) : Prop :=
  t.status.first = s.status.first ∧ Factor.fault.isSet t.status.factors = Factor.fault.isSet s.status.factors

/-- They stayed, and every flag that was set still is. -/
def Grew (s t : State) : Prop :=
  FaultKept s t ∧ ∀ f : Flag, f.isSet s.status.word = true → f.isSet t.status.word = true

theorem FaultKept.trans {s t u : State} (h : FaultKept s t) (h' : FaultKept t u) : FaultKept s u :=
  ⟨h'.1.trans h.1, h'.2.trans h.2⟩

theorem Grew.refl (s : State) : Grew s s := ⟨⟨rfl, rfl⟩, fun _ h => h⟩

theorem Grew.trans {s t u : State} (h : Grew s t) (h' : Grew t u) : Grew s u :=
  ⟨h.1.trans h'.1, fun f hf => h'.2 f (h.2 f hf)⟩

theorem Grew.of_eq {s t : State} (h : t.status = s.status) : Grew s t := by
  unfold Grew FaultKept; rw [h]; exact Grew.refl s

theorem Grew.congr {s t u v : State} (h : Grew s t) (hs : u.status = s.status) (ht : v.status = t.status) : Grew u v := by
  unfold Grew FaultKept at *; rw [hs, ht]; exact h

/-- What an operation does counts from any state with the same status. -/
theorem Grew.after {s t u : State} (h : Grew t u) (hs : t.status = s.status) : Grew s u := h.congr hs.symm rfl

theorem grew_raise (f : Flag) (s : State) : Grew s (raise f s) :=
  ⟨⟨rfl, rfl⟩, fun g hg => by rw [isSet_raise, hg]; rfl⟩

/-- A factor other than FAULT leaves FAULT as it is (R159). -/
theorem isSet_fault_cause (f : Factor) (s : State) (hf : f ≠ .fault) :
    Factor.fault.isSet (cause f s).status.factors = Factor.fault.isSet s.status.factors := by
  cases f with
  | fault => exact absurd rfl hf
  | _ => simp [cause, Factor.isSet, Factor.bit]

theorem grew_cause (f : Factor) (s : State) (hf : f ≠ .fault) : Grew s (cause f s) :=
  ⟨⟨rfl, isSet_fault_cause f s hf⟩, fun _ hg => hg⟩

theorem grew_raiseIf (b : Bool) (f : Flag) (s : State) : Grew s (raiseIf b f s) := by
  unfold raiseIf
  split
  · exact grew_raise f s
  · exact .refl s

theorem grew_enterSession (st : SessionState) (s : State) : Grew s (enterSession st s) :=
  (grew_cause .session s (by decide)).congr rfl rfl

theorem grew_vacate (s : State) : Grew s (vacate s) := by
  unfold vacate
  split
  · exact (grew_enterSession .vacant s).congr rfl (by simp [enterSession, cause])
  · exact .refl s

theorem grew_enterStopped (s : State) : Grew s (enterStopped s) :=
  (grew_enterSession .stopped (withdraw .stopped (cut 0 .stopped s))).congr (by simp) rfl

theorem grew_reserveCheck (s : State) : Grew s (reserveCheck s) := by
  unfold reserveCheck
  split
  · exact (grew_raise .reserve (cut 0 .reserve s)).congr (by simp) rfl
  · exact .refl s

theorem grew_integrate (dx dm : Nat) (s : State) : Grew s (integrate dx dm s) := by
  unfold integrate
  split
  · exact .refl s
  · dsimp only
    split
    · exact .of_eq rfl
    · exact (grew_reserveCheck _).after rfl

theorem grew_resync (soc : Nat) (s : State) : Grew s (resync soc s) := by
  unfold resync
  split
  · dsimp only
    refine Grew.trans ?_ (grew_reserveCheck _)
    (repeat' split) <;> first | exact .of_eq rfl | exact grew_raise _ _
  · exact .refl s

theorem grew_packClip (s : State) : Grew s (packClip s) := by
  unfold packClip
  split
  · exact (grew_raise .clipped (cut (s.limit s.apply.share) .packClip s)).congr (by simp) rfl
  · exact .refl s

theorem grew_enterFaulted (c : FaultCause) (s : State) : Grew s (enterFaulted c s) := by
  unfold enterFaulted
  split
  · exact .of_eq (by simp)
  · dsimp only
    have hraised (x : State) (hx : x.status = s.status) : Grew s (raise .converter (cut 0 .forcedStop x)) :=
      (grew_raise .converter (cut 0 .forcedStop x)).congr (by simp [hx]) rfl
    split
    · exact (hraised _ (by simp)).trans (grew_enterStopped _)
    · exact hraised _ (by simp)

theorem grew_reportEffect (st : ConverterStatus) (s : State) : Grew s (reportEffect st s) := by
  unfold reportEffect
  cases s.port.state <;> cases st <;> dsimp only
  all_goals first
    | exact .refl s
    | exact grew_enterFaulted _ _
    | exact (grew_enterFaulted _ { s with port := { s.port with offRun := 0 } }).congr rfl rfl
    | exact .of_eq rfl
    | (split <;> exact .of_eq rfl)

theorem grew_portTick (s : State) : Grew s (portTick s) := by
  unfold portTick
  split
  · exact .refl s
  · exact .of_eq (by simp)
  · refine Grew.trans ?_ (.of_eq (s := waitTick s) (by simp))
    unfold waitTick
    dsimp only
    split
    · exact .of_eq rfl
    · exact (grew_enterFaulted _ _).after rfl
  all_goals exact .of_eq (by simp)

theorem grew_countSeconds (s : State) : Grew s (countSeconds s) := by
  unfold countSeconds
  split
  · exact .of_eq rfl
  · dsimp only
    split
    · exact (grew_raise .packStale _).after (by simp)
    · exact .of_eq rfl

theorem grew_goodSample (reading : MeterReading) (s : State) : Grew s (goodSample reading s) := by
  have hhand (dx dm : Nat) (x : State) (hx : x.status = s.status) : Grew s (handIncrements dx dm x) := by
    unfold handIncrements
    split
    · exact (grew_integrate dx dm (endOffer x)).congr (by simp [hx]) rfl
    · exact .of_eq hx
  unfold goodSample
  split
  · exact .of_eq (by simp)
  · dsimp only
    split
    · exact .of_eq (by simp)
    · exact hhand _ _ _ (by simp)

theorem grew_discardSample (s : State) : Grew s (discardSample s) := by
  have hloss (x : State) (hx : x.status = s.status) : Grew s (beginLoss x) := by
    have hraised : Grew s (raise .meter (cut 0 .meterLost { x with port := { x.port with meterLost := true, reference := none } })) :=
      (grew_raise .meter _).congr (by simp [hx]) rfl
    unfold beginLoss
    dsimp only
    split
    · exact hraised
    · exact hraised.congr rfl rfl
  unfold discardSample
  dsimp only
  split
  · exact hloss _ rfl
  · exact .of_eq rfl

theorem grew_failAttempt (s : State) : Grew s (failAttempt s) := by
  unfold failAttempt
  split
  · exact .refl s
  · dsimp only
    split
    · exact .of_eq (by simp)
    · exact (grew_raise .lineFault _).after (by simp)

theorem grew_enterClash (s : State) : Grew s (enterClash s) := by
  unfold enterClash
  split
  · exact .refl s
  · exact (grew_raise .clash _).after (by simp)

theorem grew_completeWith (i : AllocInput) (s : State) : Grew s (completeWith i s) := by
  have hresult (x : State) : Grew x (raiseResult i.flags x) :=
    ((grew_raiseIf _ _ _).trans (grew_raiseIf _ _ _)).trans (grew_raiseIf _ _ _)
  unfold completeWith
  dsimp only
  exact Grew.after ((hresult _).trans (grew_cause .result _ (by decide))) rfl

theorem grew_complete (s : State) : Grew s (complete s) := by
  unfold complete
  split
  · exact grew_completeWith _ _
  · exact .refl s

theorem grew_allocationTick (s : State) : Grew s (allocationTick s) := by
  unfold allocationTick
  split
  · split
    · exact .of_eq rfl
    · exact grew_completeWith _ _
  · exact .refl s

theorem grew_takeFreezeIfDue (s : State) : Grew s (takeFreezeIfDue s) := by
  unfold takeFreezeIfDue takeFreeze
  split
  · dsimp only
    split
    · exact .of_eq rfl
    · exact (grew_complete _).after rfl
  · exact .refl s

theorem grew_takePoints (order : Order) (s : State) : Grew s (takePoints order s) := by
  have htarget (x : State) : Grew x (takeTargetIfDue x) := by
    unfold takeTargetIfDue
    split <;> exact .of_eq (by simp)
  exact (Grew.trans (.of_eq (by simp)) (grew_takeFreezeIfDue (takeDeadlines order s))).trans (htarget _)

theorem grew_takeBoundary (kind : BoundaryKind) (number : IntervalNo) (order : Order) (s : State) :
    Grew s (takeBoundary kind number order s) := by
  have happly (load : Load) (n : IntervalNo) (x : State) : Grew x (applyLoad load n x) :=
    (grew_raiseIf load.clipped .clipped { x with apply := ⟨load.share, n, load.outcome, load.clipped, none⟩ }).congr rfl rfl
  have hengine (x : State) : Grew x (engineBoundary x) := by
    unfold engineBoundary abandonWith
    split
    · exact Grew.after ((grew_raise .late _).trans (grew_cause .result _ (by decide))) rfl
    · exact .of_eq rfl
  have hrest (x y : State) (h : y.status = x.status) : Grew x (cause .boundary y) :=
    (grew_cause .boundary y (by decide)).congr h.symm rfl
  unfold takeBoundary
  dsimp only
  refine Grew.trans ?_ (hrest (engineBoundary (applyLoad (loadOf kind s) number
    (countSilence (timerBoundary kind number (endDeadlines order s))))) _ (by simp))
  exact ((happly _ _ _).trans (hengine _)).congr (by simp) rfl

theorem grew_boundaryAt (kind : BoundaryKind) (number : IntervalNo) (order : Order) (s : State) :
    Grew s (boundaryAt kind number order s) :=
  (grew_takePoints order s).trans (grew_takeBoundary _ _ _ _)

theorem Hearing.grew {s t : State} (m : Hearing s t) : Grew s t := by
  cases m with
  | clash => exact grew_enterClash s
  | flag f => exact grew_raise f s
  | boundary number order hg => exact grew_boundaryAt _ _ _ _
  | _ => exact .of_eq (by simp)

/-- A post keeps the FAULT factor and the record; only a STATUS_CLEAR clears flags (R158). -/
theorem post_grew {s t : State} {kind : PostKind} (e : PostEffect kind s t) : FaultKept s t ∧ (kind ≠ .statusClear → Grew s t) := by
  have hgrew (h : Grew s t) : FaultKept s t ∧ (kind ≠ .statusClear → Grew s t) := ⟨h.1, fun _ => h⟩
  cases e with
  | clear hk => exact ⟨⟨rfl, rfl⟩, fun hne => absurd hk hne⟩
  | enables => exact hgrew ⟨⟨rfl, rfl⟩, fun _ h => h⟩
  | opened hrole hs hr => exact hgrew ((grew_enterSession _ _).after rfl)
  | @firstStopped body r p hrole hs hr hp hstop => exact hgrew ((grew_enterSession _ (forcedStop (accountCreated r p s))).congr (by simp) rfl)
  | @first body r p hrole hs hr hp hstop => exact hgrew ((grew_enterSession _ (accountCreated r p s)).congr (by simp) rfl)
  | @engagedStopped body r p hrole hs hr hp hstop =>
    exact hgrew (((grew_resync p.soc (reportTaken r p s)).trans (grew_enterStopped _)).congr (by simp) (by simp))
  | @engaged body r p hrole hs hr hp hstop =>
    exact hgrew (((grew_resync p.soc (reportTaken r p s)).trans (grew_packClip _)).congr (by simp) rfl)
  | @stoppedStopped body r p hrole hs hr hp hstop => exact hgrew ((grew_resync p.soc (reportTaken r p s)).congr (by simp) (by simp))
  | @stoppedFaulted body r p hrole hs hr hp hstop hport => exact hgrew ((grew_resync p.soc (reportTaken r p s)).congr (by simp) rfl)
  | @stopped body r p hrole hs hr hp hstop hport =>
    exact hgrew (((grew_resync p.soc (reportTaken r p s)).trans (grew_enterSession _ _)).congr (by simp) rfl)
  | @close reason hrole hs =>
    exact hgrew ((grew_enterSession .closing (withdraw (closeWithdraw reason) (cut 0 .close (closeNoted reason s)))).congr (by simp) (by simp))
  | _ => exact hgrew (.of_eq (by simp))

/-- Only a STATUS_CLEAR at the head clears a flag, and no action but the reception of a frame touches FAULT before its end. -/
theorem Effect.grew {a : Agent} {s t : State} (e : Effect a s t) (ha : a ≠ .frames) :
    FaultKept s t ∧ ((∀ p ∈ s.service.fifo, p.code ≠ 25) → Grew s t) := by
  have hgrew (h : Grew s t) : FaultKept s t ∧ ((∀ p ∈ s.service.fifo, p.code ≠ 25) → Grew s t) := ⟨h.1, fun _ => h⟩
  cases e with
  | receive => exact absurd rfl ha
  | timer order =>
    refine hgrew ?_
    unfold timerTick
    (repeat' split) <;> first | exact grew_takeBoundary _ _ _ _ | exact .of_eq rfl
  | portTick => exact hgrew (grew_portTick s)
  | points order => exact hgrew (grew_takePoints order s)
  | freeze => exact hgrew (grew_takeFreezeIfDue s)
  | second => exact hgrew ((grew_countSeconds { s with time := { s.time with secondDue := false } }).congr rfl rfl)
  | seconds => exact hgrew (grew_countSeconds s)
  | complete => exact hgrew (grew_complete s)
  | allocation => exact hgrew (grew_allocationTick s)
  | linkError hx =>
    refine hgrew ?_
    rw [takeLinkError_eq]
    split
    · exact (grew_enterFaulted _ _).congr (by simp [errorCounted]) rfl
    · exact .of_eq (by simp [errorCounted])
  | status st hx => exact hgrew ((grew_reportEffect st (reportCounted st s)).congr (by simp [reportCounted]) rfl)
  | sample reading hx => exact hgrew ((grew_goodSample reading (endTransaction s)).congr rfl rfl)
  | discard hx => exact hgrew ((grew_discardSample (endTransaction s)).congr rfl rfl)
  | fail => exact hgrew (grew_failAttempt s)
  | @post kind body _ hr hk =>
    obtain ⟨hkept, hgrows⟩ := post_grew (ownerRule_effect kind body (popHead s))
    have hend (x : Applied) : Grew x.1 (recordOutcome x) := (grew_cause .post _ (by decide)).congr rfl rfl
    have hpop : Grew s (popHead s) := .of_eq (by simp)
    refine ⟨(hpop.1.trans hkept).trans (hend _).1, fun hno => (hpop.trans (hgrows ?_)).trans (hend _)⟩
    rintro rfl
    obtain ⟨code, rest, hfifo, hcode, -⟩ := readyHead_eq hr
    exact hno ⟨code, body⟩ (by simp [hfifo]) (code_of_statusClear hcode)

/-- Receiving keeps FAULT and the record, or captures MISALIGN first at a re-alignment that raised it (R157). -/
theorem receive_grew (levels : List Level) (order : Order) (s : State) :
    Grew s (receive levels order s) ∨
      order.misalignFirst = true ∧ ∃ v, Grew s v ∧ Flag.misalign.isSet s.status.word = false ∧
        Flag.misalign.isSet v.status.word = true ∧ v.session = s.session ∧ v.port = s.port ∧
        receive levels order s = capture .misalign v := by
  have hrun {x : State} (h : Hearings s x) : Grew s x := h.keeps (P := Grew s) (fun _ _ m h => h.trans m.grew) (.refl s)
  obtain hr | ⟨u, hu, hstatus, number, hg, ht⟩ := receive_hearings levels order s
  · exact .inl (hrun hr)
  · have hgrew : Grew s (boundaryAt .realign number order (raise .misalign u)) :=
      ((hrun hu).trans (grew_raise .misalign u)).trans (grew_boundaryAt _ _ _ _)
    have hset : Flag.misalign.isSet (boundaryAt .realign number order (raise .misalign u)).status.word = true :=
      (grew_boundaryAt _ _ _ _).2 _ (by rw [isSet_raise]; simp)
    have hsame : (boundaryAt .realign number order (raise .misalign u)).session = s.session ∧
        (boundaryAt .realign number order (raise .misalign u)).port = s.port := by
      have hparts : (receive levels order s).session = s.session ∧ (receive levels order s).port = s.port := by simp
      rw [ht] at hparts
      simpa using hparts
    rw [ht]
    generalize boundaryAt .realign number order (raise .misalign u) = v at hgrew hset hsame
    unfold misalignNoted
    by_cases hfirst : (order.misalignFirst && !Flag.misalign.isSet u.status.word) = true
    · rw [if_pos hfirst]
      simp only [Bool.and_eq_true, Bool.not_eq_true', hstatus] at hfirst
      exact .inr ⟨hfirst.1, v, hgrew, hfirst.2, hset, hsame.1, hsame.2, rfl⟩
    · rw [if_neg hfirst]
      exact .inl hgrew

/-! ## The end of an action -/

/-- The lowest flag that went from clear to set (R157). -/
theorem newlyRaised_lowest {before after : BitVec 14} {g f : Flag} (h : newlyRaised before after = some g)
    (hset : f.isSet after = true) (hclear : f.isSet before = false) : g.position ≤ f.position := by
  unfold newlyRaised at h
  obtain ⟨-, as, bs, hall, hbefore⟩ := List.find?_eq_some_iff_append.mp h
  have hsorted : Flag.all.Pairwise fun a b => a.position ≤ b.position := by decide
  have hmem : f ∈ Flag.all := by cases f <;> decide
  rw [hall] at hsorted hmem
  obtain hf | hf := List.mem_append.mp hmem
  · have := hbefore f hf
    simp [hset, hclear] at this
  · obtain rfl | hf := List.mem_cons.mp hf
    · exact le_rfl
    · exact (List.pairwise_cons.mp (List.pairwise_append.mp hsorted).2.1).1 f hf

/-- What the end of an action makes of its status: nothing where it raised no clear flag; else FAULT, and where FAULT was clear
the record of the lowest flag raised, from the state it leaves (R157, R162). -/
theorem settle_status (s u : State) :
    (settle s u).status.word = u.status.word ∧
      ((∀ f : Flag, f.isSet u.status.word = true → f.isSet s.status.word = true) → FaultKept u (settle s u)) ∧
      ∀ f : Flag, f.isSet u.status.word = true → f.isSet s.status.word = false →
        Factor.fault.isSet (settle s u).status.factors = true ∧
          (Factor.fault.isSet u.status.factors = true → FaultKept u (settle s u)) ∧
          (Factor.fault.isSet u.status.factors = false → ∃ g : Flag,
            (settle s u).status.first = some (firstFaultOf g (settle s u)) ∧ g.isSet u.status.word = true ∧
              g.isSet s.status.word = false ∧ g.position ≤ f.position) := by
  have hkept : FaultKept u (vacate (requestEnable u)) := ((grew_vacate (requestEnable u)).after (by simp)).1
  have hword : (vacate (requestEnable u)).status.word = u.status.word := by
    have hvacate (x : State) : (vacate x).status.word = x.status.word := by
      unfold vacate
      split
      · rfl
      · rfl
    simp [hvacate]
  unfold settle
  generalize vacate (requestEnable u) = x at hkept hword
  rw [← hword]
  cases hnew : newlyRaised s.status.word x.status.word with
  | none =>
    have hno (f : Flag) (hf : f.isSet x.status.word = true) : f.isSet s.status.word = true := by
      have := List.find?_eq_none.mp hnew f (by cases f <;> decide)
      simpa [hf] using this
    have hsame : noteFaults s.status.word x = x := by simp [noteFaults, hnew]
    rw [hsame]
    exact ⟨rfl, fun _ => hkept, fun f hset hclear => by rw [hno f hset] at hclear; cases hclear⟩
  | some g =>
    have hg := List.find?_some hnew
    simp only [Bool.and_eq_true, Bool.not_eq_true'] at hg
    have hnote : noteFaults s.status.word x = capture g x := by simp [noteFaults, hnew]
    rw [hnote]
    cases hfault : Factor.fault.isSet x.status.factors with
    | true =>
      rw [capture_of_set g x hfault]
      refine ⟨rfl, fun _ => hkept, fun f hset hclear => ⟨hfault, fun _ => hkept, fun hclear' => ?_⟩⟩
      rw [hkept.2, hclear'] at hfault
      cases hfault
    | false =>
      obtain ⟨hfirst, hset, hsame, -⟩ := capture_of_clear g x hfault
      refine ⟨hsame, fun hno => ?_, fun f hf hclear => ⟨hset, fun hset' => ?_, fun _ => ⟨g, ?_, hg.1, hg.2, newlyRaised_lowest hnew hf hclear⟩⟩⟩
      · rw [hno g hg.1] at hg
        cases hg.2
      · rw [hkept.2, hset'] at hfault
        cases hfault
      · rw [hfirst]
        simp [firstFaultOf]

/-! ## A whole command -/

/-- What a run of moves without RESTART makes of the status: a post that is not at the head yet stays or is applied; the record is
written at most once, with FAULT (R157, R159, R162). -/
structure Noted (s t : State) : Prop where
  fifo : t.service.fifo ⊆ s.service.fifo
  word : (∀ p ∈ s.service.fifo, p.code ≠ 25) → ∀ f : Flag, f.isSet s.status.word = true → f.isSet t.status.word = true
  fault : Factor.fault.isSet s.status.factors = true → t.status.first = s.status.first ∧ Factor.fault.isSet t.status.factors = true
  first : Factor.fault.isSet s.status.factors = false → t.status.first = s.status.first ∨
    Factor.fault.isSet t.status.factors = true ∧ ∃ r, t.status.first = some r ∧
      ((∀ p ∈ s.service.fifo, p.code ≠ 25) → r.flag.isSet s.status.word = false ∧ r.flag.isSet t.status.word = true)

theorem Noted.of_kept {s t : State} (hf : t.service.fifo ⊆ s.service.fifo) (hk : FaultKept s t)
    (hw : (∀ p ∈ s.service.fifo, p.code ≠ 25) → ∀ f : Flag, f.isSet s.status.word = true → f.isSet t.status.word = true) : Noted s t :=
  ⟨hf, hw, fun hs => ⟨hk.1, hk.2.trans hs⟩, fun _ => .inl hk.1⟩

theorem Noted.of_grew {s t : State} (hf : t.service.fifo ⊆ s.service.fifo) (h : Grew s t) : Noted s t := .of_kept hf h.1 fun _ => h.2

theorem Noted.refl (s : State) : Noted s s := .of_grew (fun _ h => h) (.refl s)

theorem Noted.trans {s t u : State} (h : Noted s t) (h' : Noted t u) : Noted s u := by
  have hclear (hno : ∀ p ∈ s.service.fifo, p.code ≠ 25) : ∀ p ∈ t.service.fifo, p.code ≠ 25 := fun p hp => hno p (h.fifo hp)
  refine ⟨fun p hp => h.fifo (h'.fifo hp), fun hno f hf => h'.word (hclear hno) f (h.word hno f hf), fun hs => ?_, fun hs => ?_⟩
  · obtain ⟨hfirst, hset⟩ := h.fault hs
    exact ⟨(h'.fault hset).1.trans hfirst, (h'.fault hset).2⟩
  · cases ht : Factor.fault.isSet t.status.factors with
    | true =>
      obtain ⟨hfirst, hset⟩ := h'.fault ht
      obtain hsame | ⟨-, r, hr, hflag⟩ := h.first hs
      · exact .inl (hfirst.trans hsame)
      · exact .inr ⟨hset, r, hfirst.trans hr, fun hno => ⟨(hflag hno).1, h'.word (hclear hno) _ (hflag hno).2⟩⟩
    | false =>
      obtain hsame | ⟨hset, -⟩ := h.first hs
      · obtain hsame' | ⟨hset, r, hr, hflag⟩ := h'.first ht
        · exact .inl (hsame'.trans hsame)
        · refine .inr ⟨hset, r, hr, fun hno => ⟨?_, (hflag (hclear hno)).2⟩⟩
          cases hs : r.flag.isSet s.status.word with
          | false => rfl
          | true => exact absurd (h.word hno _ hs) (by simp [(hflag (hclear hno)).1])
      · rw [ht] at hset; cases hset

/-- The end of an action notes a flag that was clear before it. -/
theorem Noted.settle {s u : State} (h : Noted s u) : Noted s (settle s u) := by
  obtain ⟨hword, hno, hnew⟩ := settle_status s u
  have hflags : (∀ f : Flag, f.isSet u.status.word = true → f.isSet s.status.word = true) ∨
      ∃ f : Flag, f.isSet u.status.word = true ∧ f.isSet s.status.word = false := by
    by_cases hall : ∀ f : Flag, f.isSet u.status.word = true → f.isSet s.status.word = true
    · exact .inl hall
    · push Not at hall
      obtain ⟨f, hset, hclear⟩ := hall
      exact .inr ⟨f, hset, by simpa using hclear⟩
  have hkept (hk : FaultKept u (Machine.settle s u)) : Noted s (Machine.settle s u) := by
    refine ⟨by simpa using h.fifo, fun hc f hf => by rw [hword]; exact h.word hc f hf, fun hs => ?_, fun hs => ?_⟩
    · exact ⟨hk.1.trans (h.fault hs).1, hk.2.trans (h.fault hs).2⟩
    · obtain hsame | ⟨hset, r, hr, hflag⟩ := h.first hs
      · exact .inl (hk.1.trans hsame)
      · exact .inr ⟨hk.2.trans hset, r, hk.1.trans hr, fun hc => by rw [hword]; exact hflag hc⟩
  obtain hall | ⟨f, hset, hclear⟩ := hflags
  · exact hkept (hno hall)
  · obtain ⟨hfault, hold, hfirst⟩ := hnew f hset hclear
    cases hu : Factor.fault.isSet u.status.factors with
    | true => exact hkept (hold hu)
    | false =>
      obtain ⟨g, hg, hgset, hgclear, -⟩ := hfirst hu
      refine ⟨by simpa using h.fifo, fun hc f hf => by rw [hword]; exact h.word hc f hf, fun hs => ?_, fun _ => ?_⟩
      · rw [(h.fault hs).2] at hu; cases hu
      · exact .inr ⟨hfault, _, hg, fun _ => by rw [hword]; exact ⟨hgclear, hgset⟩⟩

theorem Effect.fifo_subset {a : Agent} {s t : State} (e : Effect a s t) : t.service.fifo ⊆ s.service.fifo := by
  cases e with
  | @post kind body _ hr hk =>
    have hfifo : (recordOutcome (ownerRule kind body (popHead s))).service.fifo = s.service.fifo.tail := by
      simp [recordOutcome, cause, popHead]
    rw [hfifo]
    exact fun p hp => List.mem_of_mem_tail hp
  | _ => simp

/-- A captured flag that was clear and is set (R157). -/
theorem noted_capture {s v : State} (h : Grew s v) (hf : v.service.fifo ⊆ s.service.fifo) (g : Flag)
    (hclear : g.isSet s.status.word = false) (hset : g.isSet v.status.word = true) : Noted s (capture g v) := by
  cases hfault : Factor.fault.isSet v.status.factors with
  | true => rw [capture_of_set g v hfault]; exact .of_grew hf h
  | false =>
    obtain ⟨hfirst, hset', hword, -⟩ := capture_of_clear g v hfault
    refine ⟨by simpa using hf, fun _ f hf => by rw [hword]; exact h.2 f hf, fun hs => ?_, fun _ => .inr ⟨hset', _, hfirst, fun _ => ?_⟩⟩
    · rw [← h.1.2, hfault] at hs; cases hs
    · rw [hword]; exact ⟨hclear, hset⟩

/-- Every move but a RESTART, an accepted post and a READ_CLEAR. -/
theorem Move.noted {a : Agent} {s t : State} (m : Move a s t) (hr : a ≠ .restart) (hi : a ≠ .intake) (hs : a ≠ .shown) : Noted s t := by
  cases m with
  | action e =>
    refine Noted.settle ?_
    by_cases ha : a = .frames
    · subst ha
      have hfifo := e.fifo_subset
      cases e with
      | receive levels order =>
        obtain h | ⟨-, v, h, hclear, hset, -, -, ht⟩ := receive_grew levels order s
        · exact .of_grew hfifo h
        · have hv : v.service.fifo ⊆ s.service.fifo := by
            have hsame : (receive levels order s).service = s.service := by simp
            rw [ht] at hsame
            simp only [capture_frame] at hsame
            rw [hsame]
            exact fun _ h => h
          rw [ht]
          exact noted_capture h hv _ hclear hset
    · obtain ⟨hkept, hgrew⟩ := e.grew ha
      exact .of_kept e.fifo_subset hkept fun hno => (hgrew hno).2
  | restart => exact absurd rfl hr
  | accept => exact absurd rfl hi
  | clearFactors => exact absurd rfl hs
  | service h => exact .of_grew (by rw [h]; exact fun _ h => h) (.of_eq rfl)
  | vacate => exact .of_grew (by simp) (grew_vacate s)
  | targetPoint =>
    unfold takeTargetIfDue
    split
    · exact .of_grew (by simp) (.of_eq (by simp))
    · exact .refl s
  | _ => exact .of_grew (by simp) (.of_eq (by simp))

/-- No RESTART waits in the FIFO, and none is accepted. -/
theorem Moves.noted {s t : State} (m : Moves (fun a => a ≠ .intake ∧ a ≠ .shown) s t) (hno : ∀ p ∈ s.service.fifo, p.code ≠ 26) :
    Noted s t := by
  refine m.keeps (P := Noted s) (fun a u v ha m h => h.trans ?_) (.refl s)
  by_cases hr : a = .restart
  · subst hr
    cases m with
    | action e => cases e
    | @restart body _ hhead =>
      obtain ⟨code, rest, hfifo, hcode, -⟩ := readyHead_eq hhead
      exact absurd (code_of_restart hcode) (hno ⟨code, body⟩ (h.fifo (by simp [hfifo])))
  · exact m.noted hr ha.1 ha.2

/-- A command writes the record as a run of moves without RESTART does; only a READ_CLEAR clears factors at its end. -/
theorem Ran.noted {c : Instr} {s t : State} (h : Ran c s t) (hreset : ∀ straps low, c ≠ .deviceReset straps low)
    (hno : ∀ p ∈ s.service.fifo, p.code ≠ 26) :
    ∃ u, Noted s u ∧ t.status.first = u.status.first ∧ t.status.word = u.status.word ∧
      ((∀ transfer, c ≠ .readClearStatus transfer) → t.status = u.status) := by
  have hfree (a : Agent) (ha : a.free) : a ≠ .intake ∧ a ≠ .shown := by obtain rfl | rfl | rfl := ha <;> decide
  have hmoves (m : Moves (fun a => a ≠ .intake ∧ a ≠ .shown) s t) : ∃ u, Noted s u ∧ t.status.first = u.status.first ∧
      t.status.word = u.status.word ∧ ((∀ transfer, c ≠ .readClearStatus transfer) → t.status = u.status) :=
    ⟨t, m.noted hno, rfl, rfl, fun _ => rfl⟩
  cases h with
  | reset straps low hc h => exact absurd hc (hreset straps low)
  | tick hc h => exact hmoves (h.moves hfree (by decide))
  | frame levels order hc h =>
    subst h
    exact hmoves (Moves.single (by decide) (act_move (f := receive levels order) (.receive levels order s)))
  | idle h => subst h; exact hmoves (.refl _)
  | single ht hx ha m => exact hmoves (.single (by obtain rfl | rfl | ⟨rfl, -⟩ := ha <;> decide) m)
  | transaction hc ha h =>
    obtain ⟨u, v, x, hu, hv, -, rfl⟩ := h
    refine ⟨u, (hu.mono hfree).noted hno, ?_⟩
    obtain rfl | m := hv
    · exact ⟨rfl, rfl, fun _ => rfl⟩
    · obtain rfl | ⟨rfl, transfer, rfl⟩ := ha
      · cases m with
        | action e => cases e
        | accept => exact ⟨rfl, rfl, fun _ => rfl⟩
      · cases m with
        | action e => cases e
        | clearFactors => exact ⟨rfl, rfl, fun hc => absurd rfl (hc transfer)⟩

/-! ## One action -/

/-- What one action makes of the first-fault record: `first` says of a flag how it came to be named before flag `f`. -/
def Captured (first : Flag → Flag → Prop) (s t : State) : Prop :=
  (∀ f : Flag, f.isSet s.status.word = false → f.isSet t.status.word = true →
    Factor.fault.isSet t.status.factors = true ∧
    (Factor.fault.isSet s.status.factors = true → t.status.first = s.status.first) ∧
    (Factor.fault.isSet s.status.factors = false → ∃ g : Flag, t.status.first = some (firstFaultOf g t) ∧
      g.isSet s.status.word = false ∧ g.isSet t.status.word = true ∧ first g f)) ∧
  ((∀ f : Flag, f.isSet t.status.word = true → f.isSet s.status.word = true) → t.status.first = s.status.first)

theorem captured_of_same {first : Flag → Flag → Prop} {s t : State} (hw : t.status.word = s.status.word)
    (hf : t.status.first = s.status.first) : Captured first s t :=
  ⟨fun f hclear hset => absurd hset (by simp [hw, hclear]), fun _ => hf⟩

/-- An action that leaves FAULT and record to its end names the lowest flag it raised (R157, R162). -/
theorem captured_settle {first : Flag → Flag → Prop} {s u : State} (h : FaultKept s u)
    (hfirst : ∀ g f : Flag, g.position ≤ f.position → first g f) : Captured first s (settle s u) := by
  obtain ⟨hword, hno, hnew⟩ := settle_status s u
  refine ⟨fun f hclear hset => ?_, fun hall => ?_⟩
  · obtain ⟨hfault, hold, hcapture⟩ := hnew f (hword ▸ hset) hclear
    refine ⟨hfault, fun hs => (hold (h.2.trans hs)).1.trans h.1, fun hs => ?_⟩
    obtain ⟨g, hg, hgset, hgclear, hle⟩ := hcapture (h.2.trans hs)
    exact ⟨g, hg, hgclear, hword ▸ hgset, hfirst g f hle⟩
  · exact (hno fun f hf => hall f (hword ▸ hf)).1.trans h.1

/-- Where nothing is outstanding, an action that leaves session and port as they are does not vacate the session. -/
theorem settle_session {s u : State} (h : Settled s) (hsession : u.session = s.session) (hport : u.port = s.port) :
    (settle s u).session = u.session := by
  have hvacate : (requestEnable u).mayVacate = false := by
    unfold requestEnable
    split
    · simp [State.mayVacate]
    · simpa [State.mayVacate, hsession, hport] using h.2
  simp [settle, vacate, hvacate]

/-- A frame names the lowest flag it raised, or MISALIGN where a re-alignment raised it first (R157). -/
theorem captured_receive {s : State} (hs : Settled s) (levels : List Level) (order : Order) :
    Captured (fun g f => g.position ≤ f.position ∨ g = .misalign ∧ order.misalignFirst = true) s (act (receive levels order) s) := by
  have hlowest (u : State) (h : FaultKept s u) :
      Captured (fun g f => g.position ≤ f.position ∨ g = .misalign ∧ order.misalignFirst = true) s (settle s u) :=
    captured_settle h fun _ _ => .inl
  obtain h | ⟨horder, v, h, hclear, hset, hsession, hport, ht⟩ := receive_grew levels order s
  · exact hlowest _ h.1
  · unfold act
    rw [ht]
    cases hfault : Factor.fault.isSet v.status.factors with
    | true => rw [capture_of_set _ v hfault]; exact hlowest _ h.1
    | false =>
      obtain ⟨hfirst, hset', hsame, -⟩ := capture_of_clear .misalign v hfault
      have hvacant : (settle s (capture .misalign v)).session = v.session := by
        rw [settle_session hs (by simpa using hsession) (by simpa using hport)]
        simp
      obtain ⟨hword, -, hnew⟩ := settle_status s (capture .misalign v)
      have hmisalign : Flag.misalign.isSet (settle s (capture .misalign v)).status.word = true := by rw [hword, hsame]; exact hset
      refine ⟨fun f hf hf' => ?_, fun hall => ?_⟩
      · obtain ⟨hcaused, hold, -⟩ := hnew f (hword ▸ hf') hf
        refine ⟨hcaused, fun hs => ?_, fun _ => ⟨.misalign, ?_, hclear, hmisalign, .inr ⟨rfl, horder⟩⟩⟩
        · rw [← h.1.2, hfault] at hs; cases hs
        · rw [(hold hset').1, hfirst]
          simp [firstFaultOf, hvacant]
      · rw [hall _ hmisalign] at hclear; cases hclear

/-- A move of a command that is one action, or one that raises no flag. -/
theorem Move.captured {first : Flag → Flag → Prop} {a : Agent} {s t : State} (m : Move a s t) (ha : a = .reports ∨ a = .others)
    (hfirst : ∀ g f : Flag, g.position ≤ f.position → first g f) : Captured first s t := by
  cases m with
  | action e => exact captured_settle (e.grew (by obtain rfl | rfl := ha <;> decide)).1 hfirst
  | restart => obtain ha | ha := ha <;> cases ha
  | clearFactors => obtain ha | ha := ha <;> cases ha
  | vacate => unfold Machine.vacate; split <;> exact captured_of_same rfl rfl
  | targetPoint => unfold takeTargetIfDue; split <;> exact captured_of_same (by simp) (by simp)
  | _ => exact captured_of_same (by simp) (by simp)

end Sys2Proof.Machine

/-- Settles O16: along a command the record is written at most once, with FAULT; one action's end names the lowest flag it raised. -/
theorem firstFaultChangesOnlyAtItsTransition : Obligations.FirstFaultChangesOnlyAtItsTransition := by
  refine ⟨fun c s t h hchanged hreset hno => ?_, fun c s t h hs htick hx hview hreset hrestart => ?_⟩
  · obtain ⟨u, hnoted, hfirst, hword, hstatus⟩ := (exec_ran c s t h).noted hreset hno
    have hclear : Factor.fault.isSet s.status.factors = false := by
      cases hf : Factor.fault.isSet s.status.factors with
      | false => rfl
      | true => exact absurd (hfirst.trans (hnoted.fault hf).1) hchanged
    obtain hsame | ⟨hset, r, hr, hflag⟩ := hnoted.first hclear
    · exact absurd (hfirst.trans hsame) hchanged
    · exact ⟨hclear, fun hc => by rw [hstatus hc]; exact hset, r, hfirst.trans hr, fun hno => by rw [hword]; exact hflag hno⟩
  · have hcaptured : Captured (fun g f => g.position ≤ f.position ∨
        g = .misalign ∧ ∃ levels o, c = .frameReceived levels o ∧ o.misalignFirst = true) s t := by
      cases exec_ran c s t h with
      | reset straps low hc => exact absurd hc (hreset straps low)
      | tick hc => cases c <;> simp [Instr.ticks] at hc htick
      | transaction hc => cases c <;> simp [Instr.transacts] at hc hx hview
      | idle h => subst h; exact captured_of_same rfl rfl
      | frame levels order hc h =>
        subst h
        obtain ⟨hnew, hold⟩ := captured_receive hs levels order
        refine ⟨fun f hclear hset => ?_, hold⟩
        obtain ⟨hfault, hkept, hfirst⟩ := hnew f hclear hset
        refine ⟨hfault, hkept, fun hc' => ?_⟩
        obtain ⟨g, hg, hgclear, hgset, hle⟩ := hfirst hc'
        exact ⟨g, hg, hgclear, hgset, hle.imp_right fun ⟨hm, ho⟩ => ⟨hm, levels, order, hc, ho⟩⟩
      | single ht hx' ha m =>
        refine m.captured ?_ fun _ _ => .inl
        obtain ha | ha | ⟨-, hc⟩ := ha
        · exact .inl ha
        · exact .inr ha
        · exact absurd hc hrestart
    exact hcaptured
end

