-- ==== Sys2Proof/Proofs/Posts.lean ====
section
/-! SUPPORT. A post at the head as one action of its owner's rule, the fields of a body, and the posts that change a record alone. -/

open Sys2Proof Sys2Proof.Machine

namespace Sys2Proof.Machine

/-! ## The command of a post -/

/-- The command that applies a head of this kind. -/
def PostKind.instr : PostKind → Instr
  | .sessionOpen => .sessionOpen
  | .packReport => .packReport
  | .departure => .departure
  | .sessionClose => .sessionClose
  | .pause => .pause
  | .resume => .resume
  | .request => .request
  | .siteLimit => .siteLimit
  | .noticeEnable => .noticeEnable
  | .statusClear => .statusClear
  | .restart => .restart

theorem exec_instr (kind : PostKind) (s : State) : exec kind.instr s = .next (applyIfHead kind s) := by
  cases kind <;> rfl

/-- A head that can be applied is applied by its owner's rule, with its outcome, in one action (R170, R171). -/
theorem exec_post {kind : PostKind} {code length : Nat} {body : List Byte} {rest : List Post} {s x : State} {o : PostOutcome}
    (hf : s.service.fifo = ⟨code, body⟩ :: rest) (hc : postOf code = some (kind, length)) (hw : kind.waits s = false)
    (hk : kind ≠ .restart) (hrule : ownerRule kind body (popHead s) = (x, o)) :
    exec kind.instr s = .next (settle s (postDone rest o x)) := by
  have hservice : x.service = (popHead s).service := by
    have := (ownerRule_frame kind body (popHead s)).2.2.2.2.1
    rwa [hrule] at this
  have hdone : recordOutcome (x, o) = postDone rest o x := by
    have hfifo : x.service.fifo = rest := by rw [hservice]; simp [popHead, hf]
    have hheld : x.service.held = false := by rw [hservice]; rfl
    simp [recordOutcome, cause, postDone, Factor.bit, ← hfifo, ← hheld, BitVec.twoPow]
  rw [exec_instr, applyIfHead_eq kind code length body rest s hf hc hw hk, act, hrule, hdone]

/-- A rule that raises no flag and leaves nothing outstanding has no other effect. -/
theorem exec_post_settled {kind : PostKind} {code length : Nat} {body : List Byte} {rest : List Post} {s x : State} {o : PostOutcome}
    (hf : s.service.fifo = ⟨code, body⟩ :: rest) (hc : postOf code = some (kind, length)) (hw : kind.waits s = false)
    (hk : kind ≠ .restart) (hrule : ownerRule kind body (popHead s) = (x, o)) (hword : x.status.word = s.status.word)
    (hs : Settled x) : exec kind.instr s = .next (postDone rest o x) := by
  rw [exec_post hf hc hw hk hrule, settle_of_settled]
  · exact hword
  · exact hs

@[simp] theorem postDone_frame (rest : List Post) (o : PostOutcome) (s : State) :
    (postDone rest o s).straps = s.straps ∧ (postDone rest o s).time = s.time ∧ (postDone rest o s).line = s.line ∧
    (postDone rest o s).timer = s.timer ∧ (postDone rest o s).session = s.session ∧ (postDone rest o s).account = s.account ∧
    (postDone rest o s).view = s.view ∧ (postDone rest o s).alloc = s.alloc ∧ (postDone rest o s).apply = s.apply ∧
    (postDone rest o s).feeder = s.feeder ∧ (postDone rest o s).port = s.port ∧ (postDone rest o s).pending = s.pending :=
  ⟨rfl, rfl, rfl, rfl, rfl, rfl, rfl, rfl, rfl, rfl, rfl, rfl⟩

@[simp] theorem postDone_status (rest : List Post) (o : PostOutcome) (s : State) :
    (postDone rest o s).status = { s.status with factors := s.status.factors ||| 8#5 } := rfl

@[simp] theorem postDone_service (rest : List Post) (o : PostOutcome) (s : State) :
    (postDone rest o s).service = { s.service with fifo := rest, held := false, lastOutcome := some o } := rfl

/-- A head that its rule ignores leaves what every applied post leaves (R44, R122). -/
theorem exec_post_ignored {kind : PostKind} {code length : Nat} {body : List Byte} {rest : List Post} {s : State} {o : PostOutcome}
    (hf : s.service.fifo = ⟨code, body⟩ :: rest) (hc : postOf code = some (kind, length)) (hw : kind.waits s = false)
    (hk : kind ≠ .restart) (hrule : ownerRule kind body (popHead s) = (popHead s, o)) (hs : Settled s) :
    exec kind.instr s = .next (postDone rest o s) := by
  rw [exec_post_settled hf hc hw hk hrule (by simp) hs]
  simp [postDone, popHead]

/-! ## The fields of a body (R44, R174) -/

/-- A field behind a part of the body is a field of what follows that part. -/
theorem field_append (before after : List Byte) (at_ width : Nat) (h : before.length ≤ at_) :
    field (before ++ after) at_ width = field after (at_ - before.length) width := by
  simp [field, List.drop_append, List.drop_eq_nil_of_le h]

/-- The field a body begins with. -/
theorem field_zero (after : List Byte) {width v : Nat} (hv : v < 256 ^ width) : field (natBytes width v ++ after) 0 width = v :=
  field_natBytes [] after 0 width v rfl hv

/-- A body that is one field. -/
theorem field_only {width v : Nat} (hv : v < 256 ^ width) : field (natBytes width v) 0 width = v :=
  field_natBytes_last [] 0 width v rfl hv

theorem field_byte (b : Byte) : field [b] 0 1 = b.toNat := by simp [field, bytesNat]

theorem ranged_value (low high v : Nat) (h : low ≤ high) : (ranged low high v).value = max low (min v high) := by
  unfold ranged
  (repeat' split) <;> dsimp only <;> omega

theorem ranged_clamped (low high v : Nat) : (ranged low high v).clamped = true ↔ ¬(low ≤ v ∧ v ≤ high) := by
  unfold ranged
  (repeat' split) <;> simp <;> omega

/-- The outcome of a post some of whose fields may have been clamped (R44). -/
theorem clampOutcome_eq {b : Bool} {fits : Prop} [Decidable fits] (h : b = true ↔ ¬fits) :
    clampOutcome b = if fits then .applied else .clamped := by
  unfold clampOutcome
  by_cases hf : fits <;> simp [h, hf]

/-! ## Ignored posts (R44, R122) -/

/-- The posts that a CHARGER alone applies (R44). -/
def PostKind.ofSession : PostKind → Bool
  | .sessionOpen | .packReport | .departure | .sessionClose | .pause | .resume => true
  | _ => false

/-- The posts that a FEEDER alone applies (R122). -/
def PostKind.ofFeeder : PostKind → Bool
  | .request | .siteLimit => true
  | _ => false

theorem ownerRule_ignoredRole {kind : PostKind} {body : List Byte} {s : State}
    (h : s.straps.role = .feeder ∧ kind.ofSession = true ∨ s.straps.role = .charger ∧ kind.ofFeeder = true) :
    ownerRule kind body s = (s, .ignoredRole) := by
  obtain ⟨hr, hk⟩ | ⟨hr, hk⟩ := h
  · cases kind <;> simp_all [ownerRule, onCharger, PostKind.ofSession]
  · cases kind <;> simp_all [ownerRule, onFeeder, PostKind.ofFeeder]

theorem waits_of_idle (kind : PostKind) {s : State} (hv : s.view.composing = none) (hf : s.feeder.composing = none ∨ kind.ofFeeder = false) :
    kind.waits s = false := by
  cases kind <;> simp_all [PostKind.waits, PostKind.ofFeeder]

theorem onCharger_charger {f : State → Applied} {s : State} (h : s.straps.role = .charger) : onCharger f s = f s := by
  simp [onCharger, h]

theorem onFeeder_feeder {f : State → Applied} {s : State} (h : s.straps.role = .feeder) : onFeeder f s = f s := by
  simp [onFeeder, h]

theorem inSession_eq_false {state : SessionState} (h : state = .vacant ∨ state = .closing) : state.inSession = false := by
  obtain rfl | rfl := h <;> rfl

theorem inSession_of_mem {state : SessionState} (h : state ∈ [SessionState.awaiting, .engaged, .stopped]) : state.inSession = true := by
  simp only [List.mem_cons, List.not_mem_nil, or_false] at h
  obtain rfl | rfl | rfl := h <;> rfl

theorem applyReport_ignored {body : List Byte} {s : State} (h : s.session.state = .vacant) : applyReport body s = (s, .ignoredState) := by
  unfold applyReport
  cases s.session.record with
  | none => rfl
  | some r => simp [h]

theorem applyDeparture_ignored {body : List Byte} {s : State} (h : s.session.state.inSession = false) :
    applyDeparture body s = (s, .ignoredState) := by
  unfold applyDeparture
  cases s.session.record with
  | none => rfl
  | some r => simp [h]

theorem applyPause_ignored {s : State} (h : s.session.state.inSession = false ∨ s.paused = true) : applyPause s = (s, .ignoredState) := by
  unfold applyPause
  unfold State.paused at h
  cases hr : s.session.record with
  | none => rfl
  | some r =>
    rw [hr] at h
    have : ¬(s.session.state.inSession = true ∧ r.paused = false) := by rintro ⟨h1, h2⟩; simp [h1, h2] at h
    simp [this]

theorem applyResume_ignored {s : State} (h : s.session.state.inSession = false ∨ s.paused = false) : applyResume s = (s, .ignoredState) := by
  unfold applyResume
  unfold State.paused at h
  cases hr : s.session.record with
  | none => rfl
  | some r =>
    rw [hr] at h
    have : ¬(s.session.state.inSession = true ∧ r.paused = true) := by rintro ⟨h1, h2⟩; simp [h1, h2] at h
    simp [this]

/-- Only code 0 is UNPLUGGED (R45). -/
theorem closeReason_unplugged (n : Nat) : (closeReasonOf n).value = .unplugged ↔ n = 0 := by
  unfold closeReasonOf
  split <;> simp_all

theorem applyClose_ignored {body : List Byte} {s : State} (h : s.session.state = .vacant ∨
    s.session.state = .closing ∧ field body 0 1 ≠ 0) : applyClose body s = (s, .ignoredState) := by
  have hreason := closeReason_unplugged (field body 0 1)
  unfold applyClose
  obtain h | ⟨h, hne⟩ := h
  · simp [h, SessionState.inSession]
  · simp [h, SessionState.inSession, hreason, hne]

/-- A session post on a CHARGER that finds no state in which it applies (R46, R47, R55, R57 to R60). -/
theorem exec_session_ignored {kind : PostKind} {code length : Nat} {body : List Byte} {rest : List Post} {s : State}
    {f : State → Applied} (hf : s.service.fifo = ⟨code, body⟩ :: rest) (hc : postOf code = some (kind, length))
    (hv : s.view.composing = none) (hrole : s.straps.role = .charger) (hs : Settled s) (hk : kind.ofSession = true)
    (hrule : ownerRule kind body (popHead s) = onCharger f (popHead s)) (hf' : f (popHead s) = (popHead s, .ignoredState)) :
    exec kind.instr s = .next (postDone rest .ignoredState s) := by
  refine exec_post_ignored hf hc (waits_of_idle kind hv (.inr ?_)) ?_ ?_ hs
  · cases kind <;> first | rfl | cases hk
  · rintro rfl; cases hk
  · rw [hrule, onCharger_charger (by simpa using hrole), hf']

end Sys2Proof.Machine

/-- Settles O19: the role step, or the rule's own condition, turns the post away; nothing else is left of it. -/
theorem postsThatDoNotApplyAreIgnored : Obligations.PostsThatDoNotApplyAreIgnored := by
  refine ⟨fun s code c body rest hf hv ht hs h => ?_, fun s code c body rest hf hv hrole hs hlaw h => ?_⟩
  · obtain ⟨kind, length, hc, hinstr, hk, hrule⟩ : ∃ kind length, postOf code = some (kind, length) ∧ kind.instr = c ∧ kind ≠ .restart ∧
        (s.straps.role = .feeder ∧ kind.ofSession = true ∨ s.straps.role = .charger ∧ kind.ofFeeder = true) := by
      obtain ⟨hrole, hmem⟩ | ⟨hrole, hmem⟩ := h <;>
        simp only [List.mem_cons, Prod.mk.injEq, List.not_mem_nil, or_false] at hmem
      · obtain ⟨rfl, rfl⟩ | ⟨rfl, rfl⟩ | ⟨rfl, rfl⟩ | ⟨rfl, rfl⟩ | ⟨rfl, rfl⟩ | ⟨rfl, rfl⟩ := hmem <;>
          exact ⟨_, _, rfl, rfl, by decide, .inl ⟨hrole, rfl⟩⟩
      · obtain ⟨rfl, rfl⟩ | ⟨rfl, rfl⟩ := hmem <;> exact ⟨_, _, rfl, rfl, by decide, .inr ⟨hrole, rfl⟩⟩
    rw [← hinstr]
    exact exec_post_ignored hf hc (waits_of_idle kind hv (.inl ht)) hk (ownerRule_ignoredRole (by simpa using hrule)) hs
  · simp only [List.mem_cons, Prod.mk.injEq, List.not_mem_nil, or_false] at h
    have hout {state : SessionState} (h : state = .vacant ∨ state = .closing) := inSession_eq_false h
    obtain ⟨⟨rfl, rfl⟩, h⟩ | ⟨⟨rfl, rfl⟩, h⟩ | ⟨⟨rfl, rfl⟩ | ⟨rfl, rfl⟩ | ⟨rfl, rfl⟩, h⟩ | ⟨⟨rfl, rfl⟩, h⟩ | ⟨⟨rfl, rfl⟩, h⟩ |
      ⟨⟨rfl, rfl⟩, h⟩ | ⟨⟨rfl, rfl⟩, h, reason, rfl, hne⟩ := h
    · exact exec_session_ignored (kind := .sessionOpen) hf rfl hv hrole hs rfl rfl (by simp [applyOpen, h])
    · exact exec_session_ignored (kind := .packReport) hf rfl hv hrole hs rfl rfl (applyReport_ignored h)
    · exact exec_session_ignored (kind := .departure) hf rfl hv hrole hs rfl rfl (applyDeparture_ignored (hout h))
    · exact exec_session_ignored (kind := .pause) hf rfl hv hrole hs rfl rfl (applyPause_ignored (.inl (hout h)))
    · exact exec_session_ignored (kind := .resume) hf rfl hv hrole hs rfl rfl (applyResume_ignored (.inl (hout h)))
    · exact exec_session_ignored (kind := .pause) hf rfl hv hrole hs rfl rfl (applyPause_ignored (.inr h))
    · exact exec_session_ignored (kind := .resume) hf rfl hv hrole hs rfl rfl (applyResume_ignored (.inr h))
    · exact exec_session_ignored (kind := .sessionClose) hf rfl hv hrole hs rfl rfl (applyClose_ignored (.inl h))
    · refine exec_session_ignored (kind := .sessionClose) hf rfl hv hrole hs rfl rfl (applyClose_ignored (.inr ⟨h, ?_⟩))
      rw [field_byte]
      exact fun h0 => hne (BitVec.eq_of_toNat_eq h0)
end

