-- ==== Sys2Proof/Proofs/RecordPosts.lean ====
section
/-! SUPPORT. The posts that replace a record of their owner's, and the withdrawal that goes with a PAUSE. -/

open Sys2Proof Sys2Proof.Machine

namespace Sys2Proof.Machine

theorem waits_of_offer (kind : PostKind) {s : State} (hk : kind.ofFeeder = false) (hv : s.view.composing = none) :
    kind.waits s = false := waits_of_idle kind hv (.inr hk)

/-! ## DEPARTURE (R55) -/

theorem applyDeparture_natBytes {s : State} {r : SessionRecord} {depart route : Nat} (hd : depart < 16777216) (he : route < 16777216)
    (hr : s.session.record = some r) (hin : s.session.state.inSession = true) :
    applyDeparture (natBytes 3 depart ++ natBytes 3 route) s =
      (setRecord { r with depart := min depart 86400, eRoute := min route r.capacity } s,
        if depart ≤ 86400 ∧ route ≤ r.capacity then .applied else .clamped) := by
  have hfirst : field (natBytes 3 depart ++ natBytes 3 route) 0 3 = depart := field_zero _ hd
  have hsecond : field (natBytes 3 depart ++ natBytes 3 route) 3 3 = route := by
    rw [field_append _ _ _ _ (by simp), natBytes_length]
    exact field_only he
  have hclamped : clampOutcome ((ranged 0 86400 depart).clamped || (ranged 0 r.capacity route).clamped) =
      if depart ≤ 86400 ∧ route ≤ r.capacity then .applied else .clamped := by
    refine clampOutcome_eq ?_
    rw [Bool.or_eq_true, ranged_clamped, ranged_clamped]
    omega
  unfold applyDeparture
  simp only [hr, hin, if_true, hfirst, hsecond, hclamped, ranged_value 0 _ _ (Nat.zero_le _), Nat.zero_max]

/-! ## PAUSE and RESUME (R57, R58) -/

theorem applyPause_inSession {s : State} {r : SessionRecord} (hr : s.session.record = some r) (hp : r.paused = false)
    (hin : s.session.state.inSession = true) :
    applyPause s = (withdraw .paused (cut 0 .pause (setRecord { r with paused := true } s)), .applied) := by
  simp [applyPause, hr, hin, hp]

theorem applyResume_inSession {s : State} {r : SessionRecord} (hr : s.session.record = some r) (hp : r.paused = true)
    (hin : s.session.state.inSession = true) : applyResume s = (setRecord { r with paused := false } s, .applied) := by
  simp [applyResume, hr, hin, hp]

/-! ## The notice line (R160) -/

theorem and_ne_zero_iff {w : Nat} (x y : BitVec w) : (x &&& y) ≠ 0 ↔ ∃ k, k < w ∧ y.getLsbD k = true ∧ x.getLsbD k = true := by
  refine ⟨fun h => ?_, fun ⟨k, hk, hy, hx⟩ h0 => ?_⟩
  · by_contra hno
    refine h (BitVec.eq_of_getLsbD_eq fun k hk => ?_)
    have := fun hy hx => hno ⟨k, hk, hy, hx⟩
    simp only [BitVec.getLsbD_and, BitVec.ofNat_eq_ofNat, BitVec.getLsbD_zero, Bool.and_eq_false_imp]
    intro hx
    cases hy : y.getLsbD k with
    | false => rfl
    | true => exact absurd hx (this hy)
  · have := congrArg (fun z => z.getLsbD k) h0
    simp [hx, hy] at this

/-- With the POST factor set the line is active for each enabled factor that is set or POST (R159, R160). -/
theorem lineActive_post (u : StatusUnit) (x : BitVec 5) :
    ({ u with enables := x, factors := u.factors ||| 0b01000#5 } : StatusUnit).lineActive = true ↔
      ∃ k, k < 5 ∧ x.getLsbD k = true ∧ (u.factors.getLsbD k = true ∨ k = Factor.post.bit) := by
  unfold StatusUnit.lineActive
  rw [bne_iff_ne, and_ne_zero_iff]
  refine exists_congr fun k => and_congr_right fun hk => and_congr_right fun _ => ?_
  have hbit : (0b01000#5).getLsbD k = true ↔ k = 3 := by
    interval_cases k <;> decide
  rw [BitVec.getLsbD_or, Bool.or_eq_true, hbit]
  rfl

/-! ## REQUEST (R124) -/

theorem requestMode_clamped (mode : Nat) : (requestModeOf mode).clamped = true ↔ ¬mode ≤ 2 := by
  match mode with
  | 0 | 1 | 2 => simp [requestModeOf]
  | n + 3 => simp [requestModeOf]

theorem requestMode_value (mode : Nat) :
    (requestModeOf mode).value = if mode = 1 then .exporting else if mode = 2 then .importing else .idle := by
  match mode with
  | 0 | 1 | 2 => simp [requestModeOf]
  | n + 3 => simp [requestModeOf]

/-! ## What a withdrawal and a cut leave -/

/-- What a withdrawal makes of the view depends on view, OFFER slot and own number alone. -/
theorem viewWithdrawn_congr {s t : State} (hv : t.view = s.view) (hl : t.line.offerSlot = s.line.offerSlot)
    (hs : t.straps = s.straps) : viewWithdrawn t = viewWithdrawn s := by
  unfold viewWithdrawn recordWithdrawn
  rw [hv, hl, hs]

/-- Where nothing runs and no session closes, nothing follows at once. -/
theorem settled_of_idle {s : State} (hshare : s.apply.share = 0) (hsession : s.session.state ≠ .closing) : Settled s := by
  refine ⟨fun h => h.2 hshare, ?_⟩
  simp [State.mayVacate, hsession]

/-- A cut to 0 (R116). -/
theorem cut_zero_apply (c : Cut) (s : State) :
    (cut 0 c s).apply = if s.apply.share = 0 then s.apply else { s.apply with share := 0, lastCut := some c } := by
  unfold cut withSignOf
  by_cases hz : s.apply.share = 0
  · simp [hz]
  · simp [hz, Int.natAbs_pos]

end Sys2Proof.Machine

/-- Settles O24: the rule sets the two fields; nothing that follows at once depends on them. -/
theorem departureSetsTheCountdownAndRoute : Obligations.DepartureSetsTheCountdownAndRoute := by
  intro s rest r depart route hf hd he hrole hin hr hv hs
  have hrule : ownerRule .departure (natBytes 3 depart ++ natBytes 3 route) (popHead s) = _ :=
    (onCharger_charger (by simpa using hrole)).trans
      (applyDeparture_natBytes hd he (by simpa using hr) (by simpa using inSession_of_mem hin))
  rw [show Instr.departure = PostKind.departure.instr from rfl,
    exec_post_settled hf rfl (waits_of_offer _ rfl hv) (by decide) hrule (by simp) (hs.congr rfl rfl rfl rfl)]
  simp [postDone, setRecord, popHead]

/-- Settles O27: each rule replaces its values; X is the rating on a FEEDER. -/
theorem feederPostsReplaceTheirValues : Obligations.FeederPostsReplaceTheirValues := by
  refine ⟨fun s rest mode level valid number hf hm hl hv hn hrole hc hs => ?_, fun s rest x hf hx hrole hc hs => ?_⟩
  · have hrole' : (popHead s).straps.role = .feeder := by simpa using hrole
    have hmode : field (natBytes 1 mode ++ natBytes 2 level ++ natBytes 1 valid ++ natBytes 1 number) 0 1 = mode := by
      rw [List.append_assoc, List.append_assoc]; exact field_zero _ hm
    have hlevel : field (natBytes 1 mode ++ natBytes 2 level ++ natBytes 1 valid ++ natBytes 1 number) 1 2 = level := by
      rw [List.append_assoc, List.append_assoc, field_append _ _ _ _ (by simp), natBytes_length]; exact field_zero _ hl
    have hvalid : field (natBytes 1 mode ++ natBytes 2 level ++ natBytes 1 valid ++ natBytes 1 number) 3 1 = valid := by
      rw [List.append_assoc, field_append _ _ _ _ (by simp), List.length_append, natBytes_length, natBytes_length]
      exact field_zero _ hv
    have hnumber : field (natBytes 1 mode ++ natBytes 2 level ++ natBytes 1 valid ++ natBytes 1 number) 4 1 = number := by
      rw [field_append _ _ _ _ (by simp), List.length_append, List.length_append, natBytes_length, natBytes_length, natBytes_length]
      exact field_only hn
    have hclamped : clampOutcome ((requestModeOf mode).clamped || (ranged 1 255 valid).clamped) =
        if mode ≤ 2 ∧ 1 ≤ valid then .applied else .clamped := by
      refine clampOutcome_eq ?_
      rw [Bool.or_eq_true, ranged_clamped, requestMode_clamped]
      omega
    have hrule : ownerRule .request (natBytes 1 mode ++ natBytes 2 level ++ natBytes 1 valid ++ natBytes 1 number) (popHead s) = _ :=
      onFeeder_feeder hrole'
    simp only [applyRequest, hmode, hlevel, hvalid, hnumber, hclamped, requestMode_value, ranged_value 1 255 _ (by omega)] at hrule
    rw [show Instr.request = PostKind.request.instr from rfl,
      exec_post_settled hf rfl (by simp [PostKind.waits, hc]) (by decide) hrule (by simp) (hs.congr rfl rfl rfl rfl)]
    have hle : max 1 (min valid 255) = max 1 valid := by omega
    simp [postDone, popHead, hle]
  · have hrole' : (popHead s).straps.role = .feeder := by simpa using hrole
    have hrule : ownerRule .siteLimit (natBytes 2 x) (popHead s) = _ := onFeeder_feeder hrole'
    rw [applyLimit, field_only hx] at hrule
    refine ⟨_, ?_, rfl, ?_⟩
    · rw [show Instr.siteLimit = PostKind.siteLimit.instr from rfl,
        exec_post_settled hf rfl (by simp [PostKind.waits, hc]) (by decide) hrule (by simp) (hs.congr rfl rfl rfl rfl)]
      simp [postDone, popHead]
    · simp [State.rating, hrole, plausible]

/-- Settles O28: the rule replaces the enables, and the line is active where an enabled factor is set. -/
theorem noticeEnableReplacesTheEnables : Obligations.NoticeEnableReplacesTheEnables := by
  intro s rest bits hf hs
  have hbits : BitVec.ofNat 5 (field [bits] 0 1) = bits.setWidth 5 := by
    rw [field_byte]; simp
  have hrule : ownerRule .noticeEnable [bits] (popHead s) = applyEnable [bits] (popHead s) := rfl
  rw [applyEnable, hbits] at hrule
  refine ⟨_, ?_, rfl, ?_⟩
  · rw [show Instr.noticeEnable = PostKind.noticeEnable.instr from rfl,
      exec_post_settled hf rfl rfl (by decide) hrule (by simp) (hs.congr rfl rfl rfl rfl)]
    simp [postDone, popHead]
  · exact (lineActive_post s.status (bits.setWidth 5)).trans (exists_congr fun k => and_congr_right fun hk => by simp [hk])

/-- Settles O26: a PAUSE sets the flag, cuts the share and withdraws; a RESUME clears the flag. -/
theorem pauseWithdrawsAndResumeDoesNot : Obligations.PauseWithdrawsAndResumeDoesNot := by
  refine ⟨fun s rest r body hf hrole hin hr hp hv => ?_, fun s rest r body hf hrole hin hr hp hv hs => ?_⟩
  · have hrule : ownerRule .pause body (popHead s) = _ :=
      (onCharger_charger (by simpa using hrole)).trans
        (applyPause_inSession (by simpa using hr) hp (by simpa using inSession_of_mem hin))
    have hstate : s.session.state ≠ .closing := by rintro h; simp [h] at hin
    have h := exec_post_settled hf rfl (waits_of_offer .pause rfl hv) (by decide) hrule (by simp)
      (settled_of_idle (by simp) (by simpa [setRecord] using hstate))
    refine ⟨_, h, ?_⟩
    generalize hx : cut 0 .pause (setRecord { r with paused := true } (popHead s)) = x
    have hparts : x.straps = s.straps ∧ x.line = s.line ∧ x.view = s.view ∧ x.timer = s.timer ∧ x.time = s.time ∧ x.port = s.port ∧
        x.account = s.account ∧ x.alloc = s.alloc ∧ x.feeder = s.feeder ∧ x.status = s.status ∧ x.service = (popHead s).service ∧
        x.session = { s.session with record := some { r with paused := true } } ∧
        x.apply = if s.apply.share = 0 then s.apply else { s.apply with share := 0, lastCut := some .pause } := by
      subst hx
      simp [setRecord, cut_zero_apply]
    obtain ⟨hstraps, hline, hview, htimer, htime, hport, haccount, halloc, hfeeder, hstatus, hservice, hsession, happly⟩ := hparts
    obtain ⟨hoffer, hslot, hmark, hreport, hpointer, -⟩ := withdraw_line .paused x
    refine ⟨by simpa using hsession, by simpa using happly, fun hc => ?_, fun hc => ?_, hoffer, ?_, ?_, ?_, ?_, ?_, ?_, ?_, ?_, ?_, ?_, ?_, ?_⟩
    · exact hslot.trans (by rw [hline, if_neg hc]; simp [State.frame, hstraps, htimer])
    · exact hslot.trans (by rw [hline, if_pos hc])
    · exact hmark.trans (by rw [hline])
    · exact hreport.trans (by rw [hline])
    · exact hpointer.trans (by rw [hline])
    · exact (withdraw_view .paused x).trans (viewWithdrawn_congr hview (by rw [hline]) hstraps)
    · simp [postDone, hservice, popHead]
    · simp [postDone, hstatus]
    all_goals simp [*]
  · have hrule : ownerRule .resume body (popHead s) = _ :=
      (onCharger_charger (by simpa using hrole)).trans
        (applyResume_inSession (by simpa using hr) hp (by simpa using inSession_of_mem hin))
    rw [show Instr.resume = PostKind.resume.instr from rfl,
      exec_post_settled hf rfl (waits_of_offer _ rfl hv) (by decide) hrule (by simp) (hs.congr rfl rfl rfl rfl)]
    simp [postDone, setRecord, popHead]
end

