-- ==== Sys2Proof/Proofs/SessionPosts.lean ====
section
/-! SUPPORT. SESSION_OPEN, the pack reports and SESSION_CLOSE (R46 to R51, R59, R60). -/

open Sys2Proof Sys2Proof.Machine

namespace Sys2Proof.Machine

/-! ## SESSION_OPEN (R46) -/

/-- The body of a SESSION_OPEN. -/
def openBody (tag capacity rate route depart : Nat) : List Byte :=
  natBytes 4 tag ++ natBytes 3 capacity ++ natBytes 2 rate ++ natBytes 3 route ++ natBytes 3 depart

/-- The record of a SESSION_OPEN in range (R45, R46). -/
theorem openRecord_natBytes {tag capacity rate route depart : Nat} (ht : tag < 4294967296) (hc : capacity < 16777216)
    (hp : rate < 65536) (he : route < 16777216) (hd : depart < 16777216) :
    (if tag = 0 ∨ capacity < 10000 then openRecord (openBody tag capacity rate route depart) = none
    else ∃ r, openRecord (openBody tag capacity rate route depart) = some r ∧
      r.value = ⟨tag, min capacity 1000000, max 10 (min rate 4000), min route (min capacity 1000000), min depart 86400, none, 0, false⟩ ∧
      (r.clamped = true ↔ ¬(capacity ≤ 1000000 ∧ 10 ≤ rate ∧ rate ≤ 4000 ∧ route ≤ capacity ∧ depart ≤ 86400))) := by
  have htag : field (openBody tag capacity rate route depart) 0 4 = tag := by
    simp only [openBody, List.append_assoc]; exact field_zero _ ht
  have hcap : field (openBody tag capacity rate route depart) 4 3 = capacity := by
    simp only [openBody, List.append_assoc]
    rw [field_append _ _ _ _ (by simp)]
    simp only [natBytes_length]
    exact field_zero _ hc
  have hrate : field (openBody tag capacity rate route depart) 7 2 = rate := by
    simp only [openBody, List.append_assoc]
    rw [field_append _ _ _ _ (by simp), field_append _ _ _ _ (by simp)]
    simp only [natBytes_length]
    exact field_zero _ hp
  have hroute : field (openBody tag capacity rate route depart) 9 3 = route := by
    simp only [openBody, List.append_assoc]
    rw [field_append _ _ _ _ (by simp), field_append _ _ _ _ (by simp), field_append _ _ _ _ (by simp)]
    simp only [natBytes_length]
    exact field_zero _ he
  have hdepart : field (openBody tag capacity rate route depart) 12 3 = depart := by
    simp only [openBody, List.append_assoc]
    rw [field_append _ _ _ _ (by simp), field_append _ _ _ _ (by simp), field_append _ _ _ _ (by simp), field_append _ _ _ _ (by simp)]
    simp only [natBytes_length]
    exact field_only hd
  unfold openRecord
  simp only [htag, hcap, hrate, hroute, hdepart]
  by_cases hbad : tag = 0 ∨ capacity < 10000
  · simp [hbad]
  · rw [if_neg hbad, if_neg hbad]
    have hvalue : (ranged 10000 1000000 capacity).value = min capacity 1000000 := by rw [ranged_value _ _ _ (by omega)]; omega
    refine ⟨_, rfl, ?_, ?_⟩
    · rw [hvalue, ranged_value 10 4000 _ (by omega), ranged_value 0 _ _ (Nat.zero_le _), ranged_value 0 _ _ (Nat.zero_le _)]
      simp
    · simp only [Bool.or_eq_true, ranged_clamped, hvalue]
      omega

/-- SESSION and POST together (R42, R171). -/
theorem factors_session_post (f : BitVec 5) : f ||| 4#5 ||| 8#5 = f ||| 12#5 := by
  rw [BitVec.or_assoc]; rfl

/-! ## The body of a PACK_REPORT (R45, R174) -/

/-- The body of a PACK_REPORT. -/
def reportBody (soc dis chg code : Nat) : List Byte := natBytes 2 soc ++ natBytes 2 dis ++ natBytes 2 chg ++ natBytes 1 code

theorem packState_value (code : Nat) :
    (packStateOf code).value = if code = 0 then .normal else if code = 1 then .derated else .stopped := by
  match code with
  | 0 | 1 | 2 => simp [packStateOf]
  | n + 3 => simp [packStateOf]

theorem packState_clamped (code : Nat) : (packStateOf code).clamped = true ↔ ¬code ≤ 2 := by
  match code with
  | 0 | 1 | 2 => simp [packStateOf]
  | n + 3 => simp [packStateOf]

/-- The pack data of a report, each field clamped (R45). -/
theorem reportedPack_natBytes {soc dis chg code : Nat} (hs : soc < 65536) (hd : dis < 65536) (hc : chg < 65536) (hcode : code < 256) :
    (reportedPack (reportBody soc dis chg code)).value = ⟨min soc 1000, min dis 4000, min chg 4000,
        if code = 0 then .normal else if code = 1 then .derated else .stopped⟩ ∧
      ((reportedPack (reportBody soc dis chg code)).clamped = true ↔ ¬(soc ≤ 1000 ∧ dis ≤ 4000 ∧ chg ≤ 4000 ∧ code ≤ 2)) := by
  have hsoc : field (reportBody soc dis chg code) 0 2 = soc := by
    simp only [reportBody, List.append_assoc]; exact field_zero _ hs
  have hdis : field (reportBody soc dis chg code) 2 2 = dis := by
    simp only [reportBody, List.append_assoc]
    rw [field_append _ _ _ _ (by simp)]
    simp only [natBytes_length]
    exact field_zero _ hd
  have hchg : field (reportBody soc dis chg code) 4 2 = chg := by
    simp only [reportBody, List.append_assoc]
    rw [field_append _ _ _ _ (by simp), field_append _ _ _ _ (by simp)]
    simp only [natBytes_length]
    exact field_zero _ hc
  have hst : field (reportBody soc dis chg code) 6 1 = code := by
    simp only [reportBody, List.append_assoc]
    rw [field_append _ _ _ _ (by simp), field_append _ _ _ _ (by simp), field_append _ _ _ _ (by simp)]
    simp only [natBytes_length]
    exact field_only hcode
  unfold reportedPack
  simp only [hsoc, hdis, hchg, hst, ranged_value 0 _ _ (Nat.zero_le _), packState_value, Bool.or_eq_true, ranged_clamped,
    packState_clamped, Nat.zero_max, true_and]
  omega

/-! ## What a report does, by session state (R47 to R51) -/

section
variable {body : List Byte} {s : State} {r : SessionRecord}

theorem applyReport_awaiting (hs : s.session.state = .awaiting) (hr : s.session.record = some r) :
    applyReport body s =
      (if (reportedPack body).value.state = .stopped then
          enterSession .stopped (forcedStop (accountCreated r (reportedPack body).value s))
        else enterSession (if s.port.state = .faulted then .stopped else .engaged) (accountCreated r (reportedPack body).value s),
        clampOutcome (reportedPack body).clamped) := by
  have hfirst (p : PackData) : firstReport r p (reportTaken r p s) =
      if p.state = .stopped then enterSession .stopped (forcedStop (accountCreated r p s))
      else enterSession (if s.port.state = .faulted then .stopped else .engaged) (accountCreated r p s) := by
    unfold firstReport
    dsimp only
    rw [show (reportTaken r p s).port = s.port from rfl]
    cases p.state <;> dsimp only <;> (repeat' split) <;> first | rfl | contradiction
  unfold applyReport
  rw [hr, hs]
  dsimp only
  rw [← hfirst]
  rfl

theorem applyReport_engaged (hs : s.session.state = .engaged) (hr : s.session.record = some r) :
    applyReport body s =
      (let u := resync (reportedPack body).value.soc (reportTaken r (reportedPack body).value s)
       if (reportedPack body).value.state = .stopped then forcedStop (enterStopped u) else packClip u,
        clampOutcome (reportedPack body).clamped) := by
  have hengaged (p : PackData) : engagedReport p (reportTaken r p s) =
      if p.state = .stopped then forcedStop (enterStopped (resync p.soc (reportTaken r p s)))
      else packClip (resync p.soc (reportTaken r p s)) := by
    unfold engagedReport
    cases p.state <;> rfl
  unfold applyReport
  rw [hr, hs]
  dsimp only
  rw [← hengaged]
  rfl

theorem applyReport_stopped (hs : s.session.state = .stopped) (hr : s.session.record = some r) :
    applyReport body s =
      (let u := resync (reportedPack body).value.soc (reportTaken r (reportedPack body).value s)
       if (reportedPack body).value.state = .stopped then forcedStop u
       else if s.port.state = .faulted then u else enterSession .engaged u,
        clampOutcome (reportedPack body).clamped) := by
  have hstopped (p : PackData) : stoppedReport p (reportTaken r p s) =
      if p.state = .stopped then forcedStop (resync p.soc (reportTaken r p s))
      else if s.port.state = .faulted then resync p.soc (reportTaken r p s)
      else enterSession .engaged (resync p.soc (reportTaken r p s)) := by
    unfold stoppedReport
    dsimp only
    rw [show (resync p.soc (reportTaken r p s)).port = s.port by simp]
    cases p.state <;> rfl
  unfold applyReport
  rw [hr, hs]
  dsimp only
  rw [← hstopped]
  rfl

theorem applyReport_closing (hs : s.session.state = .closing) (hr : s.session.record = some r) :
    applyReport body s =
      (let u := reportTaken r (reportedPack body).value s
       if (reportedPack body).value.state = .stopped then forcedStop u else u, clampOutcome (reportedPack body).clamped) := by
  have hclosing (p : PackData) : closingReport p (reportTaken r p s) =
      if p.state = .stopped then forcedStop (reportTaken r p s) else reportTaken r p s := by
    unfold closingReport
    cases p.state <;> rfl
  unfold applyReport
  rw [hr, hs]
  dsimp only
  rw [← hclosing]
  rfl
end

/-- A forced stop of a port that is not METER_ONLY (R148). -/
theorem forcedStop_port {s : State} (h : s.port.state ≠ .meterOnly) :
    (forcedStop s).port = { s.port with
      command := 0, enable := false
      state := if s.port.state = .faulted then .faulted else .disabled
      link := addStop s.port.owed s.port.link } := by
  unfold forcedStop
  rw [if_neg h]
  rfl

@[simp] theorem enterSession_status (st : SessionState) (s : State) :
    (enterSession st s).status = { s.status with factors := s.status.factors ||| 4#5 } := rfl

end Sys2Proof.Machine

/-- Settles O20: the body read field by field, each clamped once. -/
theorem sessionOpenCreatesTheRecord : Obligations.SessionOpenCreatesTheRecord := by
  intro s rest tag capacity rate route depart hf ht hc hp he hd hrole hvacant hv hs
  have hrecord := openRecord_natBytes ht hc hp he hd
  have hrole' : (popHead s).straps.role = .charger := by simpa using hrole
  have hvacant' : (popHead s).session.state = .vacant := by simpa using hvacant
  rw [show Instr.sessionOpen = PostKind.sessionOpen.instr from rfl]
  change s.service.fifo = ⟨16, openBody tag capacity rate route depart⟩ :: rest at hf
  by_cases hbad : tag = 0 ∨ capacity < 10000
  · rw [if_pos hbad] at hrecord
    rw [if_pos hbad]
    refine exec_post_ignored hf rfl (waits_of_offer _ rfl hv) (by decide) ?_ hs
    exact (onCharger_charger hrole').trans (by simp [applyOpen, hvacant, hrecord])
  · rw [if_neg hbad] at hrecord
    rw [if_neg hbad]
    obtain ⟨r, hr, hvalue, hclamped⟩ := hrecord
    have hrule : ownerRule .sessionOpen (openBody tag capacity rate route depart) (popHead s) = _ :=
      (onCharger_charger hrole').trans (by unfold applyOpen; rw [if_neg (by simp [hvacant]), hr])
    rw [exec_post_settled hf rfl (waits_of_offer _ rfl hv) (by decide) hrule rfl
      ⟨by simpa using hs.1, by simp [State.mayVacate, enterSession]⟩]
    rw [clampOutcome_eq hclamped, hvalue]
    simp [postDone, enterSession, cause, popHead, Factor.bit, BitVec.twoPow]
    exact factors_session_post _

/-- Settles O21: in AWAITING the share is 0, so that nothing follows the first report at once. -/
theorem firstReportCreatesTheAccount : Obligations.FirstReportCreatesTheAccount := by
  intro s rest r soc dis chg code hf hsoc hdis hchg hcode hrole hawaiting hr hv hm hshare
  change s.service.fifo = ⟨17, reportBody soc dis chg code⟩ :: rest at hf
  obtain ⟨hvalue, hclamped⟩ := reportedPack_natBytes hsoc hdis hchg hcode
  have hzero : s.apply.share = 0 := hshare.zero (by simp [hawaiting])
  have hrule : ownerRule .packReport (reportBody soc dis chg code) (popHead s) = _ :=
    (onCharger_charger (by simpa using hrole)).trans
      (applyReport_awaiting (by simpa using hawaiting) (by simpa using hr))
  rw [clampOutcome_eq hclamped] at hrule
  have hport : (popHead s).port = s.port := by simp
  rw [hport] at hrule
  generalize hp : (reportedPack (reportBody soc dis chg code)).value = p at hvalue hrule
  have hstop : p.state = .stopped ↔ 2 ≤ code := by
    rw [hvalue]
    dsimp only
    split
    · simp; omega
    · split <;> simp <;> omega
  by_cases h2 : 2 ≤ code
  · rw [if_pos (hstop.mpr h2)] at hrule
    have hdone := exec_post_settled hf rfl (waits_of_offer .packReport rfl hv) (by decide) hrule (by simp)
      (settled_of_idle (by simpa using hzero) (by simp [enterSession]))
    have hstopped : (forcedStop (accountCreated r p (popHead s))).port = _ := forcedStop_port (by simpa using hm)
    have hno : ¬code ≤ 1 := by omega
    refine ⟨_, hdone, ?_⟩
    simp only [postDone_frame, enterSession_session, enterSession_frame, forcedStop_frame, accountCreated_session, hstopped]
    simp [postDone, hvalue, createAccount, reported, OfferBody.zero, hno, factors_session_post]
  · rw [if_neg (fun h => h2 (hstop.mp h))] at hrule
    have hle : code ≤ 1 := by omega
    have hdone := exec_post_settled hf rfl (waits_of_offer .packReport rfl hv) (by decide) hrule (by simp)
      (settled_of_idle (by simpa using hzero) (by simp; split <;> simp))
    refine ⟨_, hdone, ?_⟩
    simp [postDone, hvalue, createAccount, reported, OfferBody.zero, hle, factors_session_post]
end

