-- ==== Sys2Proof/Proofs/ClosePost.lean ====
section
/-! SUPPORT. SESSION_CLOSE (R59, R60) and the passage to VACANT that may follow it at once (R61). -/

open Sys2Proof Sys2Proof.Machine

namespace Sys2Proof.Machine

/-- An action that raises no flag and leaves nothing to run for may only be followed by the passage to VACANT. -/
theorem settle_of_zero {s u : State} (hword : u.status.word = s.status.word) (hshare : u.apply.share = 0) :
    settle s u = vacate u := by
  have henable : requestEnable u = u := if_neg fun h => h.2 hshare
  have hvacate : (vacate u).status.word = s.status.word := by
    unfold vacate
    split
    · exact hword
    · exact hword
  rw [settle, henable, ← hvacate, noteFaults_self]

theorem vacate_of_not {s : State} (h : s.mayVacate = false) : vacate s = s := by simp [vacate, h]

/-- The passage to VACANT (R61, R64). -/
theorem vacate_of_may {s : State} (h : s.mayVacate = true) :
    vacate s = { s with
      session := ⟨.vacant, none, s.session.lastClose⟩
      account := { s.account with account := none }
      status := { s.status with factors := s.status.factors ||| 4#5 } } := by
  unfold vacate
  rw [if_pos h]
  rfl

theorem closeReason_value (code : Byte) :
    (closeReasonOf code.toNat).value = if code = 0 then .unplugged else if code = 1 then .departNow else .hostAbort := by
  have h0 : code.toNat = 0 ↔ code = 0 := ⟨fun h => BitVec.eq_of_toNat_eq h, fun h => by simp [h]⟩
  have h1 : code.toNat = 1 ↔ code = 1 := ⟨fun h => BitVec.eq_of_toNat_eq h, fun h => by simp [h]⟩
  simp only [← h0, ← h1]
  generalize code.toNat = n
  match n with
  | 0 | 1 | 2 => simp [closeReasonOf]
  | n + 3 => simp [closeReasonOf]

theorem closeReason_clamped (n : Nat) : (closeReasonOf n).clamped = true ↔ ¬n ≤ 2 := by
  match n with
  | 0 | 1 | 2 => simp [closeReasonOf]
  | n + 3 => simp [closeReasonOf]

theorem applyClose_inSession {s : State} (code : Byte) (hin : s.session.state.inSession = true) :
    applyClose [code] s =
      (closeStop (closeReasonOf code.toNat).value (enterSession .closing
          (withdraw (closeWithdraw (closeReasonOf code.toNat).value) (cut 0 .close (closeNoted (closeReasonOf code.toNat).value s)))),
        clampOutcome (closeReasonOf code.toNat).clamped) := by
  unfold applyClose
  rw [field_byte]
  dsimp only
  rw [if_pos hin]
  rfl

theorem closeNoted_session (reason : CloseReason) (s : State) :
    (closeNoted reason s).session = { s.session with lastClose := some reason } := rfl

theorem applyClose_closing {s : State} (hs : s.session.state = .closing) :
    applyClose [0] s = (forcedStop (closeNoted .unplugged s), .applied) := by
  unfold applyClose
  rw [field_byte]
  simp [hs, SessionState.inSession, closeReasonOf, clampOutcome, closeNoted]

theorem factors_vacant_post (f : BitVec 5) : f ||| 12#5 ||| 4#5 = f ||| 12#5 := by
  rw [BitVec.or_assoc]; rfl

/-- What is left of a CLOSING session at the end of an action: nothing where the port is DISABLED with its command at 0 (R61). -/
theorem vacate_closing {s : State} (hs : s.session.state = .closing) :
    vacate s = (if s.port.command = 0 ∧ s.port.state = .disabled then
      { s with
        session := ⟨.vacant, none, s.session.lastClose⟩
        account := { s.account with account := none }
        status := { s.status with factors := s.status.factors ||| 4#5 } }
      else s) := by
  have hmay : s.mayVacate = true ↔ s.port.command = 0 ∧ s.port.state = .disabled := by simp [State.mayVacate, hs]
  by_cases h : s.mayVacate = true
  · rw [vacate_of_may h, if_pos (hmay.mp h)]
  · rw [vacate_of_not (by simpa using h), if_neg (fun h' => h (hmay.mpr h'))]

end Sys2Proof.Machine

/-- Settles O25: the rule withdraws, cuts the share and, at UNPLUGGED, stops the port; the passage to VACANT follows where the port
is DISABLED with its command at 0. -/
theorem sessionCloseEndsTheSession : Obligations.SessionCloseEndsTheSession := by
  refine ⟨fun s rest r code hf hrole hin hr hv hm => ?_, fun s rest hf hrole hs hv hm hshare => ?_⟩
  · have hrule : ownerRule .sessionClose [code] (popHead s) = _ :=
      (onCharger_charger (by simpa using hrole)).trans (applyClose_inSession code (by simpa using inSession_of_mem hin))
    rw [clampOutcome_eq (closeReason_clamped code.toNat)] at hrule
    have hexec := exec_post hf rfl (waits_of_offer .sessionClose rfl hv) (by decide) hrule
    rw [settle_of_zero (by simp) (by simp)] at hexec
    refine ⟨_, hexec, ?_⟩
    generalize hreason : (closeReasonOf code.toNat).value = reason
    rw [closeReason_value] at hreason
    generalize hx : cut 0 .close (closeNoted reason (popHead s)) = x
    have hparts : x.straps = s.straps ∧ x.line = s.line ∧ x.view = s.view ∧ x.timer = s.timer ∧ x.time = s.time ∧ x.port = s.port ∧
        x.account = s.account ∧ x.alloc = s.alloc ∧ x.feeder = s.feeder ∧ x.status = s.status ∧ x.service = (popHead s).service ∧
        x.session = ⟨s.session.state, some r, some reason⟩ ∧ x.apply.share = 0 := by
      subst hx
      simp [closeNoted, hr]
    obtain ⟨hstraps, hline, hview, htimer, htime, hport, haccount, halloc, hfeeder, hstatus, hservice, hsession, happly⟩ := hparts
    obtain ⟨hoffer, hslot, -⟩ := withdraw_line (closeWithdraw reason) x
    have hwithdrawn := (withdraw_view (closeWithdraw reason) x).trans (viewWithdrawn_congr hview (by rw [hline]) hstraps)
    have hclosed : (postDone rest (if code.toNat ≤ 2 then .applied else .clamped)
        (closeStop reason (enterSession .closing (withdraw (closeWithdraw reason) x)))).session = ⟨.closing, some r, some reason⟩ := by
      simp [hsession]
    have hport : (closeStop reason (enterSession .closing (withdraw (closeWithdraw reason) x))).port =
        if code = 0 then { s.port with
          command := 0, enable := false
          state := if s.port.state = .faulted then .faulted else .disabled
          link := addStop s.port.owed s.port.link }
        else s.port := by
      subst hreason
      by_cases h0 : code = 0
      · simp only [h0, if_true, closeStop]
        rw [forcedStop_port (by simpa [hport] using hm)]
        simp [hport]
      · simp only [h0, if_false]
        split <;> simp [closeStop, hport]
    have hwithdrawReason : closeWithdraw reason = if code = 0 then .unplugged else .closed := by
      subst hreason
      by_cases h0 : code = 0
      · simp [h0, closeWithdraw]
      · simp only [h0, if_false]
        split <;> rfl
    have hrest : (withdraw (closeWithdraw reason) x).line.withdrawSlot = (if s.line.state = .clash then s.line.withdrawSlot else
        some ⟨⟨0, s.straps.stn, s.straps.site, s.timer.n, .withdraw (if code = 0 then .unplugged else .closed)⟩, none, false⟩) := by
      rw [hslot, hline, hwithdrawReason]
      simp [State.frame, hstraps, htimer]
    rw [vacate_closing (by rw [hclosed])]
    by_cases h0 : code = 0
    · rw [if_pos h0] at hreason hrest hport
      simp only [postDone_frame, hport]
      by_cases hf : s.port.state = .faulted <;>
        simp +contextual [h0, hf, hport, hrest, hoffer, hwithdrawn, htimer, halloc, hfeeder, htime, hstatus, haccount, happly,
          hsession, factors_session_post, factors_vacant_post]
      all_goals exact hreason.symm
    · have h0' : code ≠ 0#8 := h0
      rw [if_neg h0] at hreason hrest hport
      simp only [postDone_frame, hport]
      by_cases hd : s.port.command = 0 ∧ s.port.state = .disabled <;>
        simp +contextual [h0', hd, hport, hrest, hoffer, hwithdrawn, htimer, halloc, hfeeder, htime, hstatus, haccount, happly,
          hsession, factors_session_post, factors_vacant_post]
      all_goals exact hreason.symm
  · have hrule : ownerRule .sessionClose [0] (popHead s) = _ :=
      (onCharger_charger (by simpa using hrole)).trans (applyClose_closing (by simpa using hs))
    have hexec := exec_post hf rfl (waits_of_offer .sessionClose rfl hv) (by decide) hrule
    rw [settle_of_zero (by simp) (by simpa using hshare)] at hexec
    refine ⟨_, hexec, ?_⟩
    have hstopped : (forcedStop (closeNoted .unplugged (popHead s))).port = _ := forcedStop_port (by simpa using hm)
    have hclosed : (postDone rest .applied (forcedStop (closeNoted .unplugged (popHead s)))).session =
        ⟨.closing, s.session.record, some .unplugged⟩ := by
      simp [closeNoted, hs]
    rw [vacate_closing (by rw [hclosed])]
    simp only [postDone_frame, hstopped]
    by_cases hf : s.port.state = .faulted <;> simp [hf, hstopped, closeNoted_session, hs]
end

