-- ==== Sys2Proof/Proofs/Reports.lean ====
section
/-! SUPPORT. The pack reports after the first: resync, reserve check and clip, and the moves of the session they bring (R48 to R52,
R67, R69, R71). -/

open Sys2Proof Sys2Proof.Machine

namespace Sys2Proof.Machine

/-! ## The reserve check and the resync (R67, R69, R71) -/

/-- The reserve check, by the account and the record it reads. -/
theorem reserveCheck_spec {s : State} {a : Account} {r : SessionRecord} (ha : s.account.account = some a) (hr : s.session.record = some r) :
    (reserveCheck s).apply = (if a.eNow ≤ eRes r ∧ 0 < s.apply.share then { s.apply with share := 0, lastCut := some .reserve } else s.apply) ∧
      ∀ f : Flag, f.isSet (reserveCheck s).status.word = true ↔
        f = .reserve ∧ a.eNow ≤ eRes r ∧ 0 < s.apply.share ∨ f.isSet s.status.word = true := by
  have hat : s.atReserve = true ↔ a.eNow ≤ eRes r := by simp [State.atReserve, ha, hr]
  unfold reserveCheck
  by_cases h : a.eNow ≤ eRes r ∧ 0 < s.apply.share
  · rw [if_pos ⟨hat.mpr h.1, h.2⟩, if_pos h]
    refine ⟨?_, fun f => ?_⟩
    · rw [(raise_frame _ _).2.2.2.2.2.2.2.2.1, cut_zero_apply, if_neg h.2.ne']
    · rw [isSet_raise]
      simp [h, or_comm]
  · rw [if_neg (fun h' => h ⟨hat.mp h'.1, h'.2⟩), if_neg h]
    refine ⟨rfl, fun f => ?_⟩
    simp [h]

/-- What a resync leaves: the balance, DRIFT, and the reserve check of the balance it leaves. -/
theorem resync_spec {s : State} {a : Account} {r : SessionRecord} (soc : Nat) (ha : s.account.account = some a)
    (hr : s.session.record = some r) :
    Resynced s (resync soc s) a r.capacity soc ∧ ∃ b, (resync soc s).account.account = some b ∧
      (resync soc s).apply = (if b.eNow ≤ eRes r ∧ 0 < s.apply.share then { s.apply with share := 0, lastCut := some .reserve } else s.apply) ∧
      (Flag.reserve.isSet (resync soc s).status.word = true ↔
        (b.eNow ≤ eRes r ∧ 0 < s.apply.share) ∨ Flag.reserve.isSet s.status.word = true) ∧
      (Flag.clipped.isSet (resync soc s).status.word = true ↔ Flag.clipped.isSet s.status.word = true) := by
  -- The state the reserve check finds.
  obtain ⟨u, hu, hcheck⟩ : ∃ u : State, Resynced s u a r.capacity soc ∧ resync soc s = reserveCheck u ∧ u.session = s.session ∧
      u.apply = s.apply ∧ (∀ f : Flag, f ≠ .drift → (f.isSet u.status.word = true ↔ f.isSet s.status.word = true)) := by
    unfold resync
    rw [ha, hr]
    refine ⟨_, ?_, rfl, ?_⟩
    · unfold Resynced reported distance
      by_cases hbeyond : r.capacity / 100 < (soc * r.capacity / 1000 - a.eNow) + (a.eNow - soc * r.capacity / 1000)
      · simp [hbeyond, isSet_raise]
      · by_cases hp : a.resyncPending = true
        · simp [hbeyond, hp]
        · simp [hbeyond, hp, ← ha]
    · split <;> split <;> simp +contextual [isSet_raise]
  obtain ⟨hcheck, hsession, happly, hflags⟩ := hcheck
  obtain ⟨haccount, hdrift⟩ := hu
  obtain ⟨b, hb⟩ : ∃ b, u.account.account = some b := ⟨_, by rw [haccount]⟩
  obtain ⟨hshare, hset⟩ := reserveCheck_spec hb (hsession ▸ hr)
  rw [hcheck]
  refine ⟨⟨by simpa using haccount, ?_⟩, b, by simpa using hb, by rw [hshare, happly], ?_, ?_⟩
  · rw [hset]; simpa using hdrift
  · rw [hset, hflags _ (by decide), happly]; simp
  · rw [hset, hflags _ (by decide)]; simp

/-- The clip of an ENGAGED report (R49). -/
theorem packClip_spec (s : State) :
    (packClip s).apply.share.natAbs = min s.apply.share.natAbs (s.limit s.apply.share) ∧
      (0 ≤ s.apply.share → 0 ≤ (packClip s).apply.share) ∧ (s.apply.share ≤ 0 → (packClip s).apply.share ≤ 0) ∧
      (packClip s).apply.lastCut = (if s.limit s.apply.share < s.apply.share.natAbs then some .packClip else s.apply.lastCut) ∧
      ∀ f : Flag, f.isSet (packClip s).status.word = true ↔
        f = .clipped ∧ s.limit s.apply.share < s.apply.share.natAbs ∨ f.isSet s.status.word = true := by
  have hcut := cut_spec (s.limit s.apply.share) .packClip s
  unfold packClip
  by_cases h : s.limit s.apply.share < s.apply.share.natAbs
  · rw [if_pos h]
    refine ⟨by simpa using hcut.1, by simpa using hcut.2.1, by simpa using hcut.2.2.1, by simpa using hcut.2.2.2, fun f => ?_⟩
    rw [isSet_raise]
    simp [h, or_comm]
  · rw [if_neg h]
    refine ⟨by omega, id, id, by simp [h], fun f => by simp [h]⟩

/-! ## The end of an action that leaves nothing outstanding -/

theorem settle_eq_noteFaults {s u : State} (h : Settled u) : settle s u = noteFaults s.status.word u := by
  rw [settle, requestEnable_of_settled u h, vacate_of_settled u h]

@[simp] theorem noteFaults_word (before : BitVec 14) (s : State) : (noteFaults before s).status.word = s.status.word := by
  have hcapture (f : Flag) : (capture f s).status.word = s.status.word := by
    unfold capture
    split <;> rfl
  unfold noteFaults
  split
  · rfl
  · exact hcapture _

end Sys2Proof.Machine

/-- Settles O22: the resync and its reserve check, then the clip to the limits the report brings. -/
theorem engagedReportResyncsAndClips : Obligations.EngagedReportResyncsAndClips := by
  intro s rest r a soc dis chg code hf hsoc hdis hchg hcode hrole hengaged hr ha hv hs
  change s.service.fifo = ⟨17, reportBody soc dis chg code⟩ :: rest at hf
  obtain ⟨hvalue, hclamped⟩ := reportedPack_natBytes hsoc hdis hchg (by omega : code < 256)
  have hrule : ownerRule .packReport (reportBody soc dis chg code) (popHead s) = _ :=
    (onCharger_charger (by simpa using hrole)).trans (applyReport_engaged (by simpa using hengaged) (by simpa using hr))
  rw [clampOutcome_eq hclamped] at hrule
  obtain ⟨p, hp, hpack, hstate⟩ : ∃ p, (reportedPack (reportBody soc dis chg code)).value = p ∧
      p = ⟨min soc 1000, min dis 4000, min chg 4000, if code = 0 then .normal else .derated⟩ ∧ p.state ≠ .stopped := by
    refine ⟨_, rfl, ?_, ?_⟩ <;> rw [hvalue]
    · by_cases h0 : code = 0
      · simp [h0]
      · simp [show code = 1 by omega]
    · dsimp only
      split
      · simp
      · rw [if_pos (by omega)]; simp
  rw [hp] at hrule
  simp only [if_neg hstate] at hrule
  have hr' : (reportTaken r p (popHead s)).session.record = some { r with pack := some p, age := 0 } := by simp
  obtain ⟨hresync, b, hb, happly, hreserve, hclipped⟩ := resync_spec p.soc (s := reportTaken r p (popHead s)) (by simpa using ha) hr'
  have hsession : (resync p.soc (reportTaken r p (popHead s))).session =
      { s.session with record := some { r with pack := some p, age := 0 } } := by simp
  have hframe : (resync p.soc (reportTaken r p (popHead s))).port = s.port ∧ (resync p.soc (reportTaken r p (popHead s))).line = s.line ∧
      (resync p.soc (reportTaken r p (popHead s))).view = s.view ∧ (resync p.soc (reportTaken r p (popHead s))).alloc = s.alloc ∧
      (resync p.soc (reportTaken r p (popHead s))).timer = s.timer ∧ (resync p.soc (reportTaken r p (popHead s))).feeder = s.feeder ∧
      (resync p.soc (reportTaken r p (popHead s))).time = s.time := by simp
  generalize resync p.soc (reportTaken r p (popHead s)) = u at *
  obtain ⟨hport, hline, hview, halloc, htimer, hfeeder, htime⟩ := hframe
  obtain ⟨habs, hpos, hneg, hcut, hflags⟩ := packClip_spec u
  have hlimit (x : Int) : u.limit x = if x < 0 then min (min chg 4000) r.pRate else min (min dis 4000) r.pRate := by
    simp [State.limit, hsession, pChg, pDis, hpack]
  replace happly : u.apply = if b.eNow ≤ eRes r ∧ 0 < s.apply.share then { s.apply with share := 0, lastCut := some .reserve }
      else s.apply := by simpa [eRes] using happly
  have hsettled : Settled (postDone rest (if soc ≤ 1000 ∧ dis ≤ 4000 ∧ chg ≤ 4000 ∧ code ≤ 2 then .applied else .clamped) (packClip u)) := by
    refine ⟨fun ⟨hd, hne⟩ => hs.1 ⟨by simpa [hport] using hd, fun hz => hne ?_⟩, ?_⟩
    · have hzero : u.apply.share = 0 := by rw [happly]; split <;> simp [hz]
      simpa using (fell_packClip u).zero hzero
    · simp [State.mayVacate, hsession, hengaged]
  have hexec := exec_post hf rfl (waits_of_offer .packReport rfl hv) (by decide) hrule
  rw [settle_eq_noteFaults hsettled] at hexec
  refine ⟨_, b, hexec, ?_⟩
  have hother (f : Flag) (hf : f ≠ .clipped) : f.isSet (packClip u).status.word = true ↔ f.isSet u.status.word = true := by
    rw [hflags]; simp [hf]
  refine ⟨⟨by simpa [hpack] using hresync.1, ?_⟩, by simpa using hb, by simpa [hpack] using hsession, ⟨?_, ?_, ?_, ?_, ?_, ?_⟩, ?_⟩
  · simpa [hpack, hother] using hresync.2
  · simp only [noteFaults_frame, postDone_frame, habs, happly, hlimit]
    split <;> simp
  · simp only [noteFaults_frame, postDone_frame]
    exact fun h => hpos (by rw [happly]; split <;> simp [h])
  · simp only [noteFaults_frame, postDone_frame]
    exact fun h => hneg (by rw [happly]; split <;> simp [h])
  · simp only [noteFaults_frame, postDone_frame, hcut, happly, hlimit]
    split <;> simp
  · simpa [hother, eRes] using hreserve
  · simp only [noteFaults_word, postDone_status, hflags, hclipped, happly, hlimit]
    by_cases hstop : b.eNow ≤ eRes r ∧ 0 < s.apply.share <;> simp [hstop]
  · have hle : code ≤ 2 := by omega
    simp [hport, hline, hview, halloc, htimer, hfeeder, htime, hle]
end

