-- ==== Sys2Proof/Proofs/PackStates.lean ====
section
/-! SUPPORT. The reports that move the session between ENGAGED, STOPPED and CLOSING (R48, R50, R51). -/

open Sys2Proof Sys2Proof.Machine

namespace Sys2Proof.Machine

/-- With no share to cut, a resync leaves the applied share as it is (R71). -/
theorem resync_apply_of_zero {s : State} (soc : Nat) (h : s.apply.share = 0) : (resync soc s).apply = s.apply := by
  have hcheck (u : State) (hu : u.apply.share = 0) : reserveCheck u = u := by
    unfold reserveCheck
    rw [if_neg (by simp [hu])]
  unfold resync
  split
  · rw [hcheck]
    · split <;> split <;> simp
    · split <;> split <;> simpa using h
  · rfl

/-- The factors SESSION and POST, once caused, stay caused at the end of the action. -/
theorem noteFaults_factors_and {w : BitVec 14} {s : State} (h : s.status.factors &&& 12#5 = 12#5) :
    (noteFaults w s).status.factors &&& 12#5 = 12#5 := by
  have hor (f g : BitVec 5) (hf : f &&& 12#5 = 12#5) : (f ||| g) &&& 12#5 = 12#5 := by
    revert f g; decide
  unfold noteFaults
  split
  · exact h
  · unfold capture
    split
    · exact h
    · exact hor _ _ h

theorem Resynced.congr {s s' t t' : State} {a : Account} {capacity soc : Nat} (h : Resynced s' t' a capacity soc)
    (hs : s'.account = s.account) (hsw : s'.status.word = s.status.word) (ht : t.account = t'.account)
    (htw : t.status.word = t'.status.word) : Resynced s t a capacity soc := by
  unfold Resynced at *
  rwa [ht, htw, ← hs, ← hsw]

/-- STOPPED entered (R43, R52): the withdrawal on the line and in the view, and the factor caused. -/
theorem enterStopped_withdraws (s : State) :
    (enterStopped s).view = viewWithdrawn s ∧ (enterStopped s).line.offerSlot = none ∧
      (enterStopped s).line.withdrawSlot = (if s.line.state = .clash then s.line.withdrawSlot
        else some ⟨⟨0, s.straps.stn, s.straps.site, s.timer.n, .withdraw .stopped⟩, none, false⟩) ∧
      (enterStopped s).status = { s.status with factors := s.status.factors ||| 4#5 } := by
  have hview : (enterStopped s).view = (withdraw .stopped (cut 0 .stopped s)).view := rfl
  have hline : (enterStopped s).line = (withdraw .stopped (cut 0 .stopped s)).line := rfl
  obtain ⟨hoffer, hslot, -⟩ := withdraw_line .stopped (cut 0 .stopped s)
  refine ⟨?_, by rw [hline, hoffer], by rw [hline, hslot]; simp [State.frame], by simp [enterStopped]⟩
  rw [hview, withdraw_view]
  exact viewWithdrawn_congr (by simp) (by simp) (by simp)

/-- The session and the account of a report that is followed by the resync. -/
theorem resync_reportTaken {s : State} {r : SessionRecord} {p : PackData} :
    let u := resync p.soc (reportTaken r p (popHead s))
    (∀ a, s.account.account = some a → Resynced s u a r.capacity p.soc) ∧
      (s.apply.share = 0 → u.apply = s.apply) ∧
      u.session = { s.session with record := some { r with pack := some p, age := 0 } } := by
  dsimp only
  have hr : (reportTaken r p (popHead s)).session.record = some { r with pack := some p, age := 0 } := by simp
  refine ⟨fun a ha => ?_, fun h => ?_, by simp⟩
  · exact (resync_spec p.soc (by simpa using ha) hr).1.congr (by simp) (by simp) rfl rfl
  · rw [resync_apply_of_zero _ (by simpa using h)]
    simp

end Sys2Proof.Machine

/-- Settles O23: the report's resync, then the STOPPED or ENGAGED entry, the forced stop and the passage to VACANT. -/
theorem packStateMovesTheSession : Obligations.PackStateMovesTheSession := by
  refine ⟨fun s rest r body hf hpack hrole hengaged hr hv hm => ?_, fun s rest r body hf hpack hrole hin hr hv hshare hmay => ?_,
    fun s rest r body hf hpack hrole hin hr hv hm hshare => ?_⟩
  · have hrule : ownerRule .packReport body (popHead s) = _ :=
      (onCharger_charger (by simpa using hrole)).trans (applyReport_engaged (by simpa using hengaged) (by simpa using hr))
    simp only [hpack, if_true] at hrule
    obtain ⟨hresync, -, hsession⟩ := resync_reportTaken (s := s) (r := r) (p := (reportedPack body).value)
    have hexec := exec_post hf rfl (waits_of_offer .packReport rfl hv) (by decide) hrule
    rw [settle_eq_noteFaults (settled_of_idle (by simp) (by simp))] at hexec
    refine ⟨_, hexec, ?_⟩
    generalize hu : resync (reportedPack body).value.soc (reportTaken r (reportedPack body).value (popHead s)) = u at *
    have hparts : u.straps = s.straps ∧ u.line = s.line ∧ u.view = s.view ∧ u.timer = s.timer ∧ u.time = s.time ∧ u.port = s.port ∧
        u.alloc = s.alloc ∧ u.feeder = s.feeder := by
      subst hu; simp
    obtain ⟨hstraps, hline, hview, htimer, htime, hport, halloc, hfeeder⟩ := hparts
    obtain ⟨hv', hoffer, hslot, hstatus⟩ := enterStopped_withdraws u
    have hwithdrawn := hv'.trans (viewWithdrawn_congr hview (by rw [hline]) hstraps)
    have hstop : (forcedStop (enterStopped u)).port = _ := forcedStop_port (by simpa [hport] using hm)
    refine ⟨by simp [hsession], fun a ha => (hresync a ha).congr rfl rfl (by simp) (by simp [hstatus]), by simp, ?_, ?_, ?_, ?_, ?_,
      noteFaults_factors_and ?_, ?_⟩
    · simp [hstop, hport]
    · simp +contextual [hslot, hline, hstraps, htimer]
    · simp +contextual [hslot, hline]
    · simp [hoffer]
    · simpa using hwithdrawn
    · have hand (f : BitVec 5) : (f ||| 12#5) &&& 12#5 = 12#5 := by revert f; decide
      simp [hstatus, factors_session_post, hand]
    · simp [htimer, halloc, hfeeder, htime]
  · simp only [List.mem_cons, List.not_mem_nil, or_false] at hin
    rcases hin with hs | hs
    · have hrule : ownerRule .packReport body (popHead s) = _ :=
        (onCharger_charger (by simpa using hrole)).trans (applyReport_stopped (by simpa using hs) (by simpa using hr))
      simp only [hpack, if_false] at hrule
      obtain ⟨hresync, happly, hsession⟩ := resync_reportTaken (s := s) (r := r) (p := (reportedPack body).value)
      replace happly := happly hshare
      have hexec := exec_post hf rfl (waits_of_offer .packReport rfl hv) (by decide) hrule
      generalize hu : resync (reportedPack body).value.soc (reportTaken r (reportedPack body).value (popHead s)) = u at *
      have hparts : u.line = s.line ∧ u.view = s.view ∧ u.timer = s.timer ∧ u.port = s.port ∧ u.alloc = s.alloc ∧
          u.feeder = s.feeder := by
        subst hu; simp
      obtain ⟨hline, hview, htimer, hport, halloc, hfeeder⟩ := hparts
      by_cases hfault : s.port.state = .faulted
      · simp only [popHead_frame, hfault, if_true] at hexec
        rw [settle_eq_noteFaults (settled_of_idle (by simp [happly, hshare]) (by simp [hsession, hs]))] at hexec
        refine ⟨_, hexec, by simp [hsession], by simp [hsession, hs, hfault],
          fun a _ ha => (hresync a ha).congr rfl rfl (by simp) (by simp), by simp [hs], ?_⟩
        simp [hport, happly, hline, hview, htimer, halloc, hfeeder]
      · simp only [popHead_frame, hfault, if_false] at hexec
        rw [settle_eq_noteFaults (settled_of_idle (by simp [happly, hshare]) (by simp))] at hexec
        refine ⟨_, hexec, by simp [hsession], by simp [hs, hfault],
          fun a _ ha => (hresync a ha).congr rfl rfl (by simp) (by simp), by simp [hs], ?_⟩
        simp [hport, happly, hline, hview, htimer, halloc, hfeeder]
    · have hrule : ownerRule .packReport body (popHead s) = _ :=
        (onCharger_charger (by simpa using hrole)).trans (applyReport_closing (by simpa using hs) (by simpa using hr))
      simp only [hpack, if_false] at hrule
      have hexec := exec_post hf rfl (waits_of_offer .packReport rfl hv) (by decide) hrule
      rw [settle_of_zero (by simp) (by simpa using hshare), vacate_of_not (by simpa [State.mayVacate] using hmay)] at hexec
      exact ⟨_, hexec, by simp [hs]⟩
  · simp only [List.mem_cons, List.not_mem_nil, or_false] at hin
    rcases hin with hs | hs
    · have hrule : ownerRule .packReport body (popHead s) = _ :=
        (onCharger_charger (by simpa using hrole)).trans (applyReport_stopped (by simpa using hs) (by simpa using hr))
      simp only [hpack, if_true] at hrule
      obtain ⟨hresync, happly, hsession⟩ := resync_reportTaken (s := s) (r := r) (p := (reportedPack body).value)
      replace happly := happly hshare
      have hexec := exec_post hf rfl (waits_of_offer .packReport rfl hv) (by decide) hrule
      generalize hu : resync (reportedPack body).value.soc (reportTaken r (reportedPack body).value (popHead s)) = u at *
      have hparts : u.line = s.line ∧ u.view = s.view ∧ u.timer = s.timer ∧ u.port = s.port ∧ u.alloc = s.alloc ∧
          u.feeder = s.feeder := by
        subst hu; simp
      obtain ⟨hline, hview, htimer, hport, halloc, hfeeder⟩ := hparts
      have hstop : (forcedStop u).port = _ := forcedStop_port (by simpa [hport] using hm)
      rw [settle_eq_noteFaults (settled_of_idle (by simp [happly, hshare]) (by simp [hsession, hs]))] at hexec
      refine ⟨_, hexec, by simp [hstop, hport], fun _ => ⟨by simp [hsession, hs], by simp [hsession],
        fun a ha => (hresync a ha).congr rfl rfl (by simp) (by simp)⟩, by simp [hs], by simp [hs], ?_⟩
      simp [happly, hline, hview, htimer, halloc, hfeeder]
    · have hrule : ownerRule .packReport body (popHead s) = _ :=
        (onCharger_charger (by simpa using hrole)).trans (applyReport_closing (by simpa using hs) (by simpa using hr))
      simp only [hpack, if_true] at hrule
      have hexec := exec_post hf rfl (waits_of_offer .packReport rfl hv) (by decide) hrule
      have hstop : (forcedStop (reportTaken r (reportedPack body).value (popHead s))).port = _ :=
        forcedStop_port (by simpa using hm)
      rw [settle_of_zero (by simp) (by simpa using hshare), vacate_closing (by simpa using hs)] at hexec
      refine ⟨_, hexec, ?_⟩
      by_cases hfault : s.port.state = .faulted <;> simp [hs, hfault, hstop]
end

