-- ==== Sys2Proof/Proofs/SecondEvent.lean ====
section
/-! SUPPORT. The second event (R24, R54, R56, R149). -/

open Sys2Proof Sys2Proof.Machine

namespace Sys2Proof.Machine

theorem stale_iff {s : State} {r : SessionRecord} (hr : s.session.record = some r) :
    s.stale = true ↔ s.session.state = .engaged ∧ 60 ≤ r.age := by
  simp only [State.stale, hr, Bool.and_eq_true, beq_iff_eq, decide_eq_true_eq]
  exact Iff.rfl

/-- The countdowns of a second event that begins no stale condition (R54). -/
theorem countSeconds_of_not_59 {s : State} (h : ∀ r, s.session.record = some r → s.session.state = .engaged → r.age ≠ 59) :
    countSeconds s = { s with session := { s.session with record := s.session.record.map secondTick } } := by
  unfold countSeconds
  cases hr : s.session.record with
  | none =>
    rw [show Option.map secondTick none = s.session.record from hr.symm]
  | some r =>
    dsimp only
    rw [if_neg]
    · rfl
    · rintro ⟨hnow, hbefore⟩
      obtain ⟨hengaged, hage⟩ := (stale_iff rfl).mp hnow
      have hyoung : ¬60 ≤ r.age := fun h => by simp [(stale_iff hr).mpr ⟨hengaged, h⟩] at hbefore
      have hsecond : (secondTick r).age ≤ r.age + 1 := by
        unfold secondTick count
        split <;> simp
      exact h r hr hengaged (by omega)

/-- The countdowns of the second event that begins the stale condition (R56). -/
theorem countSeconds_of_59 {s : State} {r : SessionRecord} (hr : s.session.record = some r) (hs : s.session.state = .engaged)
    (h : r.age = 59) :
    countSeconds s = raise .packStale (cut 0 .stale
      { s with session := { s.session with record := some { r with depart := r.depart - 1, age := 60 } } }) := by
  unfold countSeconds
  simp [hr, State.stale, hs, secondTick, count, h, Config.staleAge]

end Sys2Proof.Machine

/-- Settles O33: the countdowns change the record alone, but where the age goes from 59 to 60 in ENGAGED. -/
theorem secondEventCountsSeconds : Obligations.SecondEventCountsSeconds := by
  refine ⟨fun s hdue hs hage => ?_, fun s r hdue hengaged hr hage => ?_⟩
  · have heq : takeSecond s = { s with
        time := { s.time with secondDue := false }
        session := { s.session with record := s.session.record.map secondTick }
        port := { s.port with link := s.port.link ++ [.meterRead] } } := by
      unfold takeSecond
      rw [countSeconds_of_not_59 (s := { s with time := { s.time with secondDue := false } }) hage]
      rfl
    change execSecondEvent s = _
    unfold execSecondEvent act
    rw [if_pos hdue, settle_of_settled _ _ (by rw [heq]) (by rw [heq]; exact hs), heq]
    rfl
  · have heq : takeSecond s = _ := congrArg requestRead
      (countSeconds_of_59 (s := { s with time := { s.time with secondDue := false } }) hr hengaged hage)
    have hnext : s.staleNext = true := by simp [State.staleNext, hr, hengaged, hage, Config.staleAge]
    refine ⟨act takeSecond s, ?_, ?_, ?_⟩
    · change execStalePackData s = _
      simp [execStalePackData, hdue, hnext]
    · change execSecondEvent s = _
      simp [execSecondEvent, hdue]
    · unfold act
      rw [heq, settle_eq_noteFaults (settled_of_idle (by simp [requestRead]) (by simp [requestRead, hengaged]))]
      refine ⟨by simp [requestRead], ?_, ?_, fun f => ?_, ?_⟩
      · simp [requestRead, State.stale, hengaged, Config.staleAge]
      · simp [requestRead, cut_zero_apply]
      · simp [requestRead, isSet_raise]
      · simp [requestRead]
end

