-- ==== Sys2Proof/Proofs/PortReports.lean ====
section
/-! SUPPORT. What a status report and a link error do in each state of the port (R139 to R146). -/

open Sys2Proof Sys2Proof.Machine

namespace Sys2Proof.Machine

/-! ## Words on the link (R139) -/

@[simp] theorem wordData_linkWord (d : BitVec 16) : wordData (linkWord d) = d := by
  unfold wordData linkWord
  ext i hi
  rw [BitVec.getElem_extractLsb', BitVec.getLsbD_append]
  simp [BitVec.getLsbD_eq_getElem hi]

@[simp] theorem parityHolds_linkWord (d : BitVec 16) : parityHolds (linkWord d) = true := by
  unfold parityHolds
  rw [wordData_linkWord]
  unfold linkWord
  rw [BitVec.getLsbD_append]
  simp

theorem statusOf_linkWord (d : BitVec 16) : statusOf (linkWord d) = ConverterStatus.ofCode d.toNat := by
  simp [statusOf]

/-- A word of bad parity, or of a code that is no converter state, is no status. -/
theorem statusOf_none {reply : LinkWord}
    (h : (reply.extractLsb' 1 16).toNat > 4 ∨ oddParity (reply.extractLsb' 1 16) ≠ reply.getLsbD 0) : statusOf reply = none := by
  unfold statusOf
  by_cases hp : parityHolds reply = true
  · rw [if_pos hp]
    have hcode : (wordData reply).toNat > 4 := h.resolve_right (fun hne => hne (by simpa [parityHolds, wordData] using hp))
    generalize (wordData reply).toNat = n at hcode
    match n, hcode with
    | n + 5, _ => rfl
  · rw [if_neg hp]

/-! ## The end of an action that moved the port alone -/

theorem settled_of_not_disabled {s : State} (h : s.port.state ≠ .disabled) : Settled s :=
  ⟨fun h' => h h'.1, by simp [State.mayVacate, h]⟩

theorem settle_port {s : State} {p : PortUnit} (h : Settled { s with port := p }) :
    settle s { s with port := p } = { s with port := p } :=
  settle_of_settled _ _ rfl h

/-- Where a share is applied, a port that reaches DISABLED goes to ENABLING at once (R141). -/
theorem settle_port_requests {s : State} {p : PortUnit} (hp : p.state = .disabled) (hz : s.apply.share ≠ 0) :
    settle s { s with port := p } = { s with port := { p with state := .enabling, enable := true, enableWait := 0 } } := by
  have henable : requestEnable { s with port := p } =
      { s with port := { p with state := .enabling, enable := true, enableWait := 0 } } := if_pos ⟨hp, hz⟩
  rw [settle, henable, vacate_of_not (by simp [State.mayVacate])]
  exact noteFaults_self { s with port := { p with state := .enabling, enable := true, enableWait := 0 } }

/-! ## A status report by the state of the port (R141, R142, R144 to R146) -/

section
variable {s : State} {st : ConverterStatus}

theorem reportEffect_disabled (h : s.port.state = .disabled) (hst : st ≠ .fault) : reportEffect st s = s := by
  unfold reportEffect
  rw [h]
  cases st with
  | fault => exact absurd rfl hst
  | _ => rfl

theorem reportEffect_enabling_waits (h : s.port.state = .enabling) (hst : st = .off ∨ st = .precharge) : reportEffect st s = s := by
  unfold reportEffect
  rw [h]
  rcases hst with rfl | rfl <;> rfl

theorem reportEffect_enabling_done (h : s.port.state = .enabling) (hst : st = .ready ∨ st = .running) :
    reportEffect st s = { s with port := { s.port with state := .enabled, command := 0, idleCount := 0 } } := by
  unfold reportEffect
  rw [h]
  rcases hst with rfl | rfl <;> rfl

theorem reportEffect_enabled (h : s.port.state = .enabled) (hst : st = .ready ∨ st = .running) : reportEffect st s = s := by
  unfold reportEffect
  rw [h]
  rcases hst with rfl | rfl <;> rfl

theorem reportEffect_dropout (h : s.port.state = .enabled) (hst : st = .off ∨ st = .precharge) :
    reportEffect st s = enterFaulted .dropout s := by
  unfold reportEffect
  rw [h]
  rcases hst with rfl | rfl <;> rfl

theorem reportEffect_disabling_waits (h : s.port.state = .disabling) (hst : st ≠ .off ∧ st ≠ .fault) : reportEffect st s = s := by
  unfold reportEffect
  rw [h]
  cases st with
  | off => exact absurd rfl hst.1
  | fault => exact absurd rfl hst.2
  | _ => rfl

theorem reportEffect_disabling_off (h : s.port.state = .disabling) :
    reportEffect .off s = { s with port := { s.port with state := .disabled } } := by
  unfold reportEffect
  rw [h]

theorem reportEffect_faulted (h : s.port.state = .faulted) (hst : st ≠ .off ∧ st ≠ .fault) :
    reportEffect st s = { s with port := { s.port with offRun := 0 } } := by
  unfold reportEffect
  rw [h]
  cases st with
  | off => exact absurd rfl hst.1
  | fault => exact absurd rfl hst.2
  | _ => rfl

theorem reportEffect_faulted_off (h : s.port.state = .faulted) :
    reportEffect .off s = { s with port :=
      if s.port.offRun + 1 < 10 then { s.port with offRun := s.port.offRun + 1 }
      else { s.port with offRun := 10, state := .disabled } } := by
  unfold reportEffect
  rw [h]
  by_cases hrun : s.port.offRun + 1 < 10
  · refine (if_pos hrun).trans ?_
    rw [if_pos hrun]
  · refine (if_neg hrun).trans ?_
    rw [if_neg hrun]
    rfl

theorem reportEffect_faulted_fault (h : s.port.state = .faulted) :
    reportEffect .fault s = dropCommand { s with port := { s.port with offRun := 0 } } := by
  unfold reportEffect
  rw [h]
  exact if_pos h

theorem reportEffect_fault (h : s.port.state ∈ [PortState.disabled, .enabling, .enabled, .disabling]) :
    reportEffect .fault s = enterFaulted .faultReport s := by
  unfold reportEffect
  simp only [List.mem_cons, List.not_mem_nil, or_false] at h
  rcases h with h | h | h | h <;> rw [h]
end

/-! ## The end of an exchange (R139, R140) -/

section
variable {s : State} {left : List Transaction} {owed : Nat}

/-- The port after a status report is counted. -/
def PortUnit.reported (p : PortUnit) (left : List Transaction) (owed : Nat) (st : ConverterStatus) : PortUnit :=
  { p with link := left, owed := owed, lastStatus := some st, missCount := 0 }

/-- The port after a link error is counted. -/
def PortUnit.missed (p : PortUnit) (left : List Transaction) (owed : Nat) : PortUnit :=
  { p with
    link := left, owed := owed, linkErr := count p.linkErr, missCount := min 3 (p.missCount + 1)
    offRun := if p.state = .faulted then 0 else p.offRun }

theorem takeStatus_of_ends (st : ConverterStatus) (h : ExchangeEnds s.port left owed) :
    takeStatus st s = reportEffect st { s with port := s.port.reported left owed st } := by
  rw [takeStatus_eq, reportCounted, endExchange_of_ends _ _ _ h]
  rfl

theorem takeLinkError_of_ends (h : ExchangeEnds s.port left owed) :
    takeLinkError s = if s.lossNext = true then enterFaulted .linkLoss { s with port := s.port.missed left owed }
      else { s with port := s.port.missed left owed } := by
  have hcounted : errorCounted s = { s with port := s.port.missed left owed } := by
    rw [errorCounted, endExchange_of_ends _ _ _ h]
    simp only [PortUnit.missed, Config.lossCount]
  rw [takeLinkError_eq, hcounted]

theorem takeReply_of_status {reply : LinkWord} {st : ConverterStatus} (hst : statusOf reply = some st) (s : State) :
    takeReply reply s = takeStatus st s := by
  unfold takeReply
  rw [hst]

theorem takeReply_of_error {reply : LinkWord} (hst : statusOf reply = none) : takeReply reply = takeLinkError := by
  funext s
  unfold takeReply
  rw [hst]

theorem exec_statusReport {reply : LinkWord} {st : ConverterStatus} (h : ExchangeEnds s.port left owed)
    (hst : statusOf reply = some st) :
    exec (.statusReport reply) s = .next (settle s (reportEffect st { s with port := s.port.reported left owed st })) := by
  change execStatusReport reply s = _
  rw [execStatusReport, if_pos (exchanging_of_ends _ _ _ h), act, takeReply_of_status hst, takeStatus_of_ends st h]

theorem exec_exchangeLinkError_eq (s : State) : exec .exchangeLinkError s = execExchangeLinkError s := rfl

theorem exec_exchangeLinkError (h : ExchangeEnds s.port left owed) :
    exec .exchangeLinkError s = .next (settle s (if s.lossNext = true then
        enterFaulted .linkLoss { s with port := s.port.missed left owed } else { s with port := s.port.missed left owed })) := by
  rw [exec_exchangeLinkError_eq, execExchangeLinkError, if_pos (exchanging_of_ends _ _ _ h), act, takeLinkError_of_ends h]

theorem exec_linkLoss (h : ExchangeEnds s.port left owed) (hloss : s.lossNext = true) :
    exec .linkLoss s = exec .exchangeLinkError s := by
  rw [exec_exchangeLinkError_eq]
  change execLinkLoss s = _
  simp [execLinkLoss, execExchangeLinkError, hloss, exchanging_of_ends _ _ _ h]

theorem lossNext_iff : s.lossNext = true ↔ 2 ≤ s.port.missCount ∧ ¬(s.port.state = .faulted ∧ 3 ≤ s.port.missCount) := by
  simp [State.lossNext, show Config.lossCount = 3 from rfl, imp_iff_not_or]

theorem statusOf_code {code : Nat} {st : ConverterStatus} (hst : ConverterStatus.ofCode code = some st) (hcode : code < 65536) :
    statusOf (linkWord (BitVec.ofNat 16 code)) = some st := by
  rw [statusOf_linkWord, BitVec.toNat_ofNat, Nat.mod_eq_of_lt hcode, hst]

/-- A report that moves the port alone and leaves nothing outstanding. -/
theorem exec_report_port {code : Nat} {st : ConverterStatus} {p : PortUnit} (h : ExchangeEnds s.port left owed)
    (hst : ConverterStatus.ofCode code = some st) (hcode : code < 65536)
    (heff : reportEffect st { s with port := s.port.reported left owed st } = { s with port := p }) (hp : Settled { s with port := p }) :
    exec (.statusReport (linkWord (BitVec.ofNat 16 code))) s = .next { s with port := p } := by
  rw [exec_statusReport h (statusOf_code hst hcode), heff, settle_port hp]
end

end Sys2Proof.Machine

/-- Settles O51: each report by the state of the port, and the counts of a link error. -/
theorem statusReportMovesThePort : Obligations.StatusReportMovesThePort := by
  intro s left owed h hs
  have hsame (p : PortUnit) (hstate : p.state = s.port.state) (hcommand : p.command = s.port.command) : Settled { s with port := p } :=
    hs.congr hstate hcommand rfl rfl
  refine ⟨fun code st hmem => ?_, fun reply hbad => ?_, ?_⟩
  · obtain ⟨hst, hlt, hnofault, hlow, hmid, hother, hzero, hfour⟩ : ConverterStatus.ofCode code = some st ∧ code < 65536 ∧
        (code ≠ 4 → st ≠ .fault) ∧ (code < 2 → st = .off ∨ st = .precharge) ∧ (code = 2 ∨ code = 3 → st = .ready ∨ st = .running) ∧
        (code ∈ [1, 2, 3] → st ≠ .off ∧ st ≠ .fault) ∧ (code = 0 → st = .off) ∧ (code = 4 → st = .fault) := by
      simp only [List.mem_cons, Prod.mk.injEq, List.not_mem_nil, or_false] at hmem
      rcases hmem with ⟨rfl, rfl⟩ | ⟨rfl, rfl⟩ | ⟨rfl, rfl⟩ | ⟨rfl, rfl⟩ | ⟨rfl, rfl⟩ <;> simp [ConverterStatus.ofCode]
    refine ⟨fun hp hc => ?_, fun hp hc => ?_, fun hp hc => ?_, fun hp hc => ?_, fun hp hc => ?_, fun hp hc hclosing => ?_,
      fun hp hc => ?_, fun hp hc => ?_, fun hp hc hrun => ?_⟩
    · exact exec_report_port h hst hlt (reportEffect_disabled hp (hnofault hc)) (hsame _ rfl rfl)
    · exact exec_report_port h hst hlt (reportEffect_enabling_waits hp (hlow hc)) (hsame _ rfl rfl)
    · exact exec_report_port h hst hlt (reportEffect_enabling_done hp (hmid hc)) (settled_of_not_disabled (by simp))
    · exact exec_report_port h hst hlt (reportEffect_enabled hp (hmid hc)) (hsame _ rfl rfl)
    · exact exec_report_port h hst hlt (reportEffect_disabling_waits hp (hother hc)) (hsame _ rfl rfl)
    · obtain rfl := hzero hc
      have heff := reportEffect_disabling_off (s := { s with port := s.port.reported left owed .off }) hp
      rw [exec_statusReport h (statusOf_code hst hlt)]
      by_cases hz : s.apply.share = 0
      · simp only [hz, if_true]
        refine (congrArg (fun x => Host.Outcome.next (settle s x)) heff).trans (congrArg Host.Outcome.next ?_)
        exact settle_port ⟨fun h' => h'.2 hz, by simp [State.mayVacate, hclosing]⟩
      · simp only [hz, if_false]
        refine (congrArg (fun x => Host.Outcome.next (settle s x)) heff).trans (congrArg Host.Outcome.next ?_)
        exact settle_port_requests rfl hz
    · exact exec_report_port h hst hlt (reportEffect_faulted hp (hother hc)) (hsame _ rfl rfl)
    · obtain rfl := hfour hc
      exact exec_report_port h hst hlt (reportEffect_faulted_fault hp) (settled_of_not_disabled (by simp [hp]))
    · obtain rfl := hzero hc
      refine exec_report_port h hst hlt ((reportEffect_faulted_off (s := { s with port := s.port.reported left owed .off }) hp).trans ?_) (hsame _ rfl rfl)
      rw [if_pos (show (s.port.reported left owed .off).offRun + 1 < 10 from hrun)]
      rfl
  · rw [exec_exchangeLinkError_eq]
    change execStatusReport reply s = _
    simp [execStatusReport, execExchangeLinkError, takeReply_of_error (statusOf_none hbad)]
  · refine ⟨fun hfew => ?_, fun hf hcount => ?_⟩
    · have hloss : ¬s.lossNext = true := by
        rw [lossNext_iff]
        rintro ⟨hmany, hnot⟩
        rcases hfew with hlt | hthree
        · omega
        · exact hnot hthree
      rw [exec_exchangeLinkError h, if_neg hloss]
      exact congrArg Host.Outcome.next (settle_port (hsame (s.port.missed left owed) rfl rfl))
    · have hloss : s.lossNext = true := lossNext_iff.mpr ⟨by omega, by omega⟩
      refine ⟨exec_linkLoss h hloss, ?_⟩
      have hdrop : enterFaulted .linkLoss { s with port := s.port.missed left owed } =
          dropCommand { s with port := s.port.missed left owed } := if_pos hf
      rw [exec_exchangeLinkError h, if_pos hloss, hdrop]
      exact congrArg Host.Outcome.next (settle_port (settled_of_not_disabled (by simp [PortUnit.missed, hf])))
end

