-- ==== Sys2Proof/Proofs/PortFaults.lean ====
section
/-! SUPPORT. Entry into FAULTED for one of the port's own causes, and the way out of it (R52, R53, R61, R146, R148). -/

open Sys2Proof Sys2Proof.Machine

namespace Sys2Proof.Machine

/-! ## Entry into FAULTED (R146, R148) -/

theorem enterStopped_apply (s : State) :
    (enterStopped s).apply = if s.apply.share = 0 then s.apply else { s.apply with share := 0, lastCut := some .stopped } := by
  have h : (enterStopped s).apply = (cut 0 .stopped s).apply := by simp [enterStopped]
  rw [h, cut_zero_apply]

/-- The forced stop of the port's own fault, before the Session Unit takes notice of it (R116, R146, R148). -/
def faultTaken (c : FaultCause) (s : State) : State :=
  let stopped := dropCommand s
  raise .converter (cut 0 .forcedStop
    { stopped with port := { stopped.port with state := .faulted, lastCause := some c, offRun := 0 } })

theorem enterFaulted_eq {s : State} (c : FaultCause) (h : s.port.state ≠ .faulted) :
    enterFaulted c s = if s.session.state = .engaged then enterStopped (faultTaken c s) else faultTaken c s := by
  have hsession : (faultTaken c s).session = s.session := by simp [faultTaken, dropCommand]
  rw [← hsession]
  exact if_neg h

/-- What the port's own fault leaves of the machine. -/
structure FaultEntered (s : State) (c : FaultCause) (t : State) : Prop where
  port : t.port = { s.port with
    state := .faulted, command := 0, enable := false, offRun := 0, lastCause := some c, link := addStop s.port.owed s.port.link }
  apply : t.apply = if s.apply.share = 0 then s.apply else { s.apply with share := 0, lastCut := some .forcedStop }
  flags : ∀ f : Flag, f.isSet t.status.word = (f.isSet s.status.word || decide (f = .converter))
  session : t.session = { s.session with state := if s.session.state = .engaged then .stopped else s.session.state }
  withdrawn : s.session.state = .engaged → t.line.offerSlot = none ∧ t.view = viewWithdrawn s ∧
    (s.line.state ≠ .clash → t.line.withdrawSlot = some
      ⟨⟨0, s.straps.stn, s.straps.site, s.timer.n, .withdraw .stopped⟩, none, false⟩)
  kept : s.session.state ≠ .engaged → t.line = s.line ∧ t.view = s.view
  frame : t.straps = s.straps ∧ t.time = s.time ∧ t.timer = s.timer ∧ t.account = s.account ∧ t.alloc = s.alloc ∧
    t.feeder = s.feeder ∧ t.service = s.service

theorem faultEntered_enterFaulted {s : State} (c : FaultCause) (h : s.port.state ≠ .faulted) :
    FaultEntered s c (enterFaulted c s) := by
  obtain ⟨u, hu, huport, huapply, huword, husame⟩ : ∃ u : State,
      enterFaulted c s = (if s.session.state = .engaged then enterStopped u else u) ∧
      u.port = { s.port with
        state := .faulted, command := 0, enable := false, offRun := 0, lastCause := some c, link := addStop s.port.owed s.port.link } ∧
      u.apply = (if s.apply.share = 0 then s.apply else { s.apply with share := 0, lastCut := some .forcedStop }) ∧
      (∀ f : Flag, f.isSet u.status.word = (f.isSet s.status.word || decide (f = .converter))) ∧
      u.straps = s.straps ∧ u.time = s.time ∧ u.timer = s.timer ∧ u.account = s.account ∧ u.alloc = s.alloc ∧
        u.feeder = s.feeder ∧ u.service = s.service ∧ u.session = s.session ∧ u.line = s.line ∧ u.view = s.view := by
    refine ⟨faultTaken c s, enterFaulted_eq c h, by simp [faultTaken, dropCommand], ?_, fun f => ?_, by simp [faultTaken, dropCommand]⟩
    · unfold faultTaken
      rw [(raise_frame _ _).2.2.2.2.2.2.2.2.1, cut_zero_apply]
      rfl
    · unfold faultTaken
      rw [isSet_raise]
      simp [dropCommand]
  obtain ⟨hstraps, htime, htimer, haccount, halloc, hfeeder, hservice, hsession, hline, hview⟩ := husame
  have hzero : u.apply.share = 0 := by rw [huapply]; split <;> simp_all
  rw [hu]
  by_cases hengaged : s.session.state = .engaged
  · rw [if_pos hengaged]
    obtain ⟨hv, hoffer, hslot, hstatus⟩ := enterStopped_withdraws u
    refine ⟨by simp [huport], by rw [enterStopped_apply, if_pos hzero, huapply], fun f => ?_, by simp [hsession, hengaged],
      fun _ => ⟨hoffer, hv.trans (viewWithdrawn_congr hview (by rw [hline]) hstraps), fun hclash => ?_⟩,
      fun h => absurd hengaged h, by simp [*]⟩
    · rw [hstatus]
      exact huword f
    · rw [hslot, if_neg (by rw [hline]; exact hclash), hstraps, htimer]
  · rw [if_neg hengaged]
    exact ⟨huport, huapply, huword, by simp [hsession, hengaged], fun h => absurd h hengaged, fun _ => ⟨hline, hview⟩, by simp [*]⟩

/-- The end of the action in which the port's fault is taken. -/
theorem FaultEntered.settle {s s₀ t : State} {c : FaultCause} (h : FaultEntered s c t) :
    FaultEntered s c (Machine.settle s₀ t) := by
  rw [settle_eq_noteFaults (settled_of_not_disabled (by simp [h.port]))]
  obtain ⟨h1, h2, h3, h4, h5, h6, h7⟩ := h
  exact ⟨by simpa using h1, by simpa using h2, by simpa using h3, by simpa using h4, by simpa using h5, by simpa using h6,
    by simpa using h7⟩

theorem settle_port_of_zero {s : State} {p : PortUnit} (h : s.apply.share = 0) :
    settle s { s with port := p } = vacate { s with port := p } :=
  settle_of_zero rfl h

theorem vacate_port_closing {s : State} {p : PortUnit} (hs : s.session.state = .closing) (hc : p.command = 0) (hd : p.state = .disabled) :
    vacate { s with port := p } = { s with
      port := p
      session := ⟨.vacant, none, s.session.lastClose⟩
      account := { s.account with account := none }
      status := { s.status with factors := s.status.factors ||| 4#5 } } :=
  (vacate_closing (s := { s with port := p }) hs).trans (if_pos ⟨hc, hd⟩)

end Sys2Proof.Machine

/-- Settles O52: each of the four commands enters FAULTED from a port that has counted its transaction. -/
theorem portFaultEntersFaulted : Obligations.PortFaultEntersFaulted := by
  intro s left owed c k h hstate hcase
  have hrunning : s.port.state ≠ .faulted := by
    simp only [List.mem_cons, List.not_mem_nil, or_false] at hstate
    rcases hstate with hp | hp | hp | hp <;> simp [hp]
  -- Each command enters FAULTED from a state that differs in the port's counts alone.
  obtain ⟨p, hexec, hpstate, hplink, howed⟩ : ∃ p : PortUnit,
      exec c s = .next (settle s (enterFaulted k { s with port := p })) ∧ p.state = s.port.state ∧ p.link = left ∧ p.owed = owed := by
    rcases hcase with ⟨rfl, rfl⟩ | ⟨hc, henabled, rfl⟩ | ⟨hc, hmiss, rfl⟩
    · refine ⟨s.port.reported left owed .fault, ?_, rfl, rfl, rfl⟩
      rw [exec_statusReport h (st := .fault) (statusOf_linkWord 4), reportEffect_fault (by exact hstate)]
    · simp only [List.mem_cons, List.not_mem_nil, or_false] at hc
      rcases hc with rfl | rfl
      · refine ⟨s.port.reported left owed .off, ?_, rfl, rfl, rfl⟩
        rw [exec_statusReport h (st := .off) (statusOf_linkWord 0), reportEffect_dropout (by exact henabled) (.inl rfl)]
      · refine ⟨s.port.reported left owed .precharge, ?_, rfl, rfl, rfl⟩
        rw [exec_statusReport h (st := .precharge) (statusOf_linkWord 1), reportEffect_dropout (by exact henabled) (.inr rfl)]
    · have hloss : s.lossNext = true := lossNext_iff.mpr ⟨hmiss, fun hf => hrunning hf.1⟩
      refine ⟨s.port.missed left owed, ?_, rfl, rfl, rfl⟩
      have herror := exec_exchangeLinkError h
      rw [if_pos hloss] at herror
      simp only [List.mem_cons, List.not_mem_nil, or_false] at hc
      rcases hc with rfl | rfl
      · exact herror
      · rw [exec_linkLoss h hloss, herror]
  have hentered := (faultEntered_enterFaulted (s := { s with port := p }) k (by rw [hpstate]; exact hrunning)).settle (s₀ := s)
  obtain ⟨hport, happly, hflags, hsession, hwithdrawn, hkept, -, htime, htimer, haccount, halloc, hfeeder, hservice⟩ := hentered
  refine ⟨_, hexec, by rw [hport], by rw [hport], by rw [hport], by rw [hport], by rw [hport], by rw [hport, hplink, howed], happly, hflags, hsession,
    fun he hl => (hwithdrawn he).2.2 hl, fun he => ⟨(hwithdrawn he).1, (hwithdrawn he).2.1⟩, hkept, haccount, htimer, halloc, hfeeder,
    hservice, htime⟩

/-- Settles O53: the passage itself, and the two reports after which the port stands DISABLED. -/
theorem closingSessionBecomesVacant : Obligations.ClosingSessionBecomesVacant := by
  refine ⟨fun s hs hcommand hstate => ?_, fun s left owed h hcommand hshare => ⟨fun hf hrun => ?_, fun hd hs => ?_⟩⟩
  · change Host.Outcome.next (vacate s) = _
    rw [vacate_closing hs, if_pos ⟨hcommand, hstate⟩]
  · have hreport := exec_statusReport h (st := .off) (statusOf_linkWord 0)
    rw [(reportEffect_faulted_off (s := { s with port := s.port.reported left owed .off }) hf).trans
      (congrArg (fun p => { s with port := p }) (if_neg (show ¬(s.port.reported left owed .off).offRun + 1 < 10 by
        change ¬s.port.offRun + 1 < 10; omega))), settle_port_of_zero hshare] at hreport
    have hcomplete : exec .offRunComplete s = exec (.statusReport (linkWord 0)) s := by
      change execOffRunComplete s = execStatusReport (linkWord 0) s
      have hten : Config.offRunLength ≤ s.port.offRun + 1 := by change 10 ≤ _; omega
      rw [execOffRunComplete, execStatusReport, if_pos (exchanging_of_ends _ _ _ h), if_pos]
      · exact congrArg Host.Outcome.next (congrArg (settle s) (takeReply_of_status (statusOf_linkWord 0) s).symm)
      · simp [exchanging_of_ends _ _ _ h, hf, hten]
    refine ⟨_, hcomplete.trans hreport, hreport, by simp [PortUnit.reported], fun hs => ?_, fun hs => ?_⟩
    · rw [vacate_of_not (by simp [State.mayVacate, hs])]
    · rw [vacate_port_closing (p := { s.port.reported left owed .off with offRun := 10, state := .disabled }) hs hcommand rfl]
      exact ⟨rfl, rfl, rfl, rfl⟩
  · have hreport := exec_statusReport h (st := .off) (statusOf_linkWord 0)
    rw [reportEffect_disabling_off (s := { s with port := s.port.reported left owed .off }) hd, settle_port_of_zero hshare] at hreport
    refine ⟨_, hreport, by simp, ?_⟩
    rw [vacate_port_closing (p := { s.port.reported left owed .off with state := .disabled }) hs hcommand rfl]
    exact ⟨rfl, rfl, rfl, rfl⟩
end

