-- ==== Sys2Proof/Proofs/Meter.lean ====
section
/-! SUPPORT. What a meter read that ends in a discard or in a good sample does (R149 to R153). -/

open Sys2Proof Sys2Proof.Machine

namespace Sys2Proof.Machine

/-- A cut to 0 (R116). -/
theorem cut_zero_eq (c : Cut) (s : State) :
    cut 0 c s = { s with apply := if s.apply.share = 0 then s.apply else { s.apply with share := 0, lastCut := some c } } := by
  rw [← cut_zero_apply]
  unfold cut
  split <;> rfl

/-- The capture at the end of an action changes the Status Unit alone. -/
theorem noteFaults_eq_status (w : BitVec 14) (s : State) : noteFaults w s = { s with status := (noteFaults w s).status } := by
  unfold noteFaults
  split
  · rfl
  · unfold capture
    split <;> rfl

section
variable {s : State} {rest : List Transaction}

theorem metering_of_link (h : s.port.link = .meterRead :: rest) : s.metering = true := by simp [State.metering, h]

/-! ## Discards (R149, R152) -/

/-- The port after a discarded sample is counted. -/
def PortUnit.discarded (p : PortUnit) (rest : List Transaction) : PortUnit :=
  { p with
    link := rest, owed := p.owed - 1, linkErr := count p.linkErr, lastSample := some .discarded, discards := min 3 (p.discards + 1) }

theorem takeDiscard_eq (h : s.port.link = .meterRead :: rest) :
    takeDiscard s = if 2 ≤ s.port.discards ∧ s.port.meterLost = false then beginLoss { s with port := s.port.discarded rest }
      else { s with port := s.port.discarded rest } := by
  have hend : endTransaction s = { s with port := { s.port with link := rest, owed := s.port.owed - 1 } } := by
    simp [endTransaction, h]
  have hthird : min 3 (s.port.discards + 1) = 3 ↔ 2 ≤ s.port.discards := by omega
  unfold takeDiscard discardSample
  rw [hend]
  simp only [Config.lossCount, hthird]
  rfl

theorem exec_meterDiscard (h : s.port.link = .meterRead :: rest) : exec .meterDiscard s = .next (act takeDiscard s) := by
  change execMeterDiscard s = _
  rw [execMeterDiscard, if_pos (metering_of_link h)]

/-- What the third discard in a row leaves (R116, R129, R152). -/
theorem beginLoss_eq (s : State) :
    beginLoss s = { s with
      port := { s.port with meterLost := true, reference := none }
      apply := if s.apply.share = 0 then s.apply else { s.apply with share := 0, lastCut := some .meterLost }
      status := { s.status with word := s.status.word ||| BitVec.twoPow 14 Flag.meter.position }
      feeder := if s.straps.role = .feeder then { s.feeder with lossMark := true } else s.feeder } := by
  unfold beginLoss
  simp only [cut_zero_eq]
  cases hr : s.straps.role with
  | charger => simp [raise, hr]
  | feeder => simp [raise, hr]

end

end Sys2Proof.Machine

/-- Settles O55: the counts, and at the third discard in a row the loss. -/
theorem thirdDiscardLosesTheMeter : Obligations.ThirdDiscardLosesTheMeter := by
  intro s rest h hs
  refine ⟨fun a b c d hbad => ?_, fun hfew => ?_, fun hmany hlost => ?_⟩
  · have hparity : (parityHolds a && parityHolds b && parityHolds c && parityHolds d) = false := by
      obtain ⟨w, hw, hne⟩ := hbad
      have hfalse : parityHolds w = false := by simpa [parityHolds, wordData] using hne
      simp only [List.mem_cons, List.not_mem_nil, or_false] at hw
      rcases hw with rfl | rfl | rfl | rfl <;> simp [hfalse]
    have htake : takeSample a b c d = takeDiscard := by
      funext x
      simp [takeSample, hparity]
    change execMeterSample a b c d s = execMeterDiscard s
    rw [execMeterSample, execMeterDiscard, htake]
  · rw [exec_meterDiscard h, act, takeDiscard_eq h, if_neg (by rintro ⟨h2, hl⟩; exact hfew.elim (by omega) (by simp [hl]))]
    exact congrArg Host.Outcome.next (settle_port (hs.congr rfl rfl rfl rfl))
  · have hloss : exec .meterLoss s = exec .meterDiscard s := by
      change execMeterLoss s = execMeterDiscard s
      have hthree : Config.lossCount ≤ s.port.discards + 1 := by change 3 ≤ _; omega
      simp [execMeterLoss, execMeterDiscard, metering_of_link h, hthree, hlost]
    have hexec := exec_meterDiscard h
    rw [act, takeDiscard_eq h, if_pos ⟨hmany, hlost⟩] at hexec
    have hzero : (beginLoss { s with port := s.port.discarded rest }).apply.share = 0 := by
      rw [beginLoss_eq]; dsimp only; split <;> simp_all
    have hsettled : Settled (beginLoss { s with port := s.port.discarded rest }) :=
      ⟨fun h' => h'.2 hzero, by rw [beginLoss_eq]; exact hs.2⟩
    rw [settle_eq_noteFaults hsettled] at hexec
    refine ⟨_, hexec, hloss.trans hexec, ?_, ?_, fun f => ?_, ?_, ?_⟩
    · simp [beginLoss_eq, PortUnit.discarded]
    · simp [beginLoss_eq]
    · rw [noteFaults_word, beginLoss_eq]
      exact isSet_raise .meter f s
    · simp [beginLoss_eq]
    · rw [noteFaults_eq_status, beginLoss_eq]
end

