-- ==== Sys2Proof/Proofs/MeterSamples.lean ====
section
/-! SUPPORT. A good meter sample (R66, R71, R75, R129, R150, R151, R153). -/

open Sys2Proof Sys2Proof.Machine

namespace Sys2Proof.Machine

/-! ## The end of a composition does not depend on the port (R79, R80) -/

theorem tellDrop_port (q : Queued) (s : State) (p : PortUnit) :
    tellDrop q { s with port := p } = { tellDrop q s with port := p } := by
  unfold tellDrop offerFate goalDropped
  (repeat' split) <;> rfl

theorem queueFrame_port (k : Slot) (q : Queued) (s : State) (p : PortUnit) :
    queueFrame k q { s with port := p } = { queueFrame k q s with port := p } := by
  unfold queueFrame
  dsimp only
  split
  · exact tellDrop_port q { s with line := { s.line with txDropped := count s.line.txDropped } } p
  · split <;> rfl

theorem endOffer_port (s : State) (p : PortUnit) : endOffer { s with port := p } = { endOffer s with port := p } := by
  unfold endOffer endOfferWith
  dsimp only
  split
  · rename_i comp _
    split
    · rename_i v _
      exact queueFrame_port _ _ { s with view := { s.view with composing := none, record := offerRecordOf comp.interval v } } p
    · rfl
  · rfl

theorem queueFrame_composing (k : Slot) (q : Queued) (s : State) : (queueFrame k q s).view.composing = s.view.composing := by
  unfold queueFrame tellDrop offerFate goalDropped
  (repeat' split) <;> rfl

theorem endOffer_composing (s : State) : (endOffer s).view.composing = none := by
  unfold endOffer
  split
  · unfold endOfferWith
    split
    · exact queueFrame_composing _ _ _
    · rfl
  · assumption

theorem endOffer_of_none {s : State} (h : s.view.composing = none) : endOffer s = s := by
  unfold endOffer
  rw [h]

/-! ## Integration (R66, R71, R75) -/

theorem reserveCheck_eq (s : State) :
    reserveCheck s = if s.atReserve = true ∧ 0 < s.apply.share then { s with
        apply := { s.apply with share := 0, lastCut := some .reserve }
        status := { s.status with word := s.status.word ||| BitVec.twoPow 14 Flag.reserve.position } }
      else s := by
  unfold reserveCheck
  by_cases h : s.atReserve = true ∧ 0 < s.apply.share
  · rw [if_pos h, if_pos h, cut_zero_eq, if_neg h.2.ne']
    rfl
  · rw [if_neg h, if_neg h]

/-- The balance after increments, clamped once (R66). -/
def integrated (r : SessionRecord) (x : Account) (dx dm : Nat) : Nat := clampNat (10 * r.capacity) ((x.balance : Int) + dm - dx)

theorem integrated_eq (r : SessionRecord) (x : Account) (dx dm : Nat) :
    (integrated r x dx dm : Int) = max 0 (min (10 * (r.capacity : Int)) ((x.balance : Int) + dm - dx)) := by
  unfold integrated clampNat
  split
  · omega
  · split <;> omega

section
variable {s : State} {rest : List Transaction} {a b c d : BitVec 16}

theorem exec_meterSample (h : s.port.link = .meterRead :: rest) :
    exec (.meterSample (linkWord a) (linkWord b) (linkWord c) (linkWord d)) s = .next (settle s (goodSample ⟨a ++ b, c ++ d⟩
      { s with port := { s.port with link := rest, owed := s.port.owed - 1 } })) := by
  have hend : endTransaction s = { s with port := { s.port with link := rest, owed := s.port.owed - 1 } } := by
    simp [endTransaction, h]
  have htake : takeSample (linkWord a) (linkWord b) (linkWord c) (linkWord d) s =
      goodSample ⟨a ++ b, c ++ d⟩ { s with port := { s.port with link := rest, owed := s.port.owed - 1 } } := by
    simp [takeSample, hend]
  change execMeterSample _ _ _ _ s = _
  rw [execMeterSample, if_pos (metering_of_link h), act, htake]

theorem endLoss_of_not_lost (h : s.port.meterLost = false) : endLoss s = s := by
  unfold endLoss
  rw [h]
  rfl

theorem rating_endOffer (hrole : s.straps.role = .charger) : (endOffer s).rating = s.rating := by
  unfold State.rating
  rw [(endOffer_frame s).1, hrole]
  simp

theorem goodSample_first {reading : MeterReading} (h : s.port.reference = none) :
    goodSample reading s = { s with
      port := { s.port with reference := some reading, discards := 0, lastSample := some .first, meterLost := false }
      account := if s.port.meterLost = true ∧ s.straps.role = .charger then
          { s.account with account := s.account.account.map fun x => { x with resyncPending := true } }
        else s.account } := by
  unfold goodSample
  rw [h]
  dsimp only
  unfold endLoss markResync
  cases hl : s.port.meterLost with
  | false => simp
  | true =>
    cases hr : s.straps.role with
    | charger => simp only [if_true]; rw [hr]; rfl
    | feeder => simp only [if_true]; rw [hr]; rfl

/-- The port after increments are taken. -/
def PortUnit.sampled (p : PortUnit) (rest : List Transaction) (reading : MeterReading) (dx dm : Nat) : PortUnit :=
  { p with
    link := rest, owed := p.owed - 1, reference := some reading, discards := 0, lastDx := dx, lastDm := dm }

theorem goodSample_next {reading ref : MeterReading} (h : s.port.reference = some ref) (hl : s.port.meterLost = false) :
    goodSample reading { s with port := { s.port with link := rest, owed := s.port.owed - 1 } } =
      (let dx := (reading.exported - ref.exported).toNat
       let dm := (reading.imported - ref.imported).toNat
       let p := s.port.sampled rest reading dx dm
       if s.rating * 5 / 9 + 10 < dx ∨ s.rating * 5 / 9 + 10 < dm then
          { s with port := { p with lastSample := some .jump, meterJump := count p.meterJump } }
        else handIncrements dx dm { s with port := { p with lastSample := some .good } }) := by
  unfold goodSample
  dsimp only
  rw [h]
  dsimp only
  rw [endLoss_of_not_lost (by exact hl)]
  rfl
/-- A plausible sample on a CHARGER: the composition in flight ends, then the increments are integrated (R66, R80, R150). -/
theorem exec_meterSample_charger {ref : MeterReading} (h : s.port.link = .meterRead :: rest) (href : s.port.reference = some ref)
    (hl : s.port.meterLost = false) (hrole : s.straps.role = .charger)
    (hx : ((a ++ b : BitVec 32) - ref.exported).toNat ≤ s.rating * 5 / 9 + 10)
    (hm : ((c ++ d : BitVec 32) - ref.imported).toNat ≤ s.rating * 5 / 9 + 10) :
    exec (.meterSample (linkWord a) (linkWord b) (linkWord c) (linkWord d)) s = .next (settle s
      (integrate ((a ++ b : BitVec 32) - ref.exported).toNat ((c ++ d : BitVec 32) - ref.imported).toNat { endOffer s with
        port := { s.port.sampled rest ⟨a ++ b, c ++ d⟩ ((a ++ b : BitVec 32) - ref.exported).toNat
          ((c ++ d : BitVec 32) - ref.imported).toNat with lastSample := some .good } })) := by
  rw [exec_meterSample h, goodSample_next href hl]
  dsimp only
  rw [if_neg (by omega)]
  unfold handIncrements
  dsimp only
  rw [hrole]
  dsimp only
  rw [endOffer_port]

/-- Integration without a record changes nothing (R75). -/
theorem integrate_no_record {dx dm : Nat} (hr : s.session.record = none) : integrate dx dm s = s := by
  unfold integrate
  rw [hr]

/-- Integration without an account gathers the totals alone (R64, R75). -/
theorem integrate_no_account {dx dm : Nat} (hr : s.session.record.isSome = true) (ha : s.account.account = none) :
    integrate dx dm s = { s with account := { s.account with
      exportTotal := s.account.exportTotal + dx, importTotal := s.account.importTotal + dm } } := by
  obtain ⟨r, hr⟩ := Option.isSome_iff_exists.mp hr
  unfold integrate
  rw [hr]
  dsimp only
  rw [ha]

/-- Integration with an account: the balance, the totals, and the reserve check (R66, R71, R75). -/
theorem integrate_account {dx dm : Nat} {r : SessionRecord} {x : Account} (hr : s.session.record = some r)
    (ha : s.account.account = some x) :
    integrate dx dm s = reserveCheck { s with account := { s.account with
      account := some { x with balance := integrated r x dx dm }
      exportTotal := s.account.exportTotal + dx, importTotal := s.account.importTotal + dm } } := by
  unfold integrate
  rw [hr]
  dsimp only
  rw [ha]
  rfl

/-- The account after increments (R66, R75). -/
def AccountUnit.gathered (u : AccountUnit) (r : SessionRecord) (x : Account) (dx dm : Nat) : AccountUnit :=
  { u with
    account := some { x with balance := integrated r x dx dm }
    exportTotal := u.exportTotal + dx, importTotal := u.importTotal + dm }

/-- The action of an integration with an account (R66, R71, R75, R116). -/
theorem settle_integrate {dx dm : Nat} {r : SessionRecord} {x : Account} {p : PortUnit} (hs : Settled s)
    (hstate : p.state = s.port.state) (hcommand : p.command = s.port.command) (hr : s.session.record = some r)
    (ha : s.account.account = some x) :
    ∃ t, settle s (integrate dx dm { s with port := p }) = t ∧ t.port = p ∧ t.account = s.account.gathered r x dx dm ∧
      (integrated r x dx dm / 10 ≤ eRes r ∧ 0 < s.apply.share → t.apply = { s.apply with share := 0, lastCut := some .reserve } ∧
        ∀ f : Flag, f.isSet t.status.word = (f.isSet s.status.word || decide (f = .reserve))) ∧
      (eRes r < integrated r x dx dm / 10 ∨ s.apply.share ≤ 0 → t.apply = s.apply ∧ t.status = s.status) ∧
      t = { s with port := t.port, account := t.account, apply := t.apply, status := t.status } := by
  generalize hu : ({ s with port := p, account := s.account.gathered r x dx dm } : State) = u
  have hcheck : integrate dx dm { s with port := p } = reserveCheck u := (integrate_account (s := { s with port := p }) hr ha).trans (congrArg reserveCheck hu)
  have hreserve : u.atReserve = true ↔ integrated r x dx dm / 10 ≤ eRes r := by
    subst hu
    simp only [State.atReserve, hr, Account.eNow, AccountUnit.gathered]
    exact decide_eq_true_iff
  have hsettled : Settled u := hs.congr (by subst hu; exact hstate) (by subst hu; exact hcommand) (by subst hu; rfl) (by subst hu; rfl)
  rw [hcheck, reserveCheck_eq]
  by_cases h : integrated r x dx dm / 10 ≤ eRes r ∧ 0 < s.apply.share
  · have hcut (st : StatusUnit) :
        Settled { u with apply := { u.apply with share := 0, lastCut := some .reserve }, status := st } :=
      ⟨fun h' => h'.2 rfl, hsettled.2⟩
    rw [if_pos ⟨hreserve.mpr h.1, by subst hu; exact h.2⟩, settle_eq_noteFaults (hcut _)]
    refine ⟨_, rfl, by subst hu; simp, by subst hu; simp, fun _ => ⟨by subst hu; simp, fun f => ?_⟩, fun h' => by omega, ?_⟩
    · rw [noteFaults_word]
      subst hu
      exact isSet_raise .reserve f s
    · rw [noteFaults_eq_status]
      subst hu
      rfl
  · rw [if_neg (fun h' => h ⟨hreserve.mp h'.1, by subst hu; exact h'.2⟩), settle_of_settled s u (by subst hu; rfl) hsettled]
    subst hu
    exact ⟨_, rfl, rfl, rfl, fun h' => absurd h' h, fun _ => ⟨rfl, rfl⟩, rfl⟩
end

end Sys2Proof.Machine

/-- Settles O54: the first sample, the jump, and the increments by role, record and account. -/
theorem meterSampleIntegrates : Obligations.MeterSampleIntegrates := by
  intro s rest a b c d h hs
  have hexec := exec_meterSample (a := a) (b := b) (c := c) (d := d) h
  have hsame (u : State) (hword : u.status.word = s.status.word) (hst : u.port.state = s.port.state)
      (hc : u.port.command = s.port.command) (hsh : u.apply.share = s.apply.share) (hse : u.session.state = s.session.state) :
      settle s u = u := settle_of_settled _ _ hword (hs.congr hst hc hsh hse)
  refine ⟨fun href => ?_, fun ref href hlost => ?_⟩
  · rw [hexec, goodSample_first (by exact href)]
    refine congrArg Host.Outcome.next (hsame _ ?_ ?_ ?_ ?_ ?_) <;> rfl
  rw [goodSample_next href hlost] at hexec
  dsimp only at hexec ⊢
  generalize hdx : ((a ++ b : BitVec 32) - ref.exported).toNat = dx at *
  generalize hdm : ((c ++ d : BitVec 32) - ref.imported).toNat = dm at *
  refine ⟨fun hjump => ?_, fun hx hm hrole => ?_, fun s' hx hm hrole hend => ?_, fun hx hm hrole hv hr => ?_,
    fun hx hm hrole hv hr ha => ?_, fun r x hx hm hrole hv hr ha => ?_⟩
  · rw [hexec, if_pos hjump]
    refine congrArg Host.Outcome.next (hsame _ ?_ ?_ ?_ ?_ ?_) <;> rfl
  · rw [hexec, if_neg (by omega)]
    unfold handIncrements
    rw [show ({ s with port := { s.port.sampled rest ⟨a ++ b, c ++ d⟩ dx dm with lastSample := some .good } } : State).straps.role =
      .feeder from hrole]
    dsimp only
    refine congrArg Host.Outcome.next (hsame _ ?_ ?_ ?_ ?_ ?_) <;> rfl
  · obtain rfl : endOffer s = s' := by injection hend
    have hword (u : State) : settle (endOffer s) u = settle s u := by unfold settle; simp
    subst hdx hdm
    refine ⟨endOffer_composing s, ?_⟩
    rw [exec_meterSample_charger h href hlost hrole hx hm,
      exec_meterSample_charger (s := endOffer s) (rest := rest) (by simpa using h) (by simpa using href) (by simpa using hlost)
        (by simpa using hrole) (by simpa only [rating_endOffer hrole] using hx) (by simpa only [rating_endOffer hrole] using hm),
      endOffer_of_none (endOffer_composing s), hword]
    simp
  · subst hdx hdm
    rw [exec_meterSample_charger h href hlost hrole hx hm, endOffer_of_none hv, integrate_no_record (by exact hr)]
    refine congrArg Host.Outcome.next (hsame _ ?_ ?_ ?_ ?_ ?_) <;> rfl
  · subst hdx hdm
    rw [exec_meterSample_charger h href hlost hrole hx hm, endOffer_of_none hv, integrate_no_account (by exact hr) (by exact ha)]
    refine congrArg Host.Outcome.next (hsame _ ?_ ?_ ?_ ?_ ?_) <;> rfl
  · subst hdx hdm
    rw [exec_meterSample_charger h href hlost hrole hx hm, endOffer_of_none hv]
    obtain ⟨t, ht, hport, haccount, hreserve, habove, hrest⟩ := settle_integrate (dx := ((a ++ b : BitVec 32) - ref.exported).toNat)
      (dm := ((c ++ d : BitVec 32) - ref.imported).toNat) (p := { s.port.sampled rest ⟨a ++ b, c ++ d⟩
        ((a ++ b : BitVec 32) - ref.exported).toNat ((c ++ d : BitVec 32) - ref.imported).toNat with lastSample := some .good })
      hs rfl rfl hr ha
    exact ⟨t, _, congrArg Host.Outcome.next ht, hport, haccount, integrated_eq _ _ _ _, hreserve, habove, hrest⟩
end

