-- ==== Sys2Proof/Proofs/Transactions.lean ====
section
/-! SUPPORT. Transactions of the service port: select low, the judgement of a POST and the moments of a VIEW read
(R165, R166, R168, R169). -/

open Sys2Proof Sys2Proof.Machine

namespace Sys2Proof.Machine

/-! ## Select low and high (R165, R166) -/

theorem readyHead_congr {s t : State} (hf : t.service.fifo = s.service.fifo) (hv : t.view = s.view) (hu : t.feeder = s.feeder) :
    t.readyHead = s.readyHead := by
  have hwaits (kind : PostKind) : kind.waits t = kind.waits s := by cases kind <;> simp [PostKind.waits, hv, hu]
  unfold State.readyHead
  simp only [hf, hwaits]

theorem flushPosts_of_none {s : State} (h : s.readyHead = none) : flushPosts s = s := by
  have happly : applyReady s = s := by unfold applyReady; rw [h]
  rw [flushPosts, happly, happly]

/-- The machine while select is low, with what it has clocked out. -/
def State.clocked (s : State) (out : List Byte) : State := { s with service := { s.service with select := .low, out := out } }

/-- What has been clocked out once select is low: the port status byte, where it was high (R166). -/
def State.firstOut (s : State) : List Byte := if s.service.select = .high then [portStatus s] else s.service.out

theorem selectLow_eq {s : State} (hi : s.service.select ≠ .ignored) (hw : s.service.window = none) (hr : s.readyHead = none) :
    selectLow s = s.clocked s.firstOut := by
  unfold selectLow
  cases hs : s.service.select with
  | high =>
    dsimp only
    rw [flushPosts_of_none hr, State.clocked, State.firstOut, if_pos hs, ← hw]
  | low =>
    dsimp only
    rw [State.clocked, State.firstOut, if_neg (by simp [hs]), ← hs]
  | ignored => exact absurd hs hi

theorem transact_run {fits : List Byte → Bool} {body : List Byte → Fin 8 → State → State} {s : State} {bytes : List Byte} {spare : Fin 8}
    (hi : s.service.select ≠ .ignored) (hw : s.service.window = none) (hr : s.readyHead = none) (hfits : fits bytes = true) :
    transact (.run bytes spare) fits body s = selectHigh (body bytes spare (s.clocked s.firstOut)) := by
  rw [← selectLow_eq hi hw hr]
  unfold transact
  dsimp only
  rw [if_pos (by simp [hfits, hw])]
  cases hs : s.service.select with
  | high => rfl
  | low => rfl
  | ignored => exact absurd hs hi

/-! ## Posting (R169, R173) -/

theorem postOf_eq (code : Nat) :
    (code < 16 ∨ 26 < code → postOf code = none) ∧
      (¬(code < 16 ∨ 26 < code) → ∃ kind, postOf code = some (kind, [15, 7, 6, 1, 0, 0, 5, 2, 1, 2, 0].getD (code - 16) 0)) := by
  refine ⟨fun h => ?_, fun h => ?_⟩
  · unfold postOf
    split <;> first | omega | rfl
  · obtain ⟨k, hk, rfl⟩ : ∃ k, k ≤ 10 ∧ code = k + 16 := ⟨code - 16, by omega, by omega⟩
    interval_cases k <;> exact ⟨_, rfl⟩

end Sys2Proof.Machine

/-- Settles O56: the judgement in the state at select low, no head being applied before it. -/
theorem postIsJudgedAtSelectHigh : Obligations.PostIsJudgedAtSelectHigh := by
  intro s access body spare hkind hi hw hr
  have hfirst : portStatus s = BitVec.ofNat 8 (64 * (2 - s.service.fifo.length) + 16 * s.service.acceptance.code +
      if s.noticeLine then 8 else 0) := rfl
  refine ⟨?_, fun hhigh => ?_⟩
  · change Host.Outcome.next (transact (.run (access :: body) spare) posts postBody s) = _
    rw [transact_run hi hw hr (by simpa [posts, accessKind] using hkind), postBody]
    dsimp only
    rw [flushPosts_of_none (by exact hr), ← hfirst]
    have hverdict : judgePost (access :: body) spare (clockOut (List.replicate ((access :: body).length - 1) 0) (s.clocked s.firstOut)) =
        (if access.toNat % 32 < 16 ∨ 26 < access.toNat % 32 then .refusedCode
        else if body.length ≠ [15, 7, 6, 1, 0, 0, 5, 2, 1, 2, 0].getD (access.toNat % 32 - 16) 0 ∨ spare ≠ 0 then .refusedLength
        else if 2 ≤ s.service.fifo.length then .refusedFull
        else .accepted) := by
      unfold judgePost accessCode
      dsimp only
      by_cases hcode : access.toNat % 32 < 16 ∨ 26 < access.toNat % 32
      · rw [if_pos hcode, (postOf_eq _).1 hcode]
      · rw [if_neg hcode]
        obtain ⟨kind, hpost⟩ := (postOf_eq _).2 hcode
        rw [hpost]
        rfl
    rw [hverdict]
    simp [selectHigh, clockOut, State.clocked, State.firstOut, postIn, accessCode, hw]
  · change Host.Outcome.next (selectLow s) = _
    rw [selectLow_eq hi hw hr, State.clocked, State.firstOut, if_pos hhigh, hfirst]
end

