-- ==== Sys2Proof/Proofs/Reading.lean ====
section
/-! SUPPORT. What the reads clock out: the records by their byte tables, and VIEW by its moments (R161, R167, R168, R173, R174). -/

open Sys2Proof Sys2Proof.Machine

namespace Sys2Proof.Machine

theorem natBytes_one (v : Nat) : natBytes 1 v = [BitVec.ofNat 8 v] := by simp [natBytes]

/-! ## VIEW (R168, R174) -/

theorem viewWindow_eq (first number : Byte) :
    viewWindow first number = ⟨min 63 first.toNat, min (max 1 number.toNat) (64 - min 63 first.toNat)⟩ := by
  have hcount : (if number = 0 then 1 else number.toNat) = max 1 number.toNat := by
    by_cases h : number = 0
    · simp [h]
    · have hpos : number.toNat ≠ 0 := fun h0 => h (BitVec.eq_of_toNat_eq h0)
      rw [if_neg h]
      omega
  unfold viewWindow
  simp only [hcount]

theorem viewEntry_eq (e : Option Entry) :
    viewEntry e = (match e with
      | some e =>
        [BitVec.ofNat 8 e.station,
          (match e.origin with | .heard => (0 : Byte) | .own => 1) + (match e.share with | none => 0 | some _ => 2)] ++
          (natBytes 3 e.values.wx ++ natBytes 2 e.values.cx ++ natBytes 3 e.values.wm ++ natBytes 2 e.values.cm) ++
          (match e.share with | some x => natBytes 2 (x % 65536).toNat | none => [0, 0])
      | none => 255 :: List.replicate 13 0) := by
  cases e with
  | none => rfl
  | some e =>
    unfold viewEntry stationByte offerBytes intBytes
    dsimp only
    rw [natBytes_one, natBytes_one]
    cases e.origin <;> cases e.share <;> rfl

/-! ## The bytes of a read (R165, R167) -/

/-- The records do not show the select line or what is clocked out. -/
theorem recordOf_clocked (code : Nat) (s : State) (out : List Byte) : recordOf code (s.clocked out) = recordOf code s := by
  unfold recordOf
  split <;> rfl

/-- What a transaction clocks out of an access (R165). -/
theorem supply_eq (n : Nat) (record : List Byte) :
    supply n (0 :: record) = (0 :: record).take n ++ List.replicate (n - (record.length + 1)) 0 := rfl

theorem supply_none (n : Nat) : supply n [0] = List.replicate n 0 := by
  cases n <;> simp [supply, List.replicate_succ]

/-! ## The byte tables (R173, R174) -/

theorem sessionRecord_eq (s : State) : sessionRecord s = sessionBytes s := by
  have hstate : [sessionStateByte s.session.state] = natBytes 1 s.session.state.code := by cases s.session.state <;> rfl
  have hbits (a b c : Bool) : natBytes 1 (packBits [a, b, c]) =
      [(if a = true then (1 : Byte) else 0) ||| (if b = true then 2 else 0) ||| (if c = true then 4 else 0)] := by
    cases a <;> cases b <;> cases c <;> rfl
  have hclose : natBytes 1 (closeCode s.session.lastClose) = [(match s.session.lastClose with
      | none => (0 : Byte) | some .unplugged => 1 | some .departNow => 2 | some .hostAbort => 3)] := by
    cases s.session.lastClose with
    | none => rfl
    | some reason => cases reason <;> rfl
  unfold sessionRecord sessionBytes
  rw [hbits, hclose, ← hstate]
  cases hr : s.session.record with
  | none => simp [SessionUnit.pack, sessionFields, packFields, State.paused, State.stale, hr, natBytes] <;> rfl
  | some r =>
    have hstale : s.stale = true ↔ s.session.state = .engaged ∧ 60 ≤ r.age := stale_iff hr
    cases hp : r.pack with
    | none => simp [SessionUnit.pack, sessionFields, packFields, State.paused, hr, hp, hstale] <;> rfl
    | some p =>
      have hpack : natBytes 1 p.state.code = [(match p.state with | .normal => (0 : Byte) | .derated => 1 | .stopped => 2)] := by
        cases p.state <;> rfl
      simp [SessionUnit.pack, sessionFields, packFields, State.paused, hr, hp, hstale, hpack] <;> exact ⟨rfl, rfl⟩

theorem resultRecord_eq (s : State) : resultRecord s = resultBytes s := by
  have hengine : natBytes 1 s.alloc.engine.code = [(match s.alloc.engine with
      | .idle => (0 : Byte) | .computing _ _ => 1 | .ready _ => 2)] := by
    rw [natBytes_one]
    cases s.alloc.engine <;> rfl
  have hmode : natBytes 1 s.alloc.result.mode.code = [(match s.alloc.result.mode with
      | .idle => (0 : Byte) | .exporting => 1 | .importing => 2)] := by
    cases s.alloc.result.mode <;> rfl
  have hsource : stationByte s.alloc.result.source = [(match s.alloc.result.source with
      | some station => BitVec.ofNat 8 station | none => (255 : Byte))] := by
    unfold stationByte
    rw [natBytes_one]
    cases s.alloc.result.source <;> rfl
  have hflags (a b c d : Bool) : natBytes 1 (packBits [a, b, c, d]) =
      [(if a = true then (1 : Byte) else 0) ||| (if b = true then 2 else 0) ||| (if c = true then 4 else 0) |||
        (if d = true then 8 else 0)] := by
    cases a <;> cases b <;> cases c <;> cases d <;> rfl
  have houtcome : natBytes 1 s.apply.outcome.code = [(match s.apply.outcome with
      | .noResult => (0 : Byte) | .loaded => 1 | .abandoned => 2 | .discarded => 3 | .notEngaged => 4 | .paused => 5
      | .stale => 6 | .meterLost => 7 | .reserve => 8)] := by
    cases s.apply.outcome <;> rfl
  have hcut : natBytes 1 (cutCode s.apply.lastCut) = [(match s.apply.lastCut with
      | none => (0 : Byte) | some .packClip => 1 | some .reserve => 2 | some .stale => 3 | some .pause => 4 | some .close => 5
      | some .stopped => 6 | some .meterLost => 7 | some .forcedStop => 8)] := by
    cases s.apply.lastCut with
    | none => rfl
    | some c => cases c <;> rfl
  have hbool (b : Bool) : boolByte b = [if b = true then (1 : Byte) else 0] := by cases b <;> rfl
  unfold resultRecord resultBytes
  simp only [hengine, hmode, hsource, hflags, houtcome, hcut, hbool, natBytes_one]
  simp only [List.append_assoc, List.cons_append, List.nil_append]
  rfl

/-- The status word in two bytes, with ANY above it (R156, R174). -/
theorem statusWord_bytes (w : BitVec 14) :
    natBytes 2 (w.toNat + if w ≠ 0 then 32768 else 0) =
      [(if w = 0 then 0 else 128) ||| (w.extractLsb' 8 6).setWidth 8, w.setWidth 8] := by
  have hw : w.toNat < 16384 := w.isLt
  have hor (x : BitVec 6) : ((128 : Byte) ||| x.setWidth 8) = BitVec.ofNat 8 (x.toNat + 128) := by revert x; decide
  have hhigh : (w.extractLsb' 8 6).toNat = w.toNat / 256 := by
    rw [BitVec.extractLsb'_toNat, Nat.shiftRight_eq_div_pow]
    omega
  have hlow : BitVec.ofNat 8 w.toNat = w.setWidth 8 := by
    apply BitVec.eq_of_toNat_eq
    simp
  by_cases h : w = 0
  · subst h
    rfl
  · simp only [ne_eq, h, not_false_eq_true, if_true, if_false, natBytes]
    have hfirst : BitVec.ofNat 8 ((w.toNat + 32768) / 256 ^ 1) = 128 ||| (w.extractLsb' 8 6).setWidth 8 := by
      rw [hor, hhigh]
      congr 1
      omega
    have hsecond : BitVec.ofNat 8 ((w.toNat + 32768) / 256 ^ 0) = w.setWidth 8 := by
      rw [← hlow]
      apply BitVec.eq_of_toNat_eq
      rw [BitVec.toNat_ofNat, BitVec.toNat_ofNat]
      omega
    rw [hfirst, hsecond]

theorem statusRecord_eq (s : State) : statusRecord s = statusBytes s := by
  have hbool (b : Bool) : boolByte b = [if b = true then (1 : Byte) else 0] := by cases b <;> rfl
  have hfactors (f : BitVec 5) : natBytes 1 f.toNat = [f.setWidth 8] := by
    rw [natBytes_one]
    congr 1
    apply BitVec.eq_of_toNat_eq
    simp
  have hword : natBytes 2 (s.status.word.toNat + if s.status.any then 32768 else 0) =
      [(if s.status.word = 0 then 0 else 128) ||| (s.status.word.extractLsb' 8 6).setWidth 8, s.status.word.setWidth 8] := by
    rw [← statusWord_bytes]
    simp [StatusUnit.any]
  have houtcome : natBytes 1 (outcomeCode s.service.lastOutcome) = [(match s.service.lastOutcome with
      | none => (0 : Byte) | some .applied => 1 | some .clamped => 2 | some .ignoredState => 3 | some .ignoredRole => 4
      | some .rejectedRange => 5)] := by
    cases s.service.lastOutcome with
    | none => rfl
    | some o => cases o <;> rfl
  have hline : boolByte s.noticeLine = [if s.status.factors &&& s.status.enables = 0 then (0 : Byte) else 1] := by
    rw [hbool]
    by_cases h : s.status.factors &&& s.status.enables = 0 <;> simp [State.noticeLine, StatusUnit.lineActive, h]
  have hfirst : boolByte s.status.first.isSome ++ firstFaultFields s.status.first = (match s.status.first with
      | some f => [1, BitVec.ofNat 8 f.flag.position] ++ natBytes 2 f.interval.toNat ++ natBytes 2 f.counter ++
        signedBytes f.share ++ [sessionStateByte f.session]
      | none => List.replicate 9 (0 : Byte)) := by
    have hsession (st : SessionState) : natBytes 1 st.code = [sessionStateByte st] := by cases st <;> rfl
    cases s.status.first with
    | none => rfl
    | some f => simp [firstFaultFields, hbool, hsession, natBytes_one, intBytes, signedBytes]
  unfold statusRecord statusBytes
  rw [hword, hfactors, hfactors, hline, houtcome]
  simp only [List.append_assoc, hfirst]
  rfl

theorem countersRecord_eq (s : State) : countersRecord s = countersBytes s := by
  simp [countersRecord, countersBytes]

theorem identityRecord_eq (s : State) :
    identityRecord s = [1, 156, BitVec.ofNat 8 s.straps.stn, (match s.straps.role with | .charger => 0 | .feeder => 1),
      BitVec.ofNat 8 s.straps.site, BitVec.ofNat 8 s.straps.intv, BitVec.ofNat 8 s.straps.lr] := by
  have hrole : natBytes 1 (Role.code s.straps.role) = [(match s.straps.role with | .charger => (0 : Byte) | .feeder => 1)] := by
    cases s.straps.role <;> rfl
  unfold identityRecord
  rw [hrole]
  simp only [natBytes_one]
  rfl

theorem recordOf_length (s : State) :
    ∀ p ∈ [(2, 27), (7, 31), (8, 15), (9, 30)], (recordOf p.1 s).map List.length = some p.2 := by
  have hsession : (sessionRecord s).length = 27 := by
    unfold sessionRecord sessionFields packFields
    cases s.session.record <;> cases s.session.pack <;> simp
  have hresult : (resultRecord s).length = 31 := by
    unfold resultRecord boolByte stationByte intBytes
    simp only [List.length_append, natBytes_length]
  have hstatus : (statusRecord s).length = 15 := by
    unfold statusRecord firstFaultFields
    cases s.status.first <;> simp [boolByte, intBytes]
  have hcounters : (countersRecord s).length = 30 := by simp [countersRecord]
  intro p hp
  simp only [List.mem_cons, List.not_mem_nil, or_false] at hp
  rcases hp with rfl | rfl | rfl | rfl
  · exact congrArg some hsession
  · exact congrArg some hresult
  · exact congrArg some hstatus
  · exact congrArg some hcounters

theorem recordOf_none {code : Nat} (h : 11 < code) (s : State) : recordOf code s = none := by
  obtain ⟨k, rfl⟩ : ∃ k, code = k + 12 := ⟨code - 12, by omega⟩
  rfl

/-! ## What a read clocks out (R165, R167) -/

section
variable {s : State} {out : List Byte} {access : Byte} {after : List Byte}

theorem readBytes_of_read (hk : access.toNat / 64 < 2) :
    readBytes (access :: after) (s.clocked out) = (0 :: (recordOf (access.toNat % 32) s).getD []).take after.length ++
      List.replicate (after.length - (((recordOf (access.toNat % 32) s).getD []).length + 1)) 0 := by
  unfold readBytes
  dsimp only
  rw [if_pos (by exact hk), recordOf_clocked, supply_eq]
  rfl

theorem readBytes_of_none (hk : access.toNat / 64 = 3) :
    readBytes (access :: after) (s.clocked out) = List.replicate after.length 0 := by
  unfold readBytes
  dsimp only
  rw [if_neg (by simp [accessKind, hk]), supply_none]
end

end Sys2Proof.Machine

/-- Settles O58: the header at once, then entry by entry. -/
theorem viewIsReadEntryByEntry : Obligations.ViewIsReadEntryByEntry := by
  refine ⟨fun s access first number hkind hcode hi hw hr => ⟨?_, fun hhigh => ?_⟩, fun s w hw => ⟨fun hleft => ?_, fun hleft => ?_, rfl⟩⟩
  · change Host.Outcome.next (if _ then _ else _) = _
    rw [if_pos ⟨hi, hw, by simp [readsView, accessKind, accessCode, hkind, hcode]⟩, viewStart, selectLow_eq hi hw hr]
    dsimp only
    rw [viewWindow_eq]
    unfold viewHeader clockOut
    cases hphase : s.view.phase <;> simp [State.clocked, State.firstOut, hphase, natBytes_one, Phase.code]
  · change Host.Outcome.next (selectLow s) = _
    rw [selectLow_eq hi hw hr, State.clocked, State.firstOut, if_pos hhigh]
  · change Host.Outcome.next (viewNext s) = _
    unfold viewNext
    rw [hw]
    dsimp only
    rw [if_neg hleft.ne', viewEntry_eq]
    rfl
  · change Host.Outcome.next (viewNext s) = _
    unfold viewNext
    rw [hw]
    dsimp only
    rw [if_pos hleft]
    rfl

/-- Settles O57: the record as it stands at select low, by its byte table, and the factors a READ_CLEAR of STATUS clears. -/
theorem readsClockOutTheRecord : Obligations.ReadsClockOutTheRecord := by
  intro s access after spare
  refine ⟨fun hi hw hr => ?_, fun hi => ?_, congrArg some (identityRecord_eq s), congrArg some (sessionRecord_eq s),
    congrArg some (resultRecord_eq s), congrArg some (statusRecord_eq s), congrArg some (countersRecord_eq s), recordOf_length s,
    fun code hcode => recordOf_none hcode s⟩
  · have hread (bytes : List Byte) (hfits : readsRecord bytes = true) : exec (.readRecord (.run bytes spare)) s =
        .next { s with service := { s.service with
          select := .high, out := s.firstOut ++ readBytes bytes (s.clocked s.firstOut) } } := by
      change Host.Outcome.next (transact (.run bytes spare) readsRecord readBody s) = _
      rw [transact_run hi hw hr hfits]
      simp [selectHigh, readBody, clockOut, State.clocked, hw]
    refine ⟨fun hk hv hc => ?_, fun hk => ?_, ?_, fun hk hc => ?_⟩
    · rw [hread _ ?_, readBytes_of_read hk]
      · rfl
      · simp only [readsRecord, accessKind, accessCode]
        simp [hk, hv]
        omega
    · rw [hread _ (by simp [readsRecord, accessKind, hk]), readBytes_of_none hk]
      rfl
    · rw [hread _ rfl]
      rfl
    · change Host.Outcome.next (transact (.run (access :: after) spare) readsClearStatus clearBody s) = _
      rw [transact_run hi hw hr (by simp [readsClearStatus, accessKind, accessCode, hk, hc])]
      unfold clearBody
      rw [readBytes_of_read (by omega)]
      by_cases hafter : after = []
      · simp [hafter, selectHigh, clockOut, State.clocked, State.firstOut, hw]
      · have hlength : 2 ≤ (access :: after).length := by
          have hpos := List.length_pos_iff.mpr hafter
          rw [List.length_cons]
          omega
        rw [if_pos hlength, if_neg hafter]
        simp [selectHigh, clearFactors, clockOut, State.clocked, State.firstOut, hw]
  · change Host.Outcome.next (transact (.run (access :: after) spare) readsRecord readBody s) = _
    unfold transact
    dsimp only
    rw [hi]
    rfl
end

