-- ==== Sys2Proof/Proofs/Compositions.lean ====
section
/-! SUPPORT. The end of a composition: the frame it queues, or the drop at once (R9, R79, R82, R134, R135). -/

open Sys2Proof Sys2Proof.Machine

namespace Sys2Proof.Machine

/-! ## Queuing a frame (R9) -/

section
variable {k : Slot} {q : Queued} {s : State}

/-- Outside CLASH queuing changes the slot, the attempt for it and TX_DROPPED alone. -/
theorem queueFrame_of_not_clash (h : s.line.state ≠ .clash) :
    (queueFrame k q s).line = { s.line.setSlot k (some q) with
      attempt := (queueFrame k q s).line.attempt, txDropped := (queueFrame k q s).line.txDropped } ∧
    queueFrame k q s = { s with line := (queueFrame k q s).line } := by
  unfold queueFrame
  rw [if_neg h]
  split
  · exact ⟨rfl, rfl⟩
  · refine ⟨?_, rfl⟩
    cases k <;> rfl

theorem queueFrame_of_clash (h : s.line.state = .clash) :
    queueFrame k q s = tellDrop q { s with line := { s.line with txDropped := count s.line.txDropped } } := if_pos h
end

/-! ## The own OFFER (R79, R82) -/

theorem offerPriority_eq (wx : Nat) : offerPriority wx = 255 - min 255 (wx / 4096) := rfl

/-- A report about an OFFER just composed reaches its record (R82). -/
theorem offerFate_of_offerRecord {s : State} {fate : Fate} {interval : IntervalNo} {v : OfferBody}
    (h : s.view.record = offerRecordOf interval v) :
    offerFate fate interval s = { s with view := { s.view with record := { s.view.record with fate := fate } } } := by
  unfold offerFate
  rw [if_pos (by rw [h]; exact ⟨rfl, rfl, rfl⟩)]

end Sys2Proof.Machine

/-- Settles O39: the composition's outcome, queued or dropped at once. -/
theorem offerCompositionQueuesTheOffer : Obligations.OfferCompositionQueuesTheOffer := by
  intro s comp hcomp
  have hend : exec .offerCompositionEnd s = .next (endOfferWith comp s) := by
    change Host.Outcome.next (endOffer s) = _
    unfold endOffer
    rw [hcomp]
  refine ⟨fun reason hout => ?_, fun v hout => ?_⟩
  · rw [hend]
    unfold endOfferWith
    rw [hout]
    rfl
  · generalize hu : ({ s with view := { s.view with composing := none, record := offerRecordOf comp.interval v } } : State) = u
    have hqueued : endOfferWith comp s = queueFrame .offer ⟨⟨255 - min 255 (v.wx / 4096), s.straps.stn, s.straps.site, comp.interval,
        .offer v⟩, some s.profile.freeze, false⟩ u := by
      unfold endOfferWith
      rw [hout, ← hu]
      rfl
    rw [hqueued] at hend
    refine ⟨_, hend, ?_⟩
    by_cases hclash : s.line.state = .clash
    · have hrecord : u.view.record = offerRecordOf comp.interval v := by subst hu; rfl
      rw [queueFrame_of_clash (by subst hu; exact hclash)]
      unfold tellDrop
      dsimp only
      rw [if_neg (by simp), offerFate_of_offerRecord (by exact hrecord)]
      subst hu
      simp [hclash, offerRecordOf, offerPriority_eq]
    · have hactive : u.line.state ≠ .clash := by subst hu; exact hclash
      obtain ⟨hline, hrest⟩ := queueFrame_of_not_clash (k := .offer) (q := ⟨⟨255 - min 255 (v.wx / 4096), s.straps.stn, s.straps.site,
        comp.interval, .offer v⟩, some s.profile.freeze, false⟩) hactive
      have hreplaces := queueFrame_replaces .offer ⟨⟨255 - min 255 (v.wx / 4096), s.straps.stn, s.straps.site,
        comp.interval, .offer v⟩, some s.profile.freeze, false⟩ u hactive
      generalize queueFrame .offer _ u = t at *
      have hview : t.view = u.view := by rw [hrest]
      rw [hview]
      subst hu
      refine ⟨rfl, rfl, rfl, rfl, rfl, by simp [hclash, offerRecordOf], fun _ => ⟨hreplaces, hline⟩, fun h => absurd h hclash, hrest⟩
end

