-- ==== Sys2Proof/Proofs/TargetPoint.lean ====
section
/-! SUPPORT. The TARGET a FEEDER composes at its point, and the end of the composition (R131 to R135). -/

open Sys2Proof Sys2Proof.Machine

namespace Sys2Proof.Machine

/-! ## The composition at the point (R131 to R133) -/

section
variable {u : FeederUnit} {k : IntervalNo}

theorem idleReason_none : idleReason u = .none ↔ u.siteLimit ≠ none ∧ u.mode ≠ .idle ∧ u.measured ≠ none := by
  unfold idleReason
  by_cases h1 : u.siteLimit = none
  · simp [h1]
  · by_cases h2 : u.mode = .idle
    · simp [h1, h2]
    · by_cases h3 : u.measured = none <;> simp [h1, h2, h3]

theorem composeTarget_of_idle (h : idleReason u ≠ .none) :
    composeTarget u k = { FeederRecord.empty with
      interval := k + 1, idleReason := idleReason u, measured := u.measured, request := u.request } := by
  unfold composeTarget
  cases u.siteLimit <;> cases u.measured <;> cases hi : idleReason u <;> first | rfl | exact absurd hi h

/-- The correction of a composition (R133). -/
def correction (u : FeederUnit) (k : IntervalNo) (sum : Int) : Int × Int × Int :=
  let reason := correctionReason u (k - 1)
  let achieved := if reason = .none then achievedOf u.mode sum else 0
  let error := match reason, goalFor u.goals (k - 1) with
    | .none, some g => (g.goal : Int) - achieved
    | _, _ => 0
  (achieved, error, if reason = .none then correctionOf u.level error else 0)

theorem composeTarget_of_active {x : Nat} {a : Int} (hx : u.siteLimit = some x) (ha : u.measured = some a) (hm : u.mode ≠ .idle) :
    composeTarget u k =
      { interval := k + 1, idleReason := .none, tallySum := tallySum u.tallies, tallyCount := u.tallies.length, measured := some a
        load := some (tallySum u.tallies - a), headroomOut := some (headroomOf u.mode x (tallySum u.tallies - a))
        correction := correctionReason u (k - 1), achieved := (correction u k (tallySum u.tallies)).1
        error := (correction u k (tallySum u.tallies)).2.1, corrected := (correction u k (tallySum u.tallies)).2.2
        mode := u.mode, level := clampNat 65535 ((u.level : Int) + (correction u k (tallySum u.tallies)).2.2)
        headroom := headroomOf u.mode x (tallySum u.tallies - a), request := u.request } := by
  have hi : idleReason u = .none := idleReason_none.mpr ⟨by simp [hx], hm, by simp [ha]⟩
  unfold composeTarget
  rw [hx, ha, hi]
  rfl

theorem clampNat_eq (high : Nat) (x : Int) : (clampNat high x : Int) = max 0 (min (high : Int) x) := by
  unfold clampNat
  split
  · omega
  · split <;> omega

theorem clampInt_eq (b : Nat) (x : Int) : clampInt (-(b : Int)) b x = max (-(b : Int)) (min (b : Int) x) := by
  unfold clampInt
  split
  · omega
  · split <;> omega

theorem headroomOf_eq {mode : Mode} (limit : Nat) (load : Int) (h : mode ≠ .idle) :
    (headroomOf mode limit load : Int) = max 0 (min 65535 (if mode = .exporting then limit + load else limit - load)) := by
  cases mode with
  | idle => exact absurd rfl h
  | exporting => exact clampNat_eq _ _
  | importing => exact clampNat_eq _ _

theorem goalFor_of_mem {goals : List Goal} {g : Goal} (hp : goals.Pairwise (fun a b => a.interval ≠ b.interval)) (hg : g ∈ goals) :
    goalFor goals g.interval = some g := by
  unfold goalFor
  induction goals with
  | nil => simp at hg
  | cons x rest ih =>
    rw [List.pairwise_cons] at hp
    obtain ⟨hx, hrest⟩ := hp
    rcases List.mem_cons.mp hg with rfl | hmem
    · simp
    · rw [List.find?_cons_of_neg (by simpa using hx g hmem)]
      exact ih hrest hmem

theorem correction_of_reason {sum : Int} (h : correctionReason u (k - 1) ≠ .none) : correction u k sum = (0, 0, 0) := by
  unfold correction
  cases hr : correctionReason u (k - 1) with
  | none => exact absurd hr h
  | _ => rfl

theorem correction_of_goal {sum : Int} {g : Goal} (hg : goalFor u.goals (k - 1) = some g) (h : correctionReason u (k - 1) = .none) :
    correction u k sum = (achievedOf u.mode sum, g.goal - achievedOf u.mode sum, correctionOf u.level (g.goal - achievedOf u.mode sum)) := by
  unfold correction
  simp only [h, hg, if_true]

/-- What every composition shows, whatever its mode (R131). -/
theorem composeTarget_shown (u : FeederUnit) (k : IntervalNo) :
    (composeTarget u k).interval = k + 1 ∧ (composeTarget u k).request = u.request ∧
      (composeTarget u k).idleReason = idleReason u ∧
      (idleReason u ≠ .none → (composeTarget u k).mode = .idle ∧ (composeTarget u k).level = 0 ∧ (composeTarget u k).headroom = 0) := by
  by_cases h : idleReason u = .none
  · obtain ⟨hx, hm, ha⟩ := idleReason_none.mp h
    obtain ⟨x, hx⟩ := Option.ne_none_iff_exists'.mp hx
    obtain ⟨a, ha⟩ := Option.ne_none_iff_exists'.mp ha
    rw [composeTarget_of_active hx ha hm, h]
    exact ⟨rfl, rfl, rfl, fun h => absurd rfl h⟩
  · rw [composeTarget_of_idle h]
    exact ⟨rfl, rfl, rfl, fun _ => ⟨rfl, rfl, rfl⟩⟩

theorem correctionReason_none {last : IntervalNo} : correctionReason u last = .none ↔
    ∃ g, goalFor u.goals last = some g ∧ g.mode = u.mode ∧ g.dropped = false ∧ u.tallies ≠ [] := by
  unfold correctionReason
  cases goalFor u.goals last with
  | none => simp
  | some g =>
    by_cases h1 : g.mode = u.mode
    · by_cases h2 : g.dropped = true
      · simp [h1, h2]
      · by_cases h3 : u.tallies = [] <;> simp [h1, h2, h3]
    · simp [h1]

theorem mem_of_goalFor {goals : List Goal} {last : IntervalNo} {g : Goal} (h : goalFor goals last = some g) :
    g ∈ goals ∧ g.interval = last :=
  ⟨List.mem_of_find?_eq_some h, by simpa using List.find?_some h⟩

/-- The goal list after a composition (R134). -/
theorem enterGoal_eq (r : FeederRecord) (goals : List Goal) :
    enterGoal r goals = goals.filter (fun g => g.interval = r.interval - 1) ++
      [⟨r.interval, r.mode, if r.mode = .idle then 0 else min r.level r.headroom, false⟩] := by
  have hgoal : enterGoal.goalOfTarget r = if r.mode = .idle then 0 else min r.level r.headroom := by
    unfold enterGoal.goalOfTarget
    cases r.mode <;> rfl
  unfold enterGoal
  rw [hgoal]

/-- A drop of the TARGET just composed marks its goal, and not the one of the interval before (R135). -/
theorem enterGoal_dropped (r : FeederRecord) (goals : List Goal) :
    (enterGoal r goals).map (fun g => if g.interval = r.interval then { g with dropped := true } else g) =
      goals.filter (fun g => g.interval = r.interval - 1) ++
        [⟨r.interval, r.mode, if r.mode = .idle then 0 else min r.level r.headroom, true⟩] := by
  have hother : r.interval - 1 ≠ r.interval := by bv_omega
  rw [enterGoal_eq, List.map_append, List.map_singleton, if_pos rfl]
  congr 1
  refine (List.map_congr_left fun g hg => ?_).trans (List.map_id _)
  have hint : g.interval = r.interval - 1 := by simpa using (List.mem_filter.mp hg).2
  rw [if_neg (by rw [hint]; exact hother)]
  rfl
end

end Sys2Proof.Machine

/-- Settles O42: the composition by its reasons, and its end with the goal it enters. -/
theorem targetPointComposesTheTarget : Obligations.TargetPointComposesTheTarget := by
  refine ⟨fun s hdue hlaw => ⟨composeTarget s.feeder s.timer.n, ?_, ?_⟩, fun s r hcomp => ?_⟩
  · change Host.Outcome.next (if s.timer.targetDue = true then _ else _) = _
    rw [if_pos hdue]
    rfl
  · obtain ⟨hinterval, hrequest, hreason, hidle⟩ := composeTarget_shown s.feeder s.timer.n
    refine ⟨hinterval, hrequest, fun h => ?_, fun h1 h2 => ?_, fun h1 h2 h3 => ?_, fun h => hidle (hreason ▸ h), fun x a hx hm ha => ?_⟩
    · rw [hreason]; simp [idleReason, h]
    · rw [hreason]; simp [idleReason, h1, h2]
    · rw [hreason]; simp [idleReason, h1, h2, h3]
    · have hvalue := composeTarget_of_active (k := s.timer.n) hx ha hm
      rw [hvalue]
      refine ⟨rfl, rfl, rfl, rfl, rfl, rfl, ?_, headroomOf_eq _ _ hm, fun hnone => ?_, fun g hg hint hmode hdrop htally => ?_⟩
      · exact rfl
      · have hcorr : correctionReason s.feeder (s.timer.n - 1) ≠ .none := by
          intro h
          obtain ⟨g, hg, hmode, hdrop, htally⟩ := correctionReason_none.mp h
          obtain ⟨hmem, hint⟩ := mem_of_goalFor hg
          rcases hnone g hmem hint with h | h | h
          · exact h hmode
          · simp [h] at hdrop
          · exact htally h
        dsimp only
        rw [correction_of_reason hcorr]
        refine ⟨?_, rfl⟩
        have := clampNat_eq 65535 ((s.feeder.level : Int) + 0)
        dsimp only
        omega
      · have hgoal : goalFor s.feeder.goals (s.timer.n - 1) = some g := hint ▸ goalFor_of_mem hlaw.2.1 hg
        have hcorr := correctionReason_none.mpr ⟨g, hgoal, hmode, hdrop, htally⟩
        dsimp only
        rw [correction_of_goal hgoal hcorr]
        have hachieved : achievedOf s.feeder.mode (tallySum s.feeder.tallies) =
            if s.feeder.mode = .exporting then tallySum s.feeder.tallies else -tallySum s.feeder.tallies := by
          cases hmode' : s.feeder.mode with
          | idle => exact absurd hmode' hm
          | _ => rfl
        refine ⟨hachieved, by rw [hachieved]; rfl, clampInt_eq _ _, clampNat_eq _ _⟩
  · have hend : exec .targetCompositionEnd s = .next (endTargetWith r s) := by
      change Host.Outcome.next (endTarget s) = _
      unfold endTarget
      rw [hcomp]
    generalize hu : ({ s with feeder := { s.feeder with
      composing := none, record := r, goals := enterGoal r s.feeder.goals } } : State) = u
    have hqueued : endTargetWith r s = queueFrame .report ⟨⟨0, s.straps.stn, s.straps.site, r.interval,
        .target r.mode r.level r.headroom r.request⟩, some s.profile.freeze, false⟩ u := by
      rw [← hu]
      rfl
    rw [hqueued] at hend
    refine ⟨_, hend, ?_⟩
    by_cases hclash : s.line.state = .clash
    · rw [queueFrame_of_clash (by subst hu; exact hclash)]
      subst hu
      refine ⟨?_, fun h => absurd hclash h, fun _ => rfl, rfl⟩
      change ({ s.feeder with
        composing := none, record := r
        goals := (enterGoal r s.feeder.goals).map fun g => if g.interval = r.interval then { g with dropped := true } else g } : FeederUnit) = _
      rw [enterGoal_dropped]
      simp [hclash]
    · have hactive : u.line.state ≠ .clash := by subst hu; exact hclash
      obtain ⟨hline, hrest⟩ := queueFrame_of_not_clash (k := .report) (q := ⟨⟨0, s.straps.stn, s.straps.site, r.interval,
        .target r.mode r.level r.headroom r.request⟩, some s.profile.freeze, false⟩) hactive
      have hreplaces := queueFrame_replaces .report ⟨⟨0, s.straps.stn, s.straps.site, r.interval,
        .target r.mode r.level r.headroom r.request⟩, some s.profile.freeze, false⟩ u hactive
      generalize queueFrame .report _ u = t at *
      have hfeeder : t.feeder = u.feeder := by rw [hrest]
      rw [hfeeder]
      subst hu
      refine ⟨?_, fun _ => ⟨hreplaces, hline⟩, fun h => absurd h hclash, hrest⟩
      rw [enterGoal_eq]
      simp [hclash]
end

