-- ==== Sys2Proof/Proofs/FreezeAndCompletion.lean ====
section
/-! SUPPORT. The freeze point and the completion of the computation (R90, R94, R98, R99, R106 to R110). -/

open Sys2Proof Sys2Proof.Machine

namespace Sys2Proof.Machine

/-- An action that raises no flag and keeps what a settled state turns on. -/
theorem settle_of_congr {s t : State} (hs : Settled s) (hword : t.status.word = s.status.word) (hstate : t.port.state = s.port.state)
    (hcommand : t.port.command = s.port.command) (hshare : t.apply.share = s.apply.share)
    (hsession : t.session.state = s.session.state) : settle s t = t :=
  settle_of_settled _ _ hword (hs.congr hstate hcommand hshare hsession)

theorem raiseIf_word (b : Bool) (f g : Flag) (s : State) :
    g.isSet (raiseIf b f s).status.word = true ↔ g.isSet s.status.word = true ∨ g = f ∧ b = true := by
  cases b with
  | false => simp [raiseIf]
  | true => simp [raiseIf, isSet_raise]

/-- The flags of a completed result (R107). -/
theorem completeWith_word (i : AllocInput) (s : State) (g : Flag) :
    g.isSet (completeWith i s).status.word = true ↔ g.isSet s.status.word = true ∨
      g = .short ∧ i.flags.short = true ∨ g = .capped ∧ i.flags.capped = true ∨ g = .noTarget ∧ i.flags.noTarget = true := by
  unfold completeWith raiseResult
  rw [(cause_status _ _).1, raiseIf_word, raiseIf_word, raiseIf_word]
  tauto

/-- The result of a view without entries and without a target (R94, R110). -/
theorem idleInput_result (n : IntervalNo) : (⟨n, [], ⟨none, false⟩⟩ : AllocInput).result =
    ⟨true, n, .idle, 0, 0, none, 0, 0, 0, 0, 0, 0, 0, 0, ⟨false, false, false, false⟩⟩ := rfl

/-- The parts a completion writes (R106, R108). -/
theorem completeWith_parts (i : AllocInput) (s : State) :
    (completeWith i s).view = { s.view with entries := s.view.entries.map (fun e => { e with share := some (i.shareField e) }) } ∧
      (completeWith i s).alloc = ⟨.ready i.ownShare, i.result⟩ ∧
      (completeWith i s).status.factors = s.status.factors ||| 2#5 := by
  have hraise (b : Bool) (f : Flag) (u : State) : (raiseIf b f u).view = u.view ∧ (raiseIf b f u).alloc = u.alloc ∧
      (raiseIf b f u).status.factors = u.status.factors := by
    cases b <;> exact ⟨rfl, rfl, rfl⟩
  unfold completeWith raiseResult
  refine ⟨?_, ?_, ?_⟩
  · rw [(cause_frame _ _).2.2.2.2.2.2.1]
    simp
  · simp
  · simp [cause, hraise, Factor.bit, BitVec.twoPow]

/-- What a completion's action leaves, in the terms of its inputs (R101, R106 to R108, R110). -/
theorem settle_completeWith (i : AllocInput) {s : State} (hs : Settled s) :
    ∃ t, settle s (completeWith i s) = t ∧
      (t.view = { s.view with entries := s.view.entries.map fun e => { e with share := some (i.shareField e) } } ∧
        t.alloc = ⟨.ready i.ownShare, i.result⟩) ∧
      (∀ f : Flag, f.isSet t.status.word = true ↔ f.isSet s.status.word = true ∨
        f = .short ∧ i.flags.short = true ∨ f = .capped ∧ i.flags.capped = true ∨ f = .noTarget ∧ i.flags.noTarget = true) ∧
      Factor.result.isSet t.status.factors = true ∧ t.apply = s.apply ∧ t.session = s.session ∧ t.account = s.account ∧
      t.line = s.line ∧ t.timer = s.timer ∧ t.feeder = s.feeder ∧ t.port = s.port ∧ t.service = s.service ∧ t.time = s.time := by
  obtain ⟨hview, halloc, hfactors⟩ := completeWith_parts i s
  have hkept (w : BitVec 14) (u : State) (h : Factor.result.isSet u.status.factors = true) :
      Factor.result.isSet (noteFaults w u).status.factors = true := by
    unfold noteFaults
    split
    · exact h
    · unfold capture
      split
      · exact h
      · simp_all [Factor.isSet]
  rw [settle_eq_noteFaults (hs.congr (by simp) (by simp) (by simp) (by simp))]
  refine ⟨_, rfl, ⟨by simpa using hview, by simpa using halloc⟩, fun f => ?_, hkept _ _ ?_, ?_⟩
  · rw [noteFaults_word, completeWith_word]
  · rw [hfactors]
    simp [Factor.isSet, Factor.bit]
  · simp

end Sys2Proof.Machine

/-- Settles O41: the completion by its inputs' goal, claims and division. -/
theorem completionWritesTheShares : Obligations.CompletionWritesTheShares := by
  intro s i ticks hengine hs
  have hcomplete : complete s = completeWith i s := by
    unfold complete
    rw [hengine]
  have hexec : exec .allocationComplete s = .next (settle s (completeWith i s)) := by
    change Host.Outcome.next (act complete s) = _
    rw [act, hcomplete]
  obtain ⟨t, ht, ⟨hview, halloc⟩, hrest⟩ := settle_completeWith i hs
  rw [ht] at hexec
  have hown (e : Entry) (he : i.entries.find? (fun e => e.origin = .own) = some e) : i.ownShare = i.shareField e := by
    unfold AllocInput.ownShare
    rw [he]
  have hnone (he : i.entries.find? (fun e => e.origin = .own) = none) : i.ownShare = 0 := by
    unfold AllocInput.ownShare
    rw [he]
  have hshown : (i.result.mode, i.result.level, i.result.headroom, i.result.source, i.result.request) =
      (match i.chosen.target with
        | some p => (p.mode, p.level, p.headroom, some p.source, p.request)
        | none => (.idle, 0, 0, none, 0)) := by
    change (i.chosen.mode, i.chosen.level, i.chosen.headroom, i.chosen.target.map TargetPart.source, i.chosen.request) = _
    unfold ChosenTarget.mode ChosenTarget.level ChosenTarget.headroom ChosenTarget.request
    cases i.chosen.target <;> rfl
  refine ⟨t, hexec, ?_, ?_⟩
  · rw [halloc]
    exact ⟨hview, fun e he => congrArg Engine.ready (hown e he), fun he => congrArg Engine.ready (hnone he), rfl, rfl, rfl, rfl, rfl,
      hshown, rfl, fun share h => by injection h, rfl, rfl, rfl⟩
  · rw [halloc]
    exact hrest

/-- Settles O40: the view frozen with the chosen target; on a FEEDER the completion of an empty view. -/
theorem freezePointFixesTheInputs : Obligations.FreezePointFixesTheInputs := by
  refine ⟨fun s hdue hrole hs => ?_, fun s hdue hrole hentries hreceived hused hs => ?_⟩
  · change Host.Outcome.next (settle s (if s.timer.freezeDue = true then takeFreeze s else s)) = _
    rw [if_pos hdue]
    have hfreeze : takeFreeze s = { s with
        timer := { s.timer with freezeDue := false }
        view := { s.view with phase := .frozen, used := usedAfter s.view (s.timer.n + 1) }
        alloc := { s.alloc with engine := .computing ⟨s.timer.n + 1, s.view.entries, chooseTarget s.view⟩ 0 } } := by
      unfold takeFreeze
      dsimp only
      rw [hrole]
    rw [hfreeze, settle_of_congr hs (by rfl) (by rfl) (by rfl) (by rfl) (by rfl)]
    unfold usedAfter chooseTarget
    cases hr : s.view.received with
    | some t => rfl
    | none =>
      cases hu : s.view.used with
      | none => rfl
      | some u => by_cases hh : u.hold < 2 <;> simp [hh]
  · change Host.Outcome.next (settle s (if s.timer.freezeDue = true then takeFreeze s else s)) = _
    rw [if_pos hdue]
    have hfreeze : takeFreeze s = { s with
        timer := { s.timer with freezeDue := false }
        view  := { s.view with phase := .frozen }
        alloc :=
          ⟨.ready 0, ⟨true, s.timer.n + 1, .idle, 0, 0, none, 0, 0, 0, 0, 0, 0, 0, 0, ⟨false, false, false, false⟩⟩⟩
        status := { s.status with factors := s.status.factors ||| 0b00010#5 } } := by
      unfold takeFreeze
      dsimp only
      rw [hrole]
      dsimp only
      unfold usedAfter chooseTarget
      rw [hreceived, hused, hentries]
      simp only [complete, completeWith, List.map_nil, idleInput_result]
      rfl
    rw [hfreeze, settle_of_congr hs (by rfl) (by rfl) (by rfl) (by rfl) (by rfl)]
end

