-- ==== Sys2Proof/Proofs/Slots.lean ====
section
/-! SUPPORT. A frame dropped at its deadline, and the source a station starts from (R7, R8, R10, R11). -/

open Sys2Proof Sys2Proof.Machine

namespace Sys2Proof.Machine

/-! ## Deadlines (R11) -/

theorem timeRanOut_iff (q : Queued) (c : Nat) : q.timeRanOut c = true ↔ q.expired = true ∨ ∃ d, q.deadline = some d ∧ d ≤ c := by
  unfold Queued.timeRanOut
  cases q.deadline <;> simp

theorem carries_iff (u : LineUnit) (k : Slot) : u.carries k = true ↔ ∃ a, u.attempt = some a ∧ a.slot = k ∧ a.detached = false := by
  unfold LineUnit.carries
  cases u.attempt <;> simp

/-- The owner's view of a dropped frame (R82). -/
theorem tellDrop_view (q : Queued) (s : State) :
    (tellDrop q s).view = (match q.frame.body with
      | .offer _ =>
        if q.expired = false ∧ s.view.record.composed = true ∧ s.view.record.interval = q.frame.number ∧
            s.view.record.fate = .pending then
          { s.view with record := { s.view.record with fate := .dropped } }
        else s.view
      | _ => s.view) := by
  unfold tellDrop
  cases q.frame.body with
  | offer v =>
    dsimp only
    unfold offerFate
    by_cases he : q.expired = true
    · simp [he]
    · by_cases hr : s.view.record.composed = true ∧ s.view.record.interval = q.frame.number ∧ s.view.record.fate = .pending <;>
        simp [he, hr]
  | _ => rfl

/-- The goal list after a dropped frame (R135). -/
theorem tellDrop_feeder (q : Queued) (s : State) :
    (tellDrop q s).feeder = (match q.frame.body with
      | .target _ _ _ _ => { s.feeder with goals := s.feeder.goals.map fun g =>
          if g.interval = q.frame.number then { g with dropped := true } else g }
      | _ => s.feeder) := by
  unfold tellDrop
  cases q.frame.body with
  | offer v =>
    dsimp only
    split <;> simp
  | _ => rfl

theorem tellDrop_eq (q : Queued) (s : State) :
    tellDrop q s = { s with view := (tellDrop q s).view, feeder := (tellDrop q s).feeder } := by
  unfold tellDrop offerFate goalDropped
  (repeat' split) <;> rfl

theorem dropAtDeadline_eq {s : State} {k : Slot} {q : Queued} (h : s.line.slot k = some q) :
    dropAtDeadline k s = tellDrop q { s with line := { s.line.setSlot k none with
      txDropped := count s.line.txDropped, pointer := slotSource k } } := by
  unfold dropAtDeadline dropSlot
  rw [h]
  dsimp only
  unfold tellDrop offerFate goalDropped
  (repeat' split) <;> rfl

theorem deadlineDue_iff {s : State} {k : Slot} {q : Queued} (h : s.line.slot k = some q) :
    s.deadlineDue k = true ↔ q.timeRanOut s.timer.c = true ∧ s.line.carries k = false := by
  unfold State.deadlineDue
  rw [h]
  simp

/-! ## The next source (R8, R10) -/

/-- The slots a source sends from, in their order (R8). -/
def Source.slots : Source → List Slot
  | .timing => [.mark]
  | .dispatch => [.withdraw, .offer]
  | .report => [.report]

theorem ready_eq (u : LineUnit) (k : Source) : u.ready k = k.slots.find? (fun j => (u.slot j).isSome) := by
  cases k with
  | timing => cases h : u.markSlot <;> simp [LineUnit.ready, Source.slots, LineUnit.slot, h]
  | dispatch =>
    cases h : u.withdrawSlot <;> cases h' : u.offerSlot <;> simp [LineUnit.ready, Source.slots, LineUnit.slot, h, h']
  | report => cases h : u.reportSlot <;> simp [LineUnit.ready, Source.slots, LineUnit.slot, h]

/-- The round-robin selection runs through the slots of the sources after the pointer's, its own last (R10). -/
theorem select_eq (u : LineUnit) :
    u.select = (u.pointer.next.slots ++ (u.pointer.next.next.slots ++ u.pointer.slots)).find? (fun j => (u.slot j).isSome) := by
  rw [List.find?_append, List.find?_append, ← ready_eq, ← ready_eq, ← ready_eq]
  unfold LineUnit.select
  dsimp only
  cases u.ready u.pointer.next <;> cases u.ready u.pointer.next.next <;> rfl

theorem starts_eq {u : LineUnit} {more : Nat} (hs : u.state = .active) (ha : u.attempt = none) (hh : u.heard = [])
    (hr : 10 ≤ u.recessiveRun + more) : u.starts more = u.select := by
  unfold LineUnit.starts
  rw [if_pos ⟨hs, ha, hh, decide_eq_true hr⟩]

theorem starts_none {u : LineUnit} {more : Nat}
    (h : u.state ≠ .active ∨ u.attempt ≠ none ∨ u.heard ≠ [] ∨ u.recessiveRun + more < 10) : u.starts more = none := by
  unfold LineUnit.starts
  rw [if_neg]
  rintro ⟨h1, h2, h3, h4⟩
  have h4 : 10 ≤ u.recessiveRun + more := of_decide_eq_true h4
  rcases h with h | h | h | h
  · exact h h1
  · exact h h2
  · exact h h3
  · omega

end Sys2Proof.Machine

/-- Settles O43: the drop with the report to its owner, unless an attempt carries the frame. -/
theorem passedDeadlineDropsTheFrame : Obligations.PassedDeadlineDropsTheFrame := by
  intro s slot q hq
  refine ⟨fun hout hfree => ?_, fun a ha hslot hdet => ?_⟩
  · have hcarries : s.line.carries slot = false := by
      rw [Bool.eq_false_iff, Ne, carries_iff]
      rintro ⟨a, ha, hslot, hdet⟩
      simp [hfree a ha hslot] at hdet
    have hdue : s.deadlineDue slot = true := (deadlineDue_iff hq).mpr ⟨(timeRanOut_iff _ _).mpr hout, hcarries⟩
    refine ⟨dropAtDeadline slot s, ?_, ?_⟩
    · change Host.Outcome.next (if s.deadlineDue slot = true then _ else _) = _
      rw [if_pos hdue]
    · rw [dropAtDeadline_eq hq]
      generalize hu : ({ s with line := { s.line.setSlot slot none with
        txDropped := count s.line.txDropped, pointer := slotSource slot } } : State) = u
      have hline : (tellDrop q u).line = u.line := by simp
      have hsame (k : Slot) : u.line.slot k = if k = slot then none else s.line.slot k := by
        subst hu; exact slot_setSlot _ _ _ _
      rw [hline, tellDrop_view, tellDrop_feeder]
      refine ⟨by rw [hsame, if_pos rfl], fun k hk => by rw [hsame, if_neg hk], by subst hu; rfl, ?_, ?_⟩
      · subst hu; cases slot <;> rfl
      · have hrest : u.line.attempt = s.line.attempt ∧ u.line.state = s.line.state ∧ u.line.failures = s.line.failures ∧
            u.line.txDone = s.line.txDone ∧ u.line.txErr = s.line.txErr := by
          subst hu; cases slot <;> exact ⟨rfl, rfl, rfl, rfl, rfl⟩
        obtain ⟨hattempt, hstate, hfailures, hdone, herr⟩ := hrest
        refine ⟨hattempt, hstate, hfailures, hdone, herr, by subst hu; rfl, by subst hu; rfl, ?_⟩
        rw [tellDrop_eq, tellDrop_view, tellDrop_feeder]
        subst hu
        rfl
  · have hcarries : s.line.carries slot = true := (carries_iff _ _).mpr ⟨a, ha, hslot, hdet⟩
    have hdue : ¬s.deadlineDue slot = true := by simp [deadlineDue_iff hq, hcarries]
    change Host.Outcome.next (if s.deadlineDue slot = true then _ else _) = _
    rw [if_neg hdue]

/-- Settles O44: the first of the slots in the order of the sources. -/
theorem startTakesTheNextSource : Obligations.StartTakesTheNextSource := by
  intro s more
  have hnone (h : s.line.starts more = none) : exec (.frameStart more) s = .next s := by
    change execFrameStart more s = _
    unfold execFrameStart
    rw [h]
  refine ⟨fun hs ha hh hr slot q hfind hq => ?_, fun hempty => ?_, fun h => hnone (starts_none h)⟩
  · have hselect : s.line.starts more = some slot := by
      rw [starts_eq hs ha hh hr, select_eq]
      cases hp : s.line.pointer <;> rw [hp] at hfind <;> exact hfind
    change execFrameStart more s = _
    unfold execFrameStart startSlot
    rw [hselect]
    dsimp only
    rw [hq]
  · by_cases h : s.line.state ≠ .active ∨ s.line.attempt ≠ none ∨ s.line.heard ≠ [] ∨ s.line.recessiveRun + more < 10
    · exact hnone (starts_none h)
    · refine hnone ?_
      push Not at h
      obtain ⟨hs, ha, hh, hr⟩ := h
      rw [starts_eq hs ha hh hr, select_eq, List.find?_eq_none]
      simp [hempty]
end

