-- ==== Sys2Proof/Proofs/ReadingBack.lean ====
section
/-! SUPPORT. A frame is read back as it was sent: fields as bits, insert bits, and the wait for a start bit (R3 to R7, R17). -/

open Sys2Proof Sys2Proof.Machine

namespace Sys2Proof.Machine

/-! ## Fields as bits (R3, R4) -/

@[simp] theorem bitsOf_length (w v : Nat) : (bitsOf w v).length = w := by
  induction w with
  | zero => rfl
  | succ w ih => simp [bitsOf, ih]

theorem drop_bitsOf {w n : Nat} (v : Nat) (h : w ≤ n) : (bitsOf w v).drop n = [] :=
  List.drop_of_length_le (by simpa using h)

theorem numberOf_bitsOf_acc (w v acc : Nat) : numberOf (bitsOf w v) acc = acc * 2 ^ w + v % 2 ^ w := by
  induction w generalizing acc with
  | zero => simp [bitsOf, numberOf, Nat.mod_one]
  | succ w ih =>
    have hstep : numberOf (bitsOf (w + 1) v) acc = numberOf (bitsOf w v) (2 * acc + (v.testBit w).toNat) := rfl
    have hbit : (v.testBit w).toNat = v / 2 ^ w % 2 := by
      rw [Nat.testBit_eq_decide_div_mod_eq]
      rcases Nat.mod_two_eq_zero_or_one (v / 2 ^ w) with h | h <;> simp [h]
    rw [hstep, ih, hbit, pow_succ, Nat.mod_mul]
    ring

theorem numberOf_bitsOf {w v : Nat} (h : v < 2 ^ w) : numberOf (bitsOf w v) = v := by
  rw [numberOf_bitsOf_acc, Nat.mod_eq_of_lt h]
  omega

/-! ## Insert bits (R6) -/

/-- The run after bits are sent with their insert bits. -/
def runOf : Run → List Level → Run
  | r, [] => r
  | r, b :: bs => runOf (if r.full then (r.push (!r.level)).push b else r.push b) bs

theorem stuff_append (r : Run) (xs ys : List Level) : stuff r (xs ++ ys) = stuff r xs ++ stuff (runOf r xs) ys := by
  induction xs generalizing r with
  | nil => rfl
  | cons b bs ih =>
    by_cases h : r.full = true <;> simp [stuff, runOf, h, ih]

/-- Bits sent with their insert bits are read back without them (R6). -/
theorem readBits_stuff (r : Run) (xs tail : List Level) :
    readBits xs.length r (stuff r xs ++ tail) = .ok (xs, runOf r xs, tail) := by
  induction xs generalizing r with
  | nil => rfl
  | cons b bs ih =>
    by_cases h : r.full = true
    · simp [readBits, stuff, runOf, h, nextLevel, ih]
    · simp [readBits, stuff, runOf, h, nextLevel, ih]

/-! ## The body (R3) -/

theorem bodyOf_bits {b : FrameBody} (h : b.legal = true) : bodyOf b.kindClass b.length b.bits = some b := by
  cases b with
  | mark p =>
    have hp : numberOf (bitsOf 8 p) = p := numberOf_bitsOf (by omega)
    simp [FrameBody.kindClass, FrameBody.length, FrameBody.bits, bodyOf, hp]
  | target m t hd r =>
    simp only [FrameBody.legal, decide_eq_true_eq] at h
    obtain ⟨ht, hh, hr⟩ := h
    have hmode : Mode.ofCode (numberOf (bitsOf 8 m.code)) = some m := by cases m <;> rfl
    simp [FrameBody.kindClass, FrameBody.length, FrameBody.bits, bodyOf, List.drop_append, drop_bitsOf,
      hmode, numberOf_bitsOf (show t < 2 ^ 16 from ht), numberOf_bitsOf (show hd < 2 ^ 16 from hh),
      numberOf_bitsOf (show r < 2 ^ 8 from hr)]
  | withdraw r =>
    have hr : WithdrawReason.ofCode (numberOf (bitsOf 8 r.code)) = some r := by cases r <;> rfl
    simp [FrameBody.kindClass, FrameBody.length, FrameBody.bits, bodyOf, hr]
  | offer v =>
    simp only [FrameBody.legal, decide_eq_true_eq] at h
    obtain ⟨hwx, hcx, hwm, hcm⟩ := h
    simp [FrameBody.kindClass, FrameBody.length, FrameBody.bits, bodyOf, List.drop_append, drop_bitsOf,
      numberOf_bitsOf (show v.wx < 2 ^ 24 from hwx), numberOf_bitsOf (show v.wm < 2 ^ 24 from hwm),
      numberOf_bitsOf (show v.cx < 2 ^ 16 by omega), numberOf_bitsOf (show v.cm < 2 ^ 16 by omega), hcx, hcm]
  | tally p =>
    simp only [FrameBody.legal, decide_eq_true_eq] at h
    have hp : numberOf (bitsOf 16 (unsigned16 p)) = unsigned16 p := numberOf_bitsOf (by unfold unsigned16; omega)
    have hsigned : signed16 (unsigned16 p) = p := by
      unfold signed16 unsigned16
      split <;> omega
    simp [FrameBody.kindClass, FrameBody.length, FrameBody.bits, bodyOf, hp, hsigned]

theorem bits_length (b : FrameBody) : b.bits.length = 8 * b.length := by
  cases b <;> simp [FrameBody.bits, FrameBody.length]

theorem header_length (f : Frame) : f.header.length = 21 := by simp [Frame.header]


/-! ## The frame (R4, R5, R17) -/

/-- The bits of a legal frame after its length: the interval number, the body and the check (R4). -/
def Frame.rest (f : Frame) : List Level := bitsOf 16 f.number.toNat ++ f.body.bits ++ bitsOf 16 (checkOf f.span).toNat

theorem rest_length (f : Frame) : f.rest.length = 32 + 8 * f.body.length := by
  simp [Frame.rest, bits_length]
  omega

theorem payload_eq (f : Frame) : f.payload = (false :: (f.header ++ bitsOf 4 f.body.length)) ++ f.rest := by
  simp [Frame.payload, Frame.span, Frame.rest]

/-- A legal frame passes the check, and its fields are read as they were sent (R17). -/
theorem frameOf_header {f : Frame} (h : f.legal = true) :
    frameOf (f.header ++ bitsOf 4 f.body.length) f.rest f.body.length = .frame f := by
  simp only [Frame.legal, Bool.and_eq_true, decide_eq_true_eq] at h
  obtain ⟨hpriority, hbody⟩ := h
  have hlength : (bitsOf 16 f.number.toNat ++ f.body.bits).length = 16 + 8 * f.body.length := by simp [bits_length]
  have htake : f.rest.take (16 + 8 * f.body.length) = bitsOf 16 f.number.toNat ++ f.body.bits := List.take_left' hlength
  have hdrop : f.rest.drop (16 + 8 * f.body.length) = bitsOf 16 (checkOf f.span).toNat := List.drop_left' hlength
  have hspan : f.header ++ bitsOf 4 f.body.length ++ (bitsOf 16 f.number.toNat ++ f.body.bits) = f.span := by
    simp [Frame.span]
  have hnumber : numberOf (f.rest.take 16) = f.number.toNat := by
    have hleft : f.rest.take 16 = bitsOf 16 f.number.toNat := by
      unfold Frame.rest
      rw [List.append_assoc]
      exact List.take_left' (by simp)
    rw [hleft, numberOf_bitsOf f.number.isLt]
  have hbits : (f.rest.drop 16).take (8 * f.body.length) = f.body.bits := by
    have hright : f.rest.drop 16 = f.body.bits ++ bitsOf 16 (checkOf f.span).toNat := by
      unfold Frame.rest
      rw [List.append_assoc]
      exact List.drop_left' (by simp)
    rw [hright]
    exact List.take_left' (bits_length _)
  have hclass : f.body.kindClass < 2 ^ 3 := by cases f.body <;> simp [FrameBody.kindClass]
  have hkind : numberOf ((f.header ++ bitsOf 4 f.body.length).take 3) = f.body.kindClass := by
    simp [Frame.header, numberOf_bitsOf hclass]
  have hprio : numberOf (((f.header ++ bitsOf 4 f.body.length).drop 3).take 8) = f.priority := by
    simp [Frame.header, numberOf_bitsOf (show f.priority < 2 ^ 8 from hpriority)]
  have hsource : numberOf (((f.header ++ bitsOf 4 f.body.length).drop 11).take 6) = f.source := by
    simp [Frame.header, List.drop_append, drop_bitsOf,
      numberOf_bitsOf (show (f.source : Nat) < 2 ^ 6 by omega)]
  have hsite : numberOf (((f.header ++ bitsOf 4 f.body.length).drop 17).take 4) = f.site := by
    simp [Frame.header, List.drop_append, drop_bitsOf,
      numberOf_bitsOf (show (f.site : Nat) < 2 ^ 4 by omega)]
  unfold frameOf
  rw [htake, hdrop, hspan, if_pos (numberOf_bitsOf (checkOf f.span).isLt), hbits, hkind, bodyOf_bits hbody, hnumber, hprio, hsource,
    hsite]
  simp

theorem body_length_lt (b : FrameBody) : b.length < 16 := by cases b <;> simp [FrameBody.length]

/-- What is read of bits sent with their insert bits, the first 26 of them being the start bit and those up to the length (R4, R6,
R17). -/
theorem readFromStart_stuff {first rest : List Level} (tail : List Level) (hfirst : first.length = 25)
    (hrest : rest.length = 32 + 8 * numberOf (first.drop 21)) :
    readFromStart (stuff .start ((false :: first) ++ rest) ++ tail) =
      if endFieldRead 8 tail = true then frameOf first rest (numberOf (first.drop 21)) else .framing := by
  have hread := readBits_stuff .start (false :: first) (stuff (runOf .start (false :: first)) rest ++ tail)
  have hread' := readBits_stuff (runOf .start (false :: first)) rest tail
  rw [List.length_cons, hfirst] at hread
  rw [hrest] at hread'
  unfold readFromStart
  rw [stuff_append, List.append_assoc, hread]
  dsimp only
  rw [show (false :: first).drop 1 = first from rfl, hread']

theorem numberOf_length (f : Frame) : numberOf ((f.header ++ bitsOf 4 f.body.length).drop 21) = f.body.length := by
  rw [List.drop_append_of_le_length (by simp [header_length]), List.drop_of_length_le (by simp [header_length]), List.nil_append,
    numberOf_bitsOf (body_length_lt _)]

/-- The levels of a legal frame are read from the start bit on as that frame (R17). -/
theorem readFromStart_levels {f : Frame} (h : f.legal = true) : readFromStart f.levels = .frame f := by
  unfold Frame.levels
  rw [payload_eq, readFromStart_stuff _ (by simp [header_length]) (by rw [rest_length, numberOf_length]),
    show endFieldRead 8 endField = true from rfl, if_pos rfl, numberOf_length, frameOf_header h]

theorem levels_cons (f : Frame) : ∃ more, f.levels = false :: more := by
  exact ⟨stuff (Run.start.push false) (f.span ++ bitsOf 16 (checkOf f.span).toNat) ++ endField, rfl⟩

/-- The wait for a start bit ends at the first dominant bit on an idle line, however long it was idle (R6). -/
theorem frameLevels_idle (more : List Level) (run idle : Nat) (h : 10 ≤ run + idle) :
    frameLevels [] run (List.replicate idle true ++ false :: more) = false :: more := by
  have hawait : (awaitStart run (List.replicate idle true ++ false :: more)).2 = false :: more := by
    induction idle generalizing run with
    | zero => simp [awaitStart, Config.idleBits, show 10 ≤ run from h]
    | succ k ih =>
      rw [List.replicate_succ, List.cons_append, awaitStart]
      refine ih _ ?_
      simp only [Config.idleBits]
      omega
  simpa [frameLevels] using hawait

theorem readFrame_of_frameLevels {f : Frame} (h : f.legal = true) {heard levels : List Level} {run : Nat}
    (hframe : frameLevels heard run levels = f.levels) : readFrame heard run levels = .frame f := by
  obtain ⟨more, hmore⟩ := levels_cons f
  unfold readFrame
  rw [hframe, ← readFromStart_levels h, hmore]

theorem readFrame_idle {f : Frame} (h : f.legal = true) {run idle : Nat} (hidle : 10 ≤ run + idle) :
    readFrame [] run (List.replicate idle true ++ f.levels) = .frame f := by
  obtain ⟨more, hmore⟩ := levels_cons f
  refine readFrame_of_frameLevels h ?_
  rw [hmore, frameLevels_idle more run idle hidle]

theorem readFrame_heard {f : Frame} (h : f.legal = true) {heard levels : List Level} (run : Nat) (hne : heard ≠ [])
    (hlevels : heard ++ levels = f.levels) : readFrame heard run levels = .frame f := by
  refine readFrame_of_frameLevels h ?_
  unfold frameLevels
  rw [if_neg (by simpa using hne), hlevels]

end Sys2Proof.Machine

/-- Settles O59: the levels from the start bit on are those of the frame, and reading undoes what sending does. -/
theorem sentFrameIsReadBack : Obligations.SentFrameIsReadBack :=
  fun _ h => ⟨fun _ _ hidle => readFrame_idle h hidle, fun _ _ run hne hlevels => readFrame_heard h run hne hlevels⟩
end

