-- ==== Sys2Proof/Proofs/Filter.lean ====
section
/-! SUPPORT. The receive filter: what is read of the line, and frames that take no further step (R6, R17, R18). -/

open Sys2Proof Sys2Proof.Machine

namespace Sys2Proof.Machine

section
variable {s : State} {levels : List Level} {o : Order}

theorem canHandOn_of (h : ∀ a, s.line.attempt = some a → a.handedOn = false) : s.line.canHandOn = true := by
  unfold LineUnit.canHandOn
  cases ha : s.line.attempt with
  | none => rfl
  | some a => simp [h a ha]

theorem exec_frameReceived (h : ∀ a, s.line.attempt = some a → a.handedOn = false) :
    exec (.frameReceived levels o) s = .next (settle s (receive levels o s)) := by
  change execFrameReceived levels o s = _
  rw [execFrameReceived, if_pos (canHandOn_of h), act]

/-- What was read is over: the recessive bits it leaves (R6). -/
theorem endReading_eq {r : Received} (hr : r ≠ .nothing) :
    endReading r levels s = { s with line := s.line.afterReading (runAfter s.line.recessiveRun levels r) } := by
  have hr' : (r != .nothing) = true := by simpa using hr
  unfold endReading LineUnit.afterReading
  cases ha : s.line.attempt with
  | none => simp only [ha]
  | some a => simp only [hr']

theorem exec_frameReceived_read {r : Received} (h : ∀ a, s.line.attempt = some a → a.handedOn = false)
    (hread : readFrame s.line.heard s.line.recessiveRun levels = r) (hr : r ≠ .nothing) :
    exec (.frameReceived levels o) s = .next (settle s (filterRead r o
      { s with line := s.line.afterReading (runAfter s.line.recessiveRun levels r) })) := by
  rw [exec_frameReceived h]
  unfold receive
  dsimp only
  rw [hread, endReading_eq hr]

/-- A frame heard reaches the site step (R17, R18). -/
theorem exec_frameReceived_hears {f : Frame} (hlegal : f.legal = true) (h : Hears s levels f) :
    exec (.frameReceived levels o) s = .next (settle s (filterFrame f o { s with line := s.line.afterReading 8 })) := by
  obtain ⟨hattempt, hears⟩ := h
  have hread : readFrame s.line.heard s.line.recessiveRun levels = .frame f := by
    rcases hears with ⟨hheard, idle, hidle, rfl⟩ | ⟨hheard, hlevels⟩
    · rw [hheard]
      exact readFrame_idle hlegal hidle
    · exact readFrame_heard hlegal _ hheard hlevels
  rw [exec_frameReceived_read hattempt hread (by simp), filterRead, runAfter]
end

/-- Reading changes the count of recessive bits, the levels heard and the mark of the attempt alone. -/
@[simp] theorem afterReading_frame (u : LineUnit) (n : Nat) :
    (∀ k, (u.afterReading n).slot k = u.slot k) ∧ (u.afterReading n).pointer = u.pointer ∧ (u.afterReading n).failures = u.failures ∧
      (u.afterReading n).state = u.state ∧ (u.afterReading n).silence = u.silence ∧ (u.afterReading n).txDone = u.txDone ∧
      (u.afterReading n).txErr = u.txErr ∧ (u.afterReading n).txDropped = u.txDropped ∧ (u.afterReading n).rxCheck = u.rxCheck ∧
      (u.afterReading n).rxForeign = u.rxForeign ∧ (u.afterReading n).rxGood = u.rxGood := by
  unfold LineUnit.afterReading
  cases u.attempt <;> exact ⟨fun k => by cases k <;> rfl, rfl, rfl, rfl, rfl, rfl, rfl, rfl, rfl, rfl, rfl⟩

end Sys2Proof.Machine

/-- Settles O47: the site step discards and counts it. -/
theorem foreignFrameIsDiscarded : Obligations.ForeignFrameIsDiscarded := by
  intro s f levels o hlegal hsite hears hs
  rw [exec_frameReceived_hears hlegal hears]
  unfold filterFrame
  rw [if_pos hsite, settle_of_congr hs (by rfl) (by rfl) (by rfl) (by rfl) (by rfl)]
  simp
end

