-- ==== Sys2Proof/Proofs/Framing.lean ====
section
/-! SUPPORT. Framing faults and corrupt frames: five equal levels, a dominant bit in the end field, and illegal contents
(R3, R5, R6, R17). -/

open Sys2Proof Sys2Proof.Machine

namespace Sys2Proof.Machine

/-! ## Reading bit by bit (R6) -/

/-- What one bit read makes of the reading of the bits after it. -/
def Reading.consBit (b : Level) : Reading (List Level × Run × List Level) → Reading (List Level × Run × List Level)
  | .ok (bs, r, ls) => .ok (b :: bs, r, ls)
  | .framing => .framing

theorem readBits_full {r : Run} (h : r.full = true) (n : Nat) (ls : List Level) :
    readBits (n + 1) r ls = if (nextLevel ls).1 = r.level then .framing
      else (readBits n ((r.push (nextLevel ls).1).push (nextLevel (nextLevel ls).2).1) (nextLevel (nextLevel ls).2).2).consBit
        (nextLevel (nextLevel ls).2).1 := by
  rw [readBits]
  rw [if_pos h]
  dsimp only
  split
  · rfl
  · generalize readBits n _ _ = x
    cases x <;> rfl

theorem readBits_not_full {r : Run} (h : r.full = false) (n : Nat) (ls : List Level) :
    readBits (n + 1) r ls = (readBits n (r.push (nextLevel ls).1) (nextLevel ls).2).consBit (nextLevel ls).1 := by
  rw [readBits]
  rw [if_neg (by simp [h])]
  dsimp only
  generalize readBits n _ _ = x
  cases x <;> rfl

/-- Where the first bits are read, reading them all is reading the others from there. -/
theorem readBits_add_framing {n m : Nat} {r r' : Run} {ls ls' bs : List Level} (h : readBits n r ls = .ok (bs, r', ls'))
    (hall : readBits (n + m) r ls = .framing) : readBits m r' ls' = .framing := by
  have hcons (b : Level) (x : Reading (List Level × Run × List Level)) (y : List Level × Run × List Level)
      (hx : x.consBit b = .ok y) : ∃ bs, x = .ok (bs, y.2) := by
    cases x with
    | framing => simp [Reading.consBit] at hx
    | ok z => obtain ⟨z1, z2⟩ := z; simp only [Reading.consBit, Reading.ok.injEq] at hx; subst hx; exact ⟨z1, rfl⟩
  have hframing (b : Level) (x : Reading (List Level × Run × List Level)) (hx : x.consBit b = .framing) : x = .framing := by
    cases x with
    | framing => rfl
    | ok z => simp [Reading.consBit] at hx
  induction n generalizing r ls bs with
  | zero =>
    simp only [readBits, Reading.ok.injEq, Prod.mk.injEq] at h
    obtain ⟨-, rfl, rfl⟩ := h
    simpa using hall
  | succ n ih =>
    rw [Nat.succ_add] at hall
    by_cases hf : r.full = true
    · rw [readBits_full hf] at h hall
      split at h
      · simp at h
      · rename_i hne
        rw [if_neg hne] at hall
        obtain ⟨bs', hx⟩ := hcons _ _ _ h
        exact ih hx (hframing _ _ hall)
    · have hf : r.full = false := by simpa using hf
      rw [readBits_not_full hf] at h hall
      obtain ⟨bs', hx⟩ := hcons _ _ _ h
      exact ih hx (hframing _ _ hall)

/-- After bits sent with their insert bits, reading goes on from the run they leave. -/
theorem readBits_after_stuff {xs tail : List Level} {r : Run} {n : Nat} (h : readBits n (runOf r xs) tail = .framing) :
    readBits (xs.length + n) r (stuff r xs ++ tail) = .framing := by
  induction xs generalizing r with
  | nil => simpa [stuff, runOf] using h
  | cons b bs ih =>
    rw [List.length_cons, Nat.succ_add]
    by_cases hf : r.full = true
    · rw [readBits_full hf]
      rw [runOf, if_pos hf] at h
      simp only [stuff, hf, if_true, List.cons_append, nextLevel]
      rw [if_neg (by simp), ih h]
      rfl
    · have hf : r.full = false := by simpa using hf
      rw [readBits_not_full hf]
      rw [runOf, if_neg (by simp [hf])] at h
      simp only [stuff, hf, nextLevel]
      rw [if_neg (by simp)]
      dsimp only [List.cons_append]
      rw [ih h]
      rfl

/-! ## Five equal levels in a row (R6) -/

/-- A run that levels of its own kind follow to a fifth is a framing fault. -/
theorem readBits_same_level (b : Level) (more : List Level) (n m c : Nat) (hn1 : 1 ≤ n) (hm1 : 1 ≤ m) (hn : 5 ≤ n + c) (hm : 5 ≤ m + c) :
    readBits n ⟨b, c⟩ (List.replicate m b ++ more) = .framing := by
  induction m generalizing n c with
  | zero => omega
  | succ m ih =>
    obtain ⟨n, rfl⟩ : ∃ k, n = k + 1 := ⟨n - 1, by omega⟩
    by_cases hc : 4 ≤ c
    · rw [readBits_full (by simpa [Run.full] using hc)]
      simp [List.replicate_succ, nextLevel]
    · rw [readBits_not_full (by simpa [Run.full] using hc)]
      have hpush : (⟨b, c⟩ : Run).push b = ⟨b, c + 1⟩ := by simp [Run.push]
      simp only [List.replicate_succ, List.cons_append, nextLevel]
      rw [hpush, ih n (c + 1) (by omega) (by omega) (by omega) (by omega)]
      rfl

/-- Five equal levels are a framing fault, whatever was read before (R6). -/
theorem readBits_five (b : Level) (more : List Level) (n : Nat) (r : Run) (hn : 5 ≤ n) :
    readBits n r (List.replicate 5 b ++ more) = .framing := by
  obtain ⟨level, c⟩ := r
  by_cases hb : level = b
  · subst hb
    exact readBits_same_level _ _ _ _ _ (by omega) (by omega) (by omega) (by omega)
  · have hother : b ≠ level := fun h => hb h.symm
    have hpush (k : Nat) : (⟨level, k⟩ : Run).push b = ⟨b, 1⟩ := by simp [Run.push, hother]
    have hpush' : (⟨b, 1⟩ : Run).push b = ⟨b, 2⟩ := by simp [Run.push]
    obtain ⟨n, rfl⟩ : ∃ k, n = k + 1 := ⟨n - 1, by omega⟩
    by_cases hc : 4 ≤ c
    · rw [readBits_full (by simpa [Run.full] using hc), show List.replicate 5 b = b :: b :: List.replicate 3 b from rfl]
      simp only [List.cons_append, nextLevel]
      refine (if_neg hother).trans ?_
      rw [hpush, hpush', readBits_same_level b more n 3 2 (by omega) (by omega) (by omega) (by omega)]
      rfl
    · rw [readBits_not_full (by simpa [Run.full] using hc), show List.replicate 5 b = b :: List.replicate 4 b from rfl]
      simp only [List.cons_append, nextLevel]
      rw [hpush, readBits_same_level b more n 4 1 (by omega) (by omega) (by omega) (by omega)]
      rfl

/-! ## A frame with a framing fault (R6) -/

/-- A frame read from its start bit is a framing fault where the bits it asks for hold one. -/
theorem readFromStart_framing {levels : List Level}
    (h : ∀ first r more, readBits 26 .start levels = .ok (first, r, more) →
      readBits (26 + (32 + 8 * numberOf ((first.drop 1).drop 21))) .start levels = .framing) : readFromStart levels = .framing := by
  unfold readFromStart
  cases hfirst : readBits 26 .start levels with
  | framing => rfl
  | ok x =>
    obtain ⟨first, r, more⟩ := x
    dsimp only
    rw [readBits_add_framing hfirst (h first r more hfirst)]

theorem readFrame_of_start {levels more : List Level} (h : levels = false :: more) : readFrame [] 10 levels = readFromStart levels := by
  unfold readFrame
  have hframe : frameLevels [] 10 levels = false :: more := by
    rw [h]
    exact frameLevels_idle more 10 0 (by omega)
  rw [hframe, h]

/-- Five equal levels within positions 1 through 9 (R6). -/
theorem readFrame_five {f : Frame} (b : Level) (more : List Level) {j : Nat} (h1 : 1 ≤ j) (h5 : j + 5 ≤ f.payload.length) :
    readFrame [] 10 (stuff .start (f.payload.take j) ++ List.replicate 5 b ++ more) = .framing := by
  obtain ⟨j, rfl⟩ : ∃ k, j = k + 1 := ⟨j - 1, by omega⟩
  have hstart : stuff .start (f.payload.take (j + 1)) ++ List.replicate 5 b ++ more = false :: (stuff (Run.start.push false)
      ((f.span ++ bitsOf 16 (checkOf f.span).toNat).take j) ++ List.replicate 5 b ++ more) := rfl
  rw [readFrame_of_start hstart, List.append_assoc]
  refine readFromStart_framing fun first r tail hfirst => ?_
  have hlength : (f.payload.take (j + 1)).length = j + 1 := by rw [List.length_take]; omega
  -- Enough bits are asked for: 58 at least, and where the length was read before the fault, those of the frame.
  have henough : j + 1 + 5 ≤ 26 + (32 + 8 * numberOf ((first.drop 1).drop 21)) := by
    by_cases hj : j + 1 ≤ 53
    · omega
    · have htake : f.payload.take (j + 1) = (false :: (f.header ++ bitsOf 4 f.body.length)) ++ f.rest.take (j + 1 - 26) := by
        rw [payload_eq, List.take_append, List.take_of_length_le (by simp [header_length]; omega)]
        simp [header_length]
      rw [htake, stuff_append, List.append_assoc] at hfirst
      have hread := readBits_stuff .start (false :: (f.header ++ bitsOf 4 f.body.length))
        (stuff (runOf .start (false :: (f.header ++ bitsOf 4 f.body.length))) (f.rest.take (j + 1 - 26)) ++ (List.replicate 5 b ++ more))
      rw [show (false :: (f.header ++ bitsOf 4 f.body.length)).length = 26 by simp [header_length], hfirst] at hread
      simp only [Reading.ok.injEq, Prod.mk.injEq] at hread
      obtain ⟨rfl, -, -⟩ := hread
      have hpayload : f.payload.length = 26 + (32 + 8 * f.body.length) := by
        rw [payload_eq, List.length_append, rest_length]
        simp [header_length]
      rw [show (false :: (f.header ++ bitsOf 4 f.body.length)).drop 1 = f.header ++ bitsOf 4 f.body.length from rfl, numberOf_length]
      omega
  obtain ⟨n, hn⟩ : ∃ n, 26 + (32 + 8 * numberOf ((first.drop 1).drop 21)) = j + 1 + n := ⟨_, (Nat.add_sub_cancel' (by omega)).symm⟩
  have hread := readBits_after_stuff (xs := f.payload.take (j + 1)) (r := .start) (readBits_five b more n
    (runOf .start (f.payload.take (j + 1))) (by omega))
  rw [hn]
  rwa [hlength] at hread

/-- A dominant bit in the end field (R6). -/
theorem readFrame_endField {f : Frame} {k : Nat} (more : List Level) (hk : k < 8) :
    readFrame [] 10 (stuff .start f.payload ++ List.replicate k true ++ false :: more) = .framing := by
  have hend (n : Nat) (h : k < n) : endFieldRead n (List.replicate k true ++ false :: more) = false := by
    induction k generalizing n with
    | zero =>
      obtain ⟨n, rfl⟩ : ∃ i, n = i + 1 := ⟨n - 1, by omega⟩
      rfl
    | succ k ih =>
      obtain ⟨n, rfl⟩ : ∃ i, n = i + 1 := ⟨n - 1, by omega⟩
      simpa [endFieldRead, List.replicate_succ, nextLevel] using ih (by omega) n (by omega)
  have hstart : stuff .start f.payload ++ List.replicate k true ++ false :: more = false :: (stuff (Run.start.push false)
      (f.span ++ bitsOf 16 (checkOf f.span).toNat) ++ List.replicate k true ++ false :: more) := rfl
  rw [readFrame_of_start hstart, payload_eq, List.append_assoc, readFromStart_stuff _ (by simp [header_length])
    (by rw [rest_length, numberOf_length]), hend 8 hk]
  rfl

/-! ## Corrupt frames (R3, R5, R17) -/

/-- What a frame of any contents is read as (R4, R17). -/
theorem readFrame_contents {header number body check : List Level} {length : Nat} (hh : header.length = 21) (hl : length < 16)
    (hn : number.length = 16) (hb : body.length = 8 * length) (hc : check.length = 16) :
    readFrame [] 10 (stuff .start (false :: (header ++ bitsOf 4 length ++ number ++ body ++ check)) ++ endField) =
      if numberOf check = (checkOf (header ++ bitsOf 4 length ++ number ++ body)).toNat then
        match bodyOf (numberOf (header.take 3)) length body with
        | some b => .frame ⟨numberOf ((header.drop 3).take 8), Fin.ofNat 64 (numberOf ((header.drop 11).take 6)),
            Fin.ofNat 16 (numberOf ((header.drop 17).take 4)), BitVec.ofNat 16 (numberOf number), b⟩
        | none => .corrupt
      else .corrupt := by
  have hstart : stuff .start (false :: (header ++ bitsOf 4 length ++ number ++ body ++ check)) ++ endField =
      false :: (stuff (Run.start.push false) (header ++ bitsOf 4 length ++ number ++ body ++ check) ++ endField) := rfl
  have hlength : numberOf ((header ++ bitsOf 4 length).drop 21) = length := by
    rw [List.drop_left' hh, numberOf_bitsOf hl]
  have hparts : false :: (header ++ bitsOf 4 length ++ number ++ body ++ check) =
      (false :: (header ++ bitsOf 4 length)) ++ (number ++ body ++ check) := by simp
  rw [readFrame_of_start hstart, hparts, readFromStart_stuff _ (by simp [hh]) (by rw [hlength]; simp [hn, hb, hc]; omega),
    show endFieldRead 8 endField = true from rfl, if_pos rfl, hlength]
  unfold frameOf
  have hspan : (number ++ body ++ check).take (16 + 8 * length) = number ++ body := List.take_left' (by simp [hn, hb])
  have hcheck : (number ++ body ++ check).drop (16 + 8 * length) = check := List.drop_left' (by simp [hn, hb])
  have hbody : ((number ++ body ++ check).drop 16).take (8 * length) = body := by
    rw [List.append_assoc, List.drop_left' hn, List.take_left' hb]
  have hnumber : (number ++ body ++ check).take 16 = number := by rw [List.append_assoc, List.take_left' hn]
  have hkind : (header ++ bitsOf 4 length).take 3 = header.take 3 := List.take_append_of_le_length (by omega)
  have hfield (a n : Nat) (h : a + n ≤ 21) : ((header ++ bitsOf 4 length).drop a).take n = (header.drop a).take n := by
    rw [List.drop_append_of_le_length (by omega), List.take_append_of_le_length (by rw [List.length_drop]; omega)]
  dsimp only
  rw [hspan, hcheck, hbody, hnumber, hkind, hfield 3 8 (by omega), hfield 11 6 (by omega), hfield 17 4 (by omega), ← List.append_assoc] <;> rfl

/-- A body of an illegal kind, length or field (R3). -/
theorem bodyOf_none {kind length : Nat} {bits : List Level}
    (h : 4 < kind ∨ length ≠ [1, 6, 1, 10, 2].getD kind 0 ∨ (kind = 0 ∨ kind = 2) ∧ 3 < numberOf bits ∨
      kind = 1 ∧ 2 < numberOf (bits.take 8) ∨
      kind = 3 ∧ (4000 < numberOf ((bits.drop 24).take 16) ∨ 4000 < numberOf (bits.drop 64))) : bodyOf kind length bits = none := by
  unfold bodyOf
  split
  · rw [dif_neg]
    simp at h
    omega
  · have hmode : Mode.ofCode (numberOf (bits.take 8)) = none := by
      simp at h
      generalize numberOf (bits.take 8) = n at h
      match n, h with
      | n + 3, _ => rfl
    rw [hmode]
  · have hreason : WithdrawReason.ofCode (numberOf bits) = none := by
      simp at h
      generalize numberOf bits = n at h
      match n, h with
      | n + 4, _ => rfl
    rw [hreason]
    rfl
  · refine if_neg ?_
    simp at h
    dsimp only
    omega
  · simp at h
  · rfl

end Sys2Proof.Machine
end

