-- ==== Sys2Proof/Proofs/Drops.lean ====
section
/-! SUPPORT. Dropping every pending frame, and the ends of an attempt by the first level that differs (R7, R11, R12, R15, R19). -/

open Sys2Proof Sys2Proof.Machine

namespace Sys2Proof.Machine

/-! ## Every pending frame dropped (R15, R19) -/

/-- How many of the slots hold a frame. -/
def LineUnit.pendingIn (u : LineUnit) (ks : List Slot) : Nat := (ks.filter (fun k => (u.slot k).isSome)).length

theorem pendingIn_cons (u : LineUnit) (k : Slot) (ks : List Slot) :
    u.pendingIn (k :: ks) = (if (u.slot k).isSome = true then 1 else 0) + u.pendingIn ks := by
  unfold LineUnit.pendingIn
  rw [List.filter_cons]
  split <;> simp [Nat.add_comm]

theorem count_eq {n : Nat} (h : n ≤ 65535) : count n = min 65535 (n + 1) := by
  unfold count
  split <;> omega

/-- The frames of the slots `ks` have been dropped: what else the line shows stays, and so do the view's entries and the tally
list. -/
structure Emptied (ks : List Slot) (s t : State) : Prop where
  slots : ∀ k, t.line.slot k = if k ∈ ks then none else s.line.slot k
  dropped : s.line.txDropped ≤ 65535 → t.line.txDropped = min 65535 (s.line.txDropped + s.line.pendingIn ks)
  line : t.line = { s.line with
    markSlot := t.line.markSlot, withdrawSlot := t.line.withdrawSlot, offerSlot := t.line.offerSlot
    reportSlot := t.line.reportSlot, txDropped := t.line.txDropped }
  shown : t.view.entries = s.view.entries ∧ t.view.received = s.view.received ∧ t.feeder.tallies = s.feeder.tallies

theorem emptied_dropSlot (k : Slot) (s : State) : Emptied [k] s (dropSlot k s) := by
  cases h : s.line.slot k with
  | none =>
    rw [dropSlot_of_empty k s h]
    refine ⟨fun j => ?_, fun hle => ?_, rfl, rfl, rfl, rfl⟩
    · by_cases hj : j = k
      · subst hj; simp [h]
      · simp [hj]
    · have hnone : s.line.pendingIn [k] = 0 := by simp [LineUnit.pendingIn, h]
      omega
  | some q =>
    refine ⟨fun j => ?_, fun hle => ?_, ?_, ?_⟩
    · rw [dropSlot_line k s q h]
      exact (slot_setSlot _ _ _ _).trans (by simp)
    · have hone : s.line.pendingIn [k] = 1 := by simp [LineUnit.pendingIn, h]
      rw [dropSlot_line k s q h, hone]
      exact count_eq hle
    · rw [dropSlot_line k s q h]
      cases k <;> rfl
    · unfold dropSlot tellDrop offerFate goalDropped
      rw [h]
      dsimp only
      (repeat' split) <;> exact ⟨rfl, rfl, rfl⟩

theorem Emptied.trans {k : Slot} {ks : List Slot} {s t u : State} (h : Emptied [k] s t) (h' : Emptied ks t u) (hk : k ∉ ks) :
    Emptied (k :: ks) s u := by
  refine ⟨fun j => ?_, fun hle => ?_, ?_, ?_⟩
  · rw [h'.slots, h.slots]
    by_cases hj : j = k <;> by_cases hjs : j ∈ ks <;> simp [hj, hjs]
  · have hsame : t.line.pendingIn ks = s.line.pendingIn ks := by
      unfold LineUnit.pendingIn
      refine congrArg List.length (List.filter_congr fun j hj => ?_)
      rw [h.slots, if_neg (by simp; rintro rfl; exact hk hj)]
    have hfirst := h.dropped hle
    have hsecond := h'.dropped (by omega)
    have hcons := pendingIn_cons s.line k ks
    have hone := pendingIn_cons s.line k []
    have hnil : s.line.pendingIn [] = 0 := rfl
    omega
  · have h1 := h.line
    have h2 := h'.line
    rw [h1] at h2
    exact h2
  · obtain ⟨a, b, c⟩ := h.shown
    obtain ⟨a', b', c'⟩ := h'.shown
    exact ⟨a'.trans a, b'.trans b, c'.trans c⟩

/-- Every pending frame is dropped and counted; the pointer stays (R15, R19). -/
theorem emptied_dropAll (s : State) : Emptied [.mark, .withdraw, .offer, .report] s (dropAll s) := by
  refine (emptied_dropSlot .mark s).trans ((emptied_dropSlot .withdraw _).trans ((emptied_dropSlot .offer _).trans
    (emptied_dropSlot .report _) ?_) ?_) ?_ <;> decide

/-- A slot emptied before every slot is emptied, under either pointer: each frame is dropped and counted once. -/
theorem Emptied.absorb {k : Slot} {s t u : State} (h : Emptied [k] s t) (h' : Emptied [.mark, .withdraw, .offer, .report] t u) :
    Emptied [.mark, .withdraw, .offer, .report] s u := by
  refine ⟨fun j => ?_, fun hle => ?_, ?_, ?_⟩
  · rw [h'.slots, if_pos (by cases j <;> simp), if_pos (by cases j <;> simp)]
  · have hcount : s.line.pendingIn [.mark, .withdraw, .offer, .report] =
        s.line.pendingIn [k] + t.line.pendingIn [.mark, .withdraw, .offer, .report] := by
      cases k <;> simp [pendingIn_cons, LineUnit.pendingIn.eq_1 _ [], h.slots] <;> omega
    have hfirst := h.dropped hle
    have hsecond := h'.dropped (by omega)
    omega
  · have h1 := h.line
    have h2 := h'.line
    rw [h1] at h2
    exact h2
  · obtain ⟨a, b, c⟩ := h.shown
    obtain ⟨a', b', c'⟩ := h'.shown
    exact ⟨a'.trans a, b'.trans b, c'.trans c⟩

/-- Every pending frame is dropped once, whether or not the deadline of the attempt's frame came first (R11, R15). -/
theorem emptied_releaseSlot_dropAll (a : Attempt) (s : State) : ∃ p,
    Emptied [.mark, .withdraw, .offer, .report] { s with line := { s.line with pointer := p } } (dropAll (releaseSlot a s)) := by
  have hkept : ∃ p, Emptied [.mark, .withdraw, .offer, .report] { s with line := { s.line with pointer := p } } (dropAll s) :=
    ⟨s.line.pointer, emptied_dropAll s⟩
  unfold releaseSlot takeDeadline dropAtDeadline
  split
  · exact hkept
  split
  · split
    · exact hkept
    · next hq =>
      refine ⟨slotSource a.slot, Emptied.absorb (k := a.slot) ?_ (emptied_dropAll _)⟩
      have hslot := emptied_dropSlot a.slot s
      refine ⟨fun j => ?_, fun hle => ?_, ?_, hslot.shown⟩
      · refine Eq.trans ?_ ((hslot.slots j).trans ?_) <;> cases j <;> rfl
      · exact hslot.dropped hle
      · dsimp only
        rw [hslot.line]
  · exact hkept

/-! ## The end of an attempt at the first level that differs (R7, R12) -/

theorem judgeLevels_same (arbitration : Nat) (same sent read : List Level) (k : Nat) :
    judgeLevels arbitration k (same ++ sent) (same ++ read) = judgeLevels arbitration (k + same.length) sent read := by
  induction same generalizing k with
  | nil => rfl
  | cons b bs ih =>
    rw [List.cons_append, List.cons_append, judgeLevels, if_pos rfl, ih, List.length_cons]
    congr 1
    omega

theorem judgeLevels_differs (arbitration : Nat) (same later more : List Level) (x : Level) :
    judgeLevels arbitration 0 (same ++ x :: later) (same ++ (!x) :: more) =
      some (if x = true ∧ same.length < arbitration then .lost else .failed) := by
  rw [judgeLevels_same, judgeLevels, if_neg (by simp), Nat.zero_add]
  split <;> rfl

theorem heardUntilLost_differs (same later more : List Level) (x : Level) :
    heardUntilLost (same ++ x :: later) (same ++ (!x) :: more) = same ++ [!x] := by
  induction same with
  | nil => simp [heardUntilLost]
  | cons b bs ih => simp [heardUntilLost, ih]

/-- What is left to a frame in time by the end of its attempt: it stays pending (R9, R11). -/
theorem takeDeadline_of_timely {s : State} {k : Slot}
    (h : ∀ q, s.line.slot k = some q → q.expired = false ∧ ∀ d, q.deadline = some d → s.timer.c < d) : takeDeadline k s = s := by
  refine if_neg ?_
  cases hq : s.line.slot k with
  | none => simp [State.deadlineDue, hq]
  | some q =>
    obtain ⟨hfresh, hin⟩ := h q hq
    rw [deadlineDue_iff hq, timeRanOut_iff]
    rintro ⟨hout | ⟨d, hd, hle⟩, -⟩
    · simp [hfresh] at hout
    · have := hin d hd
      omega

/-- The line after a failed attempt (R12). -/
def State.failed (s : State) : State :=
  { s with line := { s.line with
    attempt := none, recessiveRun := 0, txErr := count s.line.txErr, failures := s.line.failures + 1 } }

theorem failAttempt_eq {s : State} {a : Attempt} (ha : s.line.attempt = some a) :
    failAttempt s = if (releaseSlot a s.failed).line.failures < 16 then releaseSlot a s.failed
      else enterSilent (releaseSlot a s.failed) := by
  unfold failAttempt
  rw [ha]
  rfl

/-- The deadline of a slot changes neither the failure count nor what an attempt has counted. -/
theorem releaseSlot_line (a : Attempt) (s : State) :
    (releaseSlot a s).line.failures = s.line.failures ∧ (releaseSlot a s).line.txErr = s.line.txErr ∧
      (releaseSlot a s).line.txDone = s.line.txDone ∧ (releaseSlot a s).line.attempt = s.line.attempt := by
  have hdrop (k : Slot) (u : State) : (dropSlot k u).line.failures = u.line.failures ∧ (dropSlot k u).line.txErr = u.line.txErr ∧
      (dropSlot k u).line.txDone = u.line.txDone ∧ (dropSlot k u).line.attempt = u.line.attempt := by
    rw [(emptied_dropSlot k u).line]
    exact ⟨rfl, rfl, rfl, rfl⟩
  unfold releaseSlot takeDeadline dropAtDeadline
  (repeat' split) <;> first | exact ⟨rfl, rfl, rfl, rfl⟩ | exact hdrop _ _

end Sys2Proof.Machine

/-- Settles O46: the attempt judged at the first difference, and the slot its frame stands in. -/
theorem attemptEndsAtTheFirstDifference : Obligations.AttemptEndsAtTheFirstDifference := by
  intro s a same later more x ha hlevels hs
  have hjudge : judgeAttempt a.frame (same ++ (!x) :: more) =
      some (if x = true ∧ same.length < a.frame.arbitrationEnd then .lost else .failed) := by
    unfold judgeAttempt
    rw [hlevels]
    exact judgeLevels_differs _ _ _ _ _
  have hended (e : AttemptEnd) : s.attemptEnded (same ++ (!x) :: more) e = true ↔
      (if x = true ∧ same.length < a.frame.arbitrationEnd then AttemptEnd.lost else .failed) = e := by
    unfold State.attemptEnded
    rw [ha]
    dsimp only
    rw [hjudge]
    simp
  refine ⟨fun hlost => ?_, fun hlost hfew => ?_, fun hlost hmany hle => ?_⟩
  · have hexec : exec (.lostArbitration (same ++ (!x) :: more)) s = .next (releaseSlot a
        { s with line := { s.line with attempt := none, recessiveRun := 0, heard := same ++ [!x] } }) := by
      change execLostArbitration _ s = _
      rw [execLostArbitration, if_pos ((hended _).mpr (if_pos hlost)), loseAttempt, ha]
      dsimp only
      rw [hlevels, heardUntilLost_differs]
      rfl
    refine ⟨fun hkeep => ?_, fun hdet => ?_⟩
    · rw [hexec, releaseSlot]
      rcases hkeep with hdet | htimely
      · rw [if_pos hdet]
      · split
        · rfl
        · exact congrArg Host.Outcome.next (takeDeadline_of_timely htimely)
    · rw [hexec, releaseSlot, if_neg (by simp [hdet])]
      rfl
  · have hfailed : (if x = true ∧ same.length < a.frame.arbitrationEnd then AttemptEnd.lost else .failed) = .failed := if_neg hlost
    have hexec : exec (.transmitFailure (same ++ (!x) :: more)) s = .next (settle s (releaseSlot a s.failed)) := by
      change execTransmitFailure _ s = _
      rw [execTransmitFailure, if_pos ((hended _).mpr hfailed), act, failAttempt_eq ha, if_pos]
      rw [(releaseSlot_line a s.failed).1]
      exact hfew
    have hsettled : settle s (releaseSlot a s.failed) = releaseSlot a s.failed := by
      refine settle_of_congr hs ?_ ?_ ?_ ?_ ?_ <;> (unfold releaseSlot; split <;> simp [State.failed])
    rw [hsettled, releaseSlot] at hexec
    refine ⟨fun hkeep => ?_, fun hdet => ?_⟩
    · rw [hexec]
      rcases hkeep with hdet | htimely
      · rw [if_pos hdet]
        rfl
      · split
        · rfl
        · exact congrArg Host.Outcome.next (takeDeadline_of_timely htimely)
    · rw [hexec, if_neg (by simp [hdet])]
      rfl
  · have hfailed : (if x = true ∧ same.length < a.frame.arbitrationEnd then AttemptEnd.lost else .failed) = .failed := if_neg hlost
    have hact : act failAttempt s = settle s (enterSilent (releaseSlot a s.failed)) := by
      rw [act, failAttempt_eq ha, if_neg]
      rw [(releaseSlot_line a s.failed).1]
      exact Nat.not_lt.mpr hmany
    refine ⟨settle s (enterSilent (releaseSlot a s.failed)), ?_, ?_, ?_⟩
    · change execEnterSilent _ s = _
      rw [execEnterSilent, if_pos, hact]
      rw [(hended _).mpr hfailed, Bool.true_and]
      exact decide_eq_true hmany
    · change execTransmitFailure _ s = _
      rw [execTransmitFailure, if_pos ((hended _).mpr hfailed), hact]
    · obtain ⟨p, hempty⟩ := emptied_releaseSlot_dropAll a s.failed
      have hslots := hempty.slots
      have hdropped := hempty.dropped hle
      have hline := hempty.line
      have hsettled : Settled (enterSilent (releaseSlot a s.failed)) := by
        refine hs.congr ?_ ?_ ?_ ?_ <;> simp [enterSilent, State.failed]
      have hpointer (htimely : ∀ q, s.line.slot a.slot = some q → q.expired = false ∧ ∀ d, q.deadline = some d → s.timer.c < d) :
          releaseSlot a s.failed = s.failed := by
        unfold releaseSlot
        split
        · rfl
        · exact takeDeadline_of_timely htimely
      rw [settle_eq_noteFaults hsettled]
      generalize ht : noteFaults s.status.word (enterSilent (releaseSlot a s.failed)) = t
      have htline : t.line = { (dropAll (releaseSlot a s.failed)).line with state := .silent, failures := 0, silence := 2 } := by
        subst ht
        exact (noteFaults_frame _ _).2.2.1
      have hword (f : Flag) : f.isSet t.status.word = (f.isSet s.status.word || decide (f = .lineFault)) := by
        subst ht
        rw [noteFaults_word, enterSilent, isSet_raise]
        simp [State.failed]
      have hframe : t.timer = s.timer ∧ t.session = s.session ∧ t.account = s.account ∧ t.alloc = s.alloc ∧ t.apply = s.apply ∧
          t.port = s.port ∧ t.service = s.service ∧ t.time = s.time := by
        subst ht
        simp [enterSilent, State.failed]
      have hall (k : Slot) : t.line.slot k = none := by
        rw [htline]
        refine Eq.trans ?_ ((hslots k).trans ?_) <;> cases k <;> rfl
      refine ⟨?_, ?_, ?_, ?_, hall, ?_, ?_, fun htimely => ?_, ?_, hword, hframe⟩
      · rw [htline]
      · rw [htline]
      · rw [htline]
      · rw [htline, hline]; rfl
      · rw [htline, hline]; rfl
      · rw [htline, hline]; rfl
      · rw [htline, hpointer htimely, (emptied_dropAll s.failed).line]
        rfl
      · rw [htline]
        exact hdropped
end

