-- ==== Sys2Proof/Proofs/FilterStops.lean ====
section
/-! SUPPORT. What the receive filter stops: idle levels, faults, corrupt frames and the own number (R3, R6, R17, R19). -/

open Sys2Proof Sys2Proof.Machine

namespace Sys2Proof.Machine

/-- Recessive bits alone end in nothing read (R6). -/
theorem awaitStart_idle (idle : Nat) {run : Nat} (h : run ≤ 10) : awaitStart run (List.replicate idle true) = (min 10 (run + idle), []) := by
  have := awaitStart_recessive [] idle run h
  rwa [List.append_nil] at this

/-- A dominant bit before the line is idle starts the wait anew (R6). -/
theorem awaitStart_early (more : List Level) {idle run : Nat} (h : run + idle < 10) :
    awaitStart run (List.replicate idle true ++ false :: more) = awaitStart 0 more := by
  rw [awaitStart_recessive _ _ _ (by omega), awaitStart, if_neg]
  simp only [Config.idleBits]
  omega

/-- What is read depends on the wait for the start bit alone (R6). -/
theorem receive_of_awaitStart {s : State} {levels more : List Level} (o : Order) (hattempt : s.line.attempt = none)
    (hheard : s.line.heard = []) (hawait : awaitStart s.line.recessiveRun levels = awaitStart 0 more) :
    receive levels o s = receive more o { s with line := { s.line with recessiveRun := 0 } } := by
  have hread : readFrame s.line.heard s.line.recessiveRun levels = readFrame s.line.heard 0 more := by
    unfold readFrame frameLevels
    rw [hheard, hawait] <;> rfl
  have hrun (r : Received) : runAfter s.line.recessiveRun levels r = runAfter 0 more r := by
    cases r with
    | nothing => exact congrArg Prod.fst hawait
    | framing | corrupt | frame f => rfl
  unfold receive endReading
  dsimp only
  rw [hread, hattempt]
  dsimp only
  rw [hrun]

theorem receive_idle {s : State} (idle : Nat) (o : Order) (hattempt : s.line.attempt = none) (hheard : s.line.heard = [])
    (hrun : s.line.recessiveRun ≤ 10) :
    receive (List.replicate idle true) o s =
      { s with line := { s.line with recessiveRun := min 10 (s.line.recessiveRun + idle) } } := by
  have hread : readFrame s.line.heard s.line.recessiveRun (List.replicate idle true) = .nothing := by
    unfold readFrame frameLevels
    rw [hheard, awaitStart_idle idle hrun]
    rfl
  unfold receive endReading
  dsimp only
  rw [hread, hattempt]
  dsimp only
  rw [filterRead, runAfter, awaitStart_idle idle hrun, ← hheard]

/-- The line in CLASH: nothing pending, no attempt, and the other counts stay (R14, R19). -/
theorem enterClash_line {s : State} (h : s.line.state ≠ .clash) :
    (enterClash s).line = { (dropAll s).line with
      state := .clash, failures := 0, attempt := none, recessiveRun := (enterClash s).line.recessiveRun } := by
  unfold enterClash giveUpAttempt endAttempt
  rw [if_neg h]
  split
  · rfl
  · next hnone =>
    have : (dropAll s).line.attempt = none := by simpa using hnone
    simp [raise, ← this]

theorem enterClash_keeps {s : State} (h : s.line.state ≠ .clash) :
    enterClash s = raise .clash { dropAll s with line := (enterClash s).line } := by
  unfold enterClash giveUpAttempt endAttempt
  rw [if_neg h]
  split <;> rfl

end Sys2Proof.Machine

/-- Settles O48: the reader's verdicts, the wait for the start bit, and the own number. -/
theorem filterStopsBadAndOwnFrames : Obligations.FilterStopsBadAndOwnFrames := by
  refine ⟨fun s levels o hattempt hs => ⟨fun hread => ?_, fun hread => ?_⟩,
    fun f more _ => ⟨fun j b h1 h5 => readFrame_five b more h1 h5, fun k hk => readFrame_endField more hk⟩,
    fun header number body check length hh hl hn hb hc hbad => ?_,
    fun s idle more o hattempt hheard hs hrun => ⟨?_, fun hearly => ?_⟩,
    fun s f levels o hlegal hsite hsource hears hs => ⟨fun hclash => ?_, fun hclash hle => ?_⟩⟩
  · rw [exec_frameReceived_read hattempt hread (by simp), filterRead, countCheck,
      settle_of_congr hs (by rfl) (by rfl) (by rfl) (by rfl) (by rfl)]
    simp [runAfter]
  · rw [exec_frameReceived_read hattempt hread (by simp), filterRead, countCheck,
      settle_of_congr hs (by rfl) (by rfl) (by rfl) (by rfl) (by rfl)]
    simp [runAfter]
  · rw [readFrame_contents hh hl hn hb hc]
    rcases hbad with hcheck | hbody
    · rw [if_neg hcheck]
    · rw [bodyOf_none hbody, ite_self]
  · rw [exec_frameReceived (by simp [hattempt]), receive_idle idle o hattempt hheard hrun,
      settle_of_congr hs (by rfl) (by rfl) (by rfl) (by rfl) (by rfl)]
  · rw [exec_frameReceived (by simp [hattempt]), exec_frameReceived (by simp [hattempt]),
      receive_of_awaitStart o hattempt hheard (awaitStart_early more hearly)]
    rfl
  all_goals
    rw [exec_frameReceived_hears hlegal hears, filterFrame, if_neg (by simp [hsite]), if_pos (by exact hsource)]
  · rw [enterClash, if_pos (by simpa using hclash), settle_of_congr hs (by rfl) (by rfl) (by rfl) (by rfl) (by rfl)]
  · generalize hu : { s with line := s.line.afterReading 8 } = u
    have huclash : u.line.state ≠ .clash := by subst hu; simpa using hclash
    have hline := enterClash_line huclash
    have hkeeps := enterClash_keeps huclash
    have hempty := emptied_dropAll u
    have hdropped := hempty.dropped (by subst hu; simpa using hle)
    generalize enterClash u = v at hline hkeeps
    have hframe : v.timer = s.timer ∧ v.session = s.session ∧ v.account = s.account ∧ v.alloc = s.alloc ∧ v.apply = s.apply ∧
        v.port = s.port ∧ v.service = s.service ∧ v.time = s.time := by
      rw [hkeeps, ← hu]
      simp
    have hsettled : Settled v := by
      obtain ⟨-, hsession, -, -, happly, hport, -⟩ := hframe
      exact hs.congr (by rw [hport]) (by rw [hport]) (by rw [happly]) (by rw [hsession])
    have hword (g : Flag) : g.isSet v.status.word = (g.isSet s.status.word || decide (g = .clash)) := by
      rw [hkeeps, isSet_raise, ← hu]
      simp
    have hshown : v.view.entries = s.view.entries ∧ v.view.received = s.view.received ∧ v.feeder.tallies = s.feeder.tallies := by
      rw [hkeeps]
      have := hempty.shown
      rw [← hu] at this ⊢
      exact this
    have hslots (k : Slot) : v.line.slot k = none := by
      rw [hline]
      refine Eq.trans ?_ ((hempty.slots k).trans ?_) <;> cases k <;> rfl
    have hkept : v.line.pointer = s.line.pointer ∧ v.line.rxGood = s.line.rxGood ∧ v.line.rxForeign = s.line.rxForeign ∧
        v.line.rxCheck = s.line.rxCheck ∧ v.line.txErr = s.line.txErr ∧ v.line.txDone = s.line.txDone := by
      rw [hline, hempty.line, ← hu]
      simp
    have hcount : v.line.txDropped = min 65535 (s.line.txDropped +
          ([Slot.mark, .withdraw, .offer, .report].filter fun k => (s.line.slot k).isSome).length) := by
      rw [hline]
      refine hdropped.trans ?_
      subst hu
      simp [LineUnit.pendingIn]
    have hstate : v.line.state = .clash ∧ v.line.attempt = none ∧ v.line.failures = 0 := by
      rw [hline]
      exact ⟨rfl, rfl, rfl⟩
    have hnoted := noteFaults_word s.status.word v
    rw [settle_eq_noteFaults hsettled, noteFaults_eq_status]
    generalize (noteFaults s.status.word v).status = st at hnoted
    obtain ⟨hpointer, hcounts⟩ := hkept
    obtain ⟨htimer, hparts⟩ := hframe
    obtain ⟨hgood, hforeign, hcheck, herr, hdone⟩ := hcounts
    obtain ⟨hclashed, hnone, hfew⟩ := hstate
    obtain ⟨hentries, hreceived, htallies⟩ := hshown
    exact ⟨_, rfl, hclashed, hnone, hfew, hslots, hpointer, hcount, hgood, hforeign, hcheck, herr, hdone,
      fun g => (congrArg g.isSet hnoted).trans (hword g), htimer, hentries, hreceived, htallies, hparts⟩
end

