-- ==== Sys2Proof/Proofs/Confirmations.lean ====
section
/-! SUPPORT. Entries written by station, and the confirmation of an attempt (R9, R10, R12, R13, R83, R85). -/

open Sys2Proof Sys2Proof.Machine

namespace Sys2Proof.Machine

/-- In a list in key order the element written replaces the one of its key (R83). -/
theorem mem_insertKeyed_iff {α : Type} (key : α → Fin 64) (x y : α) {l : List α}
    (h : l.Pairwise fun a b => key a < key b) : y ∈ insertKeyed key x l ↔ y = x ∨ y ∈ l ∧ key y ≠ key x := by
  induction l with
  | nil => simp [insertKeyed]
  | cons z rest ih =>
    obtain ⟨hz, hrest⟩ := List.pairwise_cons.mp h
    have hlater (hle : key x ≤ key z) (hy : y ∈ rest) : key y ≠ key x := (hle.trans_lt (hz y hy)).ne'
    rw [insertKeyed]
    split
    · next hlt =>
      simp only [List.mem_cons]
      constructor
      · rintro (rfl | rfl | hy)
        · exact .inl rfl
        · exact .inr ⟨.inl rfl, hlt.ne'⟩
        · exact .inr ⟨.inr hy, hlater hlt.le hy⟩
      · tauto
    split
    · next heq =>
      simp only [List.mem_cons]
      constructor
      · rintro (rfl | hy)
        · exact .inl rfl
        · exact .inr ⟨.inr hy, hlater heq.le hy⟩
      · rintro (rfl | ⟨rfl | hy, hne⟩)
        · exact .inl rfl
        · exact absurd heq.symm hne
        · exact .inr hy
    · next hne =>
      rw [List.mem_cons, ih hrest, List.mem_cons]
      constructor
      · rintro (rfl | rfl | ⟨hy, hk⟩)
        · exact .inr ⟨.inl rfl, Ne.symm hne⟩
        · exact .inl rfl
        · exact .inr ⟨.inr hy, hk⟩
      · tauto

/-- A whole frame read back confirms the attempt (R12). -/
theorem judgeLevels_confirmed (arbitration k : Nat) (sent more : List Level) :
    judgeLevels arbitration k sent (sent ++ more) = some .confirmed := by
  induction sent generalizing k with
  | nil => rfl
  | cons x xs ih => rw [List.cons_append, judgeLevels, if_pos rfl, ih]

/-- The line and its counts as an attempt is confirmed (R10, R12). -/
def State.confirmed (s : State) (a : Attempt) : State :=
  { s with line := { s.line with
    attempt := none, recessiveRun := 8, txDone := count s.line.txDone, failures := 0, pointer := slotSource a.slot } }

theorem exec_frameConfirmed {s : State} {a : Attempt} (ha : s.line.attempt = some a) (more : List Level) :
    exec (.frameConfirmed (a.frame.levels ++ more)) s = .next (
      if a.detached then s.confirmed a
      else match s.line.slot a.slot with
        | some q => tellConfirmed q { s.confirmed a with line := (s.confirmed a).line.setSlot a.slot none }
        | none => s.confirmed a) := by
  have hended : s.attemptEnded (a.frame.levels ++ more) .confirmed = true := by
    unfold State.attemptEnded judgeAttempt
    rw [ha]
    dsimp only
    rw [judgeLevels_confirmed]
    rfl
  change execFrameConfirmed _ s = _
  rw [execFrameConfirmed, if_pos hended]
  unfold confirmAttempt
  rw [ha]
  rfl

/-- A slot written leaves the line as it is but for the slots. -/
theorem setSlot_shape (u : LineUnit) (k : Slot) (q : Option Queued) : u.setSlot k q = { u with
    markSlot := (u.setSlot k q).markSlot, withdrawSlot := (u.setSlot k q).withdrawSlot
    offerSlot := (u.setSlot k q).offerSlot, reportSlot := (u.setSlot k q).reportSlot } := by
  cases k <;> rfl

/-- Of a confirmation the view alone is told (R13, R82, R85). -/
theorem tellConfirmed_eq (q : Queued) (s : State) : tellConfirmed q s = { s with view := (tellConfirmed q s).view } := by
  unfold tellConfirmed confirmOffer offerFate
  (repeat' split) <;> rfl

/-- The own OFFER of the next interval enters an OPEN view (R85). -/
theorem tellConfirmed_offer {q : Queued} {v : OfferBody} {s : State} (hbody : q.frame.body = .offer v) (hfresh : q.expired = false) :
    tellConfirmed q s = match s.view.phase with
      | .opened => if q.frame.number = s.timer.n + 1 then offerFate .confirmed q.frame.number
          { s with view := { s.view with entries := insertKeyed Entry.station ⟨s.straps.stn, v, none, .own⟩ s.view.entries } } else s
      | .frozen => offerFate .late q.frame.number s
      | .closed => s := by
  unfold tellConfirmed confirmOffer
  rw [hbody]
  dsimp only
  rw [hfresh, insertOwn_eq] <;> rfl

end Sys2Proof.Machine

/-- Settles O45: the attempt confirmed, its slot, and the owner of an OFFER told. -/
theorem confirmedFrameLeavesItsSlot : Obligations.ConfirmedFrameLeavesItsSlot := by
  intro s a more ha
  rw [exec_frameConfirmed ha]
  have hpointer : slotSource a.slot = (match a.slot with | .mark => Source.timing | .report => .report | _ => .dispatch) := by
    cases a.slot <;> rfl
  have hsame (k : Slot) : (s.confirmed a).line.slot k = s.line.slot k := by cases k <;> rfl
  cases hdet : a.detached with
  | true =>
    refine ⟨_, rfl, fun k => ?_, rfl, rfl, rfl, hpointer, rfl, rfl, rfl, rfl, rfl, fun _ => rfl, fun q h => ?_⟩
    · simpa using hsame k
    · simp at h
  | false =>
    cases hq : s.line.slot a.slot with
    | none =>
      refine ⟨_, rfl, fun k => ?_, rfl, rfl, rfl, hpointer, rfl, rfl, rfl, rfl, rfl, fun _ => rfl, fun q _ h => ?_⟩
      · refine (hsame k).trans ?_
        split
        · next h => rw [h.2, hq]
        · rfl
      · simp at h
    | some q =>
      generalize hu : ({ s.confirmed a with line := (s.confirmed a).line.setSlot a.slot none } : State) = u
      have hslots (k : Slot) : u.line.slot k = if a.detached = false ∧ k = a.slot then none else s.line.slot k := by
        rw [← hu, hdet]
        exact (slot_setSlot _ _ _ _).trans (by simp [hsame])
      have hline : u.line = { s.line with
          attempt := none, recessiveRun := 8, txDone := count s.line.txDone, failures := 0, pointer := slotSource a.slot
          markSlot := u.line.markSlot, withdrawSlot := u.line.withdrawSlot, offerSlot := u.line.offerSlot
          reportSlot := u.line.reportSlot } := by
        rw [← hu]
        exact setSlot_shape (s.confirmed a).line a.slot none
      have hview : u.view = s.view ∧ u.timer = s.timer ∧ u.straps = s.straps := by rw [← hu]; exact ⟨rfl, rfl, rfl⟩
      have hrest : u = { s with line := u.line } := by rw [← hu]; rfl
      have hdead (h : (∀ v, q.frame.body ≠ .offer v) ∨ q.expired = true) : (tellConfirmed q u).view = s.view := by
        unfold tellConfirmed confirmOffer
        split
        · next v hv =>
          rw [if_pos (h.resolve_left fun hno => hno v hv), hview.1]
        · exact hview.1
      have hlive (v : OfferBody) (hv : q.frame.body = .offer v) (hfresh : q.expired = false) :
          (s.view.phase = .opened → q.frame.number = s.timer.n + 1 → ViewLaw s →
            ∀ e, e ∈ (tellConfirmed q u).view.entries ↔
              e = ⟨s.straps.stn, v, none, .own⟩ ∨ e ∈ s.view.entries ∧ e.station ≠ s.straps.stn) ∧
          (s.view.phase ≠ .opened → (tellConfirmed q u).view.entries = s.view.entries) ∧
          (s.view.record.composed = true → s.view.record.interval = q.frame.number → s.view.record.fate = .pending →
            (s.view.phase = .opened → q.frame.number = s.timer.n + 1 → (tellConfirmed q u).view.record.fate = .confirmed) ∧
            (s.view.phase = .frozen → (tellConfirmed q u).view.record.fate = .late)) := by
        obtain ⟨hvw, htimer, hstraps⟩ := hview
        rw [tellConfirmed_offer hv hfresh, hvw, htimer, hstraps]
        refine ⟨fun hopen hnext hlaw e => ?_, fun hopen => ?_, fun hcomposed hinterval hpending => ⟨fun hopen hnext => ?_, fun hfrozen => ?_⟩⟩
        · rw [hopen]
          dsimp only
          rw [if_pos hnext]
          rw [show ∀ x : State, (offerFate .confirmed q.frame.number x).view.entries = x.view.entries from fun x => by simp]
          exact mem_insertKeyed_iff _ _ _ hlaw.1
        · cases hphase : s.view.phase with
          | opened => exact absurd hphase hopen
          | frozen => simp [hvw]
          | closed => simp [hvw]
        · rw [hopen]
          dsimp only
          rw [if_pos hnext, offerFate, if_pos ⟨hcomposed, hinterval, hpending⟩]
        · rw [hfrozen]
          dsimp only
          rw [offerFate, if_pos (by rw [hvw]; exact ⟨hcomposed, hinterval, hpending⟩)]
      have htold := tellConfirmed_eq q u
      generalize (tellConfirmed q u).view = w at htold hdead hlive
      simp only [hdet] at hslots ⊢
      refine ⟨tellConfirmed q u, by rw [if_neg (by simp)], ?_⟩
      rw [htold]
      refine ⟨hslots, ?_, ?_, ?_, ?_, ?_, ?_, ?_, ?_, ?_, fun h => by simp at h, fun q' _ h => ?_⟩
      · rw [hline]
      · rw [hline]
      · rw [hline]
      · rw [hline]; exact hpointer
      · rw [hline]
      · rw [hline]
      · rw [hline]
      · rw [hline]
      · rw [hrest]
      · obtain rfl : q = q' := by simpa using h
        exact ⟨hdead, hlive⟩
end

