-- ==== Sys2Proof/Proofs/Boundaries.lean ====
section
/-! SUPPORT. The blocks' parts of a boundary: line, engine and status (R16, R98, R109, R111 to R113). -/

open Sys2Proof Sys2Proof.Machine

namespace Sys2Proof.Machine

/-! ## The line's state and silence count -/

/-- State and silence count of the line stay. -/
abbrev SameSilence (s t : State) : Prop := t.line.silence = s.line.silence ∧ t.line.state = s.line.state

theorem SameSilence.of_line {s t : State} (h : t.line = s.line) : SameSilence s t := by rw [SameSilence, h]; exact ⟨rfl, rfl⟩

theorem SameSilence.trans {s t u : State} (h : SameSilence s t) (h' : SameSilence t u) : SameSilence s u :=
  ⟨h'.1.trans h.1, h'.2.trans h.2⟩

theorem sameSilence_dropAtDeadline (k : Slot) (s : State) : SameSilence s (dropAtDeadline k s) := by
  unfold dropAtDeadline
  split
  · exact ⟨rfl, rfl⟩
  · have h := (emptied_dropSlot k s).line
    constructor
    · exact (congrArg LineUnit.silence h).trans rfl
    · exact (congrArg LineUnit.state h).trans rfl

theorem sameSilence_endDeadlines (o : Order) (s : State) : SameSilence s (endDeadlines o s) := by
  have hone (k : Slot) (x : State) : SameSilence x (endDeadline k x) := by
    unfold endDeadline
    (repeat' split)
    · exact ⟨rfl, rfl⟩
    · exact ⟨rfl, rfl⟩
    · constructor <;> (dsimp only; rw [setSlot_shape])
    · exact sameSilence_dropAtDeadline k x
  unfold endDeadlines
  split
  · exact (hone _ _).trans ((hone _ _).trans (hone _ _))
  · exact (hone _ _).trans ((hone _ _).trans (hone _ _))

theorem sameSilence_queueFrame (k : Slot) (q : Queued) (s : State) : SameSilence s (queueFrame k q s) := by
  by_cases h : s.line.state = .clash
  · rw [queueFrame_of_clash h]
    refine SameSilence.trans (t := { s with line := { s.line with txDropped := count s.line.txDropped } }) ⟨rfl, rfl⟩ (.of_line ?_)
    simp
  · have hline := (queueFrame_of_not_clash (k := k) (q := q) h).1
    rw [setSlot_shape] at hline
    exact ⟨(congrArg LineUnit.silence hline).trans rfl, (congrArg LineUnit.state hline).trans rfl⟩

theorem sameSilence_closeTotals (kind : BoundaryKind) (s : State) : SameSilence s (closeTotals kind s) := by
  refine SameSilence.trans (t := queueTally kind s) ?_ (.of_line (by simp [closeTotals]))
  unfold queueTally
  split
  · exact sameSilence_queueFrame _ _ _
  · exact ⟨rfl, rfl⟩

theorem sameSilence_markBoundary (kind : BoundaryKind) (s : State) : SameSilence s (markBoundary kind s) := by
  unfold markBoundary queueMark
  split
  · exact sameSilence_queueFrame _ _ _
  · exact ⟨rfl, rfl⟩

/-- A boundary counts a silence down, and the one that ends it returns the line to ACTIVE (R16). -/
theorem countSilence_line (s : State) : (countSilence s).line.silence = s.line.silence - 1 ∧
    (countSilence s).line.state = if s.line.silence = 1 ∧ s.line.state = .silent then .active else s.line.state := by
  unfold countSilence
  split
  · next h => exact ⟨by rw [h], by rw [if_neg (by rw [h]; simp)]⟩
  · exact ⟨rfl, rfl⟩

theorem takeBoundary_silence (kind : BoundaryKind) (n : IntervalNo) (o : Order) (s : State) :
    (takeBoundary kind n o s).line.silence = s.line.silence - 1 ∧
    (takeBoundary kind n o s).line.state = if s.line.silence = 1 ∧ s.line.state = .silent then .active else s.line.state := by
  simp [takeBoundary, sameSilence_closeTotals, sameSilence_markBoundary, countSilence_line, sameSilence_endDeadlines]

/-! ## The engine and the status word -/

/-- A boundary raises what its load and the engine raise (R109, R113). -/
theorem takeBoundary_word (kind : BoundaryKind) (n : IntervalNo) (o : Order) (s : State) (f : Flag) :
    f.isSet (takeBoundary kind n o s).status.word = true ↔ f.isSet s.status.word = true ∨
      f = .clipped ∧ (loadOf kind s).clipped = true ∨ f = .late ∧ ∃ i k, s.alloc.engine = .computing i k := by
  have hengine (x : State) : f.isSet (engineBoundary x).status.word = true ↔
      f.isSet x.status.word = true ∨ f = .late ∧ ∃ i k, x.alloc.engine = .computing i k := by
    unfold engineBoundary abandonWith
    split
    · next i k h =>
      rw [(cause_status _ _).1, isSet_raise]
      simp [h]
    · next h => exact ⟨.inl, fun hor => hor.resolve_right fun ⟨_, i, k, hk⟩ => h i k hk⟩
  simp [takeBoundary, hengine, viewBoundary, applyLoad, raiseIf_word, or_assoc]

/-- A boundary that abandons a computation keeps what the freeze point fixed; any other keeps the result (R98, R109). -/
theorem takeBoundary_alloc (kind : BoundaryKind) (n : IntervalNo) (o : Order) (s : State) :
    (∀ i k, s.alloc.engine = .computing i k → (takeBoundary kind n o s).alloc = ⟨.idle, i.abandoned⟩) ∧
      ((∀ i k, s.alloc.engine ≠ .computing i k) → (takeBoundary kind n o s).alloc = { s.alloc with engine := .idle }) := by
  have hengine (x : State) : (∀ i k, x.alloc.engine = .computing i k → (engineBoundary x).alloc = ⟨.idle, i.abandoned⟩) ∧
      ((∀ i k, x.alloc.engine ≠ .computing i k) → (engineBoundary x).alloc = { x.alloc with engine := .idle }) := by
    unfold engineBoundary
    cases x.alloc.engine with
    | idle => exact ⟨fun _ _ h => (by simp at h), fun _ => rfl⟩
    | ready p => exact ⟨fun _ _ h => (by simp at h), fun _ => rfl⟩
    | computing i k =>
      refine ⟨fun j l h => ?_, fun h => absurd rfl (h i k)⟩
      cases h
      rfl
  constructor
  · intro i k h
    simp only [takeBoundary, cause_frame, markBoundary_frame, beginComposition_frame, feederBoundary_frame, closeTotals_frame,
      viewBoundary_frame]
    exact (hengine _).1 i k (by simpa using h)
  · intro h
    simp only [takeBoundary, cause_frame, markBoundary_frame, beginComposition_frame, feederBoundary_frame, closeTotals_frame,
      viewBoundary_frame]
    refine ((hengine _).2 (by simpa using h)).trans ?_
    simp

/-- A factor caused is set; no other changes (R159). -/
theorem factor_isSet_cause (f g : Factor) (s : State) :
    g.isSet (cause f s).status.factors = (g.isSet s.status.factors || decide (g = f)) := by
  cases f <;> cases g <;> simp [Factor.isSet, cause, Factor.bit]

/-- A boundary causes BOUNDARY, and RESULT where it abandons a computation (R109, R159). -/
theorem takeBoundary_factors (kind : BoundaryKind) (n : IntervalNo) (o : Order) (s : State) :
    Factor.boundary.isSet (takeBoundary kind n o s).status.factors = true ∧
      ((∃ i k, s.alloc.engine = .computing i k) → Factor.result.isSet (takeBoundary kind n o s).status.factors = true) := by
  refine ⟨by simp [takeBoundary, factor_isSet_cause], fun ⟨i, k, h⟩ => ?_⟩
  have hengine (x : State) (hx : x.alloc.engine = .computing i k) : Factor.result.isSet (engineBoundary x).status.factors = true := by
    unfold engineBoundary abandonWith
    rw [hx]
    simp [factor_isSet_cause]
  have := hengine (applyLoad (loadOf kind s) n (countSilence (timerBoundary kind n (endDeadlines o s)))) (by simpa using h)
  simpa [takeBoundary, factor_isSet_cause, viewBoundary] using this

/-- The judged share, with the limit as the statement of R113 orders it. -/
theorem judgeShare_eq (p : Int) (s : State) : judgeShare p s =
    if s.session.state ≠ .engaged then ⟨0, .notEngaged, false⟩
    else if s.paused then ⟨0, .paused, false⟩
    else if s.stale then ⟨0, .stale, false⟩
    else if s.port.meterLost then ⟨0, .meterLost, false⟩
    else if 0 < p ∧ s.atReserve then ⟨0, .reserve, false⟩
    else if p.natAbs ≤ s.limit p then ⟨p, .loaded, false⟩
    else ⟨if 0 < p then s.limit p else -(s.limit p : Int), .loaded, true⟩ := by
  have hsign (h : ¬p.natAbs ≤ s.limit p) : withSignOf p (s.limit p) = if 0 < p then (s.limit p : Int) else -(s.limit p : Int) := by
    unfold withSignOf
    split
    · rw [if_neg (by omega)]
    · rw [if_pos (by omega)]
  unfold judgeShare
  iterate 5 refine if_congr Iff.rfl rfl ?_
  split
  · next h => rw [if_neg (by omega), hsign (by omega)]
  · next h => rw [if_pos (by omega)]

end Sys2Proof.Machine

/-- Settles O36: the load, the engine and the silence count, part by part. -/
theorem boundaryLoadsTheJudgedShare : Obligations.BoundaryLoadsTheJudgedShare := by
  intro kind n o s
  refine ⟨fun h => ?_, fun i ticks h => ⟨?_, ?_, fun f => ?_, ?_, (takeBoundary_view kind n o s).2⟩, fun p h => ⟨fun hk => ?_, fun hk => ⟨?_, fun hc => ?_⟩⟩,
    (takeBoundary_silence kind n o s).1, (takeBoundary_silence kind n o s).2⟩
  · rw [takeBoundary_apply, loadOf, h]
  · rw [takeBoundary_apply, loadOf, h]
  · rw [(takeBoundary_alloc kind n o s).1 i ticks h]
    unfold AllocInput.abandoned
    rfl
  · rw [Bool.eq_iff_iff, takeBoundary_word]
    simp [loadOf, h]
  · exact (takeBoundary_factors kind n o s).2 ⟨i, ticks, h⟩
  · have hnot : kind.handsOver = false := by
      simp only [List.mem_cons, List.not_mem_nil, or_false] at hk
      rcases hk with rfl | rfl | rfl <;> rfl
    rw [takeBoundary_apply, loadOf, h]
    simp [hnot]
  · have hload : loadOf kind s = judgeShare p s := by
      simp only [List.mem_cons, List.not_mem_nil, or_false] at hk
      rw [loadOf, h]
      rcases hk with rfl | rfl | rfl <;> rfl
    rw [takeBoundary_apply, hload, judgeShare_eq]
    (repeat' split) <;> rfl
  · rw [takeBoundary_word]
    rw [takeBoundary_apply] at hc
    exact .inr (.inl ⟨rfl, hc⟩)
end

