-- ==== Sys2Proof/Proofs/SiteBoundary.lean ====
section
/-! SUPPORT. The Feeder Unit's part of a boundary (R11, R125, R128, R130, R135, R136). -/

open Sys2Proof Sys2Proof.Machine

namespace Sys2Proof.Machine

/-- The goal list when the TARGET of an interval is dropped (R135). -/
def goalsDropped (number : IntervalNo) (goals : List Goal) : List Goal :=
  goals.map fun g => if g.interval = number then { g with dropped := true } else g

theorem endDeadline_of_none {k : Slot} {s : State} (h : ∀ q, s.line.slot k = some q → q.deadline = none) : endDeadline k s = s := by
  unfold endDeadline
  cases hq : s.line.slot k with
  | none => rfl
  | some q => simp [h q hq]

theorem endDeadline_of_carried {k : Slot} {q : Queued} {d : Nat} {s : State} (hq : s.line.slot k = some q)
    (hd : q.deadline = some d) (hc : s.line.carries k = true) :
    endDeadline k s = { s with line := s.line.setSlot k (some { q with expired := true }) } := by
  unfold endDeadline
  rw [hq]
  dsimp only
  rw [hd]
  exact if_pos hc

theorem endDeadline_of_free {k : Slot} {q : Queued} {d : Nat} {s : State} (hq : s.line.slot k = some q)
    (hd : q.deadline = some d) (hc : s.line.carries k = false) : endDeadline k s = dropAtDeadline k s := by
  unfold endDeadline
  rw [hq]
  dsimp only
  rw [hd]
  exact if_neg (by simp [hc])

/-- Ending a deadline leaves the Feeder Unit as it is, unless it drops a TARGET (R11, R135). -/
theorem endDeadline_feeder {k : Slot} {s : State}
    (h : ∀ q, s.line.slot k = some q → ∀ m a b c, q.frame.body ≠ .target m a b c) : (endDeadline k s).feeder = s.feeder := by
  by_cases hd : ∀ q, s.line.slot k = some q → q.deadline = none
  · rw [endDeadline_of_none hd]
  · push Not at hd
    obtain ⟨q, hq, hd⟩ := hd
    obtain ⟨d, hd⟩ := Option.ne_none_iff_exists'.mp hd
    cases hc : s.line.carries k with
    | true => rw [endDeadline_of_carried hq hd hc]
    | false =>
      rw [endDeadline_of_free hq hd hc, dropAtDeadline_eq hq, tellDrop_feeder]
      have hbody := h q hq
      cases hb : q.frame.body with
      | target m a b c => exact absurd hb (hbody m a b c)
      | mark | offer | tally | withdraw => rfl

/-- The goal list as the deadline of the TARGET's slot leaves it (R11, R135). -/
def goalsAtDeadline (u : LineUnit) (goals : List Goal) : List Goal :=
  match u.reportSlot with
  | some ⟨⟨_, _, _, number, .target _ _ _ _⟩, some _, _⟩ => if u.carries .report then goals else goalsDropped number goals
  | _ => goals

theorem endDeadline_report_feeder (s : State) :
    (endDeadline .report s).feeder = { s.feeder with goals := goalsAtDeadline s.line s.feeder.goals } := by
  unfold goalsAtDeadline
  cases hq : s.line.reportSlot with
  | none => rw [endDeadline_of_none (by simp [LineUnit.slot, hq])]
  | some q =>
    obtain ⟨⟨priority, source, site, number, body⟩, deadline, expired⟩ := q
    cases deadline with
    | none =>
      rw [endDeadline_of_none (by simp [LineUnit.slot, hq])]
      cases body <;> rfl
    | some d =>
      cases hc : s.line.carries .report with
      | true =>
        rw [endDeadline_of_carried (by exact hq) (by rfl) hc]
        cases body <;> rfl
      | false =>
        rw [endDeadline_of_free (by exact hq) (by rfl) hc, dropAtDeadline_eq (by exact hq), tellDrop_feeder]
        cases body <;> rfl

/-- Ending one deadline leaves the other slots and the attempt (R9, R11). -/
theorem endDeadline_line {k j : Slot} (h : j ≠ k) (s : State) :
    (endDeadline k s).line.slot j = s.line.slot j ∧ (endDeadline k s).line.attempt = s.line.attempt := by
  unfold endDeadline
  cases hq : s.line.slot k with
  | none => exact ⟨rfl, rfl⟩
  | some q =>
    dsimp only
    split
    · exact ⟨rfl, rfl⟩
    split
    · exact ⟨(slot_setSlot _ _ _ _).trans (if_neg h), by rw [setSlot_shape]⟩
    · rw [dropAtDeadline_eq hq, tellDrop_eq]
      constructor
      · rw [show ∀ (u : LineUnit) (n : Nat) (p : Source), ({ u with txDropped := n, pointer := p } : LineUnit).slot j = u.slot j from
          fun u n p => by cases j <;> rfl]
        exact (slot_setSlot _ _ _ _).trans (if_neg h)
      · dsimp only
        rw [setSlot_shape]

/-- Ending the deadlines drops at most the TARGET that waits in its slot (R11, R135). -/
theorem endDeadlines_feeder (o : Order) {s : State}
    (h : ∀ slot q, slot ≠ .report → s.line.slot slot = some q → ∀ m a b c, q.frame.body ≠ .target m a b c) :
    (endDeadlines o s).feeder = { s.feeder with goals := goalsAtDeadline s.line s.feeder.goals } := by
  have hreport {x : State} (hslot : x.line.slot .report = s.line.slot .report) (hattempt : x.line.attempt = s.line.attempt)
      (hfeeder : x.feeder = s.feeder) :
      (endDeadline .report x).feeder = { s.feeder with goals := goalsAtDeadline s.line s.feeder.goals } := by
    have hslot' : x.line.reportSlot = s.line.reportSlot := hslot
    rw [endDeadline_report_feeder, hfeeder]
    unfold goalsAtDeadline LineUnit.carries
    rw [hslot', hattempt]
  have hmark := endDeadline_feeder (k := .mark) (s := s) (fun q => h .mark q (by decide))
  have hmarkLine (j : Slot) (hj : j ≠ .mark) := endDeadline_line hj s
  unfold endDeadlines
  split
  · refine (endDeadline_feeder fun q hq => h .offer q (by decide) ?_).trans
      (hreport (hmarkLine .report (by decide)).1 (hmarkLine .report (by decide)).2 hmark)
    rw [← hq, (endDeadline_line (by decide) _).1, (hmarkLine .offer (by decide)).1]
  · have hoffer := endDeadline_feeder (k := .offer) (s := endDeadline .mark s) fun q hq => h .offer q (by decide) (by
      rw [← hq, (hmarkLine .offer (by decide)).1])
    have hofferLine := endDeadline_line (k := .offer) (j := .report) (by decide) (endDeadline .mark s)
    exact hreport (hofferLine.1.trans (hmarkLine .report (by decide)).1) (hofferLine.2.trans (hmarkLine .report (by decide)).2)
      (hoffer.trans hmark)

/-- The frames a boundary queues tell the Feeder Unit nothing (R28, R76). -/
theorem queueFrame_feeder {k : Slot} {q : Queued} (s : State) (h : ∀ m a b c, q.frame.body ≠ .target m a b c) :
    (queueFrame k q s).feeder = s.feeder := by
  by_cases hclash : s.line.state = .clash
  · rw [queueFrame_of_clash hclash, tellDrop_feeder]
    cases hb : q.frame.body with
    | target m a b c => exact absurd hb (h m a b c)
    | mark | offer | tally | withdraw => rfl
  · rw [(queueFrame_of_not_clash hclash).2]

theorem markBoundary_feeder (kind : BoundaryKind) (s : State) : (markBoundary kind s).feeder = s.feeder := by
  unfold markBoundary queueMark
  split
  · exact queueFrame_feeder s fun m a b c => by simp [State.frame]
  · rfl

theorem closeTotals_feeder (kind : BoundaryKind) (s : State) : (closeTotals kind s).feeder = s.feeder := by
  rw [closeTotals, (restartTotals_frame _).2.2.2.2.2.2.2.2.1]
  unfold queueTally
  split
  · exact queueFrame_feeder s fun m a b c => by simp [State.frame]
  · rfl

/-- A boundary closes the site measurement on what the ended deadlines leave (R11, R128). -/
theorem takeBoundary_feeder (kind : BoundaryKind) (n : IntervalNo) (o : Order) {s : State} (hrole : s.straps.role = .feeder)
    (h : ∀ slot q, slot ≠ .report → s.line.slot slot = some q → ∀ m a b c, q.frame.body ≠ .target m a b c) :
    (takeBoundary kind n o s).feeder = closeSite kind s.port.meterLost s.seconds
      (countValid (abandonTarget { s.feeder with goals := goalsAtDeadline s.line s.feeder.goals })) := by
  have hboundary (x : State) (hx : x.straps = s.straps) : (feederBoundary kind x).feeder =
      closeSite kind x.port.meterLost s.seconds (countValid (abandonTarget x.feeder)) := by
    unfold feederBoundary State.seconds
    rw [hx, hrole]
  unfold takeBoundary
  dsimp only
  rw [(cause_frame _ _).2.2.2.2.2.2.2.2.2.1, markBoundary_feeder, (beginComposition_frame _ _).2.2.2.2.2.2.2.1, hboundary _ (by simp),
    closeTotals_feeder]
  simp [viewBoundary, endDeadlines_feeder o h]

/-- A frame that is no OFFER tells the composer nothing (R82). -/
theorem queueFrame_view {k : Slot} {q : Queued} (s : State) (h : ∀ v, q.frame.body ≠ .offer v) : (queueFrame k q s).view = s.view := by
  by_cases hclash : s.line.state = .clash
  · rw [queueFrame_of_clash hclash, tellDrop_view]
    cases hb : q.frame.body with
    | offer v => exact absurd hb (h v)
    | mark | target | tally | withdraw => rfl
  · rw [(queueFrame_of_not_clash hclash).2]

theorem markBoundary_view (kind : BoundaryKind) (s : State) : (markBoundary kind s).view = s.view := by
  unfold markBoundary queueMark
  split
  · exact queueFrame_view s fun v => by simp [State.frame]
  · rfl

theorem closeTotals_view (kind : BoundaryKind) (s : State) : (closeTotals kind s).view = s.view := by
  rw [closeTotals, (restartTotals_frame _).2.2.2.2.2.1]
  unfold queueTally
  split
  · exact queueFrame_view s fun v => by simp [State.frame]
  · rfl

/-- Ending the deadlines reaches the OFFER record alone of the view (R82). -/
theorem endDeadlines_view (o : Order) (s : State) :
    (endDeadlines o s).view = { s.view with record := (endDeadlines o s).view.record } := by
  have hone (k : Slot) (x : State) : (endDeadline k x).view = { x.view with record := (endDeadline k x).view.record } := by
    unfold endDeadline dropAtDeadline dropSlot tellDrop offerFate goalDropped
    (repeat' split) <;> rfl
  have htwo {x y : State} (h : x.view = { s.view with record := x.view.record }) (h' : y.view = { x.view with record := y.view.record }) :
      y.view = { s.view with record := y.view.record } := by
    rw [h'] at *
    rw [h]
  unfold endDeadlines
  split <;> exact htwo (htwo (hone _ s) (hone _ _)) (hone _ _)

/-- On a FEEDER the composer records ROLE and leaves a composition in flight (R81). -/
theorem takeBoundary_view_feeder (kind : BoundaryKind) (n : IntervalNo) (o : Order) {s : State} (hrole : s.straps.role = .feeder) :
    (takeBoundary kind n o s).view = { s.view with
      phase := .opened, entries := [], received := none, record := ⟨n + 1, false, .role, 0, .zero, .none⟩ } := by
  have hcompose (share : Int) (x : State) (hx : x.straps.role = .feeder) : (beginComposition share x).view =
      { x.view with record := ⟨x.timer.n + 1, false, .role, 0, .zero, .none⟩ } := by
    unfold beginComposition
    rw [hx]
  have hview := endDeadlines_view o s
  unfold takeBoundary
  dsimp only
  rw [(cause_frame _ _).2.2.2.2.2.2.1, markBoundary_view, hcompose _ _ (by simpa using hrole)]
  simp [viewBoundary, closeTotals_view]
  rw [hview]
  simp [timerBoundary]

theorem countValid_eq (u : FeederUnit) :
    countValid u = { u with valid := u.valid - 1, mode := if u.valid = 1 then .idle else u.mode } := by
  unfold countValid
  split
  · next h =>
    rw [if_neg (by omega), h, Nat.zero_sub, ← h]
  · rfl

theorem abandonTarget_eq (u : FeederUnit) : abandonTarget u = { u with
    composing := none
    record := match u.composing with
      | some r => ⟨r.interval, .abandoned, 0, 0, none, none, none, .none, 0, 0, 0, .idle, 0, 0, 0⟩
      | none => u.record } := by
  unfold abandonTarget
  cases h : u.composing with
  | some r => rfl
  | none => simp [← h]

theorem measures_iff (kind : BoundaryKind) : kind.measures = true ↔ kind ∈ [BoundaryKind.own, .early, .implied] := by
  cases kind <;> decide

end Sys2Proof.Machine

/-- Settles O38: the deadlines, then the Feeder Unit's part, then the composer's. -/
theorem boundaryClosesTheSiteMeasurement : Obligations.BoundaryClosesTheSiteMeasurement := by
  intro kind n o s hrole htargets
  have hview := takeBoundary_view_feeder kind n o hrole
  refine ⟨?_, by rw [hview]; rfl, by rw [hview]⟩
  rw [takeBoundary_feeder kind n o hrole htargets, abandonTarget_eq, countValid_eq]
  unfold closeSite measurementOf
  simp only [measures_iff]
  rfl
end

