-- ==== Sys2Proof/Proofs/OfferValues.lean ====
section
/-! SUPPORT. The offer values a boundary computes, and the composition it begins (R70, R72 to R74, R79, R81). -/

open Sys2Proof Sys2Proof.Machine

namespace Sys2Proof.Machine

/-! ## The offer values (R72 to R74) -/

theorem direction_eq (eligible : Bool) (weight limit seconds : Nat) :
    (direction eligible weight limit seconds).1 =
        (if eligible = true ∧ min limit (weight * 36 / seconds) ≠ 0 then weight else 0) ∧
      (direction eligible weight limit seconds).2 = if eligible = true then min limit (weight * 36 / seconds) else 0 := by
  unfold direction
  dsimp only
  split
  · next h => exact ⟨rfl, by rw [if_pos h.1]⟩
  · next h =>
    refine ⟨rfl, ?_⟩
    split
    · next he => exact (not_not.mp fun hne => h ⟨he, hne⟩).symm
    · rfl

/-- A direction left has a weight (R79). -/
theorem direction_weight {eligible : Bool} {weight limit seconds : Nat} (h : (direction eligible weight limit seconds).2 ≠ 0) :
    (direction eligible weight limit seconds).1 ≠ 0 := by
  obtain ⟨h1, h2⟩ := direction_eq eligible weight limit seconds
  rw [h2] at h
  split at h
  · next he =>
    rw [h1, if_pos ⟨he, h⟩]
    rintro rfl
    simp at h
  · exact absurd rfl h

/-- The restore time is met (R70, R73): a division that rounds up is within a bound exactly when the product is. -/
theorem departsLater_iff (r : SessionRecord) : departsLater r = true ↔
    0 < pCe r ∧ (eGoal r - eRes r) * 36 + 1800 * pCe r ≤ r.depart * pCe r := by
  unfold departsLater restoreTime
  generalize (eGoal r - eRes r) * 36 = e
  by_cases hzero : pCe r = 0
  · rw [if_pos hzero]
    simp [hzero]
  · have hpos : 0 < pCe r := Nat.pos_of_ne_zero hzero
    rw [if_neg hzero]
    simp only [decide_eq_true_eq, hpos, true_and]
    by_cases hd : 1800 ≤ r.depart
    · obtain ⟨k, hk⟩ := Nat.exists_eq_add_of_le' hd
      rw [hk, Nat.add_le_add_iff_right, Nat.add_mul, Nat.add_le_add_iff_right, ← Nat.lt_succ_iff, Nat.div_lt_iff_lt_mul hpos,
        Nat.succ_mul]
      omega
    · have hfar : r.depart * pCe r < 1800 * pCe r := Nat.mul_lt_mul_of_pos_right (by omega) hpos
      generalize (e + (pCe r - 1)) / pCe r = q
      omega

theorem offerOpen_iff {s : State} {r : SessionRecord} (hr : s.session.record = some r) : s.offerOpen r = true ↔
    s.session.state = .engaged ∧ r.paused = false ∧ r.age < 60 ∧ s.port.meterLost = false := by
  have hstale (he : s.session.state = .engaged) : s.stale = false ↔ r.age < 60 := by
    unfold State.stale
    rw [hr, he]
    exact decide_eq_false_iff_not.trans Nat.not_le
  unfold State.offerOpen
  by_cases he : s.session.state = .engaged
  · cases hs : s.stale <;> simp_all
  · simp [he]

theorem offerValues_congr {s t : State} (hstraps : t.straps = s.straps) (hsession : t.session = s.session)
    (hport : t.port = s.port) (a : Account) (r : SessionRecord) (share : Int) : offerValues t a r share = offerValues s a r share := by
  unfold offerValues State.offerOpen State.stale State.seconds
  rw [hstraps, hsession, hport]

/-- A direction is left exactly when a cap is (R74, R79). -/
theorem hasDirection_iff (s : State) (a : Account) (r : SessionRecord) (share : Int) :
    (offerValues s a r share).body.hasDirection = true ↔
      ¬((offerValues s a r share).body.cx = 0 ∧ (offerValues s a r share).body.cm = 0) := by
  have hx : (offerValues s a r share).body.cx ≠ 0 → (offerValues s a r share).body.wx ≠ 0 := direction_weight
  have hm : (offerValues s a r share).body.cm ≠ 0 → (offerValues s a r share).body.wm ≠ 0 := direction_weight
  unfold OfferBody.hasDirection
  simp only [Bool.or_eq_true, Bool.and_eq_true, bne_iff_ne]
  tauto

/-! ## The boundary's part (R72, R79, R81) -/

theorem markBoundary_account (kind : BoundaryKind) (s : State) : (markBoundary kind s).account = s.account := by simp

theorem closeTotals_account (kind : BoundaryKind) (s : State) : (closeTotals kind s).account =
    { s.account with exportTotal := 0, importTotal := 0, mark := s.session.record.isSome } := by
  simp [closeTotals, restartTotals]

/-- On a CHARGER a composition begins on the offer values of the share loaded (R72, R79). -/
theorem beginComposition_charger {x : State} {a : Account} {r : SessionRecord} (share : Int) (hrole : x.straps.role = .charger)
    (ha : x.account.account = some a) (hr : x.session.record = some r) (hrunning : x.timer.state = .running) :
    (beginComposition share x).account = { x.account with account := some { a with last := offerValues x a r share } } ∧
      (beginComposition share x).view = { x.view with composing := some ⟨x.timer.n + 1,
        if x.line.state ≠ .active then .nothing .line
        else if (offerValues x a r share).body.hasDirection = true then .offer (offerValues x a r share).body
        else .nothing .noDirection⟩ } := by
  unfold beginComposition composeOutcome computeOffer
  rw [hrole, ha, hr]
  dsimp only
  rw [hrunning]
  exact ⟨rfl, rfl⟩

theorem takeBoundary_offer (kind : BoundaryKind) (n : IntervalNo) (o : Order) {s : State} {a : Account} {r : SessionRecord}
    (hrole : s.straps.role = .charger) (ha : s.account.account = some a) (hr : s.session.record = some r) :
    (takeBoundary kind n o s).account.account = some { a with last := offerValues s a r (loadOf kind s).share } ∧
      (takeBoundary kind n o s).view.composing = some ⟨n + 1,
        if (takeBoundary kind n o s).line.state ≠ .active then .nothing .line
        else if (offerValues s a r (loadOf kind s).share).body.hasDirection = true then
          .offer (offerValues s a r (loadOf kind s).share).body
        else .nothing .noDirection⟩ := by
  have hbegin (x : State) (hstraps : x.straps = s.straps) (hsession : x.session = s.session) (hport : x.port = s.port)
      (haccount : x.account.account = some a) (htimer : x.timer.state = .running ∧ x.timer.n = n) :
      (cause .boundary (markBoundary kind (beginComposition (loadOf kind s).share x))).account.account =
          some { a with last := offerValues s a r (loadOf kind s).share } ∧
        (cause .boundary (markBoundary kind (beginComposition (loadOf kind s).share x))).view.composing = some ⟨n + 1,
          if (cause .boundary (markBoundary kind (beginComposition (loadOf kind s).share x))).line.state ≠ .active then .nothing .line
          else if (offerValues s a r (loadOf kind s).share).body.hasDirection = true then
            .offer (offerValues s a r (loadOf kind s).share).body
          else .nothing .noDirection⟩ := by
    obtain ⟨hrunning, hn⟩ := htimer
    obtain ⟨hacc, hview⟩ := beginComposition_charger (loadOf kind s).share (hstraps ▸ hrole) haccount (hsession ▸ hr) hrunning
    rw [offerValues_congr hstraps hsession hport] at hacc hview
    have hline : (cause .boundary (markBoundary kind (beginComposition (loadOf kind s).share x))).line.state = x.line.state := by
      simp [sameSilence_markBoundary]
    rw [hline, (cause_frame _ _).2.2.2.2.2.1, (cause_frame _ _).2.2.2.2.2.2.1, markBoundary_account, markBoundary_view, hacc, hview, hn]
    exact ⟨rfl, rfl⟩
  unfold takeBoundary
  refine hbegin _ ?_ ?_ ?_ ?_ ?_
  · simp
  · simp
  · simp
  · simp [closeTotals_account, ha]
  · simp [timerBoundary]

end Sys2Proof.Machine

/-- Settles O37: the values of the composition that begins, equation by equation. -/
theorem boundaryComputesTheOfferValues : Obligations.BoundaryComputesTheOfferValues := by
  intro kind n o s a r p hrole ha hr hp
  obtain ⟨haccount, hcomposing⟩ := takeBoundary_offer kind n o hrole ha hr
  have hshare : (takeBoundary kind n o s).apply.share = (loadOf kind s).share := by rw [takeBoundary_apply]
  have hdis : pDis r = p.pDis := by unfold pDis; rw [hp]
  have hchg : pChg r = p.pChg := by unfold pChg; rw [hp]
  refine ⟨offerValues s a r (loadOf kind s).share, haccount, ?_, ?_, ?_, ⟨?_, ?_, ?_, ?_⟩, ?_⟩
  · rw [hshare]
    exact clampNat_eq _ _
  · change (s.offerOpen r && departsLater r && decide (eRes r < (offerValues s a r (loadOf kind s).share).eProj)) = true ↔ _
    rw [Bool.and_eq_true, Bool.and_eq_true, offerOpen_iff hr, departsLater_iff, decide_eq_true_iff, pCe, hchg]
    exact ⟨fun ⟨⟨hopen, hpos, htime⟩, hres⟩ => ⟨hopen, hpos, hres, htime⟩,
      fun ⟨hopen, hpos, hres, htime⟩ => ⟨⟨hopen, hpos, htime⟩, hres⟩⟩
  · change (s.offerOpen r && decide ((offerValues s a r (loadOf kind s).share).eProj < eGoal r)) = true ↔ _
    rw [Bool.and_eq_true, offerOpen_iff hr, decide_eq_true_iff]
    rfl
  · exact (direction_eq _ _ _ _).1.trans (by rw [hdis]; rfl)
  · exact (direction_eq _ _ _ _).2.trans (by rw [hdis]; rfl)
  · exact (direction_eq _ _ _ _).1.trans (by rw [hchg]; rfl)
  · exact (direction_eq _ _ _ _).2.trans (by rw [hchg]; rfl)
  · rw [hcomposing]
    have hleft := hasDirection_iff s a r (loadOf kind s).share
    generalize (offerValues s a r (loadOf kind s).share).body = v at hleft
    congr 2
    refine if_congr Iff.rfl rfl ?_
    by_cases h : v.cx = 0 ∧ v.cm = 0
    · rw [if_pos h, if_neg (by rw [hleft]; exact not_not.mpr h)]
    · rw [if_neg h, if_pos (hleft.mpr h)]
end

