-- ==== Sys2Proof/Proofs/FrameBoundary.lean ====
section
/-! SUPPORT. A boundary at a frame: what it leaves of counters, view, tally list and the MARK's slot (R11, R33, R34, R84, R128). -/

open Sys2Proof Sys2Proof.Machine

namespace Sys2Proof.Machine

/-! ## The counters of the receivers -/

/-- The receive counters of line, view and tally list stay. -/
abbrev SameCounts (s t : State) : Prop :=
  t.line.rxGood = s.line.rxGood ∧ t.view.rxDup = s.view.rxDup ∧ t.view.rxOff = s.view.rxOff ∧ t.view.rxLate = s.view.rxLate ∧
    t.feeder.tallyLate = s.feeder.tallyLate ∧ t.feeder.tallyOff = s.feeder.tallyOff

theorem SameCounts.of_parts {s t : State} (hl : t.line = s.line) (hv : t.view = s.view) (hf : t.feeder = s.feeder) : SameCounts s t := by
  rw [SameCounts, hl, hv, hf]
  exact ⟨rfl, rfl, rfl, rfl, rfl, rfl⟩

theorem SameCounts.trans {s t u : State} (h : SameCounts s t) (h' : SameCounts t u) : SameCounts s u := by
  obtain ⟨h1, h2, h3, h4, h5, h6⟩ := h
  obtain ⟨h1', h2', h3', h4', h5', h6'⟩ := h'
  exact ⟨h1'.trans h1, h2'.trans h2, h3'.trans h3, h4'.trans h4, h5'.trans h5, h6'.trans h6⟩

theorem sameCounts_dropAtDeadline (k : Slot) (s : State) : SameCounts s (dropAtDeadline k s) := by
  cases hq : s.line.slot k with
  | none =>
    unfold dropAtDeadline
    rw [hq]
    exact .of_parts rfl rfl rfl
  | some q =>
    rw [dropAtDeadline_eq hq]
    unfold tellDrop offerFate goalDropped
    (repeat' split) <;> exact ⟨by dsimp only; rw [setSlot_shape], rfl, rfl, rfl, rfl, rfl⟩

theorem sameCounts_takeDeadlines (o : Order) (s : State) : SameCounts s (takeDeadlines o s) := by
  have hone (k : Slot) (x : State) : SameCounts x (takeDeadline k x) := by
    unfold takeDeadline
    split
    · exact sameCounts_dropAtDeadline k x
    · exact .of_parts rfl rfl rfl
  unfold takeDeadlines
  split <;> exact (hone _ _).trans ((hone _ _).trans (hone _ _))

theorem sameCounts_endDeadlines (o : Order) (s : State) : SameCounts s (endDeadlines o s) := by
  have hone (k : Slot) (x : State) : SameCounts x (endDeadline k x) := by
    unfold endDeadline
    (repeat' split)
    · exact .of_parts rfl rfl rfl
    · exact .of_parts rfl rfl rfl
    · exact ⟨by dsimp only; rw [setSlot_shape], rfl, rfl, rfl, rfl, rfl⟩
    · exact sameCounts_dropAtDeadline k x
  unfold endDeadlines
  split <;> exact (hone _ _).trans ((hone _ _).trans (hone _ _))

theorem sameCounts_queueFrame (k : Slot) (q : Queued) (s : State) : SameCounts s (queueFrame k q s) := by
  by_cases hclash : s.line.state = .clash
  · rw [queueFrame_of_clash hclash]
    unfold tellDrop offerFate goalDropped
    (repeat' split) <;> exact ⟨rfl, rfl, rfl, rfl, rfl, rfl⟩
  · obtain ⟨hline, hrest⟩ := queueFrame_of_not_clash (k := k) (q := q) hclash
    rw [hrest, hline]
    exact ⟨by dsimp only; rw [setSlot_shape], rfl, rfl, rfl, rfl, rfl⟩

theorem sameCounts_closeTotals (kind : BoundaryKind) (s : State) : SameCounts s (closeTotals kind s) := by
  refine SameCounts.trans (t := queueTally kind s) ?_ (.of_parts (by simp [closeTotals]) (by simp [closeTotals]) (by simp [closeTotals]))
  unfold queueTally
  split
  · exact sameCounts_queueFrame _ _ _
  · exact .of_parts rfl rfl rfl

theorem sameCounts_markBoundary (kind : BoundaryKind) (s : State) : SameCounts s (markBoundary kind s) := by
  unfold markBoundary queueMark
  split
  · exact sameCounts_queueFrame _ _ _
  · exact .of_parts rfl rfl rfl

theorem sameCounts_takeFreezeIfDue (s : State) : SameCounts s (takeFreezeIfDue s) := by
  unfold takeFreezeIfDue
  split
  · unfold takeFreeze
    dsimp only
    split
    · exact ⟨rfl, rfl, rfl, rfl, rfl, rfl⟩
    · unfold complete completeWith
      simp [SameCounts]
  · exact .of_parts rfl rfl rfl

theorem sameCounts_takePoints (o : Order) (s : State) : SameCounts s (takePoints o s) := by
  refine ((sameCounts_takeDeadlines o s).trans (sameCounts_takeFreezeIfDue _)).trans ?_
  unfold takePoints takeTargetIfDue takeTargetPoint
  split <;> exact ⟨rfl, rfl, rfl, rfl, rfl, rfl⟩

theorem sameCounts_takeBoundary (kind : BoundaryKind) (n : IntervalNo) (o : Order) (s : State) : SameCounts s (takeBoundary kind n o s) := by
  have hsilence (x : State) : (countSilence x).line.rxGood = x.line.rxGood := by
    unfold countSilence
    split <;> rfl
  have hfeeder (x : State) : (feederBoundary kind x).feeder.tallyLate = x.feeder.tallyLate ∧
      (feederBoundary kind x).feeder.tallyOff = x.feeder.tallyOff := by
    unfold feederBoundary
    split
    · exact ⟨rfl, rfl⟩
    · rw [countValid_eq, abandonTarget_eq]
      exact ⟨rfl, rfl⟩
  have hcompose (share : Int) (x : State) : (beginComposition share x).view.rxDup = x.view.rxDup ∧
      (beginComposition share x).view.rxOff = x.view.rxOff ∧ (beginComposition share x).view.rxLate = x.view.rxLate := by
    unfold beginComposition
    split <;> simp
  simp [SameCounts, takeBoundary, sameCounts_markBoundary, sameCounts_closeTotals, sameCounts_endDeadlines, viewBoundary, hsilence,
    hfeeder, hcompose]

theorem sameCounts_boundaryAt (kind : BoundaryKind) (n : IntervalNo) (o : Order) (s : State) : SameCounts s (boundaryAt kind n o s) :=
  (sameCounts_takePoints o s).trans (sameCounts_takeBoundary kind n o _)

/-! ## What a boundary leaves of view, tally list and MARK -/

/-- A boundary empties the received part (R84, R91). -/
theorem takeBoundary_received (kind : BoundaryKind) (n : IntervalNo) (o : Order) (s : State) :
    (takeBoundary kind n o s).view.received = none := by
  have hcompose (share : Int) (x : State) : (beginComposition share x).view.received = x.view.received := by
    unfold beginComposition
    split <;> simp
  simp [takeBoundary, markBoundary_view, hcompose, closeTotals_view, viewBoundary]

/-- On a FEEDER a boundary empties the tally list, and no composition has begun (R128). -/
theorem takeBoundary_tallies (kind : BoundaryKind) (n : IntervalNo) (o : Order) {s : State} (hrole : s.straps.role = .feeder) :
    (takeBoundary kind n o s).feeder.tallies = [] ∧ (takeBoundary kind n o s).feeder.begun = false := by
  have hboundary (x : State) (hx : x.straps.role = .feeder) :
      (feederBoundary kind x).feeder.tallies = [] ∧ (feederBoundary kind x).feeder.begun = false := by
    unfold feederBoundary
    rw [hx]
    exact ⟨rfl, rfl⟩
  unfold takeBoundary
  dsimp only
  rw [(cause_frame _ _).2.2.2.2.2.2.2.2.2.1, markBoundary_feeder, (beginComposition_frame _ _).2.2.2.2.2.2.2.1]
  exact hboundary _ (by simpa using hrole)

/-- Where no MARK is queued, the MARK's slot is as the end of its deadline leaves it (R11, R33). -/
theorem takeBoundary_markSlot {kind : BoundaryKind} (hk : kind ≠ .own) (n : IntervalNo) (o : Order) (s : State) :
    (takeBoundary kind n o s).line.markSlot = (endDeadline .mark s).line.markSlot := by
  have hends : (endDeadlines o s).line.slot .mark = (endDeadline .mark s).line.slot .mark := by
    unfold endDeadlines
    split
    · rw [(endDeadline_line (by decide) _).1, (endDeadline_line (by decide) _).1]
    · rw [(endDeadline_line (by decide) _).1, (endDeadline_line (by decide) _).1]
  have hmark (x : State) : (markBoundary kind x).line = x.line := by
    unfold markBoundary
    cases kind <;> first | rfl | exact absurd rfl hk
  have hsilence (x : State) : (countSilence x).line.markSlot = x.line.markSlot := by
    unfold countSilence
    split <;> rfl
  have htotals (x : State) : (closeTotals kind x).line.markSlot = x.line.markSlot := by
    rw [closeTotals, (restartTotals_frame _).2.2.1]
    unfold queueTally
    split
    · by_cases hclash : x.line.state = .clash
      · rw [queueFrame_of_clash hclash]
        simp
      · rw [(queueFrame_of_not_clash hclash).1]
        rfl
    · rfl
  simp [takeBoundary, hmark, htotals, hsilence]
  exact hends

/-- The frame that stands in the MARK's slot after the end of its deadline has none, or an attempt carries it (R11). -/
theorem endDeadline_markSlot {s : State} {q : Queued} (h : (endDeadline .mark s).line.markSlot = some q) :
    ∃ p, s.line.markSlot = some p ∧ (q = p ∧ p.deadline = none ∨ q = { p with expired := true } ∧ s.line.carries .mark = true) := by
  cases hp : s.line.slot .mark with
  | none =>
    rw [endDeadline_of_none (by simp [hp])] at h
    exact absurd (hp.symm.trans h) (by simp)
  | some p =>
    refine ⟨p, hp, ?_⟩
    cases hd : p.deadline with
    | none =>
      rw [endDeadline_of_none (by simp [hp, hd])] at h
      exact .inl ⟨Option.some.inj (h.symm.trans hp), rfl⟩
    | some d =>
      cases hc : s.line.carries .mark with
      | true =>
        rw [endDeadline_of_carried hp hd hc] at h
        exact .inr ⟨by rw [← hd]; exact (Option.some.inj h).symm, rfl⟩
      | false =>
        rw [endDeadline_of_free hp hd hc, dropAtDeadline_eq hp, tellDrop_eq] at h
        exact absurd h (by simp [LineUnit.setSlot])

/-- Before the points are taken and after, the MARK's slot holds the same frame or none, and the attempt stays (R11, R36). -/
theorem takePoints_markSlot (o : Order) (s : State) : ((takePoints o s).line.markSlot = s.line.markSlot ∨
    (takePoints o s).line.markSlot = none) ∧ (takePoints o s).line.attempt = s.line.attempt := by
  have hdrop (k : Slot) (x : State) : ((takeDeadline k x).line.markSlot = x.line.markSlot ∨ (takeDeadline k x).line.markSlot = none) ∧
      (takeDeadline k x).line.attempt = x.line.attempt := by
    unfold takeDeadline
    split
    · cases hq : x.line.slot k with
      | none =>
        unfold dropAtDeadline
        rw [hq]
        exact ⟨.inl rfl, rfl⟩
      | some q =>
        rw [dropAtDeadline_eq hq, tellDrop_eq]
        cases k <;> simp [LineUnit.setSlot]
    · exact ⟨.inl rfl, rfl⟩
  have htwo {x y z : State} (h : (y.line.markSlot = x.line.markSlot ∨ y.line.markSlot = none) ∧ y.line.attempt = x.line.attempt)
      (h' : (z.line.markSlot = y.line.markSlot ∨ z.line.markSlot = none) ∧ z.line.attempt = y.line.attempt) :
      (z.line.markSlot = x.line.markSlot ∨ z.line.markSlot = none) ∧ z.line.attempt = x.line.attempt := by
    refine ⟨?_, h'.2.trans h.2⟩
    rcases h'.1 with he | he
    · exact h.1.imp he.trans he.trans
    · exact .inr he
  simp only [takePoints, takeTargetIfDue_frame, takeFreezeIfDue_frame]
  unfold takeDeadlines
  split <;> exact htwo (htwo (hdrop _ _) (hdrop _ _)) (hdrop _ _)

/-- A boundary at a frame queues no MARK (R33, R34). -/
theorem boundaryAt_markSlot {kind : BoundaryKind} (hk : kind ≠ .own) {n : IntervalNo} {o : Order} {s : State} {q : Queued}
    (h : (boundaryAt kind n o s).line.markSlot = some q) :
    ∃ p, s.line.markSlot = some p ∧ (q = p ∧ p.deadline = none ∨ q = { p with expired := true } ∧ s.line.carries .mark = true) := by
  obtain ⟨hslot, hattempt⟩ := takePoints_markSlot o s
  rw [boundaryAt, takeBoundary_markSlot hk] at h
  obtain ⟨p, hp, hq⟩ := endDeadline_markSlot h
  have hcarries : (takePoints o s).line.carries .mark = s.line.carries .mark := by unfold LineUnit.carries; rw [hattempt]
  rw [hcarries] at hq
  rcases hslot with he | he
  · exact ⟨p, he.symm.trans hp, hq⟩
  · exact absurd (he.symm.trans hp) (by simp)

/-! ## The end of the action -/

theorem settle_word (s u : State) : (settle s u).status.word = u.status.word := by
  have hvacate (x : State) : (vacate x).status.word = x.status.word := by
    unfold vacate
    split <;> rfl
  rw [settle, noteFaults_word, hvacate]
  unfold requestEnable
  split <;> rfl

theorem capture_factors {f : Factor} {g : Flag} {u : State} (h : f.isSet u.status.factors = true) :
    f.isSet (capture g u).status.factors = true := by
  unfold capture
  split
  · exact h
  · simp_all [Factor.isSet]

/-- The end of an action clears no factor (R159). -/
theorem settle_factors {f : Factor} {s u : State} (h : f.isSet u.status.factors = true) : f.isSet (settle s u).status.factors = true := by
  have hrequest (x : State) (hx : f.isSet x.status.factors = true) : f.isSet (requestEnable x).status.factors = true := by
    unfold requestEnable
    split <;> exact hx
  have hvacate (x : State) (hx : f.isSet x.status.factors = true) : f.isSet (vacate x).status.factors = true := by
    unfold vacate
    split
    · simp [enterSession, factor_isSet_cause, hx]
    · exact hx
  unfold settle noteFaults
  split
  · exact hvacate _ (hrequest _ h)
  · exact capture_factors (hvacate _ (hrequest _ h))

end Sys2Proof.Machine
end

