-- ==== Sys2Proof/Proofs/MarkCapture.lean ====
section
/-! SUPPORT. A MARK handed to the Interval Timer (R26, R30 to R33, R35). -/

open Sys2Proof Sys2Proof.Machine

namespace Sys2Proof.Machine

/-- A boundary of kind `kind` at a frame has begun interval `n`; no own MARK was queued (R33, R35, R98, R111). -/
structure TookBoundary (kind : BoundaryKind) (n : IntervalNo) (s t : State) : Prop where
  timer : t.timer = ⟨.running, n, 0, 0, some kind, n,
    if slips kind s.timer.n n = true then count s.timer.slip else s.timer.slip, false, false⟩
  engine : t.alloc.engine = .idle
  view : t.view.phase = .opened ∧ t.view.entries = [] ∧ t.view.received = none
  interval : t.apply.interval = n
  mark : ∀ q, t.line.markSlot = some q → ∃ p, s.line.markSlot = some p ∧
    (q = p ∧ p.deadline = none ∨ q = { p with expired := true } ∧ s.line.carries .mark = true)
  factor : Factor.boundary.isSet t.status.factors = true

theorem tookBoundary_boundaryAt {kind : BoundaryKind} (hk : kind ≠ .own) (n : IntervalNo) (o : Order) (s : State) :
    TookBoundary kind n s (boundaryAt kind n o s) := by
  obtain ⟨hphase, hentries⟩ := takeBoundary_view kind n o (takePoints o s)
  refine ⟨?_, takeBoundary_engine _ _ _ _, ⟨hphase, hentries, takeBoundary_received _ _ _ _⟩, ?_, fun q hq => boundaryAt_markSlot hk hq,
    (takeBoundary_factors _ _ _ _).1⟩
  · rw [boundaryAt, takeBoundary_timer, timerBoundary, takePoints_timer]
  · rw [boundaryAt, takeBoundary_apply]

section
variable {kind : BoundaryKind} {n : IntervalNo} {s t : State}

/-- What precedes the boundary may raise flags, and what follows it too (R31, R157). -/
theorem TookBoundary.from (h : TookBoundary kind n s t) {x : State} (hline : s.line = x.line) (htimer : s.timer = x.timer) :
    TookBoundary kind n x t := by
  obtain ⟨ht, he, hv, hi, hm, hf⟩ := h
  rw [htimer] at ht
  rw [hline] at hm
  exact ⟨ht, he, hv, hi, hm, hf⟩

theorem TookBoundary.settle (h : TookBoundary kind n s t) (x : State) : TookBoundary kind n s (settle x t) := by
  obtain ⟨ht, he, hv, hi, hm, hf⟩ := h
  obtain ⟨-, -, hline, htimer, hview, halloc, happly, -⟩ := settle_frame x t
  exact ⟨htimer.trans ht, by rw [halloc, he], by rw [hview]; exact hv, by rw [happly, hi], by rw [hline]; exact hm, settle_factors hf⟩
end

/-- Nothing is handed over at a re-alignment (R98). -/
theorem boundaryAt_realign_share (n : IntervalNo) (o : Order) (s : State) : (boundaryAt .realign n o s).apply.share = 0 := by
  rw [boundaryAt, takeBoundary_apply, loadOf]
  split <;> rfl

/-- Taking points and boundary clears no flag (R156). -/
theorem boundaryAt_word {kind : BoundaryKind} {n : IntervalNo} {o : Order} {s : State} {f : Flag} (h : f.isSet s.status.word = true) :
    f.isSet (boundaryAt kind n o s).status.word = true := by
  have hfreeze (x : State) (hx : f.isSet x.status.word = true) : f.isSet (takeFreezeIfDue x).status.word = true := by
    unfold takeFreezeIfDue
    split
    · unfold takeFreeze
      dsimp only
      split
      · exact hx
      · unfold complete
        dsimp only
        rw [completeWith_word]
        simp [hx]
    · exact hx
  rw [boundaryAt, takeBoundary_word]
  refine .inl ?_
  unfold takePoints
  rw [show ∀ x, (takeTargetIfDue x).status = x.status from fun x => by simp]
  exact hfreeze _ (by simpa using h)

/-- The mark of a MARK read while an attempt goes on, and the cancelled own MARK (R9, R32). -/
theorem trailingMark_line (n : IntervalNo) (s : State) :
    (∀ k, k ≠ .mark → (trailingMark n s).line.slot k = s.line.slot k) ∧
      (trailingMark n s).line.markSlot = s.line.markSlot.filter (fun q => q.frame.number ≠ n) ∧
      (trailingMark n s).line.attempt = s.line.attempt.map (fun a => { a with
        detached := a.detached || decide (a.slot = .mark ∧ s.line.markSlot.map (fun q => q.frame.number) = some n) }) ∧
      (trailingMark n s).line.txDropped = s.line.txDropped ∧ (trailingMark n s).line.rxGood = s.line.rxGood := by
  have hmap (a : Option Attempt) {p : Prop} [Decidable p] (hp : ¬p) :
      a = a.map fun a => { a with detached := a.detached || decide (a.slot = .mark ∧ p) } := by
    cases a <;> simp [hp]
  unfold trailingMark
  cases hq : s.line.markSlot with
  | none => exact ⟨fun _ _ => rfl, hq, hmap _ (by simp), rfl, rfl⟩
  | some q =>
    by_cases hn : q.frame.number = n
    · dsimp only
      rw [if_pos hn]
      unfold cancelSlot
      rw [show s.line.slot .mark = some q from hq]
      refine ⟨fun k hk => ?_, by rw [Option.filter_some, if_neg (by simp [hn])]; rfl, ?_, rfl, rfl⟩
      · exact (slot_setSlot _ _ _ _).trans ((if_neg hk).trans (slot_detach _ _ _))
      · change s.line.attempt.map _ = _
        cases s.line.attempt with
        | none => rfl
        | some a => by_cases ha : a.slot = .mark <;> simp [ha, hn]
    · dsimp only
      rw [if_neg hn]
      exact ⟨fun _ _ => rfl, by rw [Option.filter_some, if_pos (by simp [hn])]; exact hq, hmap _ (by simpa using hn), rfl, rfl⟩

/-- Taking a MARK leaves RX_GOOD (R20). -/
theorem takeMark_rxGood (profile : Fin 4) (n : IntervalNo) (o : Order) (s : State) :
    (takeMark profile n o s).line.rxGood = s.line.rxGood := by
  unfold takeMark
  split
  · rfl
  split
  · exact (sameCounts_boundaryAt _ _ _ _).1
  split
  · exact (trailingMark_line n s).2.2.2.2
  split
  · exact (sameCounts_boundaryAt _ _ _ _).1
  · rw [(misalignNoted_frame _ _ _).2.2.1]
    exact (sameCounts_boundaryAt _ _ _ _).1

/-- Noting MISALIGN first leaves word and factors as they are set (R157, R159). -/
theorem misalignNoted_status {o : Order} {b s : State} :
    (misalignNoted o b s).status.word = s.status.word ∧
      ∀ f : Factor, f.isSet s.status.factors = true → f.isSet (misalignNoted o b s).status.factors = true := by
  have hcapture (f : Flag) : (capture f s).status.word = s.status.word := by
    unfold capture
    split <;> rfl
  unfold misalignNoted
  split
  · exact ⟨hcapture _, fun f hf => capture_factors hf⟩
  · exact ⟨rfl, fun f hf => hf⟩

theorem TookBoundary.misalignNoted {kind : BoundaryKind} {n : IntervalNo} {s t : State} (h : TookBoundary kind n s t) (o : Order)
    (x : State) : TookBoundary kind n s (misalignNoted o x t) := by
  obtain ⟨ht, he, hv, hi, hm, hf⟩ := h
  obtain ⟨-, -, hline, htimer, -, -, hview, halloc, happly, -⟩ := misalignNoted_frame o x t
  exact ⟨htimer.trans ht, by rw [halloc, he], by rw [hview]; exact hv, by rw [happly, hi], by rw [hline]; exact hm,
    misalignNoted_status.2 _ hf⟩

/-- A MARK outside the trailing window is a boundary, of the kind the counter gives (R30, R31, R33). -/
theorem takeMark_took {profile : Fin 4} {n : IntervalNo} {o : Order} {s : State} (hprofile : profile = s.straps.intv)
    (h : s.timer.state = .listen ∨ s.profile.window ≤ s.timer.c) : ∃ kind, TookBoundary kind n s (takeMark profile n o s) ∧
      kind ≠ .own ∧ slips kind s.timer.n n = decide (kind ≠ .listenMark ∧ n ≠ s.timer.n + 1) ∧
      (s.timer.state = .listen → kind = .listenMark) ∧
      (s.timer.state = .running → s.profile.length ≤ s.timer.c + s.profile.window → kind = .early) ∧
      (s.timer.state = .running → s.timer.c + s.profile.window < s.profile.length → kind = .realign ∧
        (takeMark profile n o s).apply.share = 0 ∧ Flag.misalign.isSet (takeMark profile n o s).status.word = true) := by
  unfold takeMark
  rw [if_neg (by simp [hprofile])]
  cases hstate : s.timer.state with
  | listen =>
    exact ⟨.listenMark, tookBoundary_boundaryAt (by decide) _ _ _, by decide, by simp [slips], fun _ => rfl, by simp, by simp⟩
  | running =>
    dsimp only
    rw [if_neg (by simp [hstate] at h; omega)]
    split
    · exact ⟨.early, tookBoundary_boundaryAt (by decide) _ _ _, by decide, by simp [slips, bne, beq_eq_decide], by simp, fun _ _ => rfl,
        fun _ hfar => by omega⟩
    · have htook : TookBoundary .realign n s (boundaryAt .realign n o (raise .misalign s)) :=
        (tookBoundary_boundaryAt (by decide) n o (raise .misalign s)).from (x := s) (by simp) (by simp)
      refine ⟨.realign, htook.misalignNoted o s, by decide, by simp [slips, bne, beq_eq_decide], by simp,
        fun _ hnear => by omega, fun _ _ => ⟨rfl, ?_, ?_⟩⟩
      · rw [(misalignNoted_frame _ _ _).2.2.2.2.2.2.2.2.1, boundaryAt_realign_share]
      · rw [misalignNoted_status.1]
        exact boundaryAt_word (by simp [isSet_raise])

end Sys2Proof.Machine

/-- Settles O50: another profile, a trailing MARK, and a boundary of the kind the counter gives. -/
theorem markIsClassifiedByTheCounter : Obligations.MarkIsClassifiedByTheCounter := by
  intro s f profile levels o hlegal hbody hsite hsource hears hs
  rw [exec_frameReceived_hears hlegal hears, filterFrame, if_neg (by simp [hsite]), if_neg (by exact hsource)]
  unfold handOff
  rw [hbody]
  dsimp only
  generalize hx : ({ s with line := { s.line.afterReading 8 with rxGood := count (s.line.afterReading 8).rxGood } } : State) = x
  have hgood : x.line.rxGood = count s.line.rxGood := by rw [← hx]; simp
  have hslot (k : Slot) : x.line.slot k = s.line.slot k := by
    rw [← hx]
    refine Eq.trans ?_ ((afterReading_frame s.line 8).1 k)
    cases k <;> rfl
  have hattempt : x.line.attempt = s.line.attempt.map fun a => { a with handedOn := true } := by
    rw [← hx]
    unfold LineUnit.afterReading
    cases s.line.attempt <;> rfl
  have hdropped : x.line.txDropped = s.line.txDropped := by rw [← hx]; simp
  have hsame : x.straps = s.straps ∧ x.timer = s.timer ∧ x.view = s.view ∧ x.status = s.status ∧ x.port = s.port ∧
      x.session = s.session ∧ x.apply = s.apply ∧ x.service = s.service ∧ x.time = s.time := by
    rw [← hx]
    exact ⟨rfl, rfl, rfl, rfl, rfl, rfl, rfl, rfl, rfl⟩
  clear hx
  obtain ⟨hstraps, htimer, hview, hstatus, hport, hsession, happly, hservice, htime⟩ := hsame
  have hprofile : x.profile = s.profile := by unfold State.profile; rw [hstraps]
  have hmarkSlot : x.line.markSlot = s.line.markSlot := hslot .mark
  have hcarries : x.line.carries .mark = s.line.carries .mark := by
    unfold LineUnit.carries
    rw [hattempt]
    cases s.line.attempt <;> rfl
  refine ⟨_, rfl, ?_, fun hother => ?_, fun hprof hrun hc => ?_, fun hprof hwhen => ?_, ?_, ?_, ?_⟩
  · rw [(settle_frame _ _).2.2.1, takeMark_rxGood, hgood]
  · rw [takeMark, if_pos (by rw [hstraps]; exact hother)]
    refine ⟨by simp [htimer], by simp [hview], fun k => by simpa using hslot k, fun g => ?_⟩
    rw [settle_word, isSet_raise, hstatus]
  · have htake : takeMark profile f.number o x = trailingMark f.number x := by
      unfold takeMark
      rw [if_neg (by rw [hstraps, hprof]; simp), htimer, hrun]
      exact if_pos (by rw [hprofile]; exact hc)
    obtain ⟨hslots, hmark, hatt, hdrop, -⟩ := trailingMark_line f.number x
    rw [htake, settle_of_congr hs (by simp [hstatus]) (by simp [hport]) (by simp [hport]) (by simp [happly]) (by simp [hsession])]
    refine ⟨by simp [htimer], by simp [hview], by simp [hstatus], fun k hk => (hslots k hk).trans (hslot k), ?_, ?_, hdrop.trans hdropped⟩
    · rw [hmark, hmarkSlot]
    · rw [hatt, hattempt, hmarkSlot, Option.map_map]
      rfl
  · obtain ⟨kind, htook, -, hslips, hlisten, hearly, hrealign⟩ := takeMark_took (n := f.number) (o := o) (s := x) (hprof.trans (by rw [hstraps]))
      (by rw [htimer, hprofile]; exact hwhen)
    rw [htimer, hprofile] at hearly hrealign
    rw [htimer] at hslips hlisten
    obtain ⟨ht, he, ⟨hphase, hentries, hreceived⟩, hi, hm, hf⟩ := htook.settle s
    rw [hmarkSlot, hcarries] at hm
    refine ⟨kind, ?_, hlisten, hearly, fun hrun hfar => ?_, he, hphase, hentries, hreceived, hi, hm, hf⟩
    · rw [ht, htimer, hslips]
      simp only [decide_eq_true_eq]
    · obtain ⟨hkind, hshare, hmis⟩ := hrealign hrun hfar
      refine ⟨hkind, ?_, ?_⟩
      · rw [(settle_frame _ _).2.2.2.2.2.2.1, hshare]
      · rw [settle_word, hmis]
  · rw [settle_session hs (by simp [hsession]) (by simp [hport])]
    simp [hsession]
  · simp [hservice]
  · simp [htime]
end

