-- ==== Sys2Proof/Proofs/HandOff.lean ====
section
/-! SUPPORT. Frames handed on: the header in the early window, the Peer View and the tally list (R34, R86 to R88, R92, R93, R126). -/

open Sys2Proof Sys2Proof.Machine

namespace Sys2Proof.Machine

/-! ## The header (R34) -/

/-- The header shows that its sender has begun interval n + 1 (R34). -/
def FrameBody.ahead (body : FrameBody) (number n : IntervalNo) : Prop :=
  match body with
  | .offer _ => number = n + 2
  | .target _ _ _ _ => number = n + 2
  | .tally _ => number = n
  | _ => False

theorem showsNext_iff (body : FrameBody) (number n : IntervalNo) : showsNext body number n = true ↔ body.ahead number n := by
  cases body <;> simp [showsNext, FrameBody.ahead]

theorem presentHeader_implied {body : FrameBody} {number : IntervalNo} {o : Order} {s : State}
    (h : s.timer.state = .running ∧ s.profile.length ≤ s.timer.c + s.profile.window ∧ body.ahead number s.timer.n) :
    presentHeader body number o s = boundaryAt .implied (s.timer.n + 1) o s := by
  obtain ⟨hrun, hearly, hahead⟩ := h
  exact if_pos ⟨hrun, by omega, (showsNext_iff _ _ _).mpr hahead⟩

theorem presentHeader_other {body : FrameBody} {number : IntervalNo} {o : Order} {s : State}
    (h : ¬(s.timer.state = .running ∧ s.profile.length ≤ s.timer.c + s.profile.window ∧ body.ahead number s.timer.n)) :
    presentHeader body number o s = s := by
  refine if_neg fun ⟨hrun, hearly, hahead⟩ => h ⟨hrun, by omega, (showsNext_iff _ _ _).mp hahead⟩

/-! ## The hand-off by kind and role (R20) -/

/-- What the owner does with a frame that is no MARK, after the header (R20, R86, R88, R92, R126). -/
def toOwner (f : Frame) (s : State) : State :=
  match s.straps.role, f.body with
  | .charger, .offer v => takeOffer f.source f.number v s
  | .charger, .target m t h r => takeTarget ⟨f.source, f.number, m, t, h, r⟩ s
  | .charger, .withdraw _ => takeWithdraw f.source s
  | .feeder, .tally p => takeTally f.source f.number p s
  | _, _ => s

theorem handOff_eq {f : Frame} (h : ∀ p, f.body ≠ .mark p) (o : Order) (s : State) :
    handOff f o s = toOwner f (presentHeader f.body f.number o s) := by
  have hrole := (presentHeader_frame f.body f.number o s).1
  unfold handOff toOwner
  cases hb : f.body with
  | mark p => exact absurd hb (h p)
  | withdraw r =>
    rw [presentHeader_other (by simp [FrameBody.ahead])]
    cases s.straps.role <;> rfl
  | offer v | target m a b c | tally p =>
    rw [hb] at hrole
    dsimp only
    rw [hrole]
    cases s.straps.role <;> rfl

/-- The owners change view and Feeder Unit alone. -/
theorem toOwner_eq (f : Frame) (s : State) : toOwner f s = { s with view := (toOwner f s).view, feeder := (toOwner f s).feeder } := by
  unfold toOwner takeOffer takeTarget takeWithdraw takeTally countOff countLate
  (repeat' split) <;> rfl

section
variable {f : Frame} {s : State}

theorem toOwner_feeder (hrole : s.straps.role = .feeder) :
    toOwner f s = match f.body with
      | .tally p => takeTally f.source f.number p s
      | _ => s := by
  unfold toOwner
  rw [hrole]
  cases f.body <;> rfl

theorem toOwner_charger (hrole : s.straps.role = .charger) :
    toOwner f s = match f.body with
      | .offer v => takeOffer f.source f.number v s
      | .target m t h r => takeTarget ⟨f.source, f.number, m, t, h, r⟩ s
      | .withdraw _ => takeWithdraw f.source s
      | _ => s := by
  unfold toOwner
  rw [hrole]
  cases f.body <;> rfl
end

/-! ## The Peer View (R86 to R88, R92, R93) -/

section
variable {s : State} {source : Fin 64} {number : IntervalNo}

/-- An OFFER for the interval that begins next enters an OPEN view (R86). -/
theorem takeOffer_opened {v : OfferBody} (hopen : s.view.phase = .opened) (hnext : number = s.timer.n + 1) :
    takeOffer source number v s = { s with view := { s.view with
      entries := insertKeyed Entry.station ⟨source, v, none, .heard⟩ s.view.entries
      rxDup := if ∃ e ∈ s.view.entries, e.station = source then count s.view.rxDup else s.view.rxDup } } := by
  unfold takeOffer
  rw [hopen]
  dsimp only
  rw [if_pos hnext, insertHeard_eq]
  simp [List.any_eq_true]

theorem takeOffer_late {v : OfferBody} (hfrozen : s.view.phase = .frozen) (hnext : number = s.timer.n + 1) :
    takeOffer source number v s = countLate s := by
  unfold takeOffer
  rw [hfrozen]
  exact if_pos hnext

theorem takeOffer_off {v : OfferBody} (h : s.view.phase = .closed ∨ number ≠ s.timer.n + 1) :
    takeOffer source number v s = countOff s := by
  unfold takeOffer
  cases hphase : s.view.phase with
  | closed => rfl
  | opened | frozen => exact if_neg (h.resolve_left (by simp [hphase]))

/-- A WITHDRAW is judged by the phase alone (R88). -/
theorem takeWithdraw_view (source : Fin 64) (s : State) :
    (s.view.phase = .opened → (takeWithdraw source s).view =
        { s.view with entries := s.view.entries.filter fun e => e.station ≠ source }) ∧
      (s.view.phase = .frozen → (takeWithdraw source s).view = { s.view with rxLate := count s.view.rxLate }) ∧
      (s.view.phase = .closed → (takeWithdraw source s).view = s.view) := by
  unfold takeWithdraw countLate
  cases hphase : s.view.phase <;> simp [hphase]

/-- The TARGET of the lowest source is kept (R93). -/
theorem takeTarget_opened {p : TargetPart} (hopen : s.view.phase = .opened) (hnext : p.interval = s.timer.n + 1) :
    takeTarget p s = { s with view := { s.view with
      received := some (match s.view.received with | some old => if old.source < p.source then old else p | none => p)
      rxDup := if s.view.received.isSome then count s.view.rxDup else s.view.rxDup } } := by
  unfold takeTarget
  rw [hopen]
  dsimp only
  rw [if_pos hnext]
  cases s.view.received <;> rfl

theorem takeTarget_late {p : TargetPart} (hfrozen : s.view.phase = .frozen) (hnext : p.interval = s.timer.n + 1) :
    takeTarget p s = countLate s := by
  unfold takeTarget
  rw [hfrozen]
  exact if_pos hnext

theorem takeTarget_off {p : TargetPart} (h : s.view.phase = .closed ∨ p.interval ≠ s.timer.n + 1) : takeTarget p s = countOff s := by
  unfold takeTarget
  cases hphase : s.view.phase with
  | closed => rfl
  | opened | frozen => exact if_neg (h.resolve_left (by simp [hphase]))

/-- A tally of the interval that ended enters the list (R126). -/
theorem takeTally_running {p : Int} (hrun : s.timer.state = .running) (hlast : number = s.timer.n - 1) :
    takeTally source number p s = { s with feeder := { s.feeder with
      tallies := insertKeyed Tally.station ⟨source, p⟩ s.feeder.tallies
      tallyLate := if s.feeder.begun then count s.feeder.tallyLate else s.feeder.tallyLate } } := by
  rw [takeTally, if_pos ⟨hrun, hlast⟩, insertTally_eq]

theorem takeTally_off {p : Int} (h : s.timer.state = .listen ∨ number ≠ s.timer.n - 1) :
    takeTally source number p s = { s with feeder := { s.feeder with tallyOff := count s.feeder.tallyOff } } := by
  refine if_neg fun ⟨hrun, hlast⟩ => ?_
  rcases h with hl | hne
  · simp [hrun] at hl
  · exact hne hlast
end

/-- A frame whose header was ahead meets an empty view and an empty tally list (R34, R86, R92, R126). -/
structure Begins (f : Frame) (s t : State) : Prop where
  view : t.view.phase = .opened ∧ t.view.rxLate = s.view.rxLate ∧ t.view.rxOff = s.view.rxOff ∧ t.view.rxDup = s.view.rxDup
  offer : ∀ v, f.body = .offer v → t.view.received = none ∧
    t.view.entries = if s.straps.role = .charger then [⟨f.source, v, none, .heard⟩] else []
  target : ∀ m a b c, f.body = .target m a b c → t.view.entries = [] ∧
    t.view.received = if s.straps.role = .charger then some ⟨f.source, f.number, m, a, b, c⟩ else none
  tally : ∀ p, f.body = .tally p → t.view.entries = [] ∧ t.view.received = none ∧
    (s.straps.role = .feeder → t.feeder.tallies = [⟨f.source, p⟩] ∧ t.feeder.tallyLate = s.feeder.tallyLate ∧
      t.feeder.tallyOff = s.feeder.tallyOff)

theorem begins_toOwner {f : Frame} {y : State} {n : IntervalNo} (hahead : f.body.ahead f.number n)
    (htimer : y.timer.n = n + 1 ∧ y.timer.state = .running)
    (hview : y.view.phase = .opened ∧ y.view.entries = [] ∧ y.view.received = none)
    (hfeeder : y.straps.role = .feeder → y.feeder.tallies = [] ∧ y.feeder.begun = false) : Begins f y (toOwner f y) := by
  obtain ⟨hn, hrun⟩ := htimer
  obtain ⟨hphase, hentries, hreceived⟩ := hview
  have htwo : n + 2 = y.timer.n + 1 := by rw [hn, BitVec.add_assoc]; rfl
  cases hrole : y.straps.role with
  | charger =>
    rw [toOwner_charger hrole]
    cases hb : f.body with
    | mark p | withdraw r => simp [hb, FrameBody.ahead] at hahead
    | offer v =>
      rw [hb] at hahead
      dsimp only
      rw [takeOffer_opened hphase (hahead.trans htwo), hentries]
      constructor <;> simp [hb, hphase, hreceived, hrole, insertKeyed]
    | target m a b c =>
      rw [hb] at hahead
      dsimp only
      rw [takeTarget_opened hphase (hahead.trans htwo), hreceived]
      constructor <;> simp [hb, hphase, hentries, hrole]
    | tally p => constructor <;> simp [hb, hphase, hentries, hreceived, hrole]
  | feeder =>
    obtain ⟨htallies, hbegun⟩ := hfeeder hrole
    rw [toOwner_feeder hrole]
    cases hb : f.body with
    | mark p | withdraw r => simp [hb, FrameBody.ahead] at hahead
    | offer v => constructor <;> simp [hb, hphase, hentries, hreceived, hrole]
    | target m a b c => constructor <;> simp [hb, hphase, hentries, hreceived, hrole]
    | tally p =>
      rw [hb] at hahead
      have hlast : f.number = y.timer.n - 1 := by rw [hn]; exact hahead.trans (by simp)
      dsimp only
      rw [takeTally_running hrun hlast, htallies, hbegun]
      constructor <;> simp [hb, hphase, hentries, hreceived, insertKeyed]

end Sys2Proof.Machine

/-- Settles O49: the header, then the owner. -/
theorem heardFramesReachTheirOwners : Obligations.HeardFramesReachTheirOwners := by
  intro s f levels o hlegal hsite hsource hears hs hview hfeeder hmark
  rw [exec_frameReceived_hears hlegal hears, filterFrame, if_neg (by simp [hsite]), if_neg (by exact hsource), handOff_eq hmark]
  generalize hl : ({ s.line.afterReading 8 with rxGood := count (s.line.afterReading 8).rxGood } : LineUnit) = l
  have hgood : l = { s.line.afterReading 8 with rxGood := count s.line.rxGood } := by rw [← hl]; simp
  refine ⟨fun himplied => ?_, fun hother => ?_⟩
  · have hheader : presentHeader f.body f.number o { s with line := l } = boundaryAt .implied (s.timer.n + 1) o { s with line := l } :=
      presentHeader_implied himplied
    have htook := tookBoundary_boundaryAt (kind := .implied) (by decide) (s.timer.n + 1) o { s with line := l }
    have hcounts := sameCounts_boundaryAt .implied (s.timer.n + 1) o { s with line := l }
    have hframe := boundaryAt_frame .implied (s.timer.n + 1) o { s with line := l }
    have htallies := takeBoundary_tallies .implied (s.timer.n + 1) o (s := takePoints o { s with line := l })
    rw [hheader]
    unfold boundaryAt at *
    generalize takeBoundary .implied (s.timer.n + 1) o (takePoints o { s with line := l }) = y at *
    obtain ⟨htimer, hengine, ⟨hphase, hentries, hreceived⟩, hinterval, hslot, hfactor⟩ := htook
    obtain ⟨hrxGood, hrxDup, hrxOff, hrxLate, htallyLate, htallyOff⟩ := hcounts
    obtain ⟨hstraps, htime, hsession, hport, hservice, -⟩ := hframe
    have howner := toOwner_eq f y
    have hmarkSlot : l.markSlot = s.line.markSlot := by rw [hgood]; exact (afterReading_frame s.line 8).1 .mark
    have hahead : f.body.ahead f.number s.timer.n := himplied.2.2
    obtain ⟨⟨hp, hlate, hoff, hdup⟩, hoffer, htarget, htally⟩ := begins_toOwner (y := y) hahead (by rw [htimer]; exact ⟨rfl, rfl⟩)
      ⟨hphase, hentries, hreceived⟩ (fun hrole => htallies (by simpa [hstraps] using hrole))
    rw [hstraps] at hoffer htarget htally
    rw [htallyLate, htallyOff] at htally
    obtain ⟨-, hstime, hsline, hstimer, hsview, hsalloc, hsapply, hsfeeder, hsservice, -⟩ := settle_frame s (toOwner f y)
    have hssession := settle_session (u := toOwner f y) hs (by rw [howner]; exact hsession) (by rw [howner]; exact hport)
    have hsfactor : Factor.boundary.isSet (settle s (toOwner f y)).status.factors = true := settle_factors (by rw [howner]; exact hfactor)
    refine ⟨_, rfl, ?_⟩
    rw [hstime, hsline, hstimer, hsview, hsalloc, hsapply, hsfeeder, hsservice, hssession]
    have hline : (toOwner f y).line = y.line := by rw [howner]
    refine ⟨?_, ?_, ?_, ?_, hsfactor, ?_, hp, hlate.trans hrxLate, hoff.trans hrxOff, hdup.trans hrxDup, hoffer, htarget, htally, ?_, ?_, ?_⟩
    · rw [howner]
      exact htimer
    · rw [hline, hrxGood, hgood]
    · rw [howner]
      exact hinterval
    · rw [howner]
      exact hengine
    · rw [hline]
      intro q hq
      obtain ⟨p, hpm, hqp⟩ := hslot q hq
      refine ⟨p, hmarkSlot.symm.trans hpm, ?_⟩
      rcases hqp with ⟨rfl, -⟩ | ⟨rfl, -⟩ <;> rfl
    · rw [howner]
      exact hsession
    · rw [howner]
      exact hservice
    · rw [howner]
      exact htime
  · have hheader : presentHeader f.body f.number o { s with line := l } = { s with line := l } := presentHeader_other hother
    have howner := toOwner_eq f { s with line := l }
    rw [hheader, settle_of_congr hs (by rw [howner]) (by rw [howner]) (by rw [howner]) (by rw [howner]) (by rw [howner]), ← hgood]
    refine ⟨_, rfl, howner, fun hrole => ?_, fun hrole => ?_⟩
    · rw [toOwner_feeder (s := { s with line := l }) hrole]
      refine ⟨?_, fun hno => ?_, fun p hp => ?_⟩
      · cases hb : f.body with
        | tally p => simp
        | mark | offer | target | withdraw => rfl
      · cases hb : f.body with
        | tally p => exact absurd hb (hno p)
        | mark | offer | target | withdraw => rfl
      · rw [hp]
        dsimp only
        refine ⟨fun hrun hlast => ?_, fun h => ?_⟩
        · rw [takeTally_running (s := { s with line := l }) hrun hlast]
          exact ⟨fun y => mem_insertKeyed_iff _ _ _ hfeeder.1, rfl⟩
        · rw [takeTally_off (s := { s with line := l }) h]
    · rw [toOwner_charger (s := { s with line := l }) hrole]
      refine ⟨?_, fun ⟨p, hp⟩ => ?_, fun r hr => ?_, fun hown => ⟨fun h => ?_, fun hfrozen hnext => ?_⟩, fun v hv hopen hnext => ?_,
        fun m a b c hb hopen hnext => ?_⟩
      · cases f.body with
        | mark | tally => rfl
        | offer v => simp
        | target => simp
        | withdraw => simp
      · rw [hp]
      · rw [hr]
        exact takeWithdraw_view f.source { s with line := l }
      · rcases hown with ⟨v, hv⟩ | ⟨m, a, b, c, hb⟩
        · rw [hv]
          dsimp only
          rw [takeOffer_off (s := { s with line := l }) h, countOff]
        · rw [hb]
          dsimp only
          rw [takeTarget_off (s := { s with line := l }) h, countOff]
      · rcases hown with ⟨v, hv⟩ | ⟨m, a, b, c, hb⟩
        · rw [hv]
          dsimp only
          rw [takeOffer_late (s := { s with line := l }) hfrozen hnext, countLate]
        · rw [hb]
          dsimp only
          rw [takeTarget_late (s := { s with line := l }) hfrozen hnext, countLate]
      · rw [hv]
        dsimp only
        rw [takeOffer_opened (s := { s with line := l }) hopen hnext]
        exact ⟨fun e => mem_insertKeyed_iff _ _ _ hview.1, rfl⟩
      · rw [hb]
        refine (congrArg State.view (takeTarget_opened (s := { s with line := l }) hopen hnext)).trans ?_
        cases s.view.received <;> rfl
end

