-- ==== Sys2Proof/Proofs/Ticks.lean ====
section
/-! SUPPORT. A tick that finds nothing overdue and takes no boundary (R24 to R26, R36, R140 to R144). -/

open Sys2Proof Sys2Proof.Machine

namespace Sys2Proof.Machine

/-! ## Nothing overdue (R36, R80, R100, R139, R170) -/

theorem settle_self {s : State} (h : Settled s) : settle s s = s := settle_of_settled _ _ rfl h

theorem readyHead_of_empty {s : State} (h : s.service.fifo = []) : s.readyHead = none := by
  unfold State.readyHead
  rw [h]

section
variable {s : State} {o : Order}

theorem takeDeadlines_of_none (h : ∀ slot, s.deadlineDue slot = false) : takeDeadlines o s = s := by
  have hone (k : Slot) : takeDeadline k s = s := if_neg (by simp [h k])
  unfold takeDeadlines
  split <;> simp only [hone]

theorem takePoints_of_none (h : NoPointDue s) : takePoints o s = s := by
  obtain ⟨hfreeze, htarget, hdeadlines⟩ := h
  unfold takePoints takeFreezeIfDue takeTargetIfDue
  rw [takeDeadlines_of_none hdeadlines]
  simp [hfreeze, htarget]

theorem endTarget_of_idle (h : s.feeder.composing = none) : endTarget s = s := by
  unfold endTarget
  rw [h]

theorem timeOutLink_of_empty (h : s.port.link = []) (n : Nat) : timeOutLink n s = s := by
  cases n with
  | zero => rfl
  | succ n => rw [timeOutLink, h]

theorem overdueTimer_of_not (h : s.time.tickDue = false) : overdueTimer o s = s := if_neg (by simp [h])

theorem overdueSecond_of_not (h : s.time.secondDue = false) : overdueSecond s = s := if_neg (by simp [h])

/-- What may wait on the link waits there, and nothing else (R139). -/
theorem overdueLink_of_none (h : s.port.owed = 0) (hlink : s.port.link = [] ∨ o.repliesLater = true) :
    overdueLink o s = { s with port := { s.port with owed := s.port.link.length } } := by
  unfold overdueLink
  rw [h]
  rw [show timeOutLink 0 s = s from rfl]
  dsimp only
  split
  · rfl
  · next hr =>
    have hnil := hlink.resolve_right hr
    have hzero : s.port.link.length = s.port.owed := by rw [hnil, h, List.length_nil]
    rw [timeOutLink_of_empty hnil, hzero]

/-- A head that may wait is held, and nothing else (R170). -/
theorem overduePosts_of_none (h : s.service.held = false)
    (hfifo : s.service.fifo = [] ∨ o.postsLater = true ∧ s.readyHead.isSome = true) :
    overduePosts o s = { s with service := { s.service with held := !s.service.fifo.isEmpty } } := by
  unfold overduePosts
  rcases hfifo with hnil | ⟨hlater, hready⟩
  · rw [readyHead_of_empty hnil, if_neg (by simp)]
    dsimp only
    rw [flushPosts_of_none (readyHead_of_empty hnil), hnil]
    rfl
  · have hne : s.service.fifo.isEmpty = false := by
      cases hf : s.service.fifo with
      | nil => simp [readyHead_of_empty hf] at hready
      | cons p ps => rfl
    rw [hlater, hready, h, hne]
    rfl

theorem allocationTick_of_not (h : ∀ i ticks, s.alloc.engine ≠ .computing i ticks) : allocationTick s = s := by
  unfold allocationTick
  split
  · next i ticks hc => exact absurd hc (h i ticks)
  · rfl

theorem act_takePoints (h : NoPointDue s) (hs : Settled s) : act (takePoints o) s = s := by
  rw [act, takePoints_of_none h, settle_self hs]

theorem act_allocationTick (h : ∀ i ticks, s.alloc.engine ≠ .computing i ticks) (hs : Settled s) : act allocationTick s = s := by
  rw [act, allocationTick_of_not h, settle_self hs]

/-- The premises of a tick that need not have ended anything: what is on the link or in the FIFO may wait. -/
structure MayWait (s : State) (o : Order) : Prop where
  tick : s.time.tickDue = false
  second : s.time.secondDue = false
  owed : s.port.owed = 0
  link : s.port.link = [] ∨ o.repliesLater = true
  points : NoPointDue s
  offer : s.view.composing = none
  target : s.feeder.composing = none
  held : s.service.held = false
  posts : s.service.fifo = [] ∨ o.postsLater = true ∧ s.readyHead.isSome = true
  engine : ∀ i ticks, s.alloc.engine ≠ .computing i ticks
  settled : Settled s

/-- The marks of what waits, as a tick sets them (log entry 4). -/
def State.waiting (s : State) : State :=
  { s with port := { s.port with owed := s.port.link.length }, service := { s.service with held := !s.service.fifo.isEmpty } }

theorem overdue_of_mayWait (h : MayWait s o) : overdue o s = s.waiting := by
  obtain ⟨htick, hsecond, howed, hlink, hpoints, hoffer, htarget, hheld, hposts, hengine, hs⟩ := h
  generalize hu : ({ s with port := { s.port with owed := s.port.link.length } } : State) = u
  have husettled : Settled u := by rw [← hu]; exact hs
  have hupoints : NoPointDue u := by rw [← hu]; exact ⟨hpoints.1, hpoints.2, hpoints.3⟩
  have hready : u.readyHead = s.readyHead := readyHead_congr (by rw [← hu]) (by rw [← hu]) (by rw [← hu])
  have hwaiting : overduePosts o u = s.waiting := by
    rw [overduePosts_of_none (by rw [← hu]; exact hheld) (by rw [hready, ← hu]; exact hposts), ← hu]
    rfl
  unfold overdue
  dsimp only
  rw [overdueTimer_of_not htick, overdueSecond_of_not hsecond, overdueLink_of_none howed hlink, hu, act_takePoints hupoints husettled,
    endOffer_of_none (by rw [← hu]; exact hoffer), endTarget_of_idle (by rw [← hu]; exact htarget), hwaiting]
  exact act_allocationTick (s := s.waiting) hengine hs

theorem Quiet.mayWait (h : Quiet s) (hs : Settled s) : MayWait s o := by
  obtain ⟨⟨htick, hsecond, hlink, howed⟩, hpoints, hoffer, htarget, ⟨hfifo, hheld⟩, hengine⟩ := h
  exact ⟨htick, hsecond, howed, .inl hlink, hpoints, hoffer, htarget, hheld, .inl hfifo, hengine, hs⟩

theorem Quiet.waiting (h : Quiet s) : s.waiting = s := by
  obtain ⟨⟨-, -, hlink, howed⟩, -, -, -, ⟨hfifo, hheld⟩, -⟩ := h
  unfold State.waiting
  rw [hlink, hfifo, List.length_nil, List.isEmpty_nil, Bool.not_true, ← hheld, ← howed]

theorem overdue_of_quiet (h : Quiet s) (hs : Settled s) : overdue o s = s := (overdue_of_mayWait (h.mayWait hs)).trans h.waiting
end

/-! ## The Interval Timer and the port take the tick (R25, R26, R36, R140 to R144) -/

/-- The tick is no boundary (R27, R28). -/
structure Within (s : State) : Prop where
  running : s.timer.state = .running → s.timer.c + 1 < s.profile.length
  listen : s.timer.state = .listen → s.timer.listen + 1 < 2 * s.profile.length

/-- The Interval Timer after such a tick (R25, R26, R36). -/
def State.timerNext (s : State) : TimerUnit :=
  match s.timer.state with
  | .running => { s.timer with
      c := s.timer.c + 1
      freezeDue := s.timer.freezeDue || s.timer.c + 1 == s.profile.freeze
      targetDue := s.timer.targetDue || (s.timer.c + 1 == s.profile.target && s.straps.role == .feeder) }
  | .listen => { s.timer with listen := s.timer.listen + 1 }

section
variable {s : State} {o : Order}

theorem timerTick_within (h : Within s) : timerTick o s = { s with timer := s.timerNext } := by
  unfold timerTick State.timerNext
  cases hstate : s.timer.state with
  | running => exact if_pos (h.running hstate)
  | listen => exact if_pos (h.listen hstate)

theorem timerWaits_within (h : Within s) : timerWaits o s = false := by
  have hown : s.ownBoundaryNext = false := by
    unfold State.ownBoundaryNext
    cases hstate : s.timer.state with
    | running => simp [h.running hstate]
    | listen => rfl
  have hexpiry : s.expiryNext = false := by
    unfold State.expiryNext
    cases hstate : s.timer.state with
    | running => rfl
    | listen => simp [h.listen hstate]
  unfold timerWaits
  rw [hown, hexpiry, Bool.or_false, Bool.and_false]

/-- The tick is no enable timeout (R142). -/
abbrev NoTimeout (s : State) : Prop := s.port.state = .enabling → s.port.enableWait + 1 < 50

/-- The port alone changes on such a tick (R140 to R144). -/
theorem portTick_eq (h : NoTimeout s) : portTick s = { s with port := (portTick s).port } := by
  unfold portTick
  cases hp : s.port.state with
  | enabled =>
    dsimp only
    rw [rampTick_eq]
    split <;> rfl
  | enabling =>
    have hwait : waitTick s = { s with port := { s.port with enableWait := s.port.enableWait + 1 } } := if_pos (h hp)
    dsimp only
    rw [hwait]
    rfl
  | meterOnly | disabled | disabling | faulted => rfl

/-- It does so by the port, the share and the reserve. -/
theorem portTick_congr {t : State} (h : NoTimeout s) (hport : t.port = s.port) (happly : t.apply = s.apply)
    (hsession : t.session = s.session) (haccount : t.account = s.account) : (portTick t).port = (portTick s).port := by
  have habove : t.aboveReserve = s.aboveReserve := by
    unfold State.aboveReserve
    rw [hsession, haccount]
  unfold portTick
  rw [hport]
  cases hp : s.port.state with
  | enabled =>
    dsimp only
    have hidle : idleAfter t = idleAfter s := by
      unfold idleAfter
      rw [hport, happly, habove]
    rw [rampTick_eq, rampTick_eq, hidle, hport, happly, habove]
    by_cases hfew : idleAfter s < Config.idleTicks
    · rw [if_pos hfew, if_pos hfew]
      rfl
    · rw [if_neg hfew, if_neg hfew]
      rfl
  | enabling =>
    have hwait (x : State) (hx : x.port = s.port) : waitTick x = { x with port := { s.port with enableWait := s.port.enableWait + 1 } } := by
      unfold waitTick
      rw [hx]
      exact if_pos (h hp)
    dsimp only
    rw [hwait t hport, hwait s rfl]
    rfl
  | meterOnly => exact hport
  | disabled | disabling | faulted =>
    unfold startExchange
    dsimp only
    rw [hport]

/-- A tick reaches no port state from which something follows at once (R61, R141). -/
theorem portTick_settled (h : NoTimeout s) (hs : Settled s) : Settled (portTick s) := by
  cases hp : s.port.state with
  | enabled =>
    refine settled_of_not_disabled ?_
    unfold portTick
    rw [hp]
    dsimp only
    rw [rampTick_eq]
    split <;> simp [startExchange, hp]
  | enabling =>
    refine settled_of_not_disabled ?_
    have hwait : waitTick s = { s with port := { s.port with enableWait := s.port.enableWait + 1 } } := if_pos (h hp)
    unfold portTick
    rw [hp]
    dsimp only
    rw [hwait]
    simp [startExchange, hp]
  | meterOnly | disabled | disabling | faulted =>
    unfold portTick
    rw [hp]
    exact hs

/-- Interval Timer and port take the tick in either order (R143). -/
theorem blocksTick_within (hw : Within s) (hp : NoTimeout s) (hs : Settled s) :
    blocksTick o s = { s with timer := s.timerNext, port := (portTick s).port } := by
  have htimer (x : State) (hx : Within x) (hxs : Settled x) : act (timerTick o) x = { x with timer := x.timerNext } := by
    rw [act, timerTick_within hx]
    exact settle_of_congr hxs rfl rfl rfl rfl rfl
  have hport (x : State) (hx : NoTimeout x) (hxs : Settled x) : act portTick x = { x with port := (portTick x).port } := by
    rw [act, portTick_eq hx]
    refine settle_port ?_
    rw [← portTick_eq hx]
    exact portTick_settled hx hxs
  unfold blocksTick
  split
  · have hsettled : Settled { s with port := (portTick s).port } := by
      rw [← portTick_eq hp]
      exact portTick_settled hp hs
    have hthen := htimer { s with port := (portTick s).port } ⟨hw.running, hw.listen⟩ hsettled
    rw [hport s hp hs, hthen]
    rfl
  · have hthen := hport { s with timer := s.timerNext } hp hs
    have hsame := portTick_congr (t := { s with timer := s.timerNext }) hp rfl rfl rfl rfl
    rw [htimer s hw hs, hthen, hsame]

/-- A tick that takes no second event first (R24). -/
theorem tickNow_of_not_first (hfirst : s.time.phase < 9 ∨ o.secondFirst = false) :
    tickNow o s = timeTick s.tenth o.secondFirst (timerWaits o s)
      (if timerWaits o s = true then act portTick s else blocksTick o s) := by
  have hnot : (s.tenth && o.secondFirst) = false := by
    unfold State.tenth
    rcases hfirst with hlt | hf
    · simp [hlt]
    · simp [hf]
  unfold tickNow
  simp only [hnot, Bool.false_eq_true, if_false]

/-- The time base after a tick that took no second event first (R24). -/
theorem timeTick_of_not_first (hfirst : s.time.phase < 9 ∨ o.secondFirst = false) (waits : Bool) (u : State) :
    timeTick s.tenth o.secondFirst waits u =
      { u with time := ⟨if s.time.phase < 9 then u.time.phase + 1 else 0, decide (9 ≤ s.time.phase), waits⟩ } := by
  unfold timeTick State.tenth
  rcases hfirst with hlt | hf
  · rw [if_pos hlt]
    simp [Nat.not_le.mpr hlt]
  · rw [hf]
    by_cases h : s.time.phase < 9
    · simp [h, Nat.not_le.mpr h]
    · simp [h, Nat.not_lt.mp h]

/-- A tick that finds nothing overdue, takes no boundary and no second event first (R24 to R26, R140). -/
theorem tickNow_within (hw : Within s) (hp : NoTimeout s) (hs : Settled s) (hfirst : s.time.phase < 9 ∨ o.secondFirst = false) :
    tickNow o s = { s with
      time := ⟨if s.time.phase < 9 then s.time.phase + 1 else 0, decide (9 ≤ s.time.phase), false⟩
      timer := s.timerNext, port := (portTick s).port } := by
  rw [tickNow_of_not_first hfirst, timerWaits_within hw, if_neg (by simp), blocksTick_within hw hp hs, timeTick_of_not_first hfirst]
end

end Sys2Proof.Machine
end

