-- ==== Sys2Proof/Proofs/Ramp.lean ====
section
/-! SUPPORT. The ramp step of a tick in ENABLED (R71, R143, R144). -/

open Sys2Proof Sys2Proof.Machine

namespace Sys2Proof.Machine

/-- One ramp step, direction by direction (R71, R143). -/
theorem rampTo_eq (command share : Int) (above : Bool) : rampTo command share above =
    if command < share then
      if above = true then min (command + 50) share
      else if 0 ≤ command then command else min (min (command + 50) share) 0
    else max (command - 50) share := by
  have hclamp := clampInt_eq 50 (share - command)
  have hstep : clampInt (-Config.rampStep) Config.rampStep (share - command) = max (-50) (min 50 (share - command)) := hclamp
  unfold rampTo
  rw [hstep]
  cases above with
  | true =>
    simp only [Bool.true_eq_false, and_false, if_false, if_true]
    split <;> omega
  | false =>
    simp only [and_true, Bool.false_eq_true, if_false]
    (repeat' split) <;> omega

/-- A command within one step of 0 ends at a share of 0 (R143, R144). -/
theorem rampTo_zero {command : Int} {above : Bool} (h : command.natAbs ≤ 50) : rampTo command 0 above = 0 := by
  rw [rampTo_eq]
  (repeat' split) <;> omega

/-- The port after a tick in ENABLED (R140, R143, R144). -/
theorem portTick_enabled {s : State} (h : s.port.state = .enabled) : (portTick s).port = { s.port with
    command := rampTo s.port.command s.apply.share s.aboveReserve
    idleCount := if 10 ≤ idleAfter s then 10 else idleAfter s
    state := if 10 ≤ idleAfter s then .disabling else .enabled
    enable := if 10 ≤ idleAfter s then false else s.port.enable
    link := s.port.link ++ [.exchange (exchangeWord (rampTo s.port.command s.apply.share s.aboveReserve)
      (if 10 ≤ idleAfter s then false else s.port.enable))] } := by
  unfold portTick
  rw [h]
  dsimp only
  rw [rampTick_eq]
  by_cases hfew : idleAfter s < 10
  · rw [if_pos (show idleAfter s < Config.idleTicks from hfew)]
    simp only [if_neg (Nat.not_le.mpr hfew), startExchange, ← h]
  · rw [if_neg (show ¬idleAfter s < Config.idleTicks from hfew)]
    simp only [if_pos (Nat.not_lt.mp hfew), startExchange, Config.idleTicks]

/-- With nothing announced before, the announcements of a tick are those of the count it reaches (R36). -/
theorem timerNext_running {s : State} (h : NoPointDue s) (hrun : s.timer.state = .running) : s.timerNext = { s.timer with
    c := s.timer.c + 1
    freezeDue := decide (s.timer.c + 1 = s.profile.freeze)
    targetDue := decide (s.timer.c + 1 = s.profile.target ∧ s.straps.role = .feeder) } := by
  obtain ⟨hfreeze, htarget, -⟩ := h
  unfold State.timerNext
  rw [hrun]
  dsimp only
  rw [hfreeze, htarget, Bool.false_or, Bool.false_or, Bool.decide_and, beq_eq_decide, beq_eq_decide, beq_eq_decide]

theorem timerNext_listen {s : State} (h : s.timer.state = .listen) : s.timerNext = { s.timer with listen := s.timer.listen + 1 } := by
  unfold State.timerNext
  rw [h]

end Sys2Proof.Machine

/-- Settles O31: the tick on a quiet machine, with the ramp step direction by direction. -/
theorem tickRampsTheCommand : Obligations.TickRampsTheCommand := by
  intro s o hquiet hs hfirst hrunning hlisten hstate
  have htick : exec (.tick o) s = .next { s with
      time := ⟨if s.time.phase < 9 then s.time.phase + 1 else 0, decide (9 ≤ s.time.phase), false⟩
      timer := s.timerNext, port := (portTick s).port } := by
    change Host.Outcome.next (tickAll o s) = _
    rw [tickAll, overdue_of_quiet hquiet hs, tickNow_within ⟨hrunning, hlisten⟩ (fun h => by simp [hstate] at h) hs hfirst]
  have hport := portTick_enabled hstate
  rw [hquiet.events.link.1, List.nil_append] at hport
  refine ⟨_, htick, ?_, rfl, timerNext_running hquiet.points, timerNext_listen, rfl, rfl, rfl, rfl, rfl, rfl, rfl, rfl, rfl,
    fun hidle hshare hnear => ?_⟩
  · dsimp only
    rw [hport]
    unfold idleAfter
    rw [rampTo_eq]
  · have hzero : rampTo s.port.command s.apply.share s.aboveReserve = 0 := by rw [hshare, rampTo_zero hnear]
    have hends : 10 ≤ idleAfter s := by
      unfold idleAfter
      rw [if_pos ⟨hshare, hzero⟩]
      omega
    have hguard : (s.port.state == .enabled && decide (Config.idleTicks ≤ s.port.idleCount + 1) && s.apply.share == 0 &&
        rampTo s.port.command s.apply.share s.aboveReserve == 0) = true := by
      have hten : Config.idleTicks ≤ s.port.idleCount + 1 := by simp only [Config.idleTicks]; omega
      simp [hstate, hten, hshare, rampTo_zero hnear]
    refine ⟨?_, ?_, ?_, ?_⟩
    · change execIdleCountExpiry o s = _
      rw [execIdleCountExpiry, if_pos hguard]
      exact htick
    · rw [hport]
      exact if_pos hends
    · rw [hport]
      exact hzero
    · rw [hport]
      exact if_pos hends
end

