-- ==== Sys2Proof/Proofs/EnableTimeout.lean ====
section
/-! SUPPORT. The tick of the enable timeout (R142, R146, R148). -/

open Sys2Proof Sys2Proof.Machine

namespace Sys2Proof.Machine

/-- The enable wait at its timeout. -/
def State.waited (s : State) : State := { s with port := { s.port with enableWait := 50 } }

/-- The port's tick at the timeout: entry into FAULTED, then the exchange (R140, R142). -/
theorem act_portTick_timeout {s : State} (h : s.port.state = .enabling) (hwait : 49 ≤ s.port.enableWait) :
    ∃ st : StatusUnit, st.word = (enterFaulted .enableTimeout s.waited).status.word ∧
      act portTick s = { enterFaulted .enableTimeout s.waited with
        port := (startExchange (enterFaulted .enableTimeout s.waited)).port, status := st } := by
  have htimeout : waitTick s = enterFaulted .enableTimeout s.waited := if_neg (by simp only [Config.enableTimeout]; omega)
  have htick : portTick s = startExchange (enterFaulted .enableTimeout s.waited) := by
    unfold portTick
    rw [h]
    dsimp only
    rw [htimeout]
  have hentered := faultEntered_enterFaulted (s := s.waited) .enableTimeout (by simp [State.waited, h])
  generalize enterFaulted .enableTimeout s.waited = e at *
  have hsettled : Settled (startExchange e) := settled_of_not_disabled (by simp [startExchange, hentered.port])
  refine ⟨(noteFaults s.status.word (startExchange e)).status, noteFaults_word _ _, ?_⟩
  rw [act, htick, settle_eq_noteFaults hsettled, noteFaults_eq_status]
  rfl

/-- What the tick of the enable timeout leaves (R52, R53, R142, R146, R148). -/
structure TimedOut (s t : State) : Prop where
  port : t.port.state = .faulted ∧ t.port.lastCause = some .enableTimeout ∧ t.port.command = 0 ∧ t.port.enable = false ∧ t.port.offRun = 0
  apply : t.apply = if s.apply.share = 0 then s.apply else { s.apply with share := 0, lastCut := some .forcedStop }
  flag : Flag.converter.isSet t.status.word = true
  session : t.session = { s.session with state := if s.session.state = .engaged then .stopped else s.session.state }
  withdrawn : s.session.state = .engaged → t.line.offerSlot = none ∧ t.view = viewWithdrawn s ∧
    (s.line.state ≠ .clash → t.line.withdrawSlot = some
      ⟨⟨0, s.straps.stn, s.straps.site, s.timer.n, .withdraw .stopped⟩, none, false⟩)
  kept : s.session.state ≠ .engaged → t.line = s.line ∧ t.view = s.view
  frame : t.straps = s.straps ∧ t.timer = s.timer ∧ t.account = s.account ∧ t.alloc = s.alloc ∧ t.feeder = s.feeder ∧
    t.service = s.service

theorem timedOut_portTick {s : State} (h : s.port.state = .enabling) (hwait : 49 ≤ s.port.enableWait) : TimedOut s (act portTick s) := by
  obtain ⟨st, hst, htick⟩ := act_portTick_timeout h hwait
  obtain ⟨hport, happly, hflags, hsession, hwithdrawn, hkept, hstraps, -, htimer, haccount, halloc, hfeeder, hservice⟩ :=
    faultEntered_enterFaulted (s := s.waited) .enableTimeout (by simp [State.waited, h])
  rw [htick]
  generalize enterFaulted .enableTimeout s.waited = e at *
  refine ⟨?_, happly, ?_, hsession, hwithdrawn, hkept, hstraps, htimer, haccount, halloc, hfeeder, hservice⟩
  · unfold startExchange
    dsimp only
    rw [hport]
    exact ⟨rfl, rfl, rfl, rfl, rfl⟩
  · have hset := hflags .converter
    rw [← hst] at hset
    simpa using hset

/-- Interval Timer and port take the tick of the timeout in either order (R142, R143). -/
theorem blocksTick_timeout {s : State} {o : Order} (hw : Within s) (hs : Settled s) (h : s.port.state = .enabling)
    (hwait : 49 ≤ s.port.enableWait) : ∃ t, blocksTick o s = t ∧ t.timer.n = s.timer.n ∧ TimedOut s { t with timer := s.timer } := by
  have htimer (x : State) (hx : Within x) (hxs : Settled x) : act (timerTick o) x = { x with timer := x.timerNext } := by
    rw [act, timerTick_within hx]
    exact settle_of_congr hxs rfl rfl rfl rfl rfl
  have hnumber (x : State) : x.timerNext.n = x.timer.n := by
    unfold State.timerNext
    split <;> rfl
  refine ⟨_, rfl, ?_⟩
  unfold blocksTick
  split
  · have hout := timedOut_portTick h hwait
    generalize act portTick s = u at hout
    obtain ⟨hport, happly, hflag, hsession, hwithdrawn, hkept, hstraps, hutimer, hrest⟩ := hout
    have hwithin : Within u := by
      have hprofile : u.profile = s.profile := by unfold State.profile; rw [hstraps]
      exact ⟨by rw [hutimer, hprofile]; exact hw.running, by rw [hutimer, hprofile]; exact hw.listen⟩
    rw [htimer u hwithin (settled_of_not_disabled (by rw [hport.1]; simp))]
    exact ⟨(hnumber u).trans (by rw [hutimer]), hport, happly, hflag, hsession, hwithdrawn, hkept, hstraps, rfl, hrest⟩
  · rw [htimer s hw hs]
    obtain ⟨hport, happly, hflag, hsession, hwithdrawn, hkept, hstraps, hutimer, hrest⟩ :=
      timedOut_portTick (s := { s with timer := s.timerNext }) h hwait
    refine ⟨by rw [hutimer]; exact hnumber s, hport, happly, hflag, hsession, fun he => ?_, hkept, hstraps, rfl, hrest⟩
    obtain ⟨hoffer, hview, hslot⟩ := hwithdrawn he
    refine ⟨hoffer, hview, fun hclash => ?_⟩
    rw [← hnumber s]
    exact hslot hclash

end Sys2Proof.Machine

/-- Settles O32: the tick on a quiet machine, with the timeout before or after the count. -/
theorem enableTimeoutEntersFaulted : Obligations.EnableTimeoutEntersFaulted := by
  intro s o hquiet hs hfirst hrunning hlisten hstate hwait
  obtain ⟨u, hblocks, hn, hport, happly, hflag, hsession, hwithdrawn, hkept, hstraps, -, haccount, halloc, hfeeder, hservice⟩ :=
    blocksTick_timeout (o := o) ⟨hrunning, hlisten⟩ hs hstate hwait
  have htick : exec (.tick o) s = .next (timeTick s.tenth o.secondFirst false u) := by
    change Host.Outcome.next (tickAll o s) = _
    rw [tickAll, overdue_of_quiet hquiet hs, tickNow_of_not_first hfirst, timerWaits_within ⟨hrunning, hlisten⟩, if_neg (by simp), hblocks]
  have hguard : (s.port.state == .enabling && decide (Config.enableTimeout ≤ s.port.enableWait + 1)) = true := by
    have hfifty : Config.enableTimeout ≤ s.port.enableWait + 1 := by simp only [Config.enableTimeout]; omega
    simp [hstate, hfifty]
  refine ⟨_, ?_, htick, hport.1, hport.2.1, hport.2.2.1, hport.2.2.2.1, hport.2.2.2.2, ?_, ?_, hflag, hsession, fun he hc => ?_, fun he => ?_, hkept,
    haccount, halloc, hfeeder, hservice⟩
  · change execEnableTimeout o s = _
    rw [execEnableTimeout, if_pos hguard]
    exact htick
  · refine (congrArg ApplyUnit.share happly).trans ?_
    split
    · next h => exact h
    · rfl
  · refine (congrArg ApplyUnit.lastCut happly).trans ?_
    split <;> rfl
  · refine ((hwithdrawn he).2.2 hc).trans ?_
    rw [show (timeTick s.tenth o.secondFirst false u).timer.n = s.timer.n from hn]
  · exact ⟨(hwithdrawn he).1, (hwithdrawn he).2.1⟩
end

