-- ==== Sys2Proof/Proofs/BoundaryTicks.lean ====
section
/-! SUPPORT. A tick that is a boundary, taken now or as the tick that waits, and the frames it queues (R27 to R29, R37, R76). -/

open Sys2Proof Sys2Proof.Machine

namespace Sys2Proof.Machine

/-! ## The tick and the boundary (R27, R28, R37) -/

/-- The end of an action that leaves session and port as they stood: at most an enable request and the first-fault record. -/
theorem settle_keeps {s u : State} (hs : Settled s) (hsession : u.session = s.session) (hport : u.port = s.port) :
    ∃ p st, settle s u = { u with port := p, status := st } ∧ p.meterLost = s.port.meterLost ∧
      (NoTimeout s → NoTimeout { u with port := p }) ∧ Settled { u with port := p } ∧
      ∀ f : Factor, f.isSet u.status.factors = true → f.isSet st.factors = true := by
  have hfactors := fun f : Factor => settle_factors (f := f) (s := s) (u := u)
  by_cases hrequest : u.port.state = .disabled ∧ u.apply.share ≠ 0
  · have henable : requestEnable u = { u with port := { u.port with state := .enabling, enable := true, enableWait := 0 } } :=
      if_pos hrequest
    have hsettle : settle s u = { u with
        port := { u.port with state := .enabling, enable := true, enableWait := 0 }, status := (settle s u).status } := by
      rw [settle, henable, vacate_of_not (by simp [State.mayVacate]), noteFaults_eq_status]
    exact ⟨_, _, hsettle, by rw [hport], fun _ _ => by simp, settled_of_not_disabled (by simp), hfactors⟩
  · have hsettled : Settled u := ⟨hrequest, by simpa [State.mayVacate, hsession, hport] using hs.2⟩
    have hsettle : settle s u = { u with port := u.port, status := (settle s u).status } := by
      rw [settle_eq_noteFaults hsettled, noteFaults_eq_status]
    exact ⟨_, _, hsettle, by rw [hport], fun h => by rw [hport]; exact h, hsettled, hfactors⟩

/-- The tick finds nothing overdue and is no enable timeout, or it is the one that waits (R37). -/
def BoundaryReady (s : State) (o : Order) : Prop :=
  Quiet s ∧ (s.time.phase < 9 ∨ o.secondFirst = false) ∧ NoTimeout s ∨ s.time.tickDue = true

theorem portTick_meterLost {s : State} (h : NoTimeout s) : (portTick s).port.meterLost = s.port.meterLost := by
  cases hp : s.port.state with
  | enabled => rw [portTick_enabled hp]
  | enabling =>
    have hwait : waitTick s = { s with port := { s.port with enableWait := s.port.enableWait + 1 } } := if_pos (h hp)
    unfold portTick
    rw [hp]
    dsimp only
    rw [hwait]
    rfl
  | meterOnly | disabled | disabling | faulted =>
    unfold portTick
    rw [hp] <;> rfl

theorem act_portTick {s : State} (h : NoTimeout s) (hs : Settled s) : act portTick s = { s with port := (portTick s).port } := by
  rw [act, portTick_eq h]
  refine settle_port ?_
  rw [← portTick_eq h]
  exact portTick_settled h hs

/-- A tick that is a boundary leaves what the boundary leaves, but for time base, port and first-fault record. -/
structure TookTick (kind : BoundaryKind) (n : IntervalNo) (s t : State) : Prop where
  taken : t.time.tickDue = false
  result : ∃ y o, y = { s with time := y.time, port := y.port } ∧ y.port.meterLost = s.port.meterLost ∧
    t = { takeBoundary kind n o y with time := t.time, port := t.port, status := t.status } ∧
    ∀ f : Factor, f.isSet (takeBoundary kind n o y).status.factors = true → f.isSet t.status.factors = true

theorem tookTick_boundaryTick {kind : BoundaryKind} {n : IntervalNo} {s : State} {o : Order} (hs : Settled s) (h : BoundaryReady s o)
    (hnext : ∀ o' x, x.timer = s.timer → x.straps = s.straps → timerTick o' x = takeBoundary kind n o' x) :
    TookTick kind n s (boundaryTick o s) := by
  rcases h with ⟨hquiet, hfirst, htimeout⟩ | hdue
  · have hnow : s.time.tickDue = false := hquiet.events.tick
    have hnotWaits : timerWaits { o with timerLater := false } s = false := by
      unfold timerWaits
      rw [Bool.false_and]
    have htick : boundaryTick o s = timeTick s.tenth o.secondFirst false (blocksTick { o with timerLater := false } s) := by
      rw [boundaryTick, if_neg (by simp [hnow]), tickAll, overdue_of_quiet hquiet hs, tickNow_of_not_first (o := { o with timerLater := false }) hfirst,
        hnotWaits, if_neg (by simp)]
    rw [htick]
    refine ⟨rfl, ?_⟩
    unfold blocksTick
    split
    · -- The port first.
      have hafter : Settled { s with port := (portTick s).port } := by
        rw [← portTick_eq htimeout]
        exact portTick_settled htimeout hs
      rw [act_portTick htimeout hs, act, hnext _ { s with port := (portTick s).port } rfl rfl]
      obtain ⟨p, st, hsettle, -, -, -, hfactors⟩ := settle_keeps (s := { s with port := (portTick s).port })
        (u := takeBoundary kind n { o with timerLater := false } { s with port := (portTick s).port }) hafter (by simp) (by simp)
      rw [hsettle]
      exact ⟨{ s with port := (portTick s).port }, { o with timerLater := false }, rfl, portTick_meterLost htimeout, rfl, hfactors⟩
    · -- The Interval Timer first.
      rw [show act (timerTick { o with timerLater := false }) s = settle s (takeBoundary kind n { o with timerLater := false } s) by
        rw [act, hnext _ s rfl rfl]]
      obtain ⟨p, st, hsettle, -, hno, hsettled, hfactors⟩ := settle_keeps (s := s) (u := takeBoundary kind n { o with timerLater := false } s)
        hs (by simp) (by simp)
      have hport := act_portTick (s := { takeBoundary kind n { o with timerLater := false } s with port := p, status := st })
        (hno htimeout) hsettled
      rw [hsettle, hport]
      exact ⟨s, { o with timerLater := false }, rfl, rfl, rfl, hfactors⟩
  · have htick : boundaryTick o s = settle { s with time := { s.time with tickDue := false } }
        (takeBoundary kind n o { s with time := { s.time with tickDue := false } }) := by
      rw [boundaryTick, if_pos hdue, takeDueTick, act, hnext _ { s with time := { s.time with tickDue := false } } rfl rfl]
    obtain ⟨p, st, hsettle, -, -, -, hfactors⟩ := settle_keeps (s := { s with time := { s.time with tickDue := false } })
      (u := takeBoundary kind n o { s with time := { s.time with tickDue := false } }) hs (by simp) (by simp)
    rw [htick, hsettle]
    exact ⟨by simp, { s with time := { s.time with tickDue := false } }, o, rfl, rfl, rfl, hfactors⟩

/-! ## The frames a boundary queues (R28, R29, R76) -/

section
variable {kind : BoundaryKind} {n : IntervalNo} {o : Order} {s : State}

/-- The TALLY for the interval that ended goes to its slot (R76). -/
theorem closeTotals_slot (k : Slot) : (closeTotals kind s).line.slot k =
    if k = .report ∧ s.line.state ≠ .clash ∧ s.straps.role = .charger ∧ kind.endsInterval = true ∧ s.account.mark = true then
      some ⟨s.frame 0 (s.timer.n - 1)
        (.tally (clampInt (-32767) 32767 (netPower s.account.exportTotal s.account.importTotal s.seconds))), some s.profile.freeze, false⟩
    else s.line.slot k := by
  rw [closeTotals, (restartTotals_frame _).2.2.1]
  unfold queueTally
  by_cases hq : s.straps.role = .charger ∧ kind.endsInterval = true ∧ s.account.mark = true
  · rw [if_pos hq, queueFrame_slot]
    refine if_congr ⟨fun ⟨hk, hc⟩ => ⟨hk, hc, hq⟩, fun ⟨hk, hc, _⟩ => ⟨hk, hc⟩⟩ rfl rfl
  · rw [if_neg hq, if_neg fun h => hq h.2.2]

theorem markBoundary_slot (k : Slot) : (markBoundary kind s).line.slot k =
    if k = .mark ∧ s.line.state ≠ .clash ∧ kind = .own then
      some ⟨s.frame 0 s.timer.n (.mark s.straps.intv), some s.profile.window, false⟩
    else s.line.slot k := by
  unfold markBoundary
  cases kind with
  | own =>
    dsimp only
    rw [queueMark, queueFrame_slot]
    exact if_congr (by simp) rfl rfl
  | early | implied | realign | listenMark | listenExpiry => simp

theorem endDeadlines_slot_of_none {k : Slot} (h : s.line.slot k = none) : (endDeadlines o s).line.slot k = none := by
  have hone (j : Slot) (x : State) (hx : x.line.slot k = none) : (endDeadline j x).line.slot k = none := by
    by_cases hj : k = j
    · subst hj
      rwa [endDeadline_of_none (by simp [hx])]
    · rwa [(endDeadline_line hj x).1]
  unfold endDeadlines
  split <;> exact hone _ _ (hone _ _ (hone _ _ h))

/-- The slots a boundary leaves: its own MARK and TALLY, else what the ended deadlines leave (R11, R28, R76). -/
theorem takeBoundary_slot (k : Slot) : (takeBoundary kind n o s).line.slot k =
    if k = .mark ∧ s.line.state ≠ .clash ∧ kind = .own then
      some ⟨⟨0, s.straps.stn, s.straps.site, n, .mark s.straps.intv⟩, some s.profile.window, false⟩
    else if k = .report ∧ s.line.state ≠ .clash ∧ s.straps.role = .charger ∧ kind.endsInterval = true ∧ s.account.mark = true then
      some ⟨⟨0, s.straps.stn, s.straps.site, n - 1,
        .tally (clampInt (-32767) 32767 (netPower s.account.exportTotal s.account.importTotal s.seconds))⟩, some s.profile.freeze, false⟩
    else (endDeadlines o s).line.slot k := by
  have hsilence (x : State) : (countSilence x).line.slot k = x.line.slot k := by
    unfold countSilence
    split
    · rfl
    · cases k <;> rfl
  have hclash : (if s.line.silence = 1 ∧ s.line.state = .silent then LineState.active else s.line.state) ≠ .clash ↔
      s.line.state ≠ .clash := by
    split
    · next h => simp [h.2]
    · exact Iff.rfl
  simp [takeBoundary, markBoundary_slot, closeTotals_slot, State.frame, State.profile, State.seconds, timerBoundary, viewBoundary,
    sameSilence_closeTotals, countSilence_line, sameSilence_endDeadlines, hsilence, hclash]

theorem takeBoundary_account_totals : (takeBoundary kind n o s).account.exportTotal = 0 ∧
    (takeBoundary kind n o s).account.importTotal = 0 ∧ (takeBoundary kind n o s).account.mark = s.session.record.isSome := by
  have hcompose (share : Int) (x : State) : (beginComposition share x).account.exportTotal = x.account.exportTotal ∧
      (beginComposition share x).account.importTotal = x.account.importTotal ∧ (beginComposition share x).account.mark = x.account.mark := by
    unfold beginComposition
    split
    · unfold computeOffer
      dsimp only
      split <;> exact ⟨rfl, rfl, rfl⟩
    · exact ⟨rfl, rfl, rfl⟩
  simp [takeBoundary, hcompose, closeTotals_account]

theorem loadOf_congr {t : State} (halloc : t.alloc = s.alloc) (hsession : t.session = s.session) (haccount : t.account = s.account)
    (hlost : t.port.meterLost = s.port.meterLost) : loadOf kind t = loadOf kind s := by
  unfold loadOf judgeShare State.paused State.stale State.atReserve State.limit
  rw [halloc, hsession, haccount, hlost]

/-- On a CHARGER a composition begins (R79). -/
theorem takeBoundary_composing (hrole : s.straps.role = .charger) :
    ∃ outcome, (takeBoundary kind n o s).view.composing = some ⟨n + 1, outcome⟩ := by
  have hcompose (share : Int) (x : State) (hx : x.straps.role = .charger) :
      ∃ outcome, (beginComposition share x).view.composing = some ⟨x.timer.n + 1, outcome⟩ := by
    unfold beginComposition
    rw [hx]
    exact ⟨composeOutcome (computeOffer share x), by simp⟩
  obtain ⟨outcome, hout⟩ := hcompose (loadOf kind s).share (feederBoundary kind (closeTotals kind (viewBoundary (engineBoundary
    (applyLoad (loadOf kind s) n (countSilence (timerBoundary kind n (endDeadlines o s)))))))) (by simpa using hrole)
  refine ⟨outcome, ?_⟩
  unfold takeBoundary
  dsimp only
  rw [(cause_frame _ _).2.2.2.2.2.2.1, markBoundary_view, hout]
  simp [timerBoundary]
end

/-- A tick that is not held back is the boundary's own (R37). -/
theorem exec_tick_of_boundary {s : State} {o : Order} (hdue : s.time.tickDue = false) (hlater : o.timerLater = false) :
    exec (.tick o) s = .next (boundaryTick o s) := by
  have horder : { o with timerLater := false } = o := by
    cases o
    simp only [Order.mk.injEq, and_true, true_and] at *
    exact hlater.symm
  rw [boundaryTick, if_neg (by simp [hdue]), horder]
  rfl

end Sys2Proof.Machine

/-- Settles O35: the boundary of the listen expiry, now or as the tick that waits. -/
theorem listenExpiryEntersRunning : Obligations.ListenExpiryEntersRunning := by
  intro s o hs hready hstate hcount hmark hreport
  have hready : BoundaryReady s o := hready.imp_left fun ⟨hq, hf, hp⟩ => ⟨hq, hf, fun h => absurd h hp⟩
  have hnext : ∀ o' x, x.timer = s.timer → x.straps = s.straps → timerTick o' x = takeBoundary .listenExpiry 0 o' x := by
    intro o' x htimer hstraps
    have hprofile : x.profile = s.profile := by unfold State.profile; rw [hstraps]
    unfold timerTick
    rw [htimer, hstate, hprofile]
    exact if_neg (by omega)
  have hexpiry : s.expiryNext = true := by
    unfold State.expiryNext
    simp [hstate, hcount]
  obtain ⟨htaken, y, o', hy, hlost, ht, hfactors⟩ := tookTick_boundaryTick hs hready hnext
  have hexec : exec (.listenExpiry o) s = .next (boundaryTick o s) := by
    change execListenExpiry o s = _
    rw [execListenExpiry, if_pos hexpiry]
  refine ⟨boundaryTick o s, hexec, htaken, fun hdue hlater => exec_tick_of_boundary hdue hlater, ?_⟩
  generalize boundaryTick o s = t at *
  have hload : (loadOf .listenExpiry y).share = 0 ∧ (loadOf .listenExpiry y).clipped = false := by
    unfold loadOf
    split <;> exact ⟨rfl, rfl⟩
  have happly := takeBoundary_apply .listenExpiry 0 o' y
  have htimer := takeBoundary_timer .listenExpiry 0 o' y
  have hsilence := takeBoundary_silence .listenExpiry 0 o' y
  have hview := takeBoundary_view .listenExpiry 0 o' y
  have hfactor := hfactors _ (takeBoundary_factors .listenExpiry 0 o' y).1
  obtain ⟨hstraps, hline, hytimer, hsession, hservice⟩ : y.straps = s.straps ∧ y.line = s.line ∧ y.timer = s.timer ∧
      y.session = s.session ∧ y.service = s.service := by rw [hy]; exact ⟨rfl, rfl, rfl, rfl, rfl⟩
  have hslot (k : Slot) (hk : s.line.slot k = none) : (takeBoundary .listenExpiry 0 o' y).line.slot k = none := by
    rw [takeBoundary_slot, if_neg (by simp), if_neg (by simp [BoundaryKind.endsInterval])]
    exact endDeadlines_slot_of_none (by rw [hline]; exact hk)
  have hkept := takeBoundary_frame .listenExpiry 0 o' y
  generalize takeBoundary .listenExpiry 0 o' y = b at *
  refine ⟨?_, ?_, ?_, ?_, ?_, ?_, ?_, ?_, ?_, ?_, hfactor, ?_, ?_⟩ <;> rw [ht]
  · refine htimer.trans ?_
    unfold timerBoundary
    rw [hytimer]
    rfl
  · exact (congrArg ApplyUnit.share happly).trans hload.1
  · exact congrArg ApplyUnit.interval happly
  · exact (congrArg ApplyUnit.clipped happly).trans hload.2
  · exact congrArg ApplyUnit.lastCut happly
  · exact hslot .mark hmark
  · exact hslot .report hreport
  · exact hsilence.1.trans (by rw [hline])
  · exact hview.1
  · exact hview.2
  · exact hkept.2.2.1.trans hsession
  · exact hkept.2.2.2.2.1.trans hservice
end

