-- ==== Sys2Proof/Proofs/OwnBoundary.lean ====
section
/-! SUPPORT. The own boundary of either role (R28, R29, R76, R128). -/

open Sys2Proof Sys2Proof.Machine

namespace Sys2Proof.Machine

/-- On a FEEDER a boundary starts the site totals anew (R128). -/
theorem takeBoundary_siteTotals (kind : BoundaryKind) (n : IntervalNo) (o : Order) {s : State} (hrole : s.straps.role = .feeder) :
    (takeBoundary kind n o s).feeder.exportTotal = 0 ∧ (takeBoundary kind n o s).feeder.importTotal = 0 := by
  have hboundary (x : State) (hx : x.straps.role = .feeder) :
      (feederBoundary kind x).feeder.exportTotal = 0 ∧ (feederBoundary kind x).feeder.importTotal = 0 := by
    unfold feederBoundary
    rw [hx]
    exact ⟨rfl, rfl⟩
  unfold takeBoundary
  dsimp only
  rw [(cause_frame _ _).2.2.2.2.2.2.2.2.2.1, markBoundary_feeder, (beginComposition_frame _ _).2.2.2.2.2.2.2.1]
  exact hboundary _ (by simpa using hrole)

/-- A tick that the Interval Timer takes later is the port's alone (R37). -/
theorem exec_tick_of_waits {s : State} {o : Order} (hquiet : Quiet s) (hs : Settled s) (hfirst : s.time.phase < 9 ∨ o.secondFirst = false)
    (htimeout : NoTimeout s) (hlater : o.timerLater = true) (hown : s.ownBoundaryNext = true) :
    ∃ u, exec (.tick o) s = .next u ∧ u.time.tickDue = true ∧ u = { s with time := u.time, port := u.port } := by
  have hwaits : timerWaits o s = true := by
    unfold timerWaits
    rw [hlater, hown]
    rfl
  have htick : exec (.tick o) s = .next (timeTick s.tenth o.secondFirst true (act portTick s)) := by
    change Host.Outcome.next (tickAll o s) = _
    rw [tickAll, overdue_of_quiet hquiet hs, tickNow_of_not_first hfirst, hwaits, if_pos rfl]
  refine ⟨_, htick, rfl, ?_⟩
  rw [act_portTick htimeout hs]
  rfl

end Sys2Proof.Machine

/-- Settles O34: the own boundary, now or as the tick that waits. -/
theorem ownBoundaryBeginsTheNextInterval : Obligations.OwnBoundaryBeginsTheNextInterval := by
  intro s o hs hready hstate hcount
  have hown : s.ownBoundaryNext = true := by
    unfold State.ownBoundaryNext
    simp [hstate, hcount]
  have hidle : ∀ i ticks, s.alloc.engine ≠ .computing i ticks := by
    rcases hready with ⟨hquiet, -⟩ | ⟨-, hidle⟩
    · exact hquiet.engine
    · exact hidle
  have hready : BoundaryReady s o := hready.imp_right And.left
  have hnext : ∀ o' x, x.timer = s.timer → x.straps = s.straps → timerTick o' x = takeBoundary .own (s.timer.n + 1) o' x := by
    intro o' x htimer hstraps
    have hprofile : x.profile = s.profile := by unfold State.profile; rw [hstraps]
    unfold timerTick
    rw [htimer, hstate, hprofile]
    exact if_neg (by omega)
  obtain ⟨htaken, y, o', hy, hlost, ht, hfactors⟩ := tookTick_boundaryTick hs hready hnext
  have hexec : exec (.ownBoundary o) s = .next (boundaryTick o s) := by
    change execOwnBoundary o s = _
    rw [execOwnBoundary, if_pos hown]
  have hlater (hdue : s.time.tickDue = false) (h : o.timerLater = true) :
      ∃ u, exec (.tick o) s = .next u ∧ u.time.tickDue = true ∧ u = { s with time := u.time, port := u.port } := by
    rcases hready with ⟨hquiet, hfirst, htimeout⟩ | hdue'
    · exact exec_tick_of_waits hquiet hs hfirst htimeout h hown
    · simp [hdue] at hdue'
  refine ⟨boundaryTick o s, hexec, htaken, fun hdue hnow => exec_tick_of_boundary hdue hnow, hlater, ?_⟩
  generalize boundaryTick o s = t at *
  obtain ⟨hstraps, hline, hytimer, hsession, hservice, haccount, hview, halloc⟩ : y.straps = s.straps ∧ y.line = s.line ∧
      y.timer = s.timer ∧ y.session = s.session ∧ y.service = s.service ∧ y.account = s.account ∧ y.view = s.view ∧ y.alloc = s.alloc := by
    rw [hy]
    exact ⟨rfl, rfl, rfl, rfl, rfl, rfl, rfl, rfl⟩
  have hload : loadOf .own y = loadOf .own s := loadOf_congr halloc hsession haccount hlost
  have happly := takeBoundary_apply .own (s.timer.n + 1) o' y
  have htimer := takeBoundary_timer .own (s.timer.n + 1) o' y
  have hsilence := takeBoundary_silence .own (s.timer.n + 1) o' y
  have hopened := takeBoundary_view .own (s.timer.n + 1) o' y
  have hreceived := takeBoundary_received .own (s.timer.n + 1) o' y
  have hused := takeBoundary_used .own (s.timer.n + 1) o' y
  have hengine := (takeBoundary_alloc .own (s.timer.n + 1) o' y).2 (by rw [halloc]; exact hidle)
  have hfactor := hfactors _ (takeBoundary_factors .own (s.timer.n + 1) o' y).1
  have hcharger := takeBoundary_composing (kind := .own) (n := s.timer.n + 1) (o := o') (s := y)
  have hfeeder := takeBoundary_view_feeder .own (s.timer.n + 1) o' (s := y)
  have htallies := takeBoundary_tallies .own (s.timer.n + 1) o' (s := y)
  have hsite := takeBoundary_siteTotals .own (s.timer.n + 1) o' (s := y)
  have htotals := takeBoundary_account_totals (kind := .own) (n := s.timer.n + 1) (o := o') (s := y)
  have hslot (k : Slot) := takeBoundary_slot (kind := .own) (n := s.timer.n + 1) (o := o') (s := y) k
  have hnone (k : Slot) (h : s.line.slot k = none) : (endDeadlines o' y).line.slot k = none :=
    endDeadlines_slot_of_none (by rw [hline]; exact h)
  have hkept := takeBoundary_frame .own (s.timer.n + 1) o' y
  have htwo : s.timer.n + 1 + 1 = s.timer.n + 2 := by rw [BitVec.add_assoc]; rfl
  have hback : s.timer.n + 1 - 1 = s.timer.n := by simp
  have hprofile : y.profile = s.profile := by unfold State.profile; rw [hstraps]
  have hseconds : y.seconds = s.seconds := by unfold State.seconds; rw [hstraps]
  rw [hstraps] at hcharger hfeeder htallies hsite
  generalize takeBoundary .own (s.timer.n + 1) o' y = b at *
  refine ⟨?_, ?_, ?_, ?_, ?_, ?_, ?_, fun hrole => ?_, fun hrole => ?_, fun hclash => ?_, fun hclash hmark => ?_, fun hreport hnot => ?_,
    fun hrole hmark hclash => ?_, ?_, ?_, ?_, ?_, ?_, hfactor, ?_, ?_⟩ <;> rw [ht]
  · refine htimer.trans ?_
    unfold timerBoundary
    rw [hytimer]
    rfl
  · exact happly.trans (by rw [hload])
  · exact hengine.trans (by rw [halloc])
  · exact hopened.1
  · exact hopened.2
  · exact hreceived
  · exact hused.trans (by rw [hview])
  · obtain ⟨outcome, hout⟩ := hcharger hrole
    exact ⟨outcome, hout.trans (by rw [htwo])⟩
  · have hv := hfeeder hrole
    refine ⟨(congrArg ViewUnit.composing hv).trans (by rw [hview]), (congrArg ViewUnit.record hv).trans (by rw [htwo]; rfl), (htallies hrole).1,
      hsite hrole⟩
  · refine (hslot .mark).trans ((if_pos ⟨rfl, by rw [hline]; exact hclash, rfl⟩).trans ?_)
    rw [hstraps, hprofile]
  · refine (hslot .mark).trans ((if_neg (by rw [hline]; simp [hclash])).trans ((if_neg (by simp)).trans (hnone .mark hmark)))
  · refine (hslot .report).trans ((if_neg (by simp)).trans ((if_neg ?_).trans (hnone .report hreport)))
    rw [hstraps, haccount]
    rintro ⟨-, -, hrole, -, hm⟩
    rcases hnot with hf | hf
    · simp [hrole] at hf
    · simp [hm] at hf
  · refine (hslot .report).trans ((if_neg (by simp)).trans ((if_pos ⟨rfl, by rw [hline]; exact hclash, by rw [hstraps]; exact hrole, rfl,
      by rw [haccount]; exact hmark⟩).trans ?_))
    rw [hstraps, hprofile, hback, haccount, hseconds]
    rfl
  · exact hsilence.1.trans (by rw [hline])
  · exact hsilence.2.trans (by rw [hline])
  · exact htotals.1
  · exact htotals.2.1
  · exact htotals.2.2.trans (by rw [hsession])
  · exact hkept.2.2.1.trans hsession
  · exact hkept.2.2.2.2.1.trans hservice
end

