-- ==== Sys2Proof/Proofs/PlainTick.lean ====
section
/-! SUPPORT. A tick that finds nothing it must end first (R24 to R26, R140, R142). -/

open Sys2Proof Sys2Proof.Machine

namespace Sys2Proof.Machine

/-- The port after a tick outside ENABLED (R140, R142). -/
theorem portTick_other {s : State} (hstate : s.port.state ≠ .enabled) (h : NoTimeout s) :
    (portTick s).port = (let sent := s.port.link ++ [.exchange (exchangeWord s.port.command s.port.enable)]
      match s.port.state with
      | .meterOnly => s.port
      | .enabling => { s.port with enableWait := s.port.enableWait + 1, link := sent }
      | _ => { s.port with link := sent }) := by
  unfold portTick
  cases hp : s.port.state with
  | enabled => exact absurd hp hstate
  | enabling =>
    have hwait : waitTick s = { s with port := { s.port with enableWait := s.port.enableWait + 1 } } := if_pos (h hp)
    dsimp only
    rw [hwait]
    rfl
  | meterOnly | disabled | disabling | faulted => rfl

/-- What waits on the link is owed from this tick on (R139, R140). -/
theorem portTick_waiting {s : State} (hstate : s.port.state ≠ .enabled) (h : NoTimeout s) :
    (portTick s.waiting).port = (let sent := s.port.link ++ [.exchange (exchangeWord s.port.command s.port.enable)]
      match s.port.state with
      | .meterOnly => { s.port with owed := s.port.link.length }
      | .enabling => { s.port with enableWait := s.port.enableWait + 1, link := sent, owed := s.port.link.length }
      | _ => { s.port with link := sent, owed := s.port.link.length }) := by
  refine (portTick_other (s := s.waiting) hstate h).trans ?_
  unfold State.waiting
  cases s.port.state <;> rfl

theorem timerNext_eq {s : State} (h : NoPointDue s) : s.timerNext = (match s.timer.state with
    | .running => { s.timer with
        c := s.timer.c + 1
        freezeDue := decide (s.timer.c + 1 = s.profile.freeze)
        targetDue := decide (s.timer.c + 1 = s.profile.target ∧ s.straps.role = .feeder) }
    | .listen => { s.timer with listen := s.timer.listen + 1 }) := by
  cases ht : s.timer.state with
  | running => exact timerNext_running h ht
  | listen => exact timerNext_listen ht

/-- The tick where what is on the link and in the FIFO may wait (R24 to R26, R140, R170). -/
theorem exec_tick_mayWait {s : State} {o : Order} (h : MayWait s o) (hw : Within s) (hp : NoTimeout s)
    (hfirst : s.time.phase < 9 ∨ o.secondFirst = false) : exec (.tick o) s = .next { s with
      time := ⟨if s.time.phase < 9 then s.time.phase + 1 else 0, decide (9 ≤ s.time.phase), false⟩
      timer := s.timerNext, port := (portTick s.waiting).port
      service := { s.service with held := !s.service.fifo.isEmpty } } := by
  have hwaiting : tickNow o s.waiting = _ := tickNow_within (s := s.waiting) ⟨hw.running, hw.listen⟩ hp h.settled hfirst
  change Host.Outcome.next (tickAll o s) = _
  rw [tickAll, overdue_of_mayWait h, hwaiting]
  rfl

end Sys2Proof.Machine
end

