-- ==== Sys2Proof/Proofs/Computing.lean ====
section
/-! SUPPORT. A tick while the engine computes: nothing else of the tick depends on the engine (R100). -/

open Sys2Proof Sys2Proof.Machine

namespace Sys2Proof.Machine

/-- What the effect does to the rest of the machine does not depend on the allocation part, and it leaves that part. -/
def Blind (f : State → State) : Prop := ∀ (a : AllocUnit) (s : State), f { s with alloc := a } = { f s with alloc := a }

theorem Blind.comp {f g : State → State} (hg : Blind g) (hf : Blind f) : Blind fun s => g (f s) := by
  intro a s
  dsimp only
  rw [hf a s, hg a (f s)]

theorem Blind.ite {c : State → Prop} [∀ s, Decidable (c s)] {f g : State → State} (hc : ∀ a s, c { s with alloc := a } ↔ c s)
    (hf : Blind f) (hg : Blind g) : Blind fun s => if c s then f s else g s := by
  intro a s
  by_cases h : c s
  · have h' : c { s with alloc := a } := (hc a s).mpr h
    dsimp only
    rw [if_pos h, if_pos h', hf a s]
  · have h' : ¬c { s with alloc := a } := fun hn => h ((hc a s).mp hn)
    dsimp only
    rw [if_neg h, if_neg h', hg a s]

theorem Blind.id : Blind fun s => s := fun _ _ => rfl

/-! ## Cuts, withdrawals and the end of an action -/

theorem blind_cut (n : Nat) (c : Cut) : Blind (cut n c) :=
  Blind.ite (fun _ _ => Iff.rfl) (fun _ _ => rfl) Blind.id

theorem blind_capture (f : Flag) : Blind (capture f) :=
  Blind.ite (fun _ _ => Iff.rfl) Blind.id (fun _ _ => rfl)

theorem blind_noteFaults (w : BitVec 14) : Blind (noteFaults w) := by
  intro a s
  unfold noteFaults
  dsimp only
  cases newlyRaised w s.status.word with
  | none => rfl
  | some f => exact blind_capture f a s

theorem blind_vacate : Blind vacate :=
  Blind.ite (fun _ _ => Iff.rfl) (fun _ _ => rfl) Blind.id

theorem blind_requestEnable : Blind requestEnable :=
  Blind.ite (fun _ _ => Iff.rfl) (fun _ _ => rfl) Blind.id

theorem Blind.act {f : State → State} (hf : Blind f) : Blind (act f) := by
  intro a s
  unfold Machine.act settle
  rw [hf a s, blind_requestEnable a, blind_vacate a, blind_noteFaults _ a]

theorem blind_offerFate (fate : Fate) (n : IntervalNo) : Blind (offerFate fate n) :=
  Blind.ite (fun _ _ => Iff.rfl) (fun _ _ => rfl) Blind.id

theorem blind_tellDrop (q : Queued) : Blind (tellDrop q) := by
  intro a s
  unfold tellDrop
  split
  · split
    · rfl
    · exact blind_offerFate _ _ a s
  · rfl
  · rfl

theorem blind_cancelSlot (k : Slot) : Blind (cancelSlot k) := by
  intro a s
  unfold cancelSlot
  dsimp only
  cases s.line.slot k <;> rfl

theorem blind_abortComposition : Blind abortComposition := by
  intro a s
  unfold abortComposition
  dsimp only
  cases s.view.composing <;> rfl

theorem blind_withdrawOffer : Blind withdrawOffer := by
  intro a s
  unfold withdrawOffer
  dsimp only
  cases s.line.offerSlot with
  | none => rfl
  | some q =>
    dsimp only
    split
    · exact blind_cancelSlot _ a s
    · rw [blind_offerFate _ _ a s, blind_cancelSlot _ a]

theorem blind_queueFrame (k : Slot) (q : Queued) : Blind (queueFrame k q) := by
  intro a s
  unfold queueFrame
  dsimp only
  split
  · exact blind_tellDrop q a { s with line := { s.line with txDropped := count s.line.txDropped } }
  · cases s.line.slot k <;> rfl

theorem blind_removeOwnEntry : Blind removeOwnEntry :=
  Blind.ite (fun _ _ => Iff.rfl) (fun _ _ => rfl) Blind.id

theorem blind_withdraw (r : WithdrawReason) : Blind (withdraw r) := by
  intro a s
  unfold withdraw
  dsimp only
  rw [blind_abortComposition a s, blind_withdrawOffer a]
  generalize withdrawOffer (abortComposition s) = u
  have hqueue := blind_queueFrame .withdraw ⟨u.frame 0 u.timer.n (.withdraw r), none, false⟩ a u
  rw [← blind_removeOwnEntry a, ← hqueue]
  rfl

theorem blind_enterStopped : Blind enterStopped := by
  intro a s
  unfold enterStopped
  rw [blind_cut _ _ a s, blind_withdraw _ a]
  rfl

/-! ## The tick (R25, R140, R142, R143) -/

theorem blind_enterFaulted (c : FaultCause) : Blind (enterFaulted c) := by
  intro a s
  by_cases h : s.port.state = .faulted
  · unfold enterFaulted
    rw [if_pos h, if_pos h]
    rfl
  · have htaken : Blind (faultTaken c) := by
      have hstop : Blind fun s => { dropCommand s with
          port := { (dropCommand s).port with state := .faulted, lastCause := some c, offRun := 0 } } := fun _ _ => rfl
      have hcut : Blind fun s => raise .converter (cut 0 .forcedStop s) := Blind.comp (g := raise .converter) (fun _ _ => rfl) (blind_cut _ _)
      exact hcut.comp hstop
    rw [enterFaulted_eq (s := { s with alloc := a }) c h, enterFaulted_eq c h, htaken a s]
    dsimp only
    split
    · exact blind_enterStopped a _
    · rfl

theorem blind_rampTick : Blind rampTick := by
  intro a s
  have hsame : idleAfter { s with alloc := a } = idleAfter s := rfl
  rw [rampTick_eq, rampTick_eq, hsame]
  split <;> rfl

theorem blind_waitTick : Blind waitTick := by
  refine Blind.ite (fun _ _ => Iff.rfl) (fun _ _ => rfl) fun a s => ?_
  exact blind_enterFaulted .enableTimeout a { s with port := { s.port with enableWait := Config.enableTimeout } }

theorem blind_portTick : Blind portTick := by
  intro a s
  unfold portTick
  dsimp only
  cases s.port.state with
  | enabled =>
    dsimp only
    rw [blind_rampTick a s]
    rfl
  | enabling =>
    dsimp only
    rw [blind_waitTick a s]
    rfl
  | meterOnly | disabled | disabling | faulted => rfl

theorem blind_countSeconds : Blind countSeconds := by
  intro a s
  unfold countSeconds
  dsimp only
  cases s.session.record with
  | none => rfl
  | some r =>
    dsimp only
    have hnext : Blind fun s => { s with session := { s.session with record := some (secondTick r) } } := fun _ _ => rfl
    have hstale : Blind fun s => raise .packStale (cut 0 .stale s) := Blind.comp (g := raise .packStale) (fun _ _ => rfl) (blind_cut _ _)
    exact (Blind.ite (c := fun s => ({ s with session := { s.session with record := some (secondTick r) } } : State).stale = true ∧
      s.stale = false) (fun _ _ => Iff.rfl) (hstale.comp hnext) hnext) a s

/-- Interval Timer and port within the interval (R25, R26, R143). -/
theorem blocksTick_withAlloc {s : State} {o : Order} (h : Within s) (a : AllocUnit) :
    blocksTick o { s with alloc := a } = { blocksTick o s with alloc := a } := by
  have htimer (x : State) (hx : Within x) : act (timerTick o) { x with alloc := a } = { act (timerTick o) x with alloc := a } := by
    have hblind : Blind fun x => { x with timer := x.timerNext } := fun _ _ => rfl
    have hact := hblind.act a x
    unfold act at *
    rw [timerTick_within hx, timerTick_within (s := { x with alloc := a }) ⟨hx.running, hx.listen⟩]
    exact hact
  have hport := blind_portTick.act a
  unfold blocksTick
  split
  · have hkept := act_frame portTick s
    have hstraps : (act portTick s).straps = s.straps := by simp
    have hsame : (act portTick s).timer = s.timer := by simp
    rw [hport s, htimer (act portTick s) (by
      have hprofile : (act portTick s).profile = s.profile := by unfold State.profile; rw [hstraps]
      exact ⟨by rw [hsame, hprofile]; exact h.running, by rw [hsame, hprofile]; exact h.listen⟩)]
  · rw [htimer s h, hport]

theorem tickNow_withAlloc {s : State} {o : Order} (h : Within s) (a : AllocUnit) :
    tickNow o { s with alloc := a } = { tickNow o s with alloc := a } := by
  generalize hu : (if (s.tenth && o.secondFirst) = true then act countSeconds s else s) = u
  have hsecond : (if (s.tenth && o.secondFirst) = true then act countSeconds { s with alloc := a } else { s with alloc := a }) =
      { u with alloc := a } := by
    rw [← hu]
    split
    · exact blind_countSeconds.act a s
    · rfl
  have hwithin : Within u := by
    rw [← hu]
    split
    · have hstraps : (act countSeconds s).straps = s.straps := by simp
      have hprofile : (act countSeconds s).profile = s.profile := by unfold State.profile; rw [hstraps]
      have hsame : (act countSeconds s).timer = s.timer := by simp
      exact ⟨by rw [hsame, hprofile]; exact h.running, by rw [hsame, hprofile]; exact h.listen⟩
    · exact h
  have htenth : State.tenth { s with alloc := a } = s.tenth := rfl
  unfold tickNow
  dsimp only
  rw [htenth, hsecond, hu, timerWaits_within h, timerWaits_within (s := { s with alloc := a }) ⟨h.running, h.listen⟩,
    if_neg Bool.false_ne_true, if_neg Bool.false_ne_true, blocksTick_withAlloc hwithin a]
  split <;> rfl

/-- Before a tick within the three a computation goes on (R100). -/
theorem overdue_computing {s : State} {o : Order} {i : AllocInput} {ticks : Nat} (h : Quiet s) (hs : Settled s) (hticks : ticks < 2) :
    overdue o { s with alloc := { s.alloc with engine := .computing i ticks } } =
      { s with alloc := { s.alloc with engine := .computing i (ticks + 1) } } := by
  obtain ⟨⟨htick, hsecond, hlink, howed⟩, ⟨hfreeze, htarget, hdeadlines⟩, hoffer, hcomposing, ⟨hfifo, hheld⟩, -⟩ := h
  generalize hu : ({ s with alloc := { s.alloc with engine := .computing i ticks } } : State) = u
  have hquiet : overduePosts o u = u := by
    rw [overduePosts_of_none (by rw [← hu]; exact hheld) (.inl (by rw [← hu]; exact hfifo)), ← hu]
    have hnone : (!s.service.fifo.isEmpty) = s.service.held := by rw [hfifo, hheld]; rfl
    dsimp only
    rw [hnone]
  have hempty : overdueLink o u = u := by
    rw [overdueLink_of_none (by rw [← hu]; exact howed) (.inl (by rw [← hu]; exact hlink)), ← hu]
    have hnone : s.port.link.length = s.port.owed := by rw [hlink, howed]; rfl
    dsimp only
    rw [hnone]
  have husettled : Settled u := by rw [← hu]; exact hs
  have hgoes : act allocationTick u = { s with alloc := { s.alloc with engine := .computing i (ticks + 1) } } := by
    have hfew : ticks + 1 < Config.allocationTicks := by simp only [Config.allocationTicks]; omega
    have hnext : allocationTick u = { s with alloc := { s.alloc with engine := .computing i (ticks + 1) } } := by
      rw [← hu]
      exact if_pos hfew
    rw [act, hnext, settle_of_congr husettled] <;> rw [← hu]
  unfold overdue
  dsimp only
  rw [overdueTimer_of_not (by rw [← hu]; exact htick), overdueSecond_of_not (by rw [← hu]; exact hsecond), hempty,
    act_takePoints ⟨by rw [← hu]; exact hfreeze, by rw [← hu]; exact htarget, by rw [← hu]; exact hdeadlines⟩ husettled,
    endOffer_of_none (by rw [← hu]; exact hoffer), endTarget_of_idle (by rw [← hu]; exact hcomposing), hquiet, hgoes]

/-- The tick while the engine computes (R100). -/
theorem exec_tick_computing {s : State} {o : Order} {i : AllocInput} {ticks : Nat} (h : Quiet s) (hs : Settled s) (hticks : ticks < 2)
    (hw : Within s) : ∃ t, exec (.tick o) s = .next t ∧
      exec (.tick o) { s with alloc := { s.alloc with engine := .computing i ticks } } =
        .next { t with alloc := { s.alloc with engine := .computing i (ticks + 1) } } := by
  refine ⟨tickNow o s, ?_, ?_⟩
  · change Host.Outcome.next (tickAll o s) = _
    rw [tickAll, overdue_of_quiet h hs]
  · change Host.Outcome.next (tickAll o _) = _
    rw [tickAll, overdue_computing h hs hticks, tickNow_withAlloc hw]

end Sys2Proof.Machine
end

