-- ==== Sys2Proof/Proofs/CalmPosts.lean ====
section
/-! SUPPORT. What leaves everything undue that a tick would take first: no new deadline, no composition, no transaction owed
(R9, R11, R36, R43, R170). -/

open Sys2Proof Sys2Proof.Machine

namespace Sys2Proof.Machine

/-- Nothing has come due that was not: time base and Interval Timer stay, no frame has reached its deadline, and no composition has
begun. -/
structure Calm (s t : State) : Prop where
  time : t.time = s.time
  timer : t.timer = s.timer
  owed : t.port.owed = s.port.owed
  deadlines : ∀ k, t.deadlineDue k = true → s.deadlineDue k = true
  offer : s.view.composing = none → t.view.composing = none
  target : s.feeder.composing = none → t.feeder.composing = none

theorem Calm.trans {s t u : State} (h : Calm s t) (h' : Calm t u) : Calm s u :=
  ⟨h'.time.trans h.time, h'.timer.trans h.timer, h'.owed.trans h.owed, fun k hk => h.deadlines k (h'.deadlines k hk),
    fun hs => h'.offer (h.offer hs), fun hs => h'.target (h.target hs)⟩

theorem Calm.of_line {s t : State} (htime : t.time = s.time) (htimer : t.timer = s.timer) (howed : t.port.owed = s.port.owed)
    (hline : t.line = s.line) (hoffer : s.view.composing = none → t.view.composing = none) (htarget : t.feeder.composing = s.feeder.composing) :
    Calm s t := by
  refine ⟨htime, htimer, howed, fun k hk => ?_, hoffer, htarget.trans⟩
  unfold State.deadlineDue at *
  rwa [hline, htimer] at hk

theorem Calm.refl (s : State) : Calm s s := .of_line rfl rfl rfl rfl (fun h => h) rfl

/-- Of what calm leaves: no point due where none was. -/
theorem Calm.points {s t : State} (h : Calm s t) (hs : NoPointDue s) : NoPointDue t := by
  refine ⟨by rw [h.timer]; exact hs.freeze, by rw [h.timer]; exact hs.target, fun k => ?_⟩
  cases hk : t.deadlineDue k with
  | false => rfl
  | true => exact absurd (h.deadlines k hk) (by simp [hs.deadlines k])

/-! ## Frames queued and cancelled (R9, R43) -/

/-- A slot emptied, or written with a fresh frame, leaves every other frame to the attempt that carries it (R9). -/
theorem deadlineDue_of_slot {s t : State} {k : Slot} {q : Option Queued} (htimer : t.timer = s.timer)
    (hslots : ∀ j, t.line.slot j = if j = k then q else s.line.slot j)
    (hattempt : t.line.attempt = s.line.attempt ∨ t.line.attempt = (s.line.detach k).attempt)
    (hq : ∀ x, q = some x → x.timeRanOut s.timer.c = false) (j : Slot) (hj : t.deadlineDue j = true) : s.deadlineDue j = true := by
  have hslot := hslots j
  by_cases hjk : j = k
  · rw [if_pos hjk] at hslot
    cases hx : q with
    | none => simp [State.deadlineDue, hslot, hx] at hj
    | some x =>
      rw [hx] at hslot
      obtain ⟨hout, -⟩ := (deadlineDue_iff hslot).mp hj
      rw [htimer, hq x hx] at hout
      simp at hout
  · rw [if_neg hjk] at hslot
    cases hx : s.line.slot j with
    | none => simp [State.deadlineDue, hslot, hx] at hj
    | some x =>
      rw [hx] at hslot
      obtain ⟨hout, hfree⟩ := (deadlineDue_iff hslot).mp hj
      have hcarries : t.line.carries j = s.line.carries j := by
        unfold LineUnit.carries
        rcases hattempt with he | he
        · rw [he]
        · rw [he]
          unfold LineUnit.detach
          cases s.line.attempt with
          | none => rfl
          | some a =>
            by_cases ha : a.slot = k
            · have hne : (k == j) = false := by simpa using fun h : k = j => hjk h.symm
              simp [ha, hne]
            · simp [ha]
      exact (deadlineDue_iff hx).mpr ⟨by rw [← htimer]; exact hout, by rw [← hcarries]; exact hfree⟩

theorem queueFrame_attempt (k : Slot) (q : Queued) (s : State) : (queueFrame k q s).line.attempt = s.line.attempt ∨
    (queueFrame k q s).line.attempt = (s.line.detach k).attempt := by
  unfold queueFrame
  split
  · left
    rw [tellDrop_eq]
  · split
    · left
      dsimp only
      rw [setSlot_shape]
    · right
      dsimp only
      rw [setSlot_shape]

theorem queueFrame_target (k : Slot) (q : Queued) (s : State) : (queueFrame k q s).feeder.composing = s.feeder.composing := by
  unfold queueFrame tellDrop offerFate goalDropped
  (repeat' split) <;> rfl

theorem calm_queueFrame {k : Slot} {q : Queued} {s : State} (hq : q.timeRanOut s.timer.c = false) : Calm s (queueFrame k q s) := by
  refine ⟨by simp, by simp, by simp, ?_, fun h => (queueFrame_composing k q s).trans h, (queueFrame_target k q s).trans⟩
  by_cases hclash : s.line.state = .clash
  · intro j hj
    rw [queueFrame_of_clash hclash, tellDrop_eq] at hj
    cases j <;> exact hj
  · exact deadlineDue_of_slot (k := k) (q := some q) (by simp) (fun j => by rw [queueFrame_slot]; simp [hclash]) (queueFrame_attempt k q s)
      (fun x hx => by rw [← Option.some.inj hx]; exact hq)

theorem calm_cancelSlot (k : Slot) (s : State) : Calm s (cancelSlot k s) := by
  unfold cancelSlot
  split
  · exact .refl s
  · exact ⟨rfl, rfl, rfl, deadlineDue_of_slot (q := none) rfl (fun j => (slot_setSlot _ _ _ _).trans (if_congr Iff.rfl rfl (slot_detach _ _ _)))
      (.inr (by dsimp only; rw [setSlot_shape])) (by simp), fun h => h, fun h => h⟩

/-- A withdrawal queues a frame without a deadline (R43). -/
theorem calm_withdraw (r : WithdrawReason) (s : State) : Calm s (withdraw r s) := by
  have habort : Calm s (abortComposition s) := by
    unfold abortComposition
    split
    · exact .refl s
    · exact .of_line rfl rfl rfl rfl (fun _ => rfl) rfl
  have hoffer (x : State) : Calm x (withdrawOffer x) := by
    unfold withdrawOffer
    split
    · exact .refl x
    · refine Calm.trans ?_ (calm_cancelSlot _ _)
      split
      · exact .refl x
      · exact .of_line (by simp) (by simp) (by simp) (by simp) (fun h => by unfold offerFate; split <;> exact h) (by simp)
  have hremove (x : State) : Calm x (removeOwnEntry x) := by
    unfold removeOwnEntry
    split
    · exact .of_line rfl rfl rfl rfl (fun h => h) rfl
    · exact .refl x
  unfold withdraw
  exact ((habort.trans (hoffer _)).trans (calm_queueFrame rfl)).trans (hremove _)

/-! ## Posts (R44 to R60, R123, R124, R158, R160, R170) -/

theorem Calm.same {s t : State} (htime : t.time = s.time) (htimer : t.timer = s.timer) (howed : t.port.owed = s.port.owed)
    (hline : t.line = s.line) (hview : t.view = s.view) (hfeeder : t.feeder = s.feeder) : Calm s t :=
  .of_line htime htimer howed hline (fun h => by rw [hview]; exact h) (by rw [hfeeder])

theorem calm_cut (n : Nat) (c : Cut) (s : State) : Calm s (cut n c s) := .same (by simp) (by simp) (by simp) (by simp) (by simp) (by simp)

theorem calm_forcedStop (s : State) : Calm s (forcedStop s) := by
  refine .same (by simp) (by simp) ?_ (by simp) (by simp) (by simp)
  unfold forcedStop
  split <;> rfl

theorem calm_enterSession (x : SessionState) (s : State) : Calm s (enterSession x s) := .same rfl rfl rfl rfl rfl rfl

theorem calm_resync (soc : Nat) (s : State) : Calm s (resync soc s) :=
  .same (by simp) (by simp) (by simp) (by simp) (by simp) (by simp)

theorem calm_enterStopped (s : State) : Calm s (enterStopped s) :=
  ((calm_cut 0 .stopped s).trans (calm_withdraw .stopped _)).trans (calm_enterSession .stopped _)

theorem calm_packClip (s : State) : Calm s (packClip s) := by
  unfold packClip
  split
  · exact .same (by simp) (by simp) (by simp) (by simp) (by simp) (by simp)
  · exact .refl s

/-- An owner's rule for a post brings nothing due. -/
theorem PostEffect.calm {kind : PostKind} {s t : State} (h : PostEffect kind s t) : Calm s t := by
  have htaken (r : SessionRecord) (p : PackData) : Calm s (reportTaken r p s) := .same rfl rfl rfl rfl rfl rfl
  have hcreated (r : SessionRecord) (p : PackData) : Calm s (accountCreated r p s) := .same rfl rfl rfl rfl rfl rfl
  have hrecord (r : SessionRecord) : Calm s (setRecord r s) := .same rfl rfl rfl rfl rfl rfl
  have hnoted (c : CloseReason) : Calm s (closeNoted c s) := .same rfl rfl rfl rfl rfl rfl
  have hopened (r : SessionRecord) : Calm s { s with
      session := ⟨s.session.state, some r, none⟩, account := { s.account with mark := true } } := .same rfl rfl rfl rfl rfl rfl
  cases h with
  | nothing => exact .refl s
  | firstStopped => exact ((hcreated _ _).trans (calm_forcedStop _)).trans (calm_enterSession _ _)
  | first => exact (hcreated _ _).trans (calm_enterSession _ _)
  | engagedStopped => exact (((htaken _ _).trans (calm_resync _ _)).trans (calm_enterStopped _)).trans (calm_forcedStop _)
  | engaged => exact ((htaken _ _).trans (calm_resync _ _)).trans (calm_packClip _)
  | stoppedStopped => exact ((htaken _ _).trans (calm_resync _ _)).trans (calm_forcedStop _)
  | stoppedFaulted => exact (htaken _ _).trans (calm_resync _ _)
  | stopped => exact ((htaken _ _).trans (calm_resync _ _)).trans (calm_enterSession _ _)
  | closingStopped => exact (htaken _ _).trans (calm_forcedStop _)
  | @close reason =>
    refine (((hnoted reason).trans (calm_cut 0 .close _)).trans (calm_withdraw (closeWithdraw reason) _)).trans
      ((calm_enterSession .closing _).trans ?_)
    cases reason with
    | unplugged => exact calm_forcedStop _
    | departNow | hostAbort => exact .refl _
  | unplugged => exact (hnoted .unplugged).trans (calm_forcedStop _)
  | pause => exact ((hrecord _).trans (calm_cut 0 .pause _)).trans (calm_withdraw .paused _)
  | request | limit => exact .of_line rfl rfl rfl rfl (fun h => h) rfl
  | closing => exact htaken _ _
  | @opened _ r => exact (hopened r.value).trans (calm_enterSession .awaiting _)
  | departure | resume => exact hrecord _
  | enables | clear => exact .same rfl rfl rfl rfl rfl rfl

/-- The end of an action brings nothing due. -/
theorem calm_settle (s u : State) : Calm u (settle s u) := by
  refine .same (by simp) (by simp) ?_ (by simp) (by simp) (by simp)
  have hvacate (x : State) : (vacate x).port = x.port := by
    unfold vacate
    split <;> rfl
  rw [settle, (noteFaults_frame _ _).2.2.2.2.2.2.2.2.2.2.1, hvacate]
  unfold requestEnable
  split <;> rfl

end Sys2Proof.Machine
end

