-- ==== Sys2Proof/Proofs/TakenFirst.lean ====
section
/-! SUPPORT. What a tick takes first leaves nothing of it to be taken again (R24, R36, R37, R80, R100, R136, R139, R170). -/

open Sys2Proof Sys2Proof.Machine

namespace Sys2Proof.Machine

/-- No event, point or composition is due; a post or a computation may be. -/
structure Rested (s : State) : Prop where
  events : NoEventDue s
  settled : Settled s
  points : NoPointDue s
  offer : s.view.composing = none
  target : s.feeder.composing = none

section
variable {s t : State} {o : Order}

theorem NoEventDue.of_same (h : NoEventDue s) (htime : t.time = s.time) (hport : t.port = s.port) : NoEventDue t :=
  ⟨htime ▸ h.tick, htime ▸ h.second, hport ▸ h.link⟩

theorem Calm.noEventDue (h : Calm s t) (hs : NoEventDue s) (hlink : t.port.link = []) : NoEventDue t :=
  ⟨h.time ▸ hs.tick, h.time ▸ hs.second, hlink, h.owed.trans hs.link.2⟩

theorem Calm.rested (h : Calm s t) (hs : Rested s) (hlink : t.port.link = []) (ht : Settled t) : Rested t :=
  ⟨h.noEventDue hs.events hlink, ht, h.points hs.points, h.offer hs.offer, h.target hs.target⟩

/-! ## The stages before a tick -/

theorem overdueLink_of_noEventDue (h : NoEventDue s) : overdueLink o (overdueSecond (overdueTimer o s)) = s := by
  obtain ⟨htick, hsecond, hlink, howed⟩ := h
  have hsame : s.port.link.length = s.port.owed := by rw [hlink, howed, List.length_nil]
  rw [overdueTimer_of_not htick, overdueSecond_of_not hsecond, overdueLink_of_none howed (.inl hlink), hsame]

theorem overdue_of_noEventDue (h : NoEventDue s) :
    overdue o s = act allocationTick (overduePosts o (endTarget (endOffer (act (takePoints o) s)))) := by
  unfold overdue
  rw [overdueLink_of_noEventDue h]

theorem overdue_of_noPointDue (h : NoEventDue s) (hs : Settled s) (hp : NoPointDue s) :
    overdue o s = act allocationTick (overduePosts o (endTarget (endOffer s))) := by
  rw [overdue_of_noEventDue h, act_takePoints hp hs]

theorem overdue_of_rested (h : Rested s) : overdue o s = act allocationTick (overduePosts o s) := by
  rw [overdue_of_noPointDue h.events h.settled h.points, endOffer_of_none h.offer, endTarget_of_idle h.target]

/-- An action that keeps what a settled state turns on keeps the port. -/
theorem act_port {f : State → State} (hs : Settled s) (hport : (f s).port = s.port) (happly : (f s).apply = s.apply)
    (hsession : (f s).session = s.session) : (act f s).port = s.port := by
  have hsettled : Settled (f s) := hs.congr (by rw [hport]) (by rw [hport]) (by rw [happly]) (by rw [hsession])
  rw [act, settle_eq_noteFaults hsettled, (noteFaults_frame _ _).2.2.2.2.2.2.2.2.2.2.1, hport]

/-! ## The last tick and the second event (R24, R37) -/

theorem takeDueTick_tickDue : (takeDueTick o s).time.tickDue = false := by simp [takeDueTick]

theorem overdue_takeDueTick (h : s.time.tickDue = true) : overdue o (takeDueTick o s) = overdue o s := by
  have hagain : overdueTimer o (takeDueTick o s) = overdueTimer o s :=
    (overdueTimer_of_not takeDueTick_tickDue).trans (if_pos h).symm
  unfold overdue
  rw [hagain]

theorem overdue_takeSecond (htick : s.time.tickDue = false) (h : s.time.secondDue = true) :
    overdue o (act takeSecond s) = overdue o s := by
  have htime : (act takeSecond s).time = { s.time with secondDue := false } := by simp [takeSecond]
  have hagain : overdueSecond (overdueTimer o (act takeSecond s)) = overdueSecond (overdueTimer o s) := by
    rw [overdueTimer_of_not (s := act takeSecond s) (by rw [htime]; exact htick), overdueTimer_of_not htick,
      overdueSecond_of_not (by rw [htime])]
    exact (if_pos h).symm
  unfold overdue
  rw [hagain]

/-! ## The transaction on the link (R139) -/

/-- The transaction on the link ends before the tick, as by its own command. -/
theorem overdue_of_linkEnd (htick : s.time.tickDue = false) (hsecond : s.time.secondDue = false) (hreplies : o.repliesLater = false)
    (htime : t.time = s.time) (hempty : t.port.link = [])
    (hends : ∀ n, timeOutLink (n + 1) s = timeOutLink n t) : overdue o t = overdue o s := by
  have hrest (n : Nat) : timeOutLink n t = t := timeOutLink_of_empty hempty n
  have hreplied : ¬o.repliesLater = true := by simp [hreplies]
  have hdone : overdueLink o t = t := by
    unfold overdueLink
    rw [hrest]
    exact (if_neg hreplied).trans (hrest _)
  have hended : overdueLink o s = t := by
    have htwo : timeOutLink (s.port.link.length + 2) s = t := (hends _).trans (hrest _)
    unfold overdueLink
    refine (if_neg hreplied).trans ?_
    cases hn : s.port.owed with
    | zero => exact htwo
    | succ n => rw [hends n, hrest, hrest]
  unfold overdue
  rw [overdueTimer_of_not htick, overdueSecond_of_not hsecond, overdueTimer_of_not (by rw [htime]; exact htick),
    overdueSecond_of_not (by rw [htime]; exact hsecond), hdone, hended]

theorem timeOutLink_exchanging (h : s.exchanging = true) (hlength : s.port.link.length = 1) (n : Nat) :
    timeOutLink (n + 1) s = timeOutLink n (act takeLinkError s) := by
  obtain ⟨x, hx⟩ := List.length_eq_one_iff.mp hlength
  rw [timeOutLink, hx]
  cases x with
  | meterRead => simp [State.exchanging, hx] at h
  | exchange w => rfl
  | stop => rfl

theorem timeOutLink_metering (h : s.metering = true) (n : Nat) : timeOutLink (n + 1) s = timeOutLink n (act takeDiscard s) := by
  unfold State.metering at h
  rw [timeOutLink]
  split at h
  · next hx => rw [hx]
  · cases h

/-! ## Points and compositions (R36, R80, R136) -/

theorem overdue_of_pointTaken (h : NoEventDue s) (htaken : act (takePoints o) s = t) (ht : NoEventDue t) (hts : Settled t)
    (hp : NoPointDue t) : overdue o t = overdue o s := by
  rw [overdue_of_noEventDue h, overdue_of_noEventDue ht, htaken, act_takePoints hp hts]

theorem deadlineDue_congr (hline : t.line = s.line) (hc : t.timer.c = s.timer.c) (k : Slot) : t.deadlineDue k = s.deadlineDue k := by
  unfold State.deadlineDue
  rw [hline, hc]

theorem takeFreezeIfDue_timer (s : State) : (takeFreezeIfDue s).timer = { s.timer with freezeDue := false } := by
  unfold takeFreezeIfDue
  split
  · unfold takeFreeze
    dsimp only
    cases s.straps.role with
    | charger => rfl
    | feeder => simp
  · next h =>
    have hfalse : s.timer.freezeDue = false := by simpa using h
    rw [← hfalse]

theorem overdue_takeFreeze (h : NoEventDue s) (hs : Settled s) (hdead : ∀ k, s.deadlineDue k = false)
    (htarget : s.timer.targetDue = false) : overdue o (act takeFreezeIfDue s) = overdue o s := by
  have htimer : (act takeFreezeIfDue s).timer = { s.timer with freezeDue := false } := by simp [takeFreezeIfDue_timer]
  have hpoints : takePoints o s = takeFreezeIfDue s := by
    unfold takePoints
    rw [takeDeadlines_of_none hdead]
    exact if_neg (by simp [takeFreezeIfDue_timer, htarget])
  refine overdue_of_pointTaken h (by rw [act, hpoints]; rfl)
    (h.of_same (by simp) (act_port hs (by simp) (by simp) (by simp))) (settled_settle _ _) ⟨by rw [htimer], by rw [htimer]; exact htarget, fun k => ?_⟩
  exact (deadlineDue_congr (by simp) (by rw [htimer]) k).trans (hdead k)

theorem overdue_takeTarget (h : NoEventDue s) (hs : Settled s) (hdead : ∀ k, s.deadlineDue k = false)
    (hfreeze : s.timer.freezeDue = false) : overdue o (takeTargetIfDue s) = overdue o s := by
  have hpoints : takePoints o s = takeTargetIfDue s := by
    unfold takePoints
    rw [takeDeadlines_of_none hdead]
    exact congrArg takeTargetIfDue (if_neg (by simp [hfreeze]))
  by_cases hdue : s.timer.targetDue = true
  · have htaken : takeTargetIfDue s = takeTargetPoint s := if_pos hdue
    have hsettle : settle s (takeTargetPoint s) = takeTargetPoint s := settle_of_congr hs rfl rfl rfl rfl rfl
    rw [htaken] at hpoints ⊢
    exact overdue_of_pointTaken h (by rw [act, hpoints, hsettle]) ⟨h.tick, h.second, h.link⟩ hs
      ⟨hfreeze, rfl, fun k => (deadlineDue_congr rfl rfl k).trans (hdead k)⟩
  · rw [takeTargetIfDue, if_neg hdue]

/-- A composition that ends before the freeze point queues a frame whose time has not run out (R79). -/
theorem calm_endOffer (h : s.timer.c < s.profile.freeze) : Calm s (endOffer s) := by
  unfold endOffer
  split
  · next comp hc =>
    have hended (r : OfferRecord) : Calm s { s with view := { s.view with composing := none, record := r } } :=
      .of_line rfl rfl rfl rfl (fun _ => rfl) rfl
    unfold endOfferWith
    split
    · next v hv =>
      refine (hended (offerRecordOf comp.interval v)).trans (calm_queueFrame ?_)
      simpa [Queued.timeRanOut] using h
    · exact hended _
  · exact .refl s

/-- So does a TARGET composition (R134). -/
theorem calm_endTarget (h : s.timer.c < s.profile.freeze) : Calm s (endTarget s) := by
  unfold endTarget
  split
  · next r hr =>
    have hended (g : List Goal) : Calm s { s with feeder := { s.feeder with composing := none, record := r, goals := g } } :=
      ⟨rfl, rfl, rfl, fun _ hk => hk, fun h => h, fun _ => rfl⟩
    refine (hended _).trans (calm_queueFrame ?_)
    simpa [Queued.timeRanOut] using h
  · exact .refl s

theorem endTarget_target (s : State) : (endTarget s).feeder.composing = none := by
  unfold endTarget
  split
  · next r hr => exact (queueFrame_target _ _ _).trans rfl
  · assumption

theorem endTarget_offer (s : State) : (endTarget s).view.composing = s.view.composing := by
  unfold endTarget
  split
  · exact queueFrame_composing _ _ _
  · rfl

/-- The OFFER composition ends before the tick, as by its own command. -/
theorem overdue_endOffer (h : NoEventDue s) (hs : Settled s) (hp : NoPointDue s) (hc : s.timer.c < s.profile.freeze) :
    overdue o (endOffer s) = overdue o s := by
  have hport : (endOffer s).port = s.port := by simp
  have hsettled : Settled (endOffer s) := hs.congr (by rw [hport]) (by rw [hport]) (by simp) (by simp)
  rw [overdue_of_noPointDue h hs hp, overdue_of_noPointDue (h.of_same (by simp) hport) hsettled ((calm_endOffer hc).points hp),
    endOffer_of_none (endOffer_composing s)]

theorem overdue_endTarget (h : NoEventDue s) (hs : Settled s) (hp : NoPointDue s) (hc : s.timer.c < s.profile.freeze)
    (hoffer : s.view.composing = none) : overdue o (endTarget s) = overdue o s := by
  have hport : (endTarget s).port = s.port := by simp
  have hsettled : Settled (endTarget s) := hs.congr (by rw [hport]) (by rw [hport]) (by simp) (by simp)
  rw [overdue_of_noPointDue h hs hp, overdue_of_noPointDue (h.of_same (by simp) hport) hsettled ((calm_endTarget hc).points hp),
    endOffer_of_none hoffer, endOffer_of_none ((endTarget_offer s).trans hoffer), endTarget_of_idle (endTarget_target s)]

/-! ## The post at the head (R170, R172) -/

/-- A post but RESTART brings nothing due. -/
theorem calm_applyHead {kind : PostKind} (hkind : kind ≠ .restart) (body : List Byte) (s : State) : Calm s (applyHead kind body s) := by
  have hpop : Calm s (popHead s) := .same rfl rfl rfl rfl rfl rfl
  have hrecord (r : Applied) : Calm r.1 (recordOutcome r) := .same rfl rfl rfl rfl rfl rfl
  have hall := ((hpop.trans (ownerRule_effect kind body (popHead s)).calm).trans (hrecord _)).trans (calm_settle s _)
  cases kind with
  | restart => exact absurd rfl hkind
  | _ => exact hall

/-- RESTART leaves nothing due on a station whose link it leaves free (R172). -/
theorem rested_restartState (h : Rested s) (hlink : (restartState s).port.link = []) : Rested (restartState s) := by
  refine ⟨⟨h.events.tick, h.events.second, hlink, rfl⟩, settled_of_idle rfl (by simp [restartState, State.afterReset, SessionUnit.reset]),
    ⟨rfl, rfl, fun k => ?_⟩, rfl, rfl⟩
  cases k <;> rfl

/-- The head is applied before the tick, as by its own command. -/
theorem overdue_applyReady (h : Rested s) (hlater : o.postsLater = false) (hfifo : (applyReady s).service.fifo = [])
    (hlink : (applyReady s).port.link = []) : overdue o (applyReady s) = overdue o s := by
  have hrested : Rested (applyReady s) := by
    unfold applyReady at hlink ⊢
    split at hlink
    · next kind body hhead =>
      by_cases hkind : kind = .restart
      · subst hkind
        exact rested_restartState h hlink
      · have hsettled : Settled (applyHead kind body s) := by
          cases kind with
          | restart => exact absurd rfl hkind
          | _ => exact settled_settle _ _
        exact (calm_applyHead hkind body s).rested h hlink hsettled
    · exact h
  have hflushed : flushPosts (applyReady s) = applyReady s := flushPosts_of_none (readyHead_of_empty hfifo)
  have hagain : flushPosts s = applyReady s := by
    rw [flushPosts]
    conv_lhs => rw [applyReady]
    rw [readyHead_of_empty hfifo]
  have hposts (x : State) : overduePosts o x = { flushPosts x with service := { (flushPosts x).service with held := false } } :=
    if_neg (by simp [hlater])
  rw [overdue_of_rested hrested, overdue_of_rested h, hposts, hposts, hflushed, hagain]

/-- A command of a post applies the head or leaves the state. -/
theorem applyIfHead_cases (kind : PostKind) (s : State) : applyIfHead kind s = s ∨ applyIfHead kind s = applyReady s := by
  unfold applyIfHead applyReady
  split
  · next k body hhead =>
    by_cases hk : k = kind
    · right
      rw [if_pos hk, hk]
    · left
      exact if_neg hk
  · exact .inl rfl

/-! ## The computation (R100) -/

/-- At its third tick a computation completes before the tick, as by its own command. -/
theorem overdue_complete {i : AllocInput} {ticks : Nat} (h : Rested s) (hfifo : s.service.fifo = []) (hheld : s.service.held = false)
    (he : s.alloc.engine = .computing i ticks) (hticks : 2 ≤ ticks) : overdue o (act complete s) = overdue o s := by
  have hnone (x : State) (hx : x.service = s.service) : overduePosts o x = x := by
    have hsame : (!x.service.fifo.isEmpty) = x.service.held := by rw [hx, hfifo, hheld]; rfl
    rw [overduePosts_of_none (by rw [hx, hheld]) (.inl (by rw [hx, hfifo])), hsame]
  have hcomplete : complete s = completeWith i s := by
    unfold complete
    rw [he]
  have hthird : act allocationTick s = act complete s := by
    have hlast : ¬ticks + 1 < Config.allocationTicks := by simp only [Config.allocationTicks]; omega
    have htick : allocationTick s = completeWith i s := by
      unfold allocationTick
      rw [he]
      exact if_neg hlast
    rw [act, act, htick, hcomplete]
  have hready : ∀ j k, (act complete s).alloc.engine ≠ .computing j k := by
    intro j k
    simp [hcomplete, completeWith]
  have hport : (act complete s).port = s.port := act_port h.settled (by simp) (by simp) (by simp)
  have hcalm : NoPointDue (act complete s) :=
    ⟨by simp [h.points.freeze], by simp [h.points.target], fun k => (deadlineDue_congr (by simp) (by simp) k).trans (h.points.deadlines k)⟩
  have hrested : Rested (act complete s) := ⟨h.events.of_same (by simp) hport, settled_settle _ _, hcalm,
    by simp [hcomplete, completeWith, h.offer], by simp [h.target]⟩
  rw [overdue_of_rested h, overdue_of_rested hrested, hnone s rfl, hnone _ (by simp), hthird,
    act_allocationTick hready hrested.settled]

end

end Sys2Proof.Machine
end

