-- ==== Sys2Proof/Proofs/TickObligation.lean ====
section
/-! RESULT. A tick that takes no boundary, and what ends before a tick. -/

open Sys2Proof Sys2Proof.Machine

namespace Sys2Proof.Machine

/-- Two machines that a tick leaves alike once it has taken what is due. -/
theorem exec_tick_congr {s t : State} {o : Order} (h : overdue o t = overdue o s) : exec (.tick o) s = exec (.tick o) t := by
  change Host.Outcome.next (tickNow o (overdue o s)) = .next (tickNow o (overdue o t))
  rw [h]

/-- A command guarded by its event ran, or left the state as it was. -/
theorem next_of_guarded {b : Bool} {s t u : State}
    (h : (if b then Host.Outcome.next u else Host.Outcome.next s : Host.Outcome State Fault Refusal) = .next t) :
    b = true ∧ t = u ∨ b = false ∧ t = s := by
  cases b with
  | true => exact .inl ⟨rfl, (Host.Outcome.next.inj h).symm⟩
  | false => exact .inr ⟨rfl, (Host.Outcome.next.inj h).symm⟩

section
variable {s t : State} {o : Order} {c : Instr} (h : exec c s = .next t)
include h

theorem overdue_of_boundaryCommand (hc : c ∈ [Instr.ownBoundary o, .listenExpiry o]) (hdue : s.time.tickDue = true)
    (htaken : t.time.tickDue = false) : overdue o t = overdue o s := by
  have hguarded (b : Bool) (hb : exec c s = if b then .next (boundaryTick o s) else .next s) : overdue o t = overdue o s := by
    rcases next_of_guarded (hb.symm.trans h) with ⟨-, ht⟩ | ⟨-, ht⟩
    · have hboundary : boundaryTick o s = takeDueTick o s := if_pos hdue
      rw [ht, hboundary, overdue_takeDueTick hdue]
    · rw [ht, hdue] at htaken
      cases htaken
  simp only [List.mem_cons, List.not_mem_nil, or_false] at hc
  rcases hc with rfl | rfl
  · exact hguarded s.ownBoundaryNext rfl
  · exact hguarded s.expiryNext rfl

theorem overdue_of_secondEvent (hc : c = .secondEvent) (htick : s.time.tickDue = false) : overdue o t = overdue o s := by
  subst hc
  rcases next_of_guarded h with ⟨hdue, ht⟩ | ⟨-, ht⟩
  · rw [ht, overdue_takeSecond htick hdue]
  · rw [ht]

theorem overdue_of_linkCommand (hc : c ∈ [Instr.exchangeLinkError, .meterDiscard]) (htick : s.time.tickDue = false)
    (hsecond : s.time.secondDue = false) (hreplies : o.repliesLater = false) (hlength : s.port.link.length = 1)
    (hempty : t.port.link = []) : overdue o t = overdue o s := by
  have hran {b : Bool} {u : State} (hb : exec c s = if b then .next u else .next s) : b = true ∧ t = u := by
    rcases next_of_guarded (hb.symm.trans h) with hrun | ⟨-, ht⟩
    · exact hrun
    · rw [ht] at hempty
      simp [hempty] at hlength
  simp only [List.mem_cons, List.not_mem_nil, or_false] at hc
  rcases hc with rfl | rfl
  · obtain ⟨hex, ht⟩ := hran (b := s.exchanging) (u := act takeLinkError s) rfl
    rw [ht] at hempty ⊢
    exact overdue_of_linkEnd htick hsecond hreplies (by simp) hempty (timeOutLink_exchanging hex hlength)
  · obtain ⟨hmeter, ht⟩ := hran (b := s.metering) (u := act takeDiscard s) rfl
    rw [ht] at hempty ⊢
    exact overdue_of_linkEnd htick hsecond hreplies (by simp) hempty (timeOutLink_metering hmeter)

theorem overdue_of_postCommand {kind : PostKind} (hc : c = kind.instr) (hs : Rested s) (hlater : o.postsLater = false)
    (hfifo : t.service.fifo = []) (hlink : t.port.link = []) : overdue o t = overdue o s := by
  subst hc
  have ht : applyIfHead kind s = t := Host.Outcome.next.inj ((exec_instr kind s).symm.trans h)
  rcases applyIfHead_cases kind s with hsame | happlied
  · rw [← ht, hsame]
  · rw [← ht, happlied] at hfifo hlink ⊢
    exact overdue_applyReady hs hlater hfifo hlink

end

/-- The commands of the posts. -/
theorem instr_of_mem {c : Instr} (h : c ∈ [Instr.sessionOpen, .packReport, .departure, .sessionClose, .pause, .resume, .request,
    .siteLimit, .noticeEnable, .statusClear, .restart]) : ∃ kind : PostKind, c = kind.instr := by
  simp only [List.mem_cons, List.not_mem_nil, or_false] at h
  rcases h with rfl | rfl | rfl | rfl | rfl | rfl | rfl | rfl | rfl | rfl | rfl
  · exact ⟨.sessionOpen, rfl⟩
  · exact ⟨.packReport, rfl⟩
  · exact ⟨.departure, rfl⟩
  · exact ⟨.sessionClose, rfl⟩
  · exact ⟨.pause, rfl⟩
  · exact ⟨.resume, rfl⟩
  · exact ⟨.request, rfl⟩
  · exact ⟨.siteLimit, rfl⟩
  · exact ⟨.noticeEnable, rfl⟩
  · exact ⟨.statusClear, rfl⟩
  · exact ⟨.restart, rfl⟩

end Sys2Proof.Machine

/-- Settles O30: a tick with nothing overdue is its two blocks' ticks; each event that is due is taken first by the same step that its
own command takes, and leaves nothing due that was not; and no part of a tick but the count reads a computing engine. -/
theorem tickAdvancesTheCounts : Obligations.TickAdvancesTheCounts := by
  unfold Obligations.TickAdvancesTheCounts
  refine ⟨?_, ?_, ?_⟩
  · intro s o htick hsecond howed hlink hpoints hoffer htarget hheld hposts hengine hs hfirst hrunning hlisten hstate htimeout
    rw [exec_tick_mayWait ⟨htick, hsecond, howed, hlink, hpoints, hoffer, htarget, hheld, hposts, hengine, hs⟩ ⟨hrunning, hlisten⟩ htimeout
      hfirst, portTick_waiting hstate htimeout, timerNext_eq hpoints] <;> rfl
  · intro s t o c h hdue
    refine exec_tick_congr ?_
    rcases hdue with ⟨hdue, hc, htaken⟩ | ⟨htick, hc⟩ | ⟨htick, hsecond, hreplies, -, hlength, hempty, hc⟩ | ⟨hevents, hs, hdead, hc⟩ |
      ⟨hevents, hs, hpoints, hfreeze, hc⟩ | ⟨hevents, hs, hpoints, hoffer, htarget, -, hlater, hfifo, hlink, hc⟩ |
      ⟨hevents, hs, hpoints, hoffer, htarget, hfifo, hheld, hc, i, ticks, hengine, hticks⟩
    · exact overdue_of_boundaryCommand h hc hdue htaken
    · exact overdue_of_secondEvent h hc htick
    · exact overdue_of_linkCommand h hc htick hsecond hreplies hlength hempty
    · rcases hc with ⟨rfl, htarget⟩ | ⟨rfl, hfreeze⟩
      · rw [← Host.Outcome.next.inj h]
        exact overdue_takeFreeze hevents hs hdead htarget
      · rw [← Host.Outcome.next.inj h]
        exact overdue_takeTarget hevents hs hdead hfreeze
    · rcases hc with rfl | ⟨rfl, hoffer⟩
      · rw [← Host.Outcome.next.inj h]
        exact overdue_endOffer hevents hs hpoints hfreeze
      · rw [← Host.Outcome.next.inj h]
        exact overdue_endTarget hevents hs hpoints hfreeze hoffer
    · obtain ⟨kind, hkind⟩ := instr_of_mem hc
      exact overdue_of_postCommand h hkind ⟨hevents, hs, hpoints, hoffer, htarget⟩ hlater hfifo hlink
    · subst hc
      rw [← Host.Outcome.next.inj h]
      exact overdue_complete ⟨hevents, hs, hpoints, hoffer, htarget⟩ hfifo hheld hengine hticks
  · intro s o i ticks hquiet hs hticks hrunning hlisten
    exact exec_tick_computing hquiet hs hticks ⟨hrunning, hlisten⟩
end
